-- ==== Sys2Proof/Word.lean ====
section
/-! DEFINITION. The word types of unSP ISA 1.2 (`00_scope.md` rules R3, R5). -/

namespace Sys2Proof

/-- A 16-bit word: "Data width: 16 bits", the only unit an access moves (rules R3, R56). -/
abbrev Word := BitVec 16

/-- Half a word.  The machine has no byte access (rule R53); the memory list is kept in bytes only
because the host's cell is a byte. -/
abbrev Byte := BitVec 8

/-- A 22-bit word address: "Address width: 22 bits" (rules R3, R50). -/
abbrev Addr := BitVec 22

/-- A 22-bit address from its segment (bits 21:16) and its offset (bits 15:0), rule R51. -/
def mkAddr (seg : BitVec 6) (off : Word) : Addr := seg ++ off

/-- The address `{000000, off}`: bank 0 (rule R52). -/
def bank0 (off : Word) : Addr := mkAddr 0#6 off

end Sys2Proof
end

