-- ==== Sys2Proof/Syntax.lean ====
section
/-! DEFINITION. The syntax of unSP ISA 1.2: register names, operation names, operand forms, and one
constructor of `Instr` for each of the 225 rows of `spec/opcode_table.json`. -/

namespace Sys2Proof

/-- The eight register numbers of an instruction's Rd and Rs fields (`10_state.md` rule R21).  Numbers 1
to 4 name SR1 to SR4 while FR.BNK = 1. -/
inductive Reg where
  | sp | r1 | r2 | r3 | r4 | bp | sr | pc
  deriving DecidableEq, Repr

/-- The register number of rule R21. -/
def Reg.num : Reg → Nat
  | .sp => 0 | .r1 => 1 | .r2 => 2 | .r3 => 3 | .r4 => 4 | .bp => 5 | .sr => 6 | .pc => 7

/-- The twelve ALU operations (`30_encoding.md` rule R103). -/
inductive AluOp where
  | add | adc | sub | sbc | cmp | neg | xor | load | or | and | test | store
  deriving DecidableEq, Repr

/-- The shift of a shifted register operand, SFT_OP 001 to 101 (`30_encoding.md` rule R83). -/
inductive ShiftKind where
  | asr | lsl | lsr | rol | ror
  deriving DecidableEq, Repr

/-- The 16-bit multi-cycle shifts, LSFT_OP 000 to 111 (`42_bit_shift.md` rules R172 to R179). -/
inductive LongShift where
  | asr | asror | lsl | lslor | lsr | lsror | rol | ror
  deriving DecidableEq, Repr

/-- The bit operations, BIT_OP 00 to 11 (`42_bit_shift.md` rules R161 to R164). -/
inductive BitOp where
  | tstb | setb | clrb | invb
  deriving DecidableEq, Repr

/-- The @ field of the indirect form: `Rs`, `Rs--`, `Rs++`, `++Rs` (`30_encoding.md` rule R86). -/
inductive PtrMark where
  | keep | postDec | postInc | preInc
  deriving DecidableEq, Repr

/-- The branch conditions, BRANCH_OP 0000 to 1110 (`44_control_flow.md` rule R211). -/
inductive Cond where
  | cc | cs | sc | ss | ne | z | pl | mi | be | a | le | g | vc | vs | always
  deriving DecidableEq, Repr

/-- Which operands of a multiplication are signed: `uu`, `us` (Rd unsigned, Rs signed), `ss`
(`30_encoding.md` rule R93, row {Ss, Sd}). -/
inductive MulKind where
  | uu | us | ss
  deriving DecidableEq, Repr

/-- The sixteen mode words, f = 000000 to 001111 of the control subgroup (`30_encoding.md` rule R92). -/
inductive ModeOp where
  | intOff | intIrq | intFiq | intFiqIrq | firMovOn | firMovOff | fractionOff | fractionOn
  | irqOff | irqOn | secbankOff | secbankOn | fiqOff | irqnestOff | fiqOn | irqnestOn
  deriving DecidableEq, Repr

/-- Why a word or a combination of operands spells no instruction (`30_encoding.md` rule R97) or is one a
model must refuse. -/
inductive Reserved where
  /-- op0 = 0101 or 0111 outside the branch pattern (rule R97 item 1). -/
  | noOperation
  /-- An ALU operation in a form that does not list it (rules R97 item 2, R104). -/
  | operationNotInForm
  /-- op1 = 010 with an op0 other than PUSH's and POP's (rule R97 item 3). -/
  | stackGroup
  /-- PUSH or POP with N = 0 (rule R97 item 4). -/
  | emptyList
  /-- A PUSH or POP list that leaves registers 0 to 7 (rule R97 item 4). -/
  | listRange
  /-- PUSH or POP whose pointer register is in its own list (`45_segment_flag_stack.md` rules R246, R249). -/
  | pointerInList
  /-- A word of the 1110 group with no line in rule R90 (rule R97 item 5). -/
  | group1110
  /-- A word of the 1111 group with no line in rules R91, R92 (rule R97 item 6). -/
  | group1111
  /-- Register 7 where only R0 to R6 are allowed (rules R96, R97 items 5 and 7). -/
  | pcOperand
  /-- MULS with R3 or R4 as a pointer (`43_mul_div_exp.md` rule R202). -/
  | mulsPointer
  /-- The indirect form with colliding registers (`41_alu.md` rule R150). -/
  | indirectCollision
  /-- ASROR or LSROR with rd other than R4, LSLOR with rd other than R3 (`42_bit_shift.md` rules R173,
  R175, R177). -/
  | orShiftHalf
  deriving DecidableEq, Repr

/-- The operand forms, each with its operation: the formats of `30_encoding.md` rules R81 to R92. -/
inductive Shape where
  | branch (c : Cond) (back : Bool) (imm : BitVec 6)
  | retf
  | reti
  | bpIm6 (op : AluOp) (rd : Reg) (imm : BitVec 6)
  | im6 (op : AluOp) (rd : Reg) (imm : BitVec 6)
  | ind (op : AluOp) (rd : Reg) (d : Bool) (mark : PtrMark) (rs : Reg)
  | reg (op : AluOp) (rd rs : Reg)
  | im16 (op : AluOp) (rd rs : Reg) (imm : Word)
  | a16 (op : AluOp) (rd rs : Reg) (addr : Word)
  | a16w (op : AluOp) (rd rs : Reg) (addr : Word)
  | shifted (op : AluOp) (k : ShiftKind) (rd : Reg) (n : BitVec 2) (rs : Reg)
  | a6 (op : AluOp) (rd : Reg) (addr : BitVec 6)
  | push (rd : Reg) (n : BitVec 3) (rs : Reg)
  | pop (rd : Reg) (n : BitVec 3) (rs : Reg)
  | bitRr (b : BitOp) (rd rs : Reg)
  | bitRo (b : BitOp) (rd : Reg) (k : BitVec 4)
  | bitMr (b : BitOp) (d : Bool) (rd rs : Reg)
  | bitMo (b : BitOp) (d : Bool) (rd : Reg) (k : BitVec 4)
  | shift16 (k : LongShift) (rd rs : Reg)
  | mul (k : MulKind) (rd rs : Reg)
  | muls (k : MulKind) (rd : Reg) (n : BitVec 4) (rs : Reg)
  | dsIm6 (imm : BitVec 6)
  | movRsDs (rs : Reg)
  | movDsRs (rs : Reg)
  | movRsFr (rs : Reg)
  | movFrRs (rs : Reg)
  | call (addr : Addr)
  | goto (addr : Addr)
  | gotoMr
  | mode (m : ModeOp)
  | brk
  | callMr
  | divs
  | divq
  | exp
  | nop
  deriving DecidableEq, Repr

/-- The instructions: one constructor for each row of `spec/opcode_table.json`, in the table's order.
A comment gives the row's mnemonic and syntax.  A bit the decoder ignores (`30_encoding.md` rule R94) is
no operand. -/
inductive Instr where
  | jcc (back : Bool) (imm : BitVec 6)  -- JCC: JCC label (aliases JB, JNAE)
  | jcs (back : Bool) (imm : BitVec 6)  -- JCS: JCS label (aliases JNB, JAE)
  | jsc (back : Bool) (imm : BitVec 6)  -- JSC: JSC label (aliases JGE, JNL)
  | jss (back : Bool) (imm : BitVec 6)  -- JSS: JSS label (aliases JNGE, JL)
  | jne (back : Bool) (imm : BitVec 6)  -- JNE: JNE label (aliases JNZ)
  | jz (back : Bool) (imm : BitVec 6)  -- JZ: JZ label (aliases JE)
  | jpl (back : Bool) (imm : BitVec 6)  -- JPL: JPL label
  | jmi (back : Bool) (imm : BitVec 6)  -- JMI: JMI label
  | jbe (back : Bool) (imm : BitVec 6)  -- JBE: JBE label (aliases JNA)
  | ja (back : Bool) (imm : BitVec 6)  -- JA: JA label (aliases JNBE)
  | jle (back : Bool) (imm : BitVec 6)  -- JLE: JLE label (aliases JNG)
  | jg (back : Bool) (imm : BitVec 6)  -- JG: JG label (aliases JNLE)
  | jvc (back : Bool) (imm : BitVec 6)  -- JVC: JVC label
  | jvs (back : Bool) (imm : BitVec 6)  -- JVS: JVS label
  | jmp (back : Bool) (imm : BitVec 6)  -- JMP: JMP label
  | retf  -- RETF: RETF
  | reti  -- RETI: RETI
  | addBpIm6 (rd : Reg) (imm : BitVec 6)  -- ADD.BP_IM6: Rd += [BP+IM6]
  | addIm6 (rd : Reg) (imm : BitVec 6)  -- ADD.IM6: Rd += IM6
  | addInd (rd : Reg) (d : Bool) (mark : PtrMark) (rs : Reg)  -- ADD.IND: Rd += {D:}[Rs@]
  | addReg (rd : Reg) (rs : Reg)  -- ADD.REG: Rd += Rs
  | addIm16 (rd : Reg) (rs : Reg) (imm : Word)  -- ADD.IM16: Rd = Rs + IM16
  | addA16 (rd : Reg) (rs : Reg) (addr : Word)  -- ADD.A16: Rd = Rs + [A16]
  | addA16w (rd : Reg) (rs : Reg) (addr : Word)  -- ADD.A16W: [A16] = Rd + Rs
  | addAsr (rd : Reg) (n : BitVec 2) (rs : Reg)  -- ADD.ASR: Rd += Rs ASR n
  | addLsl (rd : Reg) (n : BitVec 2) (rs : Reg)  -- ADD.LSL: Rd += Rs LSL n
  | addLsr (rd : Reg) (n : BitVec 2) (rs : Reg)  -- ADD.LSR: Rd += Rs LSR n
  | addRol (rd : Reg) (n : BitVec 2) (rs : Reg)  -- ADD.ROL: Rd += Rs ROL n
  | addRor (rd : Reg) (n : BitVec 2) (rs : Reg)  -- ADD.ROR: Rd += Rs ROR n
  | addA6 (rd : Reg) (addr : BitVec 6)  -- ADD.A6: Rd += [A6]
  | adcBpIm6 (rd : Reg) (imm : BitVec 6)  -- ADC.BP_IM6: Rd += [BP+IM6], Carry
  | adcIm6 (rd : Reg) (imm : BitVec 6)  -- ADC.IM6: Rd += IM6, Carry
  | adcInd (rd : Reg) (d : Bool) (mark : PtrMark) (rs : Reg)  -- ADC.IND: Rd += {D:}[Rs@], Carry
  | adcReg (rd : Reg) (rs : Reg)  -- ADC.REG: Rd += Rs, Carry
  | adcIm16 (rd : Reg) (rs : Reg) (imm : Word)  -- ADC.IM16: Rd = Rs + IM16, Carry
  | adcA16 (rd : Reg) (rs : Reg) (addr : Word)  -- ADC.A16: Rd = Rs + [A16], Carry
  | adcA16w (rd : Reg) (rs : Reg) (addr : Word)  -- ADC.A16W: [A16] = Rd + Rs, Carry
  | adcAsr (rd : Reg) (n : BitVec 2) (rs : Reg)  -- ADC.ASR: Rd += Rs ASR n, Carry
  | adcLsl (rd : Reg) (n : BitVec 2) (rs : Reg)  -- ADC.LSL: Rd += Rs LSL n, Carry
  | adcLsr (rd : Reg) (n : BitVec 2) (rs : Reg)  -- ADC.LSR: Rd += Rs LSR n, Carry
  | adcRol (rd : Reg) (n : BitVec 2) (rs : Reg)  -- ADC.ROL: Rd += Rs ROL n, Carry
  | adcRor (rd : Reg) (n : BitVec 2) (rs : Reg)  -- ADC.ROR: Rd += Rs ROR n, Carry
  | adcA6 (rd : Reg) (addr : BitVec 6)  -- ADC.A6: Rd += [A6], Carry
  | subBpIm6 (rd : Reg) (imm : BitVec 6)  -- SUB.BP_IM6: Rd -= [BP+IM6]
  | subIm6 (rd : Reg) (imm : BitVec 6)  -- SUB.IM6: Rd -= IM6
  | subInd (rd : Reg) (d : Bool) (mark : PtrMark) (rs : Reg)  -- SUB.IND: Rd -= {D:}[Rs@]
  | subReg (rd : Reg) (rs : Reg)  -- SUB.REG: Rd -= Rs
  | subIm16 (rd : Reg) (rs : Reg) (imm : Word)  -- SUB.IM16: Rd = Rs - IM16
  | subA16 (rd : Reg) (rs : Reg) (addr : Word)  -- SUB.A16: Rd = Rs - [A16]
  | subA16w (rd : Reg) (rs : Reg) (addr : Word)  -- SUB.A16W: [A16] = Rd - Rs
  | subAsr (rd : Reg) (n : BitVec 2) (rs : Reg)  -- SUB.ASR: Rd -= Rs ASR n
  | subLsl (rd : Reg) (n : BitVec 2) (rs : Reg)  -- SUB.LSL: Rd -= Rs LSL n
  | subLsr (rd : Reg) (n : BitVec 2) (rs : Reg)  -- SUB.LSR: Rd -= Rs LSR n
  | subRol (rd : Reg) (n : BitVec 2) (rs : Reg)  -- SUB.ROL: Rd -= Rs ROL n
  | subRor (rd : Reg) (n : BitVec 2) (rs : Reg)  -- SUB.ROR: Rd -= Rs ROR n
  | subA6 (rd : Reg) (addr : BitVec 6)  -- SUB.A6: Rd -= [A6]
  | sbcBpIm6 (rd : Reg) (imm : BitVec 6)  -- SBC.BP_IM6: Rd -= [BP+IM6], Carry
  | sbcIm6 (rd : Reg) (imm : BitVec 6)  -- SBC.IM6: Rd -= IM6, Carry
  | sbcInd (rd : Reg) (d : Bool) (mark : PtrMark) (rs : Reg)  -- SBC.IND: Rd -= {D:}[Rs@], Carry
  | sbcReg (rd : Reg) (rs : Reg)  -- SBC.REG: Rd -= Rs, Carry
  | sbcIm16 (rd : Reg) (rs : Reg) (imm : Word)  -- SBC.IM16: Rd = Rs - IM16, Carry
  | sbcA16 (rd : Reg) (rs : Reg) (addr : Word)  -- SBC.A16: Rd = Rs - [A16], Carry
  | sbcA16w (rd : Reg) (rs : Reg) (addr : Word)  -- SBC.A16W: [A16] = Rd - Rs, Carry
  | sbcAsr (rd : Reg) (n : BitVec 2) (rs : Reg)  -- SBC.ASR: Rd -= Rs ASR n, Carry
  | sbcLsl (rd : Reg) (n : BitVec 2) (rs : Reg)  -- SBC.LSL: Rd -= Rs LSL n, Carry
  | sbcLsr (rd : Reg) (n : BitVec 2) (rs : Reg)  -- SBC.LSR: Rd -= Rs LSR n, Carry
  | sbcRol (rd : Reg) (n : BitVec 2) (rs : Reg)  -- SBC.ROL: Rd -= Rs ROL n, Carry
  | sbcRor (rd : Reg) (n : BitVec 2) (rs : Reg)  -- SBC.ROR: Rd -= Rs ROR n, Carry
  | sbcA6 (rd : Reg) (addr : BitVec 6)  -- SBC.A6: Rd -= [A6], Carry
  | cmpBpIm6 (rd : Reg) (imm : BitVec 6)  -- CMP.BP_IM6: CMP Rd, [BP+IM6]
  | cmpIm6 (rd : Reg) (imm : BitVec 6)  -- CMP.IM6: CMP Rd, IM6
  | cmpInd (rd : Reg) (d : Bool) (mark : PtrMark) (rs : Reg)  -- CMP.IND: CMP Rd, {D:}[Rs@]
  | cmpReg (rd : Reg) (rs : Reg)  -- CMP.REG: CMP Rd, Rs
  | cmpIm16 (rs : Reg) (imm : Word)  -- CMP.IM16: CMP Rs, IM16
  | cmpA16 (rs : Reg) (addr : Word)  -- CMP.A16: CMP Rs, [A16]
  | cmpA16w (rd : Reg) (rs : Reg) (addr : Word)  -- CMP.A16W: CMP Rd, Rs
  | cmpAsr (rd : Reg) (n : BitVec 2) (rs : Reg)  -- CMP.ASR: CMP Rd, Rs ASR n
  | cmpLsl (rd : Reg) (n : BitVec 2) (rs : Reg)  -- CMP.LSL: CMP Rd, Rs LSL n
  | cmpLsr (rd : Reg) (n : BitVec 2) (rs : Reg)  -- CMP.LSR: CMP Rd, Rs LSR n
  | cmpRol (rd : Reg) (n : BitVec 2) (rs : Reg)  -- CMP.ROL: CMP Rd, Rs ROL n
  | cmpRor (rd : Reg) (n : BitVec 2) (rs : Reg)  -- CMP.ROR: CMP Rd, Rs ROR n
  | cmpA6 (rd : Reg) (addr : BitVec 6)  -- CMP.A6: CMP Rd, [A6]
  | negBpIm6 (rd : Reg) (imm : BitVec 6)  -- NEG.BP_IM6: Rd = -[BP+IM6]
  | negIm6 (rd : Reg) (imm : BitVec 6)  -- NEG.IM6: Rd = -IM6
  | negInd (rd : Reg) (d : Bool) (mark : PtrMark) (rs : Reg)  -- NEG.IND: Rd = -{D:}[Rs@]
  | negReg (rd : Reg) (rs : Reg)  -- NEG.REG: Rd = -Rs
  | negIm16 (rd : Reg) (imm : Word)  -- NEG.IM16: Rd = -IM16
  | negA16 (rd : Reg) (addr : Word)  -- NEG.A16: Rd = -[A16]
  | negA16w (rd : Reg) (addr : Word)  -- NEG.A16W: [A16] = -Rd
  | negAsr (rd : Reg) (n : BitVec 2) (rs : Reg)  -- NEG.ASR: Rd = -Rs ASR n
  | negLsl (rd : Reg) (n : BitVec 2) (rs : Reg)  -- NEG.LSL: Rd = -Rs LSL n
  | negLsr (rd : Reg) (n : BitVec 2) (rs : Reg)  -- NEG.LSR: Rd = -Rs LSR n
  | negRol (rd : Reg) (n : BitVec 2) (rs : Reg)  -- NEG.ROL: Rd = -Rs ROL n
  | negRor (rd : Reg) (n : BitVec 2) (rs : Reg)  -- NEG.ROR: Rd = -Rs ROR n
  | negA6 (rd : Reg) (addr : BitVec 6)  -- NEG.A6: Rd = -[A6]
  | xorBpIm6 (rd : Reg) (imm : BitVec 6)  -- XOR.BP_IM6: Rd ^= [BP+IM6]
  | xorIm6 (rd : Reg) (imm : BitVec 6)  -- XOR.IM6: Rd ^= IM6
  | xorInd (rd : Reg) (d : Bool) (mark : PtrMark) (rs : Reg)  -- XOR.IND: Rd ^= {D:}[Rs@]
  | xorReg (rd : Reg) (rs : Reg)  -- XOR.REG: Rd ^= Rs
  | xorIm16 (rd : Reg) (rs : Reg) (imm : Word)  -- XOR.IM16: Rd = Rs ^ IM16
  | xorA16 (rd : Reg) (rs : Reg) (addr : Word)  -- XOR.A16: Rd = Rs ^ [A16]
  | xorA16w (rd : Reg) (rs : Reg) (addr : Word)  -- XOR.A16W: [A16] = Rd ^ Rs
  | xorAsr (rd : Reg) (n : BitVec 2) (rs : Reg)  -- XOR.ASR: Rd ^= Rs ASR n
  | xorLsl (rd : Reg) (n : BitVec 2) (rs : Reg)  -- XOR.LSL: Rd ^= Rs LSL n
  | xorLsr (rd : Reg) (n : BitVec 2) (rs : Reg)  -- XOR.LSR: Rd ^= Rs LSR n
  | xorRol (rd : Reg) (n : BitVec 2) (rs : Reg)  -- XOR.ROL: Rd ^= Rs ROL n
  | xorRor (rd : Reg) (n : BitVec 2) (rs : Reg)  -- XOR.ROR: Rd ^= Rs ROR n
  | xorA6 (rd : Reg) (addr : BitVec 6)  -- XOR.A6: Rd ^= [A6]
  | loadBpIm6 (rd : Reg) (imm : BitVec 6)  -- LOAD.BP_IM6: Rd = [BP+IM6]
  | loadIm6 (rd : Reg) (imm : BitVec 6)  -- LOAD.IM6: Rd = IM6
  | loadInd (rd : Reg) (d : Bool) (mark : PtrMark) (rs : Reg)  -- LOAD.IND: Rd = {D:}[Rs@]
  | loadReg (rd : Reg) (rs : Reg)  -- LOAD.REG: Rd = Rs
  | loadIm16 (rd : Reg) (imm : Word)  -- LOAD.IM16: Rd = IM16
  | loadA16 (rd : Reg) (addr : Word)  -- LOAD.A16: Rd = [A16]
  | loadAsr (rd : Reg) (n : BitVec 2) (rs : Reg)  -- LOAD.ASR: Rd = Rs ASR n
  | loadLsl (rd : Reg) (n : BitVec 2) (rs : Reg)  -- LOAD.LSL: Rd = Rs LSL n
  | loadLsr (rd : Reg) (n : BitVec 2) (rs : Reg)  -- LOAD.LSR: Rd = Rs LSR n
  | loadRol (rd : Reg) (n : BitVec 2) (rs : Reg)  -- LOAD.ROL: Rd = Rs ROL n
  | loadRor (rd : Reg) (n : BitVec 2) (rs : Reg)  -- LOAD.ROR: Rd = Rs ROR n
  | loadA6 (rd : Reg) (addr : BitVec 6)  -- LOAD.A6: Rd = [A6]
  | orBpIm6 (rd : Reg) (imm : BitVec 6)  -- OR.BP_IM6: Rd |= [BP+IM6]
  | orIm6 (rd : Reg) (imm : BitVec 6)  -- OR.IM6: Rd |= IM6
  | orInd (rd : Reg) (d : Bool) (mark : PtrMark) (rs : Reg)  -- OR.IND: Rd |= {D:}[Rs@]
  | orReg (rd : Reg) (rs : Reg)  -- OR.REG: Rd |= Rs
  | orIm16 (rd : Reg) (rs : Reg) (imm : Word)  -- OR.IM16: Rd = Rs | IM16
  | orA16 (rd : Reg) (rs : Reg) (addr : Word)  -- OR.A16: Rd = Rs | [A16]
  | orA16w (rd : Reg) (rs : Reg) (addr : Word)  -- OR.A16W: [A16] = Rd | Rs
  | orAsr (rd : Reg) (n : BitVec 2) (rs : Reg)  -- OR.ASR: Rd |= Rs ASR n
  | orLsl (rd : Reg) (n : BitVec 2) (rs : Reg)  -- OR.LSL: Rd |= Rs LSL n
  | orLsr (rd : Reg) (n : BitVec 2) (rs : Reg)  -- OR.LSR: Rd |= Rs LSR n
  | orRol (rd : Reg) (n : BitVec 2) (rs : Reg)  -- OR.ROL: Rd |= Rs ROL n
  | orRor (rd : Reg) (n : BitVec 2) (rs : Reg)  -- OR.ROR: Rd |= Rs ROR n
  | orA6 (rd : Reg) (addr : BitVec 6)  -- OR.A6: Rd |= [A6]
  | andBpIm6 (rd : Reg) (imm : BitVec 6)  -- AND.BP_IM6: Rd &= [BP+IM6]
  | andIm6 (rd : Reg) (imm : BitVec 6)  -- AND.IM6: Rd &= IM6
  | andInd (rd : Reg) (d : Bool) (mark : PtrMark) (rs : Reg)  -- AND.IND: Rd &= {D:}[Rs@]
  | andReg (rd : Reg) (rs : Reg)  -- AND.REG: Rd &= Rs
  | andIm16 (rd : Reg) (rs : Reg) (imm : Word)  -- AND.IM16: Rd = Rs & IM16
  | andA16 (rd : Reg) (rs : Reg) (addr : Word)  -- AND.A16: Rd = Rs & [A16]
  | andA16w (rd : Reg) (rs : Reg) (addr : Word)  -- AND.A16W: [A16] = Rd & Rs
  | andAsr (rd : Reg) (n : BitVec 2) (rs : Reg)  -- AND.ASR: Rd &= Rs ASR n
  | andLsl (rd : Reg) (n : BitVec 2) (rs : Reg)  -- AND.LSL: Rd &= Rs LSL n
  | andLsr (rd : Reg) (n : BitVec 2) (rs : Reg)  -- AND.LSR: Rd &= Rs LSR n
  | andRol (rd : Reg) (n : BitVec 2) (rs : Reg)  -- AND.ROL: Rd &= Rs ROL n
  | andRor (rd : Reg) (n : BitVec 2) (rs : Reg)  -- AND.ROR: Rd &= Rs ROR n
  | andA6 (rd : Reg) (addr : BitVec 6)  -- AND.A6: Rd &= [A6]
  | testBpIm6 (rd : Reg) (imm : BitVec 6)  -- TEST.BP_IM6: TEST Rd, [BP+IM6]
  | testIm6 (rd : Reg) (imm : BitVec 6)  -- TEST.IM6: TEST Rd, IM6
  | testInd (rd : Reg) (d : Bool) (mark : PtrMark) (rs : Reg)  -- TEST.IND: TEST Rd, {D:}[Rs@]
  | testReg (rd : Reg) (rs : Reg)  -- TEST.REG: TEST Rd, Rs
  | testIm16 (rs : Reg) (imm : Word)  -- TEST.IM16: TEST Rs, IM16
  | testA16 (rs : Reg) (addr : Word)  -- TEST.A16: TEST Rs, [A16]
  | testA16w (rd : Reg) (rs : Reg) (addr : Word)  -- TEST.A16W: TEST Rd, Rs
  | testAsr (rd : Reg) (n : BitVec 2) (rs : Reg)  -- TEST.ASR: TEST Rd, Rs ASR n
  | testLsl (rd : Reg) (n : BitVec 2) (rs : Reg)  -- TEST.LSL: TEST Rd, Rs LSL n
  | testLsr (rd : Reg) (n : BitVec 2) (rs : Reg)  -- TEST.LSR: TEST Rd, Rs LSR n
  | testRol (rd : Reg) (n : BitVec 2) (rs : Reg)  -- TEST.ROL: TEST Rd, Rs ROL n
  | testRor (rd : Reg) (n : BitVec 2) (rs : Reg)  -- TEST.ROR: TEST Rd, Rs ROR n
  | testA6 (rd : Reg) (addr : BitVec 6)  -- TEST.A6: TEST Rd, [A6]
  | storeBpIm6 (rd : Reg) (imm : BitVec 6)  -- STORE.BP_IM6: [BP+IM6] = Rd
  | storeInd (rd : Reg) (d : Bool) (mark : PtrMark) (rs : Reg)  -- STORE.IND: {D:}[Rs@] = Rd
  | storeA16w (rd : Reg) (addr : Word)  -- STORE.A16W: [A16] = Rd
  | storeA6 (rd : Reg) (addr : BitVec 6)  -- STORE.A6: [A6] = Rd
  | push (rd : Reg) (n : BitVec 3) (rs : Reg)  -- PUSH: Push R_H, R_L to [Rs]
  | pop (rd : Reg) (n : BitVec 3) (rs : Reg)  -- POP: Pop R_L, R_H from [Rs]
  | tstbRr (rd : Reg) (rs : Reg)  -- TSTB.RR: TSTB Rd, Rs
  | tstbRo (rd : Reg) (k : BitVec 4)  -- TSTB.RO: TSTB Rd, offset
  | tstbMr (d : Bool) (rd : Reg) (rs : Reg)  -- TSTB.MR: TSTB {D:}[Rd], Rs
  | tstbMo (d : Bool) (rd : Reg) (k : BitVec 4)  -- TSTB.MO: TSTB {D:}[Rd], offset
  | setbRr (rd : Reg) (rs : Reg)  -- SETB.RR: SETB Rd, Rs
  | setbRo (rd : Reg) (k : BitVec 4)  -- SETB.RO: SETB Rd, offset
  | setbMr (d : Bool) (rd : Reg) (rs : Reg)  -- SETB.MR: SETB {D:}[Rd], Rs
  | setbMo (d : Bool) (rd : Reg) (k : BitVec 4)  -- SETB.MO: SETB {D:}[Rd], offset
  | clrbRr (rd : Reg) (rs : Reg)  -- CLRB.RR: CLRB Rd, Rs
  | clrbRo (rd : Reg) (k : BitVec 4)  -- CLRB.RO: CLRB Rd, offset
  | clrbMr (d : Bool) (rd : Reg) (rs : Reg)  -- CLRB.MR: CLRB {D:}[Rd], Rs
  | clrbMo (d : Bool) (rd : Reg) (k : BitVec 4)  -- CLRB.MO: CLRB {D:}[Rd], offset
  | invbRr (rd : Reg) (rs : Reg)  -- INVB.RR: INVB Rd, Rs
  | invbRo (rd : Reg) (k : BitVec 4)  -- INVB.RO: INVB Rd, offset
  | invbMr (d : Bool) (rd : Reg) (rs : Reg)  -- INVB.MR: INVB {D:}[Rd], Rs
  | invbMo (d : Bool) (rd : Reg) (k : BitVec 4)  -- INVB.MO: INVB {D:}[Rd], offset
  | shift16Asr (rd : Reg) (rs : Reg)  -- SHIFT16.ASR: Rd = Rd ASR Rs
  | shift16Asror (rd : Reg) (rs : Reg)  -- SHIFT16.ASROR: MR |= Rd ASR Rs
  | shift16Lsl (rd : Reg) (rs : Reg)  -- SHIFT16.LSL: Rd = Rd LSL Rs
  | shift16Lslor (rd : Reg) (rs : Reg)  -- SHIFT16.LSLOR: MR |= Rd LSL Rs
  | shift16Lsr (rd : Reg) (rs : Reg)  -- SHIFT16.LSR: Rd = Rd LSR Rs
  | shift16Lsror (rd : Reg) (rs : Reg)  -- SHIFT16.LSROR: MR |= Rd LSR Rs
  | shift16Rol (rd : Reg) (rs : Reg)  -- SHIFT16.ROL: Rd = Rd ROL Rs
  | shift16Ror (rd : Reg) (rs : Reg)  -- SHIFT16.ROR: Rd = Rd ROR Rs
  | mulUu (rd : Reg) (rs : Reg)  -- MUL.UU: MR = Rd*Rs, uu
  | mulsUu (rd : Reg) (n : BitVec 4) (rs : Reg)  -- MULS.UU: MR = [Rd]*[Rs], uu, N
  | dsIm6 (imm : BitVec 6)  -- DS_IM6: DS = IM6
  | mulUs (rd : Reg) (rs : Reg)  -- MUL.US: MR = Rd*Rs, us
  | movRsDs (rs : Reg)  -- MOV_RS_DS: Rs = DS
  | movDsRs (rs : Reg)  -- MOV_DS_RS: DS = Rs
  | movRsFr (rs : Reg)  -- MOV_RS_FR: Rs = FR
  | movFrRs (rs : Reg)  -- MOV_FR_RS: FR = Rs
  | call (addr : Addr)  -- CALL: CALL A22
  | goto (addr : Addr)  -- GOTO: GOTO A22
  | gotoMr  -- GOTO_MR: GOTO MR
  | mulsUs (rd : Reg) (n : BitVec 4) (rs : Reg)  -- MULS.US: MR = [Rd]*[Rs], us, N
  | mulSs (rd : Reg) (rs : Reg)  -- MUL.SS: MR = Rd*Rs {, ss}
  | mulsSs (rd : Reg) (n : BitVec 4) (rs : Reg)  -- MULS.SS: MR = [Rd]*[Rs] {, ss}, N
  | intOff  -- INT_OFF: INT OFF
  | intIrq  -- INT_IRQ: INT IRQ
  | intFiq  -- INT_FIQ: INT FIQ
  | intFiqIrq  -- INT_FIQ_IRQ: INT FIQ,IRQ
  | firMovOn  -- FIR_MOV_ON: FIR_MOV ON
  | firMovOff  -- FIR_MOV_OFF: FIR_MOV OFF
  | fractionOff  -- FRACTION_OFF: FRACTION OFF
  | fractionOn  -- FRACTION_ON: FRACTION ON
  | irqOff  -- IRQ_OFF: IRQ OFF
  | irqOn  -- IRQ_ON: IRQ ON
  | secbankOff  -- SECBANK_OFF: SECBANK OFF
  | secbankOn  -- SECBANK_ON: SECBANK ON
  | fiqOff  -- FIQ_OFF: FIQ OFF
  | irqnestOff  -- IRQNEST_OFF: IRQNEST OFF
  | fiqOn  -- FIQ_ON: FIQ ON
  | irqnestOn  -- IRQNEST_ON: IRQNEST ON
  | brk  -- BREAK: BREAK
  | callMr  -- CALL_MR: CALL MR
  | divs  -- DIVS: DIVS MR, R2
  | divq  -- DIVQ: DIVQ MR, R2
  | exp  -- EXP: EXP R2, R4
  | nop  -- NOP: NOP
  deriving DecidableEq, Repr

/-- The operand form of an instruction: what its row of the table says, field by field. -/
def Instr.shape : Instr → Shape
  | .jcc back imm => .branch .cc back imm
  | .jcs back imm => .branch .cs back imm
  | .jsc back imm => .branch .sc back imm
  | .jss back imm => .branch .ss back imm
  | .jne back imm => .branch .ne back imm
  | .jz back imm => .branch .z back imm
  | .jpl back imm => .branch .pl back imm
  | .jmi back imm => .branch .mi back imm
  | .jbe back imm => .branch .be back imm
  | .ja back imm => .branch .a back imm
  | .jle back imm => .branch .le back imm
  | .jg back imm => .branch .g back imm
  | .jvc back imm => .branch .vc back imm
  | .jvs back imm => .branch .vs back imm
  | .jmp back imm => .branch .always back imm
  | .retf => .retf
  | .reti => .reti
  | .addBpIm6 rd imm => .bpIm6 .add rd imm
  | .addIm6 rd imm => .im6 .add rd imm
  | .addInd rd d mark rs => .ind .add rd d mark rs
  | .addReg rd rs => .reg .add rd rs
  | .addIm16 rd rs imm => .im16 .add rd rs imm
  | .addA16 rd rs addr => .a16 .add rd rs addr
  | .addA16w rd rs addr => .a16w .add rd rs addr
  | .addAsr rd n rs => .shifted .add .asr rd n rs
  | .addLsl rd n rs => .shifted .add .lsl rd n rs
  | .addLsr rd n rs => .shifted .add .lsr rd n rs
  | .addRol rd n rs => .shifted .add .rol rd n rs
  | .addRor rd n rs => .shifted .add .ror rd n rs
  | .addA6 rd addr => .a6 .add rd addr
  | .adcBpIm6 rd imm => .bpIm6 .adc rd imm
  | .adcIm6 rd imm => .im6 .adc rd imm
  | .adcInd rd d mark rs => .ind .adc rd d mark rs
  | .adcReg rd rs => .reg .adc rd rs
  | .adcIm16 rd rs imm => .im16 .adc rd rs imm
  | .adcA16 rd rs addr => .a16 .adc rd rs addr
  | .adcA16w rd rs addr => .a16w .adc rd rs addr
  | .adcAsr rd n rs => .shifted .adc .asr rd n rs
  | .adcLsl rd n rs => .shifted .adc .lsl rd n rs
  | .adcLsr rd n rs => .shifted .adc .lsr rd n rs
  | .adcRol rd n rs => .shifted .adc .rol rd n rs
  | .adcRor rd n rs => .shifted .adc .ror rd n rs
  | .adcA6 rd addr => .a6 .adc rd addr
  | .subBpIm6 rd imm => .bpIm6 .sub rd imm
  | .subIm6 rd imm => .im6 .sub rd imm
  | .subInd rd d mark rs => .ind .sub rd d mark rs
  | .subReg rd rs => .reg .sub rd rs
  | .subIm16 rd rs imm => .im16 .sub rd rs imm
  | .subA16 rd rs addr => .a16 .sub rd rs addr
  | .subA16w rd rs addr => .a16w .sub rd rs addr
  | .subAsr rd n rs => .shifted .sub .asr rd n rs
  | .subLsl rd n rs => .shifted .sub .lsl rd n rs
  | .subLsr rd n rs => .shifted .sub .lsr rd n rs
  | .subRol rd n rs => .shifted .sub .rol rd n rs
  | .subRor rd n rs => .shifted .sub .ror rd n rs
  | .subA6 rd addr => .a6 .sub rd addr
  | .sbcBpIm6 rd imm => .bpIm6 .sbc rd imm
  | .sbcIm6 rd imm => .im6 .sbc rd imm
  | .sbcInd rd d mark rs => .ind .sbc rd d mark rs
  | .sbcReg rd rs => .reg .sbc rd rs
  | .sbcIm16 rd rs imm => .im16 .sbc rd rs imm
  | .sbcA16 rd rs addr => .a16 .sbc rd rs addr
  | .sbcA16w rd rs addr => .a16w .sbc rd rs addr
  | .sbcAsr rd n rs => .shifted .sbc .asr rd n rs
  | .sbcLsl rd n rs => .shifted .sbc .lsl rd n rs
  | .sbcLsr rd n rs => .shifted .sbc .lsr rd n rs
  | .sbcRol rd n rs => .shifted .sbc .rol rd n rs
  | .sbcRor rd n rs => .shifted .sbc .ror rd n rs
  | .sbcA6 rd addr => .a6 .sbc rd addr
  | .cmpBpIm6 rd imm => .bpIm6 .cmp rd imm
  | .cmpIm6 rd imm => .im6 .cmp rd imm
  | .cmpInd rd d mark rs => .ind .cmp rd d mark rs
  | .cmpReg rd rs => .reg .cmp rd rs
  | .cmpIm16 rs imm => .im16 .cmp .sp rs imm
  | .cmpA16 rs addr => .a16 .cmp .sp rs addr
  | .cmpA16w rd rs addr => .a16w .cmp rd rs addr
  | .cmpAsr rd n rs => .shifted .cmp .asr rd n rs
  | .cmpLsl rd n rs => .shifted .cmp .lsl rd n rs
  | .cmpLsr rd n rs => .shifted .cmp .lsr rd n rs
  | .cmpRol rd n rs => .shifted .cmp .rol rd n rs
  | .cmpRor rd n rs => .shifted .cmp .ror rd n rs
  | .cmpA6 rd addr => .a6 .cmp rd addr
  | .negBpIm6 rd imm => .bpIm6 .neg rd imm
  | .negIm6 rd imm => .im6 .neg rd imm
  | .negInd rd d mark rs => .ind .neg rd d mark rs
  | .negReg rd rs => .reg .neg rd rs
  | .negIm16 rd imm => .im16 .neg rd .sp imm
  | .negA16 rd addr => .a16 .neg rd .sp addr
  | .negA16w rd addr => .a16w .neg rd .sp addr
  | .negAsr rd n rs => .shifted .neg .asr rd n rs
  | .negLsl rd n rs => .shifted .neg .lsl rd n rs
  | .negLsr rd n rs => .shifted .neg .lsr rd n rs
  | .negRol rd n rs => .shifted .neg .rol rd n rs
  | .negRor rd n rs => .shifted .neg .ror rd n rs
  | .negA6 rd addr => .a6 .neg rd addr
  | .xorBpIm6 rd imm => .bpIm6 .xor rd imm
  | .xorIm6 rd imm => .im6 .xor rd imm
  | .xorInd rd d mark rs => .ind .xor rd d mark rs
  | .xorReg rd rs => .reg .xor rd rs
  | .xorIm16 rd rs imm => .im16 .xor rd rs imm
  | .xorA16 rd rs addr => .a16 .xor rd rs addr
  | .xorA16w rd rs addr => .a16w .xor rd rs addr
  | .xorAsr rd n rs => .shifted .xor .asr rd n rs
  | .xorLsl rd n rs => .shifted .xor .lsl rd n rs
  | .xorLsr rd n rs => .shifted .xor .lsr rd n rs
  | .xorRol rd n rs => .shifted .xor .rol rd n rs
  | .xorRor rd n rs => .shifted .xor .ror rd n rs
  | .xorA6 rd addr => .a6 .xor rd addr
  | .loadBpIm6 rd imm => .bpIm6 .load rd imm
  | .loadIm6 rd imm => .im6 .load rd imm
  | .loadInd rd d mark rs => .ind .load rd d mark rs
  | .loadReg rd rs => .reg .load rd rs
  | .loadIm16 rd imm => .im16 .load rd .sp imm
  | .loadA16 rd addr => .a16 .load rd .sp addr
  | .loadAsr rd n rs => .shifted .load .asr rd n rs
  | .loadLsl rd n rs => .shifted .load .lsl rd n rs
  | .loadLsr rd n rs => .shifted .load .lsr rd n rs
  | .loadRol rd n rs => .shifted .load .rol rd n rs
  | .loadRor rd n rs => .shifted .load .ror rd n rs
  | .loadA6 rd addr => .a6 .load rd addr
  | .orBpIm6 rd imm => .bpIm6 .or rd imm
  | .orIm6 rd imm => .im6 .or rd imm
  | .orInd rd d mark rs => .ind .or rd d mark rs
  | .orReg rd rs => .reg .or rd rs
  | .orIm16 rd rs imm => .im16 .or rd rs imm
  | .orA16 rd rs addr => .a16 .or rd rs addr
  | .orA16w rd rs addr => .a16w .or rd rs addr
  | .orAsr rd n rs => .shifted .or .asr rd n rs
  | .orLsl rd n rs => .shifted .or .lsl rd n rs
  | .orLsr rd n rs => .shifted .or .lsr rd n rs
  | .orRol rd n rs => .shifted .or .rol rd n rs
  | .orRor rd n rs => .shifted .or .ror rd n rs
  | .orA6 rd addr => .a6 .or rd addr
  | .andBpIm6 rd imm => .bpIm6 .and rd imm
  | .andIm6 rd imm => .im6 .and rd imm
  | .andInd rd d mark rs => .ind .and rd d mark rs
  | .andReg rd rs => .reg .and rd rs
  | .andIm16 rd rs imm => .im16 .and rd rs imm
  | .andA16 rd rs addr => .a16 .and rd rs addr
  | .andA16w rd rs addr => .a16w .and rd rs addr
  | .andAsr rd n rs => .shifted .and .asr rd n rs
  | .andLsl rd n rs => .shifted .and .lsl rd n rs
  | .andLsr rd n rs => .shifted .and .lsr rd n rs
  | .andRol rd n rs => .shifted .and .rol rd n rs
  | .andRor rd n rs => .shifted .and .ror rd n rs
  | .andA6 rd addr => .a6 .and rd addr
  | .testBpIm6 rd imm => .bpIm6 .test rd imm
  | .testIm6 rd imm => .im6 .test rd imm
  | .testInd rd d mark rs => .ind .test rd d mark rs
  | .testReg rd rs => .reg .test rd rs
  | .testIm16 rs imm => .im16 .test .sp rs imm
  | .testA16 rs addr => .a16 .test .sp rs addr
  | .testA16w rd rs addr => .a16w .test rd rs addr
  | .testAsr rd n rs => .shifted .test .asr rd n rs
  | .testLsl rd n rs => .shifted .test .lsl rd n rs
  | .testLsr rd n rs => .shifted .test .lsr rd n rs
  | .testRol rd n rs => .shifted .test .rol rd n rs
  | .testRor rd n rs => .shifted .test .ror rd n rs
  | .testA6 rd addr => .a6 .test rd addr
  | .storeBpIm6 rd imm => .bpIm6 .store rd imm
  | .storeInd rd d mark rs => .ind .store rd d mark rs
  | .storeA16w rd addr => .a16w .store rd .sp addr
  | .storeA6 rd addr => .a6 .store rd addr
  | .push rd n rs => .push rd n rs
  | .pop rd n rs => .pop rd n rs
  | .tstbRr rd rs => .bitRr .tstb rd rs
  | .tstbRo rd k => .bitRo .tstb rd k
  | .tstbMr d rd rs => .bitMr .tstb d rd rs
  | .tstbMo d rd k => .bitMo .tstb d rd k
  | .setbRr rd rs => .bitRr .setb rd rs
  | .setbRo rd k => .bitRo .setb rd k
  | .setbMr d rd rs => .bitMr .setb d rd rs
  | .setbMo d rd k => .bitMo .setb d rd k
  | .clrbRr rd rs => .bitRr .clrb rd rs
  | .clrbRo rd k => .bitRo .clrb rd k
  | .clrbMr d rd rs => .bitMr .clrb d rd rs
  | .clrbMo d rd k => .bitMo .clrb d rd k
  | .invbRr rd rs => .bitRr .invb rd rs
  | .invbRo rd k => .bitRo .invb rd k
  | .invbMr d rd rs => .bitMr .invb d rd rs
  | .invbMo d rd k => .bitMo .invb d rd k
  | .shift16Asr rd rs => .shift16 .asr rd rs
  | .shift16Asror rd rs => .shift16 .asror rd rs
  | .shift16Lsl rd rs => .shift16 .lsl rd rs
  | .shift16Lslor rd rs => .shift16 .lslor rd rs
  | .shift16Lsr rd rs => .shift16 .lsr rd rs
  | .shift16Lsror rd rs => .shift16 .lsror rd rs
  | .shift16Rol rd rs => .shift16 .rol rd rs
  | .shift16Ror rd rs => .shift16 .ror rd rs
  | .mulUu rd rs => .mul .uu rd rs
  | .mulsUu rd n rs => .muls .uu rd n rs
  | .dsIm6 imm => .dsIm6 imm
  | .mulUs rd rs => .mul .us rd rs
  | .movRsDs rs => .movRsDs rs
  | .movDsRs rs => .movDsRs rs
  | .movRsFr rs => .movRsFr rs
  | .movFrRs rs => .movFrRs rs
  | .call addr => .call addr
  | .goto addr => .goto addr
  | .gotoMr => .gotoMr
  | .mulsUs rd n rs => .muls .us rd n rs
  | .mulSs rd rs => .mul .ss rd rs
  | .mulsSs rd n rs => .muls .ss rd n rs
  | .intOff => .mode .intOff
  | .intIrq => .mode .intIrq
  | .intFiq => .mode .intFiq
  | .intFiqIrq => .mode .intFiqIrq
  | .firMovOn => .mode .firMovOn
  | .firMovOff => .mode .firMovOff
  | .fractionOff => .mode .fractionOff
  | .fractionOn => .mode .fractionOn
  | .irqOff => .mode .irqOff
  | .irqOn => .mode .irqOn
  | .secbankOff => .mode .secbankOff
  | .secbankOn => .mode .secbankOn
  | .fiqOff => .mode .fiqOff
  | .irqnestOff => .mode .irqnestOff
  | .fiqOn => .mode .fiqOn
  | .irqnestOn => .mode .irqnestOn
  | .brk => .brk
  | .callMr => .callMr
  | .divs => .divs
  | .divq => .divq
  | .exp => .exp
  | .nop => .nop

end Sys2Proof
end

