-- ==== Sys2Proof/Config.lean ====
section
/-! DEFINITION. The free values: constants with no body, of which nothing can be proved
(`93_implementation_defined.md`, treatment "draw", and the parameters of `00_scope.md` rule R4 that are
functions). -/

namespace Sys2Proof

/-- The bits an unspecified value takes, one word for each draw: flags written together with SR as the
destination (`10_state.md` rule R43), C after a 16-bit shift (`42_bit_shift.md` rule R171), DS and the flags
after interrupt entry (`60_exceptions.md` rule R287).  Logs 5, 18, 29, 39, 41. -/
opaque Config.drawWord : Nat → Word

/-- The cycles of a step whose count the source does not give: hardware interrupt entry
(`60_exceptions.md` rule R302) and the reset step.  Log 40. -/
opaque Config.unstatedCycles : Nat → Nat

/-- All the cycles of an ALU instruction that writes PC on a chip with wait cycles, from the instruction's form
with its operands, wait_PM and wait_DM: the formulas of Appendix A hold only "if Rd is NOT pc"
(`70_reset_and_hazards.md` rule R329).  That the count depends on nothing else, such as the state or the
address, is DESIGN CHOICE, unsafe for a statement about time.  Log 40. -/
opaque Config.pcWriteCycles : Shape → Nat → Nat → Nat

/-! ### The parameters of rule R4 that are functions, on a chip that does not follow the spec's default

Each takes the number of the chip's rule first (`Machine.ChipRule.other`). -/

/-- `div_step` for DIVS (`43_mul_div_exp.md` rule R196): MR and AQ afterwards, from MR, R2 and AQ.  Log 30. -/
opaque Config.divsOf : Nat → BitVec 32 → Word → Bool → BitVec 32 × Bool

/-- `div_step` for DIVQ (`43_mul_div_exp.md` rule R197): MR and AQ afterwards, from MR, R2 and AQ.  Log 30. -/
opaque Config.divqOf : Nat → BitVec 32 → Word → Bool → BitVec 32 × Bool

/-- `fir_move` (`43_mul_div_exp.md` rule R192): the words MULS writes in bank 0, as (offset, word) in the order
of the writes, from the starting Rd pointer and the words read through it, level 0 first.  Log 31. -/
opaque Config.firMoveOf : Nat → Word → List Word → List (Word × Word)

/-- `muls_adjust` (`43_mul_div_exp.md` rule R190): the values written to Rd and then to Rs, from the two register
numbers, the starting Rd and Rs pointers and the level count.  Logs 32, 38. -/
opaque Config.mulsAdjustOf : Nat → Reg → Reg → Word → Word → Nat → Word × Word

end Sys2Proof
end

