-- ==== Sys2Proof/Machine/Bits.lean ====
section
/-! DEFINITION. Bit-field helpers. -/

namespace Sys2Proof.Machine

/-- The bits of `new` where `mask` has a 1 and those of `old` elsewhere. -/
def mergeBits (mask new old : Word) : Word := (new &&& mask) ||| (old &&& ~~~mask)

/-- `m` when `b` holds, else no bit. -/
def flagBit (b : Bool) (m : Word) : Word := if b then m else 0#16

/-- The low half of a word. -/
def lowByte (v : Word) : Byte := v.extractLsb' 0 8

/-- The high half of a word. -/
def highByte (v : Word) : Byte := v.extractLsb' 8 8

/-- SR[9], N (`10_state.md` rule R28). -/
def maskN : Word := 0x0200#16
/-- SR[8], Z. -/
def maskZ : Word := 0x0100#16
/-- SR[7], S. -/
def maskS : Word := 0x0080#16
/-- SR[6], C. -/
def maskC : Word := 0x0040#16
/-- N and Z. -/
def maskNZ : Word := 0x0300#16
/-- N, Z, S and C. -/
def maskNZSC : Word := 0x03C0#16
/-- Every bit of SR but CS: DS, N, Z, S and C. -/
def maskNotCs : Word := 0xFFC0#16

/-- FR[14], AQ (`10_state.md` rule R33). -/
def maskAq : Word := 0x4000#16
/-- FR[10:7], SB. -/
def maskSb : Word := 0x0780#16
/-- FR[3:0], PRI. -/
def maskPri : Word := 0x000F#16
/-- FR[14:0], the defined bits (rule R42). -/
def maskFr : Word := 0x7FFF#16

end Sys2Proof.Machine
end

