-- ==== Sys2Proof/Machine/Memory.lean ====
section
/-! DEFINITION. Memory: one space of 2^22 words (`20_memory.md` rules R50, R51), kept as byte cells in one
canonical form.  Word `a` is in bytes `2a` (low) and `2a + 1` (high); nothing in the machine can observe that
order (rule R53, decision D10, log 10). -/

namespace Sys2Proof.Machine.Memory

/-- What a byte no cell lists reads as.  DESIGN CHOICE, unsafe (log 37): the source gives memory no contents
at reset. -/
def unlisted : Byte := 0#8

/-- The byte at a byte address. -/
def get : List Host.Cell → Nat → Byte
  | [], _ => unlisted
  | c :: m, a => if c.1 = a then c.2 else get m a

/-- The memory without a cell for `a`. -/
def erase (m : List Host.Cell) (a : Nat) : List Host.Cell := m.filter (fun c => c.1 != a)

/-- The memory with a cell for `a` before the first cell of a higher address. -/
def insert (a : Nat) (v : Byte) : List Host.Cell → List Host.Cell
  | [] => [(a, v)]
  | c :: m => if a < c.1 then (a, v) :: c :: m else c :: insert a v m

/-- The memory after a byte is stored; storing what an unlisted byte reads as leaves no cell. -/
def set (m : List Host.Cell) (a : Nat) (v : Byte) : List Host.Cell :=
  if v = unlisted then erase m a else insert a v (erase m a)

/-- The byte address of the low half of a word. -/
def lowAddr (a : Addr) : Nat := 2 * a.toNat

/-- The byte address of the high half of a word. -/
def highAddr (a : Addr) : Nat := 2 * a.toNat + 1

/-- The word at a word address. -/
def getWord (m : List Host.Cell) (a : Addr) : Word := get m (highAddr a) ++ get m (lowAddr a)

/-- The memory after a word is stored. -/
def setWord (m : List Host.Cell) (a : Addr) (v : Word) : List Host.Cell :=
  set (set m (lowAddr a) (lowByte v)) (highAddr a) (highByte v)

/-- Cells rise strictly from `lo` on, lie in the 2^23 bytes of the space, and hold no byte that an unlisted
address reads as. -/
def risingFrom : Nat → List Host.Cell → Bool
  | _, [] => true
  | lo, c :: m => decide (lo ≤ c.1) && decide (c.1 < 2 ^ 23) && (c.2 != unlisted) && risingFrom (c.1 + 1) m

/-- The canonical form. -/
def wf (m : List Host.Cell) : Bool := risingFrom 0 m

end Sys2Proof.Machine.Memory
end

