-- ==== Sys2Proof/Machine/Platform.lean ====
section
/-! DEFINITION. The parameters of the model (`00_scope.md` rule R4), as plain data.  The state carries them, no
step changes them, and a statement about every state holds for every value of them. -/

namespace Sys2Proof.Machine

/-- What stands behind an address (`20_memory.md` rule R69, decision D9). -/
inductive MemKind where
  /-- Readable and writable memory. -/
  | ram
  /-- Memory that can be read and fetched, not written. -/
  | rom
  /-- A device of the chip: no source says what it does. -/
  | device
  /-- Nothing. -/
  | absent
  deriving DecidableEq, Repr

/-- `size` word addresses from `base` on. -/
structure Region where
  base : Nat
  size : Nat
  kind : MemKind
  deriving DecidableEq, Repr

/-- A parameter that is a function (`div_step`, `fir_move`, `muls_adjust`), named by plain data. -/
inductive ChipRule where
  /-- The default the spec writes down. -/
  | default
  /-- The rule of a chip that does otherwise: what it does is a constant with no body, in `Config`, applied to
  this number. -/
  | other (id : Nat)
  deriving DecidableEq, Repr

/-- The chip's choices. -/
structure Platform where
  /-- `VEC_RESET`: the word that holds the reset entry address (decision D20). -/
  vecReset : Addr
  /-- `VEC_FIQ`: the word that holds the FIQ handler's address (decision D21). -/
  vecFiq : Addr
  /-- `VEC_IRQ[0..7]` (decision D21). -/
  vecIrq : Vector Addr 8
  /-- `mem_admit`: the first region that holds an address says what is there; an address in none is RAM. -/
  map : List Region
  /-- `wait_PM`: wait cycles of program memory (decision D40). -/
  waitPm : Nat
  /-- `wait_DM`: wait cycles of data memory (decision D40). -/
  waitDm : Nat
  /-- `div_step`: what DIVS and DIVQ do to MR and AQ (decision D30). -/
  divStep : ChipRule
  /-- `fir_move`: the words MULS moves (decision D31). -/
  firMove : ChipRule
  /-- `muls_adjust`: how MULS changes its two pointers (decision D32). -/
  mulsAdjust : ChipRule
  deriving DecidableEq, Repr

/-- The default parameters: the vectors of `20_memory.md` rule R68 (PRESUMED, general knowledge by the
spec's own mark, logs 20 and 21), all of memory RAM (DESIGN CHOICE, log 9), no wait cycles (DESIGN CHOICE, log
40), and the spec's defaults of the three functions (PRESUMED, logs 30 to 32). -/
def defaultPlatform : Platform where
  vecReset := 0x00FFF7#22
  vecFiq := 0x00FFF6#22
  vecIrq := #v[0x00FFF8#22, 0x00FFF9#22, 0x00FFFA#22, 0x00FFFB#22, 0x00FFFC#22, 0x00FFFD#22, 0x00FFFE#22,
    0x00FFFF#22]
  map := []
  waitPm := 0
  waitDm := 0
  divStep := .default
  firMove := .default
  mulsAdjust := .default

/-- The word that holds the BREAK handler's address: fixed by the manual (rule R68). -/
def vecBreak : Addr := 0x00FFF5#22

/-- What stands behind a word address. -/
def kindIn : List Region → Nat → MemKind
  | [], _ => .ram
  | r :: rs, a => if r.base ≤ a ∧ a < r.base + r.size then r.kind else kindIn rs a

end Sys2Proof.Machine
end

