-- ==== Sys2Proof/WellFormed.lean ====
section
/-! DEFINITION. The checks on an instruction's operands: the `constraints` of `spec/opcode_table.json`, with
the rules that state them.  The decoder and the meanings use these same checks. -/

namespace Sys2Proof

/-- `some why` when `bad` holds. -/
def reservedIf (bad : Bool) (why : Reserved) : Option Reserved := if bad then some why else none

/-- Rd is R0 to R6: the IM6 and `[BP+IM6]` forms, bit operations and 16-bit shifts (`30_encoding.md`
rule R96). -/
def checkDest (rd : Reg) : Option Reserved := reservedIf (rd == .pc) .pcOperand

/-- The collisions of the indirect form that a model must refuse (`41_alu.md` rule R150). -/
def checkInd (rd : Reg) (d : Bool) (mark : PtrMark) (rs : Reg) : Option Reserved :=
  reservedIf (mark != .keep && (rd == rs || rs == .sr || rs == .pc || (rd == .sr && d))) .indirectCollision

/-- PUSH: a list of 1 to 7 registers that ends at or above register 0 (`30_encoding.md` rule R97 item 4)
and does not hold the pointer (`45_segment_flag_stack.md` rule R246). -/
def checkPush (rd : Reg) (n : BitVec 3) (rs : Reg) : Option Reserved :=
  if n.toNat = 0 then some .emptyList
  else if rd.num + 1 < n.toNat then some .listRange
  else reservedIf (decide (rd.num + 1 - n.toNat ≤ rs.num) && decide (rs.num ≤ rd.num)) .pointerInList

/-- POP: a list of 1 to 7 registers that ends at or below register 7 (`30_encoding.md` rule R97 item 4) and
does not hold the pointer (`45_segment_flag_stack.md` rule R249). -/
def checkPop (rd : Reg) (n : BitVec 3) (rs : Reg) : Option Reserved :=
  if n.toNat = 0 then some .emptyList
  else if 7 < rd.num + n.toNat then some .listRange
  else reservedIf (decide (rd.num + 1 ≤ rs.num) && decide (rs.num ≤ rd.num + n.toNat)) .pointerInList

/-- The OR forms of the 16-bit shifts are defined for one half of MR only (`42_bit_shift.md` rules R173,
R175, R177); no 16-bit shift has Rd = PC. -/
def checkShift16 (k : LongShift) (rd : Reg) : Option Reserved :=
  if rd = .pc then some .pcOperand
  else match k with
    | .asror => reservedIf (rd != .r4) .orShiftHalf
    | .lsror => reservedIf (rd != .r4) .orShiftHalf
    | .lslor => reservedIf (rd != .r3) .orShiftHalf
    | _ => none

/-- MUL: neither operand is PC (`30_encoding.md` rule R97 items 5 to 7). -/
def checkMul (rd rs : Reg) : Option Reserved := reservedIf (rd == .pc || rs == .pc) .pcOperand

/-- MULS: neither pointer is PC (`30_encoding.md` rule R97 item 7), R3 or R4 (`43_mul_div_exp.md` rule
R202). -/
def checkMuls (rd rs : Reg) : Option Reserved :=
  if rd = .pc ∨ rs = .pc then some .pcOperand
  else reservedIf (rd == .r3 || rd == .r4 || rs == .r3 || rs == .r4) .mulsPointer

/-- The operand check of each form: `none` when the operands spell an instruction. -/
def Shape.check : Shape → Option Reserved
  | .bpIm6 _ rd _ => checkDest rd
  | .im6 _ rd _ => checkDest rd
  | .ind _ rd d mark rs => checkInd rd d mark rs
  | .push rd n rs => checkPush rd n rs
  | .pop rd n rs => checkPop rd n rs
  | .bitRr _ rd _ => checkDest rd
  | .bitRo _ rd _ => checkDest rd
  | .bitMr _ _ rd _ => checkDest rd
  | .bitMo _ _ rd _ => checkDest rd
  | .shift16 k rd _ => checkShift16 k rd
  | .mul _ rd rs => checkMul rd rs
  | .muls _ rd _ rs => checkMuls rd rs
  | .branch .. | .retf | .reti | .reg .. | .im16 .. | .a16 .. | .a16w .. | .shifted .. | .a6 .. | .dsIm6 _
  | .movRsDs _ | .movDsRs _ | .movRsFr _ | .movFrRs _ | .call _ | .goto _ | .gotoMr | .mode _ | .brk
  | .callMr | .divs | .divq | .exp | .nop => none

/-- The operand check of an instruction. -/
def Instr.check (i : Instr) : Option Reserved := i.shape.check

/-- `Pop SR, PC from [SP]` has the word 0x9A90, which the table names RETF (`30_encoding.md` rule R88; the
two descriptions agree, `46_call_interrupt.md` rule R263). -/
def Instr.isRetfSpelling : Instr → Bool
  | .pop .bp 2#3 .sp => true
  | _ => false

/-- An instruction is well formed when its operands pass the check and it is spelled by the name the
decoder gives its word. -/
def Instr.wellFormed (i : Instr) : Bool := i.check.isNone && !i.isRetfSpelling

end Sys2Proof
end

