-- ==== Sys2Proof/Machine/State.lean ====
section
/-! DEFINITION. The state of the machine, why it stops, and the state after reset. -/

namespace Sys2Proof.Machine

/-- Why the machine stops at a memory access: an access the platform does not admit "has no step"
(`20_memory.md` rule R69, decision D9, log 9).  All are safe, and none can happen under the default map. -/
inductive Fault where
  /-- A fetch, read or write at a word address with nothing behind it.  Raised by `memRead`, `memWrite`;
  safe. -/
  | absentAddress (addr : Nat)
  /-- A fetch, read or write at a word address of a device whose behaviour no source gives.  Raised by
  `memRead`, `memWrite`; safe. -/
  | deviceAccess (addr : Nat)
  /-- A write at a word address that holds read-only memory.  Raised by `memWrite`; safe. -/
  | romWrite (addr : Nat)
  deriving DecidableEq, Repr

/-- Why the machine has no next state for an instruction. -/
inductive Refusal where
  /-- An instruction without a meaning in this model, by its mnemonic.  No arm of `exec` raises it; safe. -/
  | notModelled (mnemonic : String)
  /-- A word that spells no instruction, or operands the spec says a model must refuse (`30_encoding.md`
  rule R98; the reasons are in `Reserved`).  Raised by `fetch` and by the meanings' operand checks; safe. -/
  | reserved (why : Reserved)
  deriving DecidableEq, Repr

/-- The request lines at one step (`10_state.md` rule R46): FIQ, and IRQ7 to IRQ0 in bits 7 to 0. -/
structure Lines where
  fiq : Bool
  irq : BitVec 8
  deriving DecidableEq, Repr

/-- No request. -/
def quietLines : Lines := ⟨false, 0#8⟩

/-- The sources of an interrupt (`60_exceptions.md` rule R276). -/
inductive IntSource where
  | brk
  | fiq
  | irq (n : Fin 8)
  deriving DecidableEq, Repr

/-- Everything the spec gives the machine, and the model's own draw counter. -/
structure State where
  /-- SP, register 0 (rule R23). -/
  sp : Word
  /-- R1 of the primary bank (rules R20, R26). -/
  r1 : Word
  /-- R2 of the primary bank. -/
  r2 : Word
  /-- R3 of the primary bank, low half of MR (rule R27). -/
  r3 : Word
  /-- R4 of the primary bank, high half of MR (rule R27). -/
  r4 : Word
  /-- SR1 of the secondary bank (rules R22, R44). -/
  sr1 : Word
  /-- SR2 of the secondary bank. -/
  sr2 : Word
  /-- SR3 of the secondary bank. -/
  sr3 : Word
  /-- SR4 of the secondary bank. -/
  sr4 : Word
  /-- BP, register 5 (rule R24). -/
  bp : Word
  /-- SR, register 6: DS[15:10], N[9], Z[8], S[7], C[6], CS[5:0] (rule R28). -/
  sr : Word
  /-- PC, register 7: bits 15:0 of the next instruction word's address (rule R25). -/
  pc : Word
  /-- FR: AQ[14], BNK[13], FRA[12], FIR[11], SB[10:7], FIQ[6], IRQ[5], INE[4], PRI[3:0] (rule R33). -/
  fr : Word
  /-- The BRK servicing flag (rule R45). -/
  inBrk : Bool
  /-- The FIQ servicing flag (rule R45). -/
  inFiq : Bool
  /-- How many IRQ service routines are active (rule R45). -/
  irqDepth : Nat
  /-- Memory, in the canonical form `Memory.wf`. -/
  mem : List Host.Cell
  /-- The request lines of the coming steps, one sample a step; no request after the last (rule R46). -/
  irqIn : List Lines
  /-- The reset step (`70_reset_and_hazards.md` rule R311) has still to happen. -/
  resetPending : Bool
  /-- The parameters of `00_scope.md` rule R4. -/
  plat : Platform
  /-- Cycles counted so far (`70_reset_and_hazards.md` rule R328). -/
  cycles : Nat
  /-- The model's own: the number of the next free value (log 41). -/
  draws : Nat
  deriving DecidableEq, Repr

/-- The machine right after reset (`10_state.md` rule R48): FR = 0x0008, CS = 0, no handler active, PC the
word at VEC_RESET of a memory that lists nothing.  The registers rule R48 leaves unspecified hold 0 (DESIGN
CHOICE, unsafe, log 24).  The reset step follows (log 20). -/
def State.reset : State where
  sp := 0#16
  r1 := 0#16
  r2 := 0#16
  r3 := 0#16
  r4 := 0#16
  sr1 := 0#16
  sr2 := 0#16
  sr3 := 0#16
  sr4 := 0#16
  bp := 0#16
  sr := 0#16
  pc := Memory.getWord [] defaultPlatform.vecReset
  fr := 0x0008#16
  inBrk := false
  inFiq := false
  irqDepth := 0
  mem := []
  irqIn := []
  resetPending := true
  plat := defaultPlatform
  cycles := 0
  draws := 0

end Sys2Proof.Machine
end

