-- ==== Sys2Proof/Machine/Registers.lean ====
section
/-! DEFINITION. Reading and writing registers and their fields.  Every access of the machine to a register
goes through these. -/

namespace Sys2Proof.Machine

/-- The thirteen registers but FR, each by its own name (`10_state.md` rule R20). -/
inductive Phys where
  | sp | r1 | r2 | r3 | r4 | sr1 | sr2 | sr3 | sr4 | bp | sr | pc
  deriving DecidableEq, Repr

/-- The register a number names: 1 to 4 name SR1 to SR4 in the secondary bank (rules R21, R22). -/
def physOf (secondary : Bool) : Reg → Phys
  | .sp => .sp
  | .r1 => if secondary then .sr1 else .r1
  | .r2 => if secondary then .sr2 else .r2
  | .r3 => if secondary then .sr3 else .r3
  | .r4 => if secondary then .sr4 else .r4
  | .bp => .bp
  | .sr => .sr
  | .pc => .pc

namespace State

/-- A register's value. -/
def get (s : State) : Phys → Word
  | .sp => s.sp | .r1 => s.r1 | .r2 => s.r2 | .r3 => s.r3 | .r4 => s.r4
  | .sr1 => s.sr1 | .sr2 => s.sr2 | .sr3 => s.sr3 | .sr4 => s.sr4
  | .bp => s.bp | .sr => s.sr | .pc => s.pc

/-- The state with one register written. -/
def set (s : State) (p : Phys) (v : Word) : State :=
  match p with
  | .sp => { s with sp := v }
  | .r1 => { s with r1 := v }
  | .r2 => { s with r2 := v }
  | .r3 => { s with r3 := v }
  | .r4 => { s with r4 := v }
  | .sr1 => { s with sr1 := v }
  | .sr2 => { s with sr2 := v }
  | .sr3 => { s with sr3 := v }
  | .sr4 => { s with sr4 := v }
  | .bp => { s with bp := v }
  | .sr => { s with sr := v }
  | .pc => { s with pc := v }

/-! #### The flag register (rules R33 to R42) -/

/-- FR.AQ. -/
def aq (s : State) : Bool := s.fr.getLsbD 14
/-- FR.BNK: the secondary bank is in use. -/
def bnk (s : State) : Bool := s.fr.getLsbD 13
/-- FR.FRA: fraction mode is on. -/
def fra (s : State) : Bool := s.fr.getLsbD 12
/-- FR.FIR: the FIR move mode is OFF (rule R37, inverted sense). -/
def fir (s : State) : Bool := s.fr.getLsbD 11
/-- FR.SB, the shift buffer. -/
def sb (s : State) : BitVec 4 := s.fr.extractLsb' 7 4
/-- FR.FIQ: FIQ is enabled. -/
def fiqOn (s : State) : Bool := s.fr.getLsbD 6
/-- FR.IRQ: the IRQs are enabled. -/
def irqOn (s : State) : Bool := s.fr.getLsbD 5
/-- FR.INE: IRQ nest mode is on. -/
def ine (s : State) : Bool := s.fr.getLsbD 4
/-- FR.PRI. -/
def pri (s : State) : BitVec 4 := s.fr.extractLsb' 0 4
/-- FR as a program or a push reads it: bit 15 reads 0 (rule R42, decision D6). -/
def frWord (s : State) : Word := s.fr &&& maskFr

/-- The bits of FR under a mask written. -/
def writeFr (s : State) (mask v : Word) : State := { s with fr := mergeBits mask v s.fr }
/-- FR[14:0] written; a write to bit 15 is ignored (rule R42, decision D6). -/
def setFr (s : State) (v : Word) : State := s.writeFr maskFr v
/-- FR.AQ written. -/
def setAq (s : State) (b : Bool) : State := s.writeFr maskAq (flagBit b maskAq)
/-- FR.SB written. -/
def setSb (s : State) (v : BitVec 4) : State := s.writeFr maskSb (v.setWidth 16 <<< 7)
/-- FR.PRI written. -/
def setPri (s : State) (v : BitVec 4) : State := s.writeFr maskPri (v.setWidth 16)

/-! #### Registers by number (rules R21, R22) -/

/-- `x[r]`: register number `r` through the bank in force. -/
def x (s : State) (r : Reg) : Word := s.get (physOf s.bnk r)
/-- `x[r] <- v`. -/
def setX (s : State) (r : Reg) (v : Word) : State := s.set (physOf s.bnk r) v
/-- MR = {R4, R3} (rule R27). -/
def mr (s : State) : BitVec 32 := s.x .r4 ++ s.x .r3
/-- MR written. -/
def setMr (s : State) (v : BitVec 32) : State :=
  (s.setX .r4 (v.extractLsb' 16 16)).setX .r3 (v.extractLsb' 0 16)

/-! #### The status register (rules R28 to R32) -/

/-- SR.DS. -/
def ds (s : State) : BitVec 6 := s.sr.extractLsb' 10 6
/-- SR.N. -/
def flagN (s : State) : Bool := s.sr.getLsbD 9
/-- SR.Z. -/
def flagZ (s : State) : Bool := s.sr.getLsbD 8
/-- SR.S. -/
def flagS (s : State) : Bool := s.sr.getLsbD 7
/-- SR.C. -/
def flagC (s : State) : Bool := s.sr.getLsbD 6
/-- SR.CS. -/
def cs (s : State) : BitVec 6 := s.sr.extractLsb' 0 6

/-- The bits of SR under a mask written. -/
def writeSr (s : State) (mask v : Word) : State := { s with sr := mergeBits mask v s.sr }
/-- SR.DS written, the other ten bits kept. -/
def setDs (s : State) (v : BitVec 6) : State := { s with sr := v ++ s.sr.extractLsb' 0 10 }
/-- SR.CS written, the other ten bits kept. -/
def setCs (s : State) (v : BitVec 6) : State := { s with sr := s.sr.extractLsb' 6 10 ++ v }

/-- A free value (log 41). -/
def drawn (s : State) : Word := Config.drawWord s.draws
/-- The state after a free value is taken. -/
def countDraw (s : State) : State := { s with draws := s.draws + 1 }
/-- The bits of SR under a mask take unspecified values. -/
def drawSr (s : State) (mask : Word) : State := (s.writeSr mask s.drawn).countDraw

/-! #### The location counter (rules R6, R25, R58) -/

/-- `LPC = {SR.CS, PC}`. -/
def lpc (s : State) : Addr := mkAddr s.cs s.pc
/-- `LPC <- a`. -/
def setLpc (s : State) (a : Addr) : State :=
  { s.setCs (a.extractLsb' 16 6) with pc := a.extractLsb' 0 16 }
/-- `LPC <- (LPC + 1) mod 2^22`. -/
def advance (s : State) : State := s.setLpc (s.lpc + 1#22)

end State

/-- The target `{R4[5:0], R3}` of GOTO MR and CALL MR (`44_control_flow.md` rule R228). -/
def mrTarget (s : State) : Addr := mkAddr ((s.x .r4).extractLsb' 0 6) (s.x .r3)

end Sys2Proof.Machine
end

