-- ==== Sys2Proof/Machine/Flags.lean ====
section
/-! DEFINITION. The ALU: results and condition flags (`41_alu.md` rules R121 to R133, `10_state.md` rules
R29, R30). -/

namespace Sys2Proof.Machine

/-- The second input of the adder (rule R121). -/
def adderB (op : AluOp) (b : Word) : Word :=
  match op with
  | .sub | .sbc | .cmp => ~~~b
  | _ => b

/-- The carry into the adder (rule R121). -/
def adderCin (op : AluOp) (c : Bool) : Bool :=
  match op with
  | .adc | .sbc => c
  | .sub | .cmp => true
  | _ => false

/-- The 17-bit sum `zext_17(a) + zext_17(bb) + cin` (rule R121). -/
def adderSum (a bb : Word) (cin : Bool) : BitVec 17 :=
  a.setWidth 17 + bb.setWidth 17 + (BitVec.ofBool cin).setWidth 17

/-- Whether the operation runs the adder: it writes N, Z, S and C. -/
def isAdder : AluOp → Bool
  | .add | .adc | .sub | .sbc | .cmp => true
  | _ => false

/-- The 16-bit result `r` of an operation on `a`, `b` and the carry before it (rules R122 to R133). -/
def aluResult (op : AluOp) (a b : Word) (c : Bool) : Word :=
  match op with
  | .add | .adc | .sub | .sbc | .cmp => (adderSum a (adderB op b) (adderCin op c)).setWidth 16
  | .neg => 0#16 - b
  | .xor => a ^^^ b
  | .load | .store => b
  | .or => a ||| b
  | .and | .test => a &&& b

/-- The flags an operation writes (rule R30): all four from the adder, N and Z from the logic operations,
none from STORE. -/
def aluMask (op : AluOp) : Word :=
  match op with
  | .add | .adc | .sub | .sbc | .cmp => maskNZSC
  | .store => 0#16
  | _ => maskNZ

/-- The flags' new values, in their places in SR: N = r[15], Z = (r = 0), C = t[16], S = a[15] ^ bb[15] ^
t[16] (rules R29, R121; S by decision D4, log 4). -/
def aluFlagBits (op : AluOp) (a b : Word) (c : Bool) : Word :=
  let r := aluResult op a b c
  let bb := adderB op b
  let t := adderSum a bb (adderCin op c)
  flagBit r.msb maskN ||| flagBit (r == 0#16) maskZ |||
    flagBit (a.msb ^^ bb.msb ^^ t.msb) maskS ||| flagBit t.msb maskC

/-- Whether an operation writes a destination: not CMP, TEST (flags only) and not STORE (rule R120). -/
def writesResult : AluOp → Bool
  | .cmp | .test | .store => false
  | _ => true

/-- The state with an operation's flags written. -/
def State.setAluFlags (op : AluOp) (a b : Word) (s : State) : State :=
  s.writeSr (aluMask op) (aluFlagBits op a b s.flagC)

/-- The test of a branch (`44_control_flow.md` rule R211). -/
def condHolds (c : Cond) (s : State) : Bool :=
  match c with
  | .cc => !s.flagC
  | .cs => s.flagC
  | .sc => !s.flagS
  | .ss => s.flagS
  | .ne => !s.flagZ
  | .z => s.flagZ
  | .pl => !s.flagN
  | .mi => s.flagN
  | .be => !(!s.flagZ && s.flagC)
  | .a => !s.flagZ && s.flagC
  | .le => !(!s.flagZ && !s.flagS)
  | .g => !s.flagZ && !s.flagS
  | .vc => s.flagN == s.flagS
  | .vs => s.flagN != s.flagS
  | .always => true

end Sys2Proof.Machine
end

