-- ==== Sys2Proof/Machine/Ops.lean ====
section
/-! DEFINITION. The shared operations: memory accesses, the stack, writing a result with its flags, taking an
interrupt and returning from one, and reset. -/

namespace Sys2Proof.Machine

/-- An outcome that carries a value. -/
abbrev Res (α : Type) := Host.Outcome α Fault Refusal

/-- One operation after another; a stop ends the sequence. -/
def andThen {α β : Type} (r : Res α) (k : α → Res β) : Res β :=
  match r with
  | .next a => k a
  | .fault f => .fault f
  | .refused q => .refused q

/-- Refuse the operands a check rejects. -/
def guarded {α : Type} (c : Option Reserved) (r : Res α) : Res α :=
  match c with
  | some why => .refused (.reserved why)
  | none => r

/-! ### Memory accesses (`20_memory.md` rules R56, R69, R71, R74) -/

/-- What stands behind an address. -/
def kindAt (s : State) (a : Addr) : MemKind := kindIn s.plat.map a.toNat

/-- `MemRead(a, 1)`. -/
def memRead (a : Addr) (s : State) : Res Word :=
  match kindAt s a with
  | .ram | .rom => .next (Memory.getWord s.mem a)
  | .device => .fault (.deviceAccess a.toNat)
  | .absent => .fault (.absentAddress a.toNat)

/-- `MemWrite(a, 1, v)`. -/
def memWrite (a : Addr) (v : Word) (s : State) : Res State :=
  match kindAt s a with
  | .ram => .next { s with mem := Memory.setWord s.mem a v }
  | .rom => .fault (.romWrite a.toNat)
  | .device => .fault (.deviceAccess a.toNat)
  | .absent => .fault (.absentAddress a.toNat)

/-- A data address: `{SR.DS, off}` with the "D:" indicator, else bank 0 (rules R63, R65). -/
def dataAddr (d : Bool) (off : Word) (s : State) : Addr := if d then mkAddr s.ds off else bank0 off

/-! ### The stack (`20_memory.md` rule R66; `46_call_interrupt.md`) -/

/-- Store at the pointer register, then decrement it (decision D8, log 8). -/
def pushAt (ptr : Reg) (v : Word) (s : State) : Res State :=
  andThen (memWrite (bank0 (s.x ptr)) v s) fun t => .next (t.setX ptr (s.x ptr - 1#16))

/-- Increment the pointer register, then load (decision D8, log 8). -/
def popAt (ptr : Reg) (s : State) : Res (Word × State) :=
  let t := s.setX ptr (s.x ptr + 1#16)
  andThen (memRead (bank0 (t.x ptr)) t) fun v => .next (v, t)

/-- `push(v)` through SP. -/
def push (v : Word) (s : State) : Res State := pushAt .sp v s

/-- `pop()` through SP. -/
def pop (s : State) : Res (Word × State) := popAt .sp s

/-- Push PC, then SR: the return frame (`46_call_interrupt.md` rule R262). -/
def pushFrame (s : State) : Res State := andThen (push s.pc s) fun t => push s.sr t

/-- Pop SR, then PC (`46_call_interrupt.md` rule R263). -/
def popFrame (s : State) : Res State :=
  andThen (pop s) fun (v, t) =>
  andThen (pop { t with sr := v }) fun (w, u) => .next { u with pc := w }

/-! ### Results -/

/-- Write a result to a register together with the flags under `mask`.  When the register is SR, the flags
the operation writes take unspecified values and the other bits take the result's (`10_state.md` rule R43,
decision D5, log 5). -/
def writeBack (mask flags : Word) (rd : Reg) (r : Word) (s : State) : State :=
  if rd = .sr then (s.setX .sr r).drawSr mask else (s.writeSr mask flags).setX rd r

/-- The end of an ALU instruction: flags and, unless it is CMP or TEST, the result (`41_alu.md` rule
R120). -/
def aluFinish (op : AluOp) (rd : Reg) (a b : Word) (s : State) : State :=
  if writesResult op then
    writeBack (aluMask op) (aluFlagBits op a b s.flagC) rd (aluResult op a b s.flagC) s
  else s.setAluFlags op a b

/-- A mode instruction: the bits of FR under `mask` take those of `v` (`40_operation_mode.md`). -/
def writeMode (mask v : Word) (s : State) : Res State := .next (s.writeFr mask v)

/-! ### Taking an interrupt (`60_exceptions.md` rules R285 to R289; BREAK: `46_call_interrupt.md` rule R265) -/

/-- The vector word of a source (`20_memory.md` rule R68). -/
def vectorOf (src : IntSource) (s : State) : Addr :=
  match src with
  | .brk => vecBreak
  | .fiq => s.plat.vecFiq
  | .irq n => s.plat.vecIrq[n]

/-- Mark a source as in service (`10_state.md` rule R45). -/
def State.beginService (src : IntSource) (s : State) : State :=
  match src with
  | .brk => { s with inBrk := true }
  | .fiq => { s with inFiq := true }
  | .irq _ => { s with irqDepth := s.irqDepth + 1 }

/-- An IRQ in nest mode pushes FR and sets PRI to its number; every other entry leaves FR alone (rule
R285). -/
def pushNestFr (src : IntSource) (s : State) : Res State :=
  match src with
  | .irq n =>
    if s.ine then andThen (push s.frWord s) fun t => .next (t.setPri (BitVec.ofNat 4 n.val)) else .next s
  | _ => .next s

/-- The entry sequence of BREAK, FIQ and IRQn: push PC, push SR, in nest mode push FR and set PRI, mark the
service, go to the vector word's address in bank 0 (rule R286, decision D28, log 28); DS and the flags hold
unspecified values afterwards (rule R287, decision D29, log 29). -/
def enterInterrupt (src : IntSource) (s : State) : Res State :=
  andThen (pushFrame s) fun t =>
  andThen (pushNestFr src t) fun u =>
  let v := u.beginService src
  andThen (memRead (vectorOf src v) v) fun w =>
  .next (({ v with pc := w }.setCs 0#6).drawSr maskNotCs)

/-! ### Returning (`46_call_interrupt.md` rules R263, R266; `60_exceptions.md` rule R290) -/

/-- The handler being left: the highest-ranking servicing flag, BRK, then FIQ, then IRQ (decision D23, log
23). -/
inductive ServiceLevel where
  | brk | fiq | irq | none
  deriving DecidableEq, Repr

/-- The level of rule R266. -/
def serviceLevel (s : State) : ServiceLevel :=
  if s.inBrk then .brk else if s.inFiq then .fiq else if 0 < s.irqDepth then .irq else .none

/-- Clear the servicing flag of the level left, or take one from the IRQ depth. -/
def State.endService (l : ServiceLevel) (s : State) : State :=
  match l with
  | .brk => { s with inBrk := false }
  | .fiq => { s with inFiq := false }
  | .irq => { s with irqDepth := s.irqDepth - 1 }
  | .none => s

/-- Whether RETI pops FR: nest mode is on and an IRQ handler is left (rule R266). -/
def popsFr (s : State) : Bool := s.ine && (serviceLevel s == .irq)

/-- RETF: SR, then PC. -/
def returnFar (s : State) : Res State := popFrame s

/-- RETI: FR when rule R266 says so, then SR, then PC, then the servicing flag. -/
def returnInterrupt (s : State) : Res State :=
  let l := serviceLevel s
  let afterFr : Res State :=
    if popsFr s then andThen (pop s) fun (v, t) => .next (t.setFr v) else .next s
  andThen afterFr fun t => andThen (popFrame t) fun u => .next (u.endService l)

/-- CALL: the return frame, then the far jump (`46_call_interrupt.md` rules R260, R261). -/
def callTo (target : Addr) (s : State) : Res State :=
  andThen (pushFrame s) fun t => .next (t.setLpc target)

/-! ### Reset (`70_reset_and_hazards.md` rule R311) -/

/-- The reset step: PC from the reset vector's word, CS = 0 (decision D20, log 20).  Its cycles are a free
value (log 40). -/
def resetStep (s : State) : Res State :=
  andThen (memRead s.plat.vecReset s) fun w =>
  .next ({ s with pc := w, resetPending := false, cycles := s.cycles + Config.unstatedCycles s.draws }.setCs
    0#6).countDraw

end Sys2Proof.Machine
end

