-- ==== Sys2Proof/Machine/Operands.lean ====
section
/-! DEFINITION. The operand forms: what each form of `41_alu.md` section 3, `42_bit_shift.md`,
`43_mul_div_exp.md`, `44_control_flow.md` and `45_segment_flag_stack.md` does with an operation. -/

namespace Sys2Proof.Machine

/-! ### The shifter (`41_alu.md` rules R136 to R141) -/

/-- The shift count of a shifted operand: the field plus one (`30_encoding.md` rule R83). -/
def shiftCount (n : BitVec 2) : Nat := n.toNat + 1

/-- The shifted operand and the new shift buffer.  Right shifts work on `{Rs, SB}`, left shifts on
`{SB, Rs}`, 20 bits (rules R137 to R141). -/
def shifter (k : ShiftKind) (n : Nat) (v : Word) (sb : BitVec 4) : Word × BitVec 4 :=
  let down : BitVec 20 := v ++ sb
  let up : BitVec 20 := sb ++ v
  match k with
  | .asr => let t := down.sshiftRight n; (t.extractLsb' 4 16, t.extractLsb' 0 4)
  | .lsl => let t := up <<< n; (t.extractLsb' 0 16, t.extractLsb' 16 4)
  | .lsr => let t := down >>> n; (t.extractLsb' 4 16, t.extractLsb' 0 4)
  | .rol => let t := (up <<< n) ||| (up >>> (20 - n)); (t.extractLsb' 0 16, t.extractLsb' 16 4)
  | .ror => let t := (down >>> n) ||| (down <<< (20 - n)); (t.extractLsb' 4 16, t.extractLsb' 0 4)

/-! ### ALU operand forms (`41_alu.md` rules R134 to R147) -/

/-- `Rd op= IM6` (rule R134). -/
def aluIm6 (op : AluOp) (rd : Reg) (imm : BitVec 6) (s : State) : Res State :=
  guarded (checkDest rd) (.next (aluFinish op rd (s.x rd) (imm.setWidth 16) s))

/-- `Rd = Rs op IM16` (rule R135). -/
def aluIm16 (op : AluOp) (rd rs : Reg) (imm : Word) (s : State) : Res State :=
  .next (aluFinish op rd (s.x rs) imm s)

/-- `Rd op= Rs` (rule R136). -/
def aluReg (op : AluOp) (rd rs : Reg) (s : State) : Res State :=
  .next (aluFinish op rd (s.x rd) (s.x rs) s)

/-- `Rd op= Rs SFT n` (rule R136): FR.SB is read and written, Rs is not. -/
def aluShifted (op : AluOp) (k : ShiftKind) (rd : Reg) (n : BitVec 2) (rs : Reg) (s : State) : Res State :=
  let out := shifter k (shiftCount n) (s.x rs) s.sb
  .next (aluFinish op rd (s.x rd) out.1 (s.setSb out.2))

/-- An ALU operation whose second operand is a memory word. -/
def aluFrom (op : AluOp) (rd : Reg) (a : Word) (addr : Addr) (s : State) : Res State :=
  andThen (memRead addr s) fun b => .next (aluFinish op rd a b s)

/-- The address of `[A6]` (`20_memory.md` rule R60). -/
def addrA6 (addr : BitVec 6) : Addr := addr.setWidth 22

/-- The address of `[A16]` (rule R61). -/
def addrA16 (addr : Word) : Addr := addr.setWidth 22

/-- The address of `[BP+IM6]`: the sum wraps at 16 bits, bank 0 (rule R62, decision D7, log 7). -/
def addrBp (imm : BitVec 6) (s : State) : Addr := bank0 (s.x .bp + imm.setWidth 16)

/-- `Rd op= [A6]` (rule R143). -/
def aluA6 (op : AluOp) (rd : Reg) (addr : BitVec 6) (s : State) : Res State :=
  aluFrom op rd (s.x rd) (addrA6 addr) s

/-- `Rd = Rs op [A16]` (rule R144). -/
def aluA16 (op : AluOp) (rd rs : Reg) (addr : Word) (s : State) : Res State :=
  aluFrom op rd (s.x rs) (addrA16 addr) s

/-- `[A16] = Rd op b` (rule R145): the result goes to memory, which is not read; CMP and TEST write flags
only. -/
def aluA16w (op : AluOp) (rd : Reg) (b : Word) (addr : Word) (s : State) : Res State :=
  let a := s.x rd
  if writesResult op then
    andThen (memWrite (addrA16 addr) (aluResult op a b s.flagC) s) fun t => .next (t.setAluFlags op a b)
  else .next (s.setAluFlags op a b)

/-- `Rd op= [BP+IM6]` (rule R147). -/
def aluBpIm6 (op : AluOp) (rd : Reg) (imm : BitVec 6) (s : State) : Res State :=
  guarded (checkDest rd) (aluFrom op rd (s.x rd) (addrBp imm s) s)

/-- Step a pointer by `delta` (rule R64): with "D:" the 22-bit pair `{SR.DS, x[rs]}`, else the register. -/
def stepPtr (d : Bool) (delta : Addr) (rs : Reg) (s : State) : State :=
  if d then
    let p := mkAddr s.ds (s.x rs) + delta
    (s.setDs (p.extractLsb' 16 6)).setX rs (p.extractLsb' 0 16)
  else s.setX rs (s.x rs + delta.extractLsb' 0 16)

/-- The pre-increment of `++Rs`. -/
def preStep (d : Bool) (mark : PtrMark) (rs : Reg) (s : State) : State :=
  match mark with
  | .preInc => stepPtr d 1#22 rs s
  | _ => s

/-- The post-increment of `Rs++` and the post-decrement of `Rs--`. -/
def postStep (d : Bool) (mark : PtrMark) (rs : Reg) (s : State) : State :=
  match mark with
  | .postInc => stepPtr d 1#22 rs s
  | .postDec => stepPtr d (-1#22) rs s
  | _ => s

/-- `Rd op= {D:}[Rs@]` (rule R146). -/
def aluInd (op : AluOp) (rd : Reg) (d : Bool) (mark : PtrMark) (rs : Reg) (s : State) : Res State :=
  guarded (checkInd rd d mark rs) <|
    let t := preStep d mark rs s
    andThen (aluFrom op rd (t.x rd) (dataAddr d (t.x rs) t) t) fun u => .next (postStep d mark rs u)

/-! ### STORE (`41_alu.md` rule R133) -/

/-- `[A6] = Rd`. -/
def storeA6 (rd : Reg) (addr : BitVec 6) (s : State) : Res State := memWrite (addrA6 addr) (s.x rd) s

/-- `[A16] = Rd`. -/
def storeA16w (rd : Reg) (addr : Word) (s : State) : Res State := memWrite (addrA16 addr) (s.x rd) s

/-- `[BP+IM6] = Rd`. -/
def storeBpIm6 (rd : Reg) (imm : BitVec 6) (s : State) : Res State :=
  guarded (checkDest rd) (memWrite (addrBp imm s) (s.x rd) s)

/-- `{D:}[Rs@] = Rd` (rule R146). -/
def storeInd (rd : Reg) (d : Bool) (mark : PtrMark) (rs : Reg) (s : State) : Res State :=
  guarded (checkInd rd d mark rs) <|
    let t := preStep d mark rs s
    andThen (memWrite (dataAddr d (t.x rs) t) (t.x rd) t) fun u => .next (postStep d mark rs u)

/-! ### Bit operations (`42_bit_shift.md` rules R160 to R170) -/

/-- The bit number in a register: "only the least significant 4 bits" (rule R165). -/
def bitNumber (v : Word) : BitVec 4 := v.extractLsb' 0 4

/-- The new word of a bit operation (rules R161 to R164). -/
def bitResult (b : BitOp) (old : Word) (k : BitVec 4) : Word :=
  let one : Word := 1#16 <<< k.toNat
  match b with
  | .tstb => old
  | .setb => old ||| one
  | .clrb => old &&& ~~~one
  | .invb => old ^^^ one

/-- Z from the bit before the change (rule R160). -/
def bitZ (old : Word) (k : BitVec 4) : Word := flagBit (!old.getLsbD k.toNat) maskZ

/-- `BIT_OP Rd, k` (rules R165, R166).  TSTB writes Z only, so Rd = SR is a collision for the three others
only (rule R170, log 5). -/
def bitReg (b : BitOp) (rd : Reg) (k : BitVec 4) (s : State) : Res State :=
  guarded (checkDest rd) <| .next <|
    match b with
    | .tstb => s.writeSr maskZ (bitZ (s.x rd) k)
    | _ => writeBack maskZ (bitZ (s.x rd) k) rd (bitResult b (s.x rd) k) s

/-- `BIT_OP {D:}[Rd], k` (rules R167, R168): one read, and one write unless TSTB. -/
def bitMem (b : BitOp) (d : Bool) (rd : Reg) (k : BitVec 4) (s : State) : Res State :=
  guarded (checkDest rd) <|
    let a := dataAddr d (s.x rd) s
    andThen (memRead a s) fun old =>
    match b with
    | .tstb => .next (s.writeSr maskZ (bitZ old k))
    | _ => andThen (memWrite a (bitResult b old k) s) fun t => .next (t.writeSr maskZ (bitZ old k))

/-! ### 16-bit shifts (`42_bit_shift.md` rules R171 to R181) -/

/-- The count of the six shifts that do not rotate: Rs[4:0] (rule R171). -/
def longCount (v : Word) : Nat := (v.extractLsb' 0 5).toNat

/-- The result of ASR, LSL and LSR (rules R172, R174, R176). -/
def longShiftResult (k : LongShift) (v : Word) (n : Nat) : Word :=
  match k with
  | .asr => v.sshiftRight n
  | .lsl => v <<< n
  | .lsr => v >>> n
  | _ => v

/-- ASR, LSL, LSR: C is unspecified afterwards (rule R171, decision D19, log 18). -/
def shiftPlain (k : LongShift) (rd rs : Reg) (s : State) : Res State :=
  guarded (checkShift16 k rd) <|
    .next ((s.setX rd (longShiftResult k (s.x rd) (longCount (s.x rs)))).drawSr maskC)

/-- The 32-bit value of the OR forms (rules R173, R175, R177). -/
def orShiftWide (k : LongShift) (v : Word) (n : Nat) : BitVec 32 :=
  match k with
  | .asror => (v ++ 0#16 : BitVec 32).sshiftRight n
  | .lsror => (v ++ 0#16 : BitVec 32) >>> n
  | .lslor => (v.setWidth 32) <<< n
  | _ => 0#32

/-- ASROR, LSROR (Rd = R4: the low half is ORed into R3) and LSLOR (Rd = R3: the high half is ORed into R4);
C is unspecified afterwards (rules R171, R173, R175, R177). -/
def shiftOr (k : LongShift) (rd rs : Reg) (s : State) : Res State :=
  guarded (checkShift16 k rd) <|
    let wide := orShiftWide k (s.x rd) (longCount (s.x rs))
    let hi : Word := wide.extractLsb' 16 16
    let lo : Word := wide.extractLsb' 0 16
    let out : BitVec 32 := if k = .lslor then (s.x .r4 ||| hi) ++ lo else hi ++ (s.x .r3 ||| lo)
    .next ((s.setMr out).drawSr maskC)

/-- The 17-bit rotate through C of ROL and ROR by Rs[3:0] (rules R178, R179). -/
def rotateThroughC (k : LongShift) (c : Bool) (v : Word) (n : Nat) : BitVec 17 :=
  let t : BitVec 17 := BitVec.ofBool c ++ v
  match k with
  | .rol => (t <<< n) ||| (t >>> (17 - n))
  | .ror => (t >>> n) ||| (t <<< (17 - n))
  | _ => t

/-- ROL, ROR: the rotated word to Rd, the 17th bit to C (rules R178, R179; Rd = SR: rule R181). -/
def shiftRotate (k : LongShift) (rd rs : Reg) (s : State) : Res State :=
  guarded (checkShift16 k rd) <|
    let t := rotateThroughC k s.flagC (s.x rd) (bitNumber (s.x rs)).toNat
    .next (writeBack maskC (flagBit t.msb maskC) rd (t.setWidth 16) s)

/-! ### MUL and MULS (`43_mul_div_exp.md` rules R185 to R195, R202) -/

/-- Whether Rd's operand is signed (rule R185). -/
def rdSigned : MulKind → Bool
  | .ss => true
  | _ => false

/-- Whether Rs's operand is signed (rule R185). -/
def rsSigned : MulKind → Bool
  | .uu => false
  | _ => true

/-- A word's integer value. -/
def wordInt (signed : Bool) (v : Word) : Int := if signed then v.toInt else v.toNat

/-- The exact product, doubled in fraction mode (rules R186, R191). -/
def productOf (k : MulKind) (fraction : Bool) (a b : Word) : Int :=
  let p := wordInt (rdSigned k) a * wordInt (rsSigned k) b
  if fraction then p * 2 else p

/-- `MR = Rd*Rs` (rule R186). -/
def multiply (k : MulKind) (rd rs : Reg) (s : State) : Res State :=
  guarded (checkMul rd rs) <|
    .next (s.setMr (BitVec.ofInt 32 (productOf k s.fra (s.x rd) (s.x rs))))

/-- The number of levels: N, or 16 for N = 0 (rule R190). -/
def levels (n : BitVec 4) : Nat := if n.toNat = 0 then 16 else n.toNat

/-- The words of the two arrays, level by level, `[Rd]` before `[Rs]` in a level (rule R74, decision D31, log
31). -/
def readLevels (xd xs : Word) (s : State) : List Nat → Res (List (Word × Word))
  | [] => .next []
  | i :: is =>
    andThen (memRead (bank0 (xd + BitVec.ofNat 16 i)) s) fun a =>
    andThen (memRead (bank0 (xs + BitVec.ofNat 16 i)) s) fun b =>
    andThen (readLevels xd xs s is) fun rest => .next ((a, b) :: rest)

/-- The sum of the products (rule R191). -/
def sumProducts (k : MulKind) (fraction : Bool) : List (Word × Word) → Int
  | [] => 0
  | p :: ps => productOf k fraction p.1 p.2 + sumProducts k fraction ps

/-- Whether the 36-bit sum does not fit the 32 bits of MR (rule R191, decision D33, log 33). -/
def accOverflow (k : MulKind) (acc : BitVec 36) : Bool :=
  match k with
  | .uu => acc.extractLsb' 32 4 != 0#4
  | _ => acc.extractLsb' 31 5 != 0#5 && acc.extractLsb' 31 5 != 31#5

/-- The default of `fir_move`: for `i` from L - 2 down to 0, sample `i` goes to place `i + 1`; the last sample
is dropped (rule R192, decision D31, PRESUMED, log 31). -/
def moveUp (xd : Word) (samples : List Word) : List (Word × Word) :=
  (List.range (samples.length - 1)).reverse.map fun i => (xd + BitVec.ofNat 16 (i + 1), samples.getD i 0#16)

/-- `fir_move`: the offsets in bank 0 the chip's rule writes and the words it writes there, in order (rule R192,
decision D31, log 31). -/
def firWrites (rule : ChipRule) (xd : Word) (samples : List Word) : List (Word × Word) :=
  match rule with
  | .default => moveUp xd samples
  | .other id => Config.firMoveOf id xd samples

/-- Write words of bank 0, in order. -/
def writeEach : List (Word × Word) → State → Res State
  | [], s => .next s
  | (off, v) :: ws, s => andThen (memWrite (bank0 off) v s) (writeEach ws)

/-- The FIR move of MULS: none while FR.FIR = 1 or with one level, whatever the chip's rule (rule R192). -/
def firMove (xd : Word) (samples : List Word) (s : State) : Res State :=
  if s.fir || samples.length ≤ 1 then .next s else writeEach (firWrites s.plat.firMove xd samples) s

/-- `muls_adjust`: the values written to Rd and to Rs, from their starting values.  By default both advance by the
level count (rule R190, decision D32, PRESUMED, log 32). -/
def adjustedPointers (rule : ChipRule) (rd rs : Reg) (xd xs : Word) (n : Nat) : Word × Word :=
  match rule with
  | .default => (xd + BitVec.ofNat 16 n, xs + BitVec.ofNat 16 n)
  | .other id => Config.mulsAdjustOf id rd rs xd xs n

/-- Adjust the pointers.  One register used as both takes, by default, the one value both clauses of rule R190
give it; under another chip's rule, the second of the two values (log 38). -/
def mulsAdjust (rd rs : Reg) (xd xs : Word) (n : Nat) (s : State) : State :=
  let p := adjustedPointers s.plat.mulsAdjust rd rs xd xs n
  (s.setX rd p.1).setX rs p.2

/-- S after MULS; with SR as a pointer it is unspecified, as rule R43 has it (log 39). -/
def mulsFlag (rd rs : Reg) (overflow : Bool) (s : State) : State :=
  if rd = .sr ∨ rs = .sr then s.drawSr maskS else s.writeSr maskS (flagBit overflow maskS)

/-- `MR = [Rd]*[Rs], N` (rules R190 to R192). -/
def innerProduct (k : MulKind) (rd : Reg) (n : BitVec 4) (rs : Reg) (s : State) : Res State :=
  guarded (checkMuls rd rs) <|
    let xd := s.x rd
    let xs := s.x rs
    let l := levels n
    andThen (readLevels xd xs s (List.range l)) fun data =>
    let acc : BitVec 36 := BitVec.ofInt 36 (sumProducts k s.fra data)
    andThen (firMove xd (data.map Prod.fst) s) fun t =>
    let u := (t.setMr (acc.extractLsb' 0 32)).setSb (acc.extractLsb' 32 4)
    .next (mulsFlag rd rs (accOverflow k acc) (mulsAdjust rd rs xd xs l u))

/-! ### Division steps and EXP (`43_mul_div_exp.md` rules R196, R197, R200) -/

/-- The default of `div_step` for DIVS: MR and AQ afterwards (rule R196, decision D30, PRESUMED, log 30). -/
def divsDefault (r4 r3 r2 : Word) : BitVec 32 × Bool :=
  let aq := r4.msb ^^ r2.msb
  let new4 : Word := r4.extractLsb' 0 15 ++ BitVec.ofBool r3.msb
  let new3 : Word := r3.extractLsb' 0 15 ++ BitVec.ofBool aq
  (new4 ++ new3, aq)

/-- The default of `div_step` for DIVQ: MR and AQ afterwards (rule R197, decision D30, PRESUMED, log 30). -/
def divqDefault (r4 r3 r2 : Word) (aq : Bool) : BitVec 32 × Bool :=
  let r := if aq then r4 + r2 else r4 - r2
  let next := r.msb ^^ r2.msb
  let new4 : Word := r.extractLsb' 0 15 ++ BitVec.ofBool r3.msb
  let new3 : Word := r3.extractLsb' 0 15 ++ BitVec.ofBool (!next)
  (new4 ++ new3, next)

/-- DIVS: MR and AQ by the chip's `div_step`, and nothing else (rule R196, log 30). -/
def divSign (s : State) : Res State :=
  let out :=
    match s.plat.divStep with
    | .default => divsDefault (s.x .r4) (s.x .r3) (s.x .r2)
    | .other id => Config.divsOf id s.mr (s.x .r2) s.aq
  .next ((s.setMr out.1).setAq out.2)

/-- DIVQ: MR and AQ by the chip's `div_step`; "reads and writes MR, reads R2, reads and writes FR.AQ, and touches
nothing else", whatever the chip (rule R197, log 30). -/
def divQuotient (s : State) : Res State :=
  let out :=
    match s.plat.divStep with
    | .default => divqDefault (s.x .r4) (s.x .r3) (s.x .r2) s.aq
    | .other id => Config.divqOf id s.mr (s.x .r2) s.aq
  .next ((s.setMr out.1).setAq out.2)

/-- How many of the bits below bit `n`, from bit `n - 1` down, equal bit 15 before the first that differs. -/
def signRun (v : Word) : Nat → Nat
  | 0 => 0
  | n + 1 => if v.getLsbD n = v.msb then 1 + signRun v n else 0

/-- EXP: the number of redundant sign bits of R4 to R2 (rule R200). -/
def effectiveExponent (s : State) : Res State :=
  .next (s.setX .r2 (BitVec.ofNat 16 (signRun (s.x .r4) 15)))

/-! ### Branches (`44_control_flow.md` rules R210, R212) -/

/-- The target: the address after the branch plus or minus IM6, on 22 bits (decision D35, log 35). -/
def branchTarget (back : Bool) (imm : BitVec 6) (s : State) : Addr :=
  if back then s.lpc - imm.setWidth 22 else s.lpc + imm.setWidth 22

/-- A conditional short jump. -/
def branch (c : Cond) (back : Bool) (imm : BitVec 6) (s : State) : Res State :=
  .next (if condHolds c s then s.setLpc (branchTarget back imm s) else s)

/-! ### PUSH and POP (`45_segment_flag_stack.md` rules R245 to R251) -/

/-- The register with a number. -/
def regOfNum (n : Nat) : Reg :=
  match n with
  | 0 => .sp | 1 => .r1 | 2 => .r2 | 3 => .r3 | 4 => .r4 | 5 => .bp | 6 => .sr | _ => .pc

/-- The list of PUSH: `rd` down to `rd - N + 1` (rule R247). -/
def pushRegs (rd : Reg) (n : BitVec 3) : List Reg :=
  (List.range n.toNat).map fun i => regOfNum (rd.num - i)

/-- The list of POP: `rd + 1` up to `rd + N` (rule R250). -/
def popRegs (rd : Reg) (n : BitVec 3) : List Reg :=
  (List.range n.toNat).map fun i => regOfNum (rd.num + 1 + i)

/-- Push the registers of a list in order. -/
def pushEach (ptr : Reg) : List Reg → State → Res State
  | [], s => .next s
  | r :: rs, s => andThen (pushAt ptr (s.x r) s) fun t => pushEach ptr rs t

/-- Pop the registers of a list in order. -/
def popEach (ptr : Reg) : List Reg → State → Res State
  | [], s => .next s
  | r :: rs, s => andThen (popAt ptr s) fun (v, t) => popEach ptr rs (t.setX r v)

/-- PUSH (rule R247). -/
def pushList (rd : Reg) (n : BitVec 3) (rs : Reg) (s : State) : Res State :=
  guarded (checkPush rd n rs) (pushEach rs (pushRegs rd n) s)

/-- POP (rule R250). -/
def popList (rd : Reg) (n : BitVec 3) (rs : Reg) (s : State) : Res State :=
  guarded (checkPop rd n rs) (popEach rs (popRegs rd n) s)

end Sys2Proof.Machine
end

