-- ==== Sys2Proof/Machine/AluAdc.lean ====
section
/-! DEFINITION. ADC in its operand forms (`41_alu.md`): one meaning for each instruction. -/

namespace Sys2Proof.Machine

/-- ADC.BP_IM6, `Rd += [BP+IM6], Carry`: rules R123, R147. -/
def execAdcBpIm6 (rd : Reg) (imm : BitVec 6) (s : State) : Res State :=
  aluBpIm6 .adc rd imm s

/-- ADC.IM6, `Rd += IM6, Carry`: rules R123, R134. -/
def execAdcIm6 (rd : Reg) (imm : BitVec 6) (s : State) : Res State :=
  aluIm6 .adc rd imm s

/-- ADC.IND, `Rd += {D:}[Rs@], Carry`: rules R123, R146. -/
def execAdcInd (rd : Reg) (d : Bool) (mark : PtrMark) (rs : Reg) (s : State) : Res State :=
  aluInd .adc rd d mark rs s

/-- ADC.REG, `Rd += Rs, Carry`: rules R123, R136. -/
def execAdcReg (rd : Reg) (rs : Reg) (s : State) : Res State :=
  aluReg .adc rd rs s

/-- ADC.IM16, `Rd = Rs + IM16, Carry`: rules R123, R135. -/
def execAdcIm16 (rd : Reg) (rs : Reg) (imm : Word) (s : State) : Res State :=
  aluIm16 .adc rd rs imm s

/-- ADC.A16, `Rd = Rs + [A16], Carry`: rules R123, R144. -/
def execAdcA16 (rd : Reg) (rs : Reg) (addr : Word) (s : State) : Res State :=
  aluA16 .adc rd rs addr s

/-- ADC.A16W, `[A16] = Rd + Rs, Carry`: rules R123, R145. -/
def execAdcA16w (rd : Reg) (rs : Reg) (addr : Word) (s : State) : Res State :=
  aluA16w .adc rd (s.x rs) addr s

/-- ADC.ASR, `Rd += Rs ASR n, Carry`: rules R123, R136, R137. -/
def execAdcAsr (rd : Reg) (n : BitVec 2) (rs : Reg) (s : State) : Res State :=
  aluShifted .adc .asr rd n rs s

/-- ADC.LSL, `Rd += Rs LSL n, Carry`: rules R123, R136, R138. -/
def execAdcLsl (rd : Reg) (n : BitVec 2) (rs : Reg) (s : State) : Res State :=
  aluShifted .adc .lsl rd n rs s

/-- ADC.LSR, `Rd += Rs LSR n, Carry`: rules R123, R136, R139. -/
def execAdcLsr (rd : Reg) (n : BitVec 2) (rs : Reg) (s : State) : Res State :=
  aluShifted .adc .lsr rd n rs s

/-- ADC.ROL, `Rd += Rs ROL n, Carry`: rules R123, R136, R140. -/
def execAdcRol (rd : Reg) (n : BitVec 2) (rs : Reg) (s : State) : Res State :=
  aluShifted .adc .rol rd n rs s

/-- ADC.ROR, `Rd += Rs ROR n, Carry`: rules R123, R136, R141. -/
def execAdcRor (rd : Reg) (n : BitVec 2) (rs : Reg) (s : State) : Res State :=
  aluShifted .adc .ror rd n rs s

/-- ADC.A6, `Rd += [A6], Carry`: rules R123, R143. -/
def execAdcA6 (rd : Reg) (addr : BitVec 6) (s : State) : Res State :=
  aluA6 .adc rd addr s

end Sys2Proof.Machine
end

