-- ==== Sys2Proof/Machine/AluAdd.lean ====
section
/-! DEFINITION. ADD in its operand forms (`41_alu.md`): one meaning for each instruction. -/

namespace Sys2Proof.Machine

/-- ADD.BP_IM6, `Rd += [BP+IM6]`: rules R122, R147. -/
def execAddBpIm6 (rd : Reg) (imm : BitVec 6) (s : State) : Res State :=
  aluBpIm6 .add rd imm s

/-- ADD.IM6, `Rd += IM6`: rules R122, R134. -/
def execAddIm6 (rd : Reg) (imm : BitVec 6) (s : State) : Res State :=
  aluIm6 .add rd imm s

/-- ADD.IND, `Rd += {D:}[Rs@]`: rules R122, R146. -/
def execAddInd (rd : Reg) (d : Bool) (mark : PtrMark) (rs : Reg) (s : State) : Res State :=
  aluInd .add rd d mark rs s

/-- ADD.REG, `Rd += Rs`: rules R122, R136. -/
def execAddReg (rd : Reg) (rs : Reg) (s : State) : Res State :=
  aluReg .add rd rs s

/-- ADD.IM16, `Rd = Rs + IM16`: rules R122, R135. -/
def execAddIm16 (rd : Reg) (rs : Reg) (imm : Word) (s : State) : Res State :=
  aluIm16 .add rd rs imm s

/-- ADD.A16, `Rd = Rs + [A16]`: rules R122, R144. -/
def execAddA16 (rd : Reg) (rs : Reg) (addr : Word) (s : State) : Res State :=
  aluA16 .add rd rs addr s

/-- ADD.A16W, `[A16] = Rd + Rs`: rules R122, R145. -/
def execAddA16w (rd : Reg) (rs : Reg) (addr : Word) (s : State) : Res State :=
  aluA16w .add rd (s.x rs) addr s

/-- ADD.ASR, `Rd += Rs ASR n`: rules R122, R136, R137. -/
def execAddAsr (rd : Reg) (n : BitVec 2) (rs : Reg) (s : State) : Res State :=
  aluShifted .add .asr rd n rs s

/-- ADD.LSL, `Rd += Rs LSL n`: rules R122, R136, R138. -/
def execAddLsl (rd : Reg) (n : BitVec 2) (rs : Reg) (s : State) : Res State :=
  aluShifted .add .lsl rd n rs s

/-- ADD.LSR, `Rd += Rs LSR n`: rules R122, R136, R139. -/
def execAddLsr (rd : Reg) (n : BitVec 2) (rs : Reg) (s : State) : Res State :=
  aluShifted .add .lsr rd n rs s

/-- ADD.ROL, `Rd += Rs ROL n`: rules R122, R136, R140. -/
def execAddRol (rd : Reg) (n : BitVec 2) (rs : Reg) (s : State) : Res State :=
  aluShifted .add .rol rd n rs s

/-- ADD.ROR, `Rd += Rs ROR n`: rules R122, R136, R141. -/
def execAddRor (rd : Reg) (n : BitVec 2) (rs : Reg) (s : State) : Res State :=
  aluShifted .add .ror rd n rs s

/-- ADD.A6, `Rd += [A6]`: rules R122, R143. -/
def execAddA6 (rd : Reg) (addr : BitVec 6) (s : State) : Res State :=
  aluA6 .add rd addr s

end Sys2Proof.Machine
end

