-- ==== Sys2Proof/Machine/AluAnd.lean ====
section
/-! DEFINITION. AND in its operand forms (`41_alu.md`): one meaning for each instruction. -/

namespace Sys2Proof.Machine

/-- AND.BP_IM6, `Rd &= [BP+IM6]`: rules R131, R147. -/
def execAndBpIm6 (rd : Reg) (imm : BitVec 6) (s : State) : Res State :=
  aluBpIm6 .and rd imm s

/-- AND.IM6, `Rd &= IM6`: rules R131, R134. -/
def execAndIm6 (rd : Reg) (imm : BitVec 6) (s : State) : Res State :=
  aluIm6 .and rd imm s

/-- AND.IND, `Rd &= {D:}[Rs@]`: rules R131, R146. -/
def execAndInd (rd : Reg) (d : Bool) (mark : PtrMark) (rs : Reg) (s : State) : Res State :=
  aluInd .and rd d mark rs s

/-- AND.REG, `Rd &= Rs`: rules R131, R136. -/
def execAndReg (rd : Reg) (rs : Reg) (s : State) : Res State :=
  aluReg .and rd rs s

/-- AND.IM16, `Rd = Rs & IM16`: rules R131, R135. -/
def execAndIm16 (rd : Reg) (rs : Reg) (imm : Word) (s : State) : Res State :=
  aluIm16 .and rd rs imm s

/-- AND.A16, `Rd = Rs & [A16]`: rules R131, R144. -/
def execAndA16 (rd : Reg) (rs : Reg) (addr : Word) (s : State) : Res State :=
  aluA16 .and rd rs addr s

/-- AND.A16W, `[A16] = Rd & Rs`: rules R131, R145. -/
def execAndA16w (rd : Reg) (rs : Reg) (addr : Word) (s : State) : Res State :=
  aluA16w .and rd (s.x rs) addr s

/-- AND.ASR, `Rd &= Rs ASR n`: rules R131, R136, R137. -/
def execAndAsr (rd : Reg) (n : BitVec 2) (rs : Reg) (s : State) : Res State :=
  aluShifted .and .asr rd n rs s

/-- AND.LSL, `Rd &= Rs LSL n`: rules R131, R136, R138. -/
def execAndLsl (rd : Reg) (n : BitVec 2) (rs : Reg) (s : State) : Res State :=
  aluShifted .and .lsl rd n rs s

/-- AND.LSR, `Rd &= Rs LSR n`: rules R131, R136, R139. -/
def execAndLsr (rd : Reg) (n : BitVec 2) (rs : Reg) (s : State) : Res State :=
  aluShifted .and .lsr rd n rs s

/-- AND.ROL, `Rd &= Rs ROL n`: rules R131, R136, R140. -/
def execAndRol (rd : Reg) (n : BitVec 2) (rs : Reg) (s : State) : Res State :=
  aluShifted .and .rol rd n rs s

/-- AND.ROR, `Rd &= Rs ROR n`: rules R131, R136, R141. -/
def execAndRor (rd : Reg) (n : BitVec 2) (rs : Reg) (s : State) : Res State :=
  aluShifted .and .ror rd n rs s

/-- AND.A6, `Rd &= [A6]`: rules R131, R143. -/
def execAndA6 (rd : Reg) (addr : BitVec 6) (s : State) : Res State :=
  aluA6 .and rd addr s

end Sys2Proof.Machine
end

