-- ==== Sys2Proof/Machine/AluCmp.lean ====
section
/-! DEFINITION. CMP in its operand forms (`41_alu.md`): one meaning for each instruction. -/

namespace Sys2Proof.Machine

/-- CMP.BP_IM6, `CMP Rd, [BP+IM6]`: rules R126, R147. -/
def execCmpBpIm6 (rd : Reg) (imm : BitVec 6) (s : State) : Res State :=
  aluBpIm6 .cmp rd imm s

/-- CMP.IM6, `CMP Rd, IM6`: rules R126, R134. -/
def execCmpIm6 (rd : Reg) (imm : BitVec 6) (s : State) : Res State :=
  aluIm6 .cmp rd imm s

/-- CMP.IND, `CMP Rd, {D:}[Rs@]`: rules R126, R146. -/
def execCmpInd (rd : Reg) (d : Bool) (mark : PtrMark) (rs : Reg) (s : State) : Res State :=
  aluInd .cmp rd d mark rs s

/-- CMP.REG, `CMP Rd, Rs`: rules R126, R136. -/
def execCmpReg (rd : Reg) (rs : Reg) (s : State) : Res State :=
  aluReg .cmp rd rs s

/-- CMP.IM16, `CMP Rs, IM16`: rules R126, R135. -/
def execCmpIm16 (rs : Reg) (imm : Word) (s : State) : Res State :=
  aluIm16 .cmp .sp rs imm s

/-- CMP.A16, `CMP Rs, [A16]`: rules R126, R144. -/
def execCmpA16 (rs : Reg) (addr : Word) (s : State) : Res State :=
  aluA16 .cmp .sp rs addr s

/-- CMP.A16W, `CMP Rd, Rs`: rules R126, R145. -/
def execCmpA16w (rd : Reg) (rs : Reg) (addr : Word) (s : State) : Res State :=
  aluA16w .cmp rd (s.x rs) addr s

/-- CMP.ASR, `CMP Rd, Rs ASR n`: rules R126, R136, R137. -/
def execCmpAsr (rd : Reg) (n : BitVec 2) (rs : Reg) (s : State) : Res State :=
  aluShifted .cmp .asr rd n rs s

/-- CMP.LSL, `CMP Rd, Rs LSL n`: rules R126, R136, R138. -/
def execCmpLsl (rd : Reg) (n : BitVec 2) (rs : Reg) (s : State) : Res State :=
  aluShifted .cmp .lsl rd n rs s

/-- CMP.LSR, `CMP Rd, Rs LSR n`: rules R126, R136, R139. -/
def execCmpLsr (rd : Reg) (n : BitVec 2) (rs : Reg) (s : State) : Res State :=
  aluShifted .cmp .lsr rd n rs s

/-- CMP.ROL, `CMP Rd, Rs ROL n`: rules R126, R136, R140. -/
def execCmpRol (rd : Reg) (n : BitVec 2) (rs : Reg) (s : State) : Res State :=
  aluShifted .cmp .rol rd n rs s

/-- CMP.ROR, `CMP Rd, Rs ROR n`: rules R126, R136, R141. -/
def execCmpRor (rd : Reg) (n : BitVec 2) (rs : Reg) (s : State) : Res State :=
  aluShifted .cmp .ror rd n rs s

/-- CMP.A6, `CMP Rd, [A6]`: rules R126, R143. -/
def execCmpA6 (rd : Reg) (addr : BitVec 6) (s : State) : Res State :=
  aluA6 .cmp rd addr s

end Sys2Proof.Machine
end

