-- ==== Sys2Proof/Machine/AluLoad.lean ====
section
/-! DEFINITION. LOAD in its operand forms (`41_alu.md`): one meaning for each instruction. -/

namespace Sys2Proof.Machine

/-- LOAD.BP_IM6, `Rd = [BP+IM6]`: rules R129, R147. -/
def execLoadBpIm6 (rd : Reg) (imm : BitVec 6) (s : State) : Res State :=
  aluBpIm6 .load rd imm s

/-- LOAD.IM6, `Rd = IM6`: rules R129, R134. -/
def execLoadIm6 (rd : Reg) (imm : BitVec 6) (s : State) : Res State :=
  aluIm6 .load rd imm s

/-- LOAD.IND, `Rd = {D:}[Rs@]`: rules R129, R146. -/
def execLoadInd (rd : Reg) (d : Bool) (mark : PtrMark) (rs : Reg) (s : State) : Res State :=
  aluInd .load rd d mark rs s

/-- LOAD.REG, `Rd = Rs`: rules R129, R136. -/
def execLoadReg (rd : Reg) (rs : Reg) (s : State) : Res State :=
  aluReg .load rd rs s

/-- LOAD.IM16, `Rd = IM16`: rules R129, R135. -/
def execLoadIm16 (rd : Reg) (imm : Word) (s : State) : Res State :=
  aluIm16 .load rd .sp imm s

/-- LOAD.A16, `Rd = [A16]`: rules R129, R144. -/
def execLoadA16 (rd : Reg) (addr : Word) (s : State) : Res State :=
  aluA16 .load rd .sp addr s

/-- LOAD.ASR, `Rd = Rs ASR n`: rules R129, R136, R137. -/
def execLoadAsr (rd : Reg) (n : BitVec 2) (rs : Reg) (s : State) : Res State :=
  aluShifted .load .asr rd n rs s

/-- LOAD.LSL, `Rd = Rs LSL n`: rules R129, R136, R138. -/
def execLoadLsl (rd : Reg) (n : BitVec 2) (rs : Reg) (s : State) : Res State :=
  aluShifted .load .lsl rd n rs s

/-- LOAD.LSR, `Rd = Rs LSR n`: rules R129, R136, R139. -/
def execLoadLsr (rd : Reg) (n : BitVec 2) (rs : Reg) (s : State) : Res State :=
  aluShifted .load .lsr rd n rs s

/-- LOAD.ROL, `Rd = Rs ROL n`: rules R129, R136, R140. -/
def execLoadRol (rd : Reg) (n : BitVec 2) (rs : Reg) (s : State) : Res State :=
  aluShifted .load .rol rd n rs s

/-- LOAD.ROR, `Rd = Rs ROR n`: rules R129, R136, R141. -/
def execLoadRor (rd : Reg) (n : BitVec 2) (rs : Reg) (s : State) : Res State :=
  aluShifted .load .ror rd n rs s

/-- LOAD.A6, `Rd = [A6]`: rules R129, R143. -/
def execLoadA6 (rd : Reg) (addr : BitVec 6) (s : State) : Res State :=
  aluA6 .load rd addr s

end Sys2Proof.Machine
end

