-- ==== Sys2Proof/Machine/AluNeg.lean ====
section
/-! DEFINITION. NEG in its operand forms (`41_alu.md`): one meaning for each instruction. -/

namespace Sys2Proof.Machine

/-- NEG.BP_IM6, `Rd = -[BP+IM6]`: rules R127, R147. -/
def execNegBpIm6 (rd : Reg) (imm : BitVec 6) (s : State) : Res State :=
  aluBpIm6 .neg rd imm s

/-- NEG.IM6, `Rd = -IM6`: rules R127, R134. -/
def execNegIm6 (rd : Reg) (imm : BitVec 6) (s : State) : Res State :=
  aluIm6 .neg rd imm s

/-- NEG.IND, `Rd = -{D:}[Rs@]`: rules R127, R146. -/
def execNegInd (rd : Reg) (d : Bool) (mark : PtrMark) (rs : Reg) (s : State) : Res State :=
  aluInd .neg rd d mark rs s

/-- NEG.REG, `Rd = -Rs`: rules R127, R136. -/
def execNegReg (rd : Reg) (rs : Reg) (s : State) : Res State :=
  aluReg .neg rd rs s

/-- NEG.IM16, `Rd = -IM16`: rules R127, R135. -/
def execNegIm16 (rd : Reg) (imm : Word) (s : State) : Res State :=
  aluIm16 .neg rd .sp imm s

/-- NEG.A16, `Rd = -[A16]`: rules R127, R144. -/
def execNegA16 (rd : Reg) (addr : Word) (s : State) : Res State :=
  aluA16 .neg rd .sp addr s

/-- NEG.A16W, `[A16] = -Rd`: rules R127, R145. -/
def execNegA16w (rd : Reg) (addr : Word) (s : State) : Res State :=
  aluA16w .neg rd (s.x rd) addr s

/-- NEG.ASR, `Rd = -Rs ASR n`: rules R127, R136, R137. -/
def execNegAsr (rd : Reg) (n : BitVec 2) (rs : Reg) (s : State) : Res State :=
  aluShifted .neg .asr rd n rs s

/-- NEG.LSL, `Rd = -Rs LSL n`: rules R127, R136, R138. -/
def execNegLsl (rd : Reg) (n : BitVec 2) (rs : Reg) (s : State) : Res State :=
  aluShifted .neg .lsl rd n rs s

/-- NEG.LSR, `Rd = -Rs LSR n`: rules R127, R136, R139. -/
def execNegLsr (rd : Reg) (n : BitVec 2) (rs : Reg) (s : State) : Res State :=
  aluShifted .neg .lsr rd n rs s

/-- NEG.ROL, `Rd = -Rs ROL n`: rules R127, R136, R140. -/
def execNegRol (rd : Reg) (n : BitVec 2) (rs : Reg) (s : State) : Res State :=
  aluShifted .neg .rol rd n rs s

/-- NEG.ROR, `Rd = -Rs ROR n`: rules R127, R136, R141. -/
def execNegRor (rd : Reg) (n : BitVec 2) (rs : Reg) (s : State) : Res State :=
  aluShifted .neg .ror rd n rs s

/-- NEG.A6, `Rd = -[A6]`: rules R127, R143. -/
def execNegA6 (rd : Reg) (addr : BitVec 6) (s : State) : Res State :=
  aluA6 .neg rd addr s

end Sys2Proof.Machine
end

