-- ==== Sys2Proof/Machine/AluOr.lean ====
section
/-! DEFINITION. OR in its operand forms (`41_alu.md`): one meaning for each instruction. -/

namespace Sys2Proof.Machine

/-- OR.BP_IM6, `Rd |= [BP+IM6]`: rules R130, R147. -/
def execOrBpIm6 (rd : Reg) (imm : BitVec 6) (s : State) : Res State :=
  aluBpIm6 .or rd imm s

/-- OR.IM6, `Rd |= IM6`: rules R130, R134. -/
def execOrIm6 (rd : Reg) (imm : BitVec 6) (s : State) : Res State :=
  aluIm6 .or rd imm s

/-- OR.IND, `Rd |= {D:}[Rs@]`: rules R130, R146. -/
def execOrInd (rd : Reg) (d : Bool) (mark : PtrMark) (rs : Reg) (s : State) : Res State :=
  aluInd .or rd d mark rs s

/-- OR.REG, `Rd |= Rs`: rules R130, R136. -/
def execOrReg (rd : Reg) (rs : Reg) (s : State) : Res State :=
  aluReg .or rd rs s

/-- OR.IM16, `Rd = Rs | IM16`: rules R130, R135. -/
def execOrIm16 (rd : Reg) (rs : Reg) (imm : Word) (s : State) : Res State :=
  aluIm16 .or rd rs imm s

/-- OR.A16, `Rd = Rs | [A16]`: rules R130, R144. -/
def execOrA16 (rd : Reg) (rs : Reg) (addr : Word) (s : State) : Res State :=
  aluA16 .or rd rs addr s

/-- OR.A16W, `[A16] = Rd | Rs`: rules R130, R145. -/
def execOrA16w (rd : Reg) (rs : Reg) (addr : Word) (s : State) : Res State :=
  aluA16w .or rd (s.x rs) addr s

/-- OR.ASR, `Rd |= Rs ASR n`: rules R130, R136, R137. -/
def execOrAsr (rd : Reg) (n : BitVec 2) (rs : Reg) (s : State) : Res State :=
  aluShifted .or .asr rd n rs s

/-- OR.LSL, `Rd |= Rs LSL n`: rules R130, R136, R138. -/
def execOrLsl (rd : Reg) (n : BitVec 2) (rs : Reg) (s : State) : Res State :=
  aluShifted .or .lsl rd n rs s

/-- OR.LSR, `Rd |= Rs LSR n`: rules R130, R136, R139. -/
def execOrLsr (rd : Reg) (n : BitVec 2) (rs : Reg) (s : State) : Res State :=
  aluShifted .or .lsr rd n rs s

/-- OR.ROL, `Rd |= Rs ROL n`: rules R130, R136, R140. -/
def execOrRol (rd : Reg) (n : BitVec 2) (rs : Reg) (s : State) : Res State :=
  aluShifted .or .rol rd n rs s

/-- OR.ROR, `Rd |= Rs ROR n`: rules R130, R136, R141. -/
def execOrRor (rd : Reg) (n : BitVec 2) (rs : Reg) (s : State) : Res State :=
  aluShifted .or .ror rd n rs s

/-- OR.A6, `Rd |= [A6]`: rules R130, R143. -/
def execOrA6 (rd : Reg) (addr : BitVec 6) (s : State) : Res State :=
  aluA6 .or rd addr s

end Sys2Proof.Machine
end

