-- ==== Sys2Proof/Machine/AluSbc.lean ====
section
/-! DEFINITION. SBC in its operand forms (`41_alu.md`): one meaning for each instruction. -/

namespace Sys2Proof.Machine

/-- SBC.BP_IM6, `Rd -= [BP+IM6], Carry`: rules R125, R147. -/
def execSbcBpIm6 (rd : Reg) (imm : BitVec 6) (s : State) : Res State :=
  aluBpIm6 .sbc rd imm s

/-- SBC.IM6, `Rd -= IM6, Carry`: rules R125, R134. -/
def execSbcIm6 (rd : Reg) (imm : BitVec 6) (s : State) : Res State :=
  aluIm6 .sbc rd imm s

/-- SBC.IND, `Rd -= {D:}[Rs@], Carry`: rules R125, R146. -/
def execSbcInd (rd : Reg) (d : Bool) (mark : PtrMark) (rs : Reg) (s : State) : Res State :=
  aluInd .sbc rd d mark rs s

/-- SBC.REG, `Rd -= Rs, Carry`: rules R125, R136. -/
def execSbcReg (rd : Reg) (rs : Reg) (s : State) : Res State :=
  aluReg .sbc rd rs s

/-- SBC.IM16, `Rd = Rs - IM16, Carry`: rules R125, R135. -/
def execSbcIm16 (rd : Reg) (rs : Reg) (imm : Word) (s : State) : Res State :=
  aluIm16 .sbc rd rs imm s

/-- SBC.A16, `Rd = Rs - [A16], Carry`: rules R125, R144. -/
def execSbcA16 (rd : Reg) (rs : Reg) (addr : Word) (s : State) : Res State :=
  aluA16 .sbc rd rs addr s

/-- SBC.A16W, `[A16] = Rd - Rs, Carry`: rules R125, R145. -/
def execSbcA16w (rd : Reg) (rs : Reg) (addr : Word) (s : State) : Res State :=
  aluA16w .sbc rd (s.x rs) addr s

/-- SBC.ASR, `Rd -= Rs ASR n, Carry`: rules R125, R136, R137. -/
def execSbcAsr (rd : Reg) (n : BitVec 2) (rs : Reg) (s : State) : Res State :=
  aluShifted .sbc .asr rd n rs s

/-- SBC.LSL, `Rd -= Rs LSL n, Carry`: rules R125, R136, R138. -/
def execSbcLsl (rd : Reg) (n : BitVec 2) (rs : Reg) (s : State) : Res State :=
  aluShifted .sbc .lsl rd n rs s

/-- SBC.LSR, `Rd -= Rs LSR n, Carry`: rules R125, R136, R139. -/
def execSbcLsr (rd : Reg) (n : BitVec 2) (rs : Reg) (s : State) : Res State :=
  aluShifted .sbc .lsr rd n rs s

/-- SBC.ROL, `Rd -= Rs ROL n, Carry`: rules R125, R136, R140. -/
def execSbcRol (rd : Reg) (n : BitVec 2) (rs : Reg) (s : State) : Res State :=
  aluShifted .sbc .rol rd n rs s

/-- SBC.ROR, `Rd -= Rs ROR n, Carry`: rules R125, R136, R141. -/
def execSbcRor (rd : Reg) (n : BitVec 2) (rs : Reg) (s : State) : Res State :=
  aluShifted .sbc .ror rd n rs s

/-- SBC.A6, `Rd -= [A6], Carry`: rules R125, R143. -/
def execSbcA6 (rd : Reg) (addr : BitVec 6) (s : State) : Res State :=
  aluA6 .sbc rd addr s

end Sys2Proof.Machine
end

