-- ==== Sys2Proof/Machine/AluStore.lean ====
section
/-! DEFINITION. STORE in its operand forms (`41_alu.md`): one meaning for each instruction. -/

namespace Sys2Proof.Machine

/-- STORE.BP_IM6, `[BP+IM6] = Rd`: rules R133, R147. -/
def execStoreBpIm6 (rd : Reg) (imm : BitVec 6) (s : State) : Res State :=
  storeBpIm6 rd imm s

/-- STORE.IND, `{D:}[Rs@] = Rd`: rules R133, R146. -/
def execStoreInd (rd : Reg) (d : Bool) (mark : PtrMark) (rs : Reg) (s : State) : Res State :=
  storeInd rd d mark rs s

/-- STORE.A16W, `[A16] = Rd`: rules R133, R145. -/
def execStoreA16w (rd : Reg) (addr : Word) (s : State) : Res State :=
  storeA16w rd addr s

/-- STORE.A6, `[A6] = Rd`: rules R133, R143. -/
def execStoreA6 (rd : Reg) (addr : BitVec 6) (s : State) : Res State :=
  storeA6 rd addr s

end Sys2Proof.Machine
end

