-- ==== Sys2Proof/Machine/AluSub.lean ====
section
/-! DEFINITION. SUB in its operand forms (`41_alu.md`): one meaning for each instruction. -/

namespace Sys2Proof.Machine

/-- SUB.BP_IM6, `Rd -= [BP+IM6]`: rules R124, R147. -/
def execSubBpIm6 (rd : Reg) (imm : BitVec 6) (s : State) : Res State :=
  aluBpIm6 .sub rd imm s

/-- SUB.IM6, `Rd -= IM6`: rules R124, R134. -/
def execSubIm6 (rd : Reg) (imm : BitVec 6) (s : State) : Res State :=
  aluIm6 .sub rd imm s

/-- SUB.IND, `Rd -= {D:}[Rs@]`: rules R124, R146. -/
def execSubInd (rd : Reg) (d : Bool) (mark : PtrMark) (rs : Reg) (s : State) : Res State :=
  aluInd .sub rd d mark rs s

/-- SUB.REG, `Rd -= Rs`: rules R124, R136. -/
def execSubReg (rd : Reg) (rs : Reg) (s : State) : Res State :=
  aluReg .sub rd rs s

/-- SUB.IM16, `Rd = Rs - IM16`: rules R124, R135. -/
def execSubIm16 (rd : Reg) (rs : Reg) (imm : Word) (s : State) : Res State :=
  aluIm16 .sub rd rs imm s

/-- SUB.A16, `Rd = Rs - [A16]`: rules R124, R144. -/
def execSubA16 (rd : Reg) (rs : Reg) (addr : Word) (s : State) : Res State :=
  aluA16 .sub rd rs addr s

/-- SUB.A16W, `[A16] = Rd - Rs`: rules R124, R145. -/
def execSubA16w (rd : Reg) (rs : Reg) (addr : Word) (s : State) : Res State :=
  aluA16w .sub rd (s.x rs) addr s

/-- SUB.ASR, `Rd -= Rs ASR n`: rules R124, R136, R137. -/
def execSubAsr (rd : Reg) (n : BitVec 2) (rs : Reg) (s : State) : Res State :=
  aluShifted .sub .asr rd n rs s

/-- SUB.LSL, `Rd -= Rs LSL n`: rules R124, R136, R138. -/
def execSubLsl (rd : Reg) (n : BitVec 2) (rs : Reg) (s : State) : Res State :=
  aluShifted .sub .lsl rd n rs s

/-- SUB.LSR, `Rd -= Rs LSR n`: rules R124, R136, R139. -/
def execSubLsr (rd : Reg) (n : BitVec 2) (rs : Reg) (s : State) : Res State :=
  aluShifted .sub .lsr rd n rs s

/-- SUB.ROL, `Rd -= Rs ROL n`: rules R124, R136, R140. -/
def execSubRol (rd : Reg) (n : BitVec 2) (rs : Reg) (s : State) : Res State :=
  aluShifted .sub .rol rd n rs s

/-- SUB.ROR, `Rd -= Rs ROR n`: rules R124, R136, R141. -/
def execSubRor (rd : Reg) (n : BitVec 2) (rs : Reg) (s : State) : Res State :=
  aluShifted .sub .ror rd n rs s

/-- SUB.A6, `Rd -= [A6]`: rules R124, R143. -/
def execSubA6 (rd : Reg) (addr : BitVec 6) (s : State) : Res State :=
  aluA6 .sub rd addr s

end Sys2Proof.Machine
end

