-- ==== Sys2Proof/Machine/AluTest.lean ====
section
/-! DEFINITION. TEST in its operand forms (`41_alu.md`): one meaning for each instruction. -/

namespace Sys2Proof.Machine

/-- TEST.BP_IM6, `TEST Rd, [BP+IM6]`: rules R132, R147. -/
def execTestBpIm6 (rd : Reg) (imm : BitVec 6) (s : State) : Res State :=
  aluBpIm6 .test rd imm s

/-- TEST.IM6, `TEST Rd, IM6`: rules R132, R134. -/
def execTestIm6 (rd : Reg) (imm : BitVec 6) (s : State) : Res State :=
  aluIm6 .test rd imm s

/-- TEST.IND, `TEST Rd, {D:}[Rs@]`: rules R132, R146. -/
def execTestInd (rd : Reg) (d : Bool) (mark : PtrMark) (rs : Reg) (s : State) : Res State :=
  aluInd .test rd d mark rs s

/-- TEST.REG, `TEST Rd, Rs`: rules R132, R136. -/
def execTestReg (rd : Reg) (rs : Reg) (s : State) : Res State :=
  aluReg .test rd rs s

/-- TEST.IM16, `TEST Rs, IM16`: rules R132, R135. -/
def execTestIm16 (rs : Reg) (imm : Word) (s : State) : Res State :=
  aluIm16 .test .sp rs imm s

/-- TEST.A16, `TEST Rs, [A16]`: rules R132, R144. -/
def execTestA16 (rs : Reg) (addr : Word) (s : State) : Res State :=
  aluA16 .test .sp rs addr s

/-- TEST.A16W, `TEST Rd, Rs`: rules R132, R145. -/
def execTestA16w (rd : Reg) (rs : Reg) (addr : Word) (s : State) : Res State :=
  aluA16w .test rd (s.x rs) addr s

/-- TEST.ASR, `TEST Rd, Rs ASR n`: rules R132, R136, R137. -/
def execTestAsr (rd : Reg) (n : BitVec 2) (rs : Reg) (s : State) : Res State :=
  aluShifted .test .asr rd n rs s

/-- TEST.LSL, `TEST Rd, Rs LSL n`: rules R132, R136, R138. -/
def execTestLsl (rd : Reg) (n : BitVec 2) (rs : Reg) (s : State) : Res State :=
  aluShifted .test .lsl rd n rs s

/-- TEST.LSR, `TEST Rd, Rs LSR n`: rules R132, R136, R139. -/
def execTestLsr (rd : Reg) (n : BitVec 2) (rs : Reg) (s : State) : Res State :=
  aluShifted .test .lsr rd n rs s

/-- TEST.ROL, `TEST Rd, Rs ROL n`: rules R132, R136, R140. -/
def execTestRol (rd : Reg) (n : BitVec 2) (rs : Reg) (s : State) : Res State :=
  aluShifted .test .rol rd n rs s

/-- TEST.ROR, `TEST Rd, Rs ROR n`: rules R132, R136, R141. -/
def execTestRor (rd : Reg) (n : BitVec 2) (rs : Reg) (s : State) : Res State :=
  aluShifted .test .ror rd n rs s

/-- TEST.A6, `TEST Rd, [A6]`: rules R132, R143. -/
def execTestA6 (rd : Reg) (addr : BitVec 6) (s : State) : Res State :=
  aluA6 .test rd addr s

end Sys2Proof.Machine
end

