-- ==== Sys2Proof/Machine/AluXor.lean ====
section
/-! DEFINITION. XOR in its operand forms (`41_alu.md`): one meaning for each instruction. -/

namespace Sys2Proof.Machine

/-- XOR.BP_IM6, `Rd ^= [BP+IM6]`: rules R128, R147. -/
def execXorBpIm6 (rd : Reg) (imm : BitVec 6) (s : State) : Res State :=
  aluBpIm6 .xor rd imm s

/-- XOR.IM6, `Rd ^= IM6`: rules R128, R134. -/
def execXorIm6 (rd : Reg) (imm : BitVec 6) (s : State) : Res State :=
  aluIm6 .xor rd imm s

/-- XOR.IND, `Rd ^= {D:}[Rs@]`: rules R128, R146. -/
def execXorInd (rd : Reg) (d : Bool) (mark : PtrMark) (rs : Reg) (s : State) : Res State :=
  aluInd .xor rd d mark rs s

/-- XOR.REG, `Rd ^= Rs`: rules R128, R136. -/
def execXorReg (rd : Reg) (rs : Reg) (s : State) : Res State :=
  aluReg .xor rd rs s

/-- XOR.IM16, `Rd = Rs ^ IM16`: rules R128, R135. -/
def execXorIm16 (rd : Reg) (rs : Reg) (imm : Word) (s : State) : Res State :=
  aluIm16 .xor rd rs imm s

/-- XOR.A16, `Rd = Rs ^ [A16]`: rules R128, R144. -/
def execXorA16 (rd : Reg) (rs : Reg) (addr : Word) (s : State) : Res State :=
  aluA16 .xor rd rs addr s

/-- XOR.A16W, `[A16] = Rd ^ Rs`: rules R128, R145. -/
def execXorA16w (rd : Reg) (rs : Reg) (addr : Word) (s : State) : Res State :=
  aluA16w .xor rd (s.x rs) addr s

/-- XOR.ASR, `Rd ^= Rs ASR n`: rules R128, R136, R137. -/
def execXorAsr (rd : Reg) (n : BitVec 2) (rs : Reg) (s : State) : Res State :=
  aluShifted .xor .asr rd n rs s

/-- XOR.LSL, `Rd ^= Rs LSL n`: rules R128, R136, R138. -/
def execXorLsl (rd : Reg) (n : BitVec 2) (rs : Reg) (s : State) : Res State :=
  aluShifted .xor .lsl rd n rs s

/-- XOR.LSR, `Rd ^= Rs LSR n`: rules R128, R136, R139. -/
def execXorLsr (rd : Reg) (n : BitVec 2) (rs : Reg) (s : State) : Res State :=
  aluShifted .xor .lsr rd n rs s

/-- XOR.ROL, `Rd ^= Rs ROL n`: rules R128, R136, R140. -/
def execXorRol (rd : Reg) (n : BitVec 2) (rs : Reg) (s : State) : Res State :=
  aluShifted .xor .rol rd n rs s

/-- XOR.ROR, `Rd ^= Rs ROR n`: rules R128, R136, R141. -/
def execXorRor (rd : Reg) (n : BitVec 2) (rs : Reg) (s : State) : Res State :=
  aluShifted .xor .ror rd n rs s

/-- XOR.A6, `Rd ^= [A6]`: rules R128, R143. -/
def execXorA6 (rd : Reg) (addr : BitVec 6) (s : State) : Res State :=
  aluA6 .xor rd addr s

end Sys2Proof.Machine
end

