-- ==== Sys2Proof/Machine/BitOps.lean ====
section
/-! DEFINITION. The sixteen bit operations (`42_bit_shift.md` section 1): one meaning for each instruction. -/

namespace Sys2Proof.Machine

/-- TSTB.RR, `TSTB Rd, Rs`: rules R161, R165. -/
def execTstbRr (rd : Reg) (rs : Reg) (s : State) : Res State :=
  bitReg .tstb rd (bitNumber (s.x rs)) s

/-- TSTB.RO, `TSTB Rd, offset`: rules R161, R166. -/
def execTstbRo (rd : Reg) (k : BitVec 4) (s : State) : Res State :=
  bitReg .tstb rd k s

/-- TSTB.MR, `TSTB {D:}[Rd], Rs`: rules R161, R167. -/
def execTstbMr (d : Bool) (rd : Reg) (rs : Reg) (s : State) : Res State :=
  bitMem .tstb d rd (bitNumber (s.x rs)) s

/-- TSTB.MO, `TSTB {D:}[Rd], offset`: rules R161, R168. -/
def execTstbMo (d : Bool) (rd : Reg) (k : BitVec 4) (s : State) : Res State :=
  bitMem .tstb d rd k s

/-- SETB.RR, `SETB Rd, Rs`: rules R162, R165. -/
def execSetbRr (rd : Reg) (rs : Reg) (s : State) : Res State :=
  bitReg .setb rd (bitNumber (s.x rs)) s

/-- SETB.RO, `SETB Rd, offset`: rules R162, R166. -/
def execSetbRo (rd : Reg) (k : BitVec 4) (s : State) : Res State :=
  bitReg .setb rd k s

/-- SETB.MR, `SETB {D:}[Rd], Rs`: rules R162, R167. -/
def execSetbMr (d : Bool) (rd : Reg) (rs : Reg) (s : State) : Res State :=
  bitMem .setb d rd (bitNumber (s.x rs)) s

/-- SETB.MO, `SETB {D:}[Rd], offset`: rules R162, R168. -/
def execSetbMo (d : Bool) (rd : Reg) (k : BitVec 4) (s : State) : Res State :=
  bitMem .setb d rd k s

/-- CLRB.RR, `CLRB Rd, Rs`: rules R163, R165. -/
def execClrbRr (rd : Reg) (rs : Reg) (s : State) : Res State :=
  bitReg .clrb rd (bitNumber (s.x rs)) s

/-- CLRB.RO, `CLRB Rd, offset`: rules R163, R166. -/
def execClrbRo (rd : Reg) (k : BitVec 4) (s : State) : Res State :=
  bitReg .clrb rd k s

/-- CLRB.MR, `CLRB {D:}[Rd], Rs`: rules R163, R167. -/
def execClrbMr (d : Bool) (rd : Reg) (rs : Reg) (s : State) : Res State :=
  bitMem .clrb d rd (bitNumber (s.x rs)) s

/-- CLRB.MO, `CLRB {D:}[Rd], offset`: rules R163, R168. -/
def execClrbMo (d : Bool) (rd : Reg) (k : BitVec 4) (s : State) : Res State :=
  bitMem .clrb d rd k s

/-- INVB.RR, `INVB Rd, Rs`: rules R164, R165. -/
def execInvbRr (rd : Reg) (rs : Reg) (s : State) : Res State :=
  bitReg .invb rd (bitNumber (s.x rs)) s

/-- INVB.RO, `INVB Rd, offset`: rules R164, R166. -/
def execInvbRo (rd : Reg) (k : BitVec 4) (s : State) : Res State :=
  bitReg .invb rd k s

/-- INVB.MR, `INVB {D:}[Rd], Rs`: rules R164, R167. -/
def execInvbMr (d : Bool) (rd : Reg) (rs : Reg) (s : State) : Res State :=
  bitMem .invb d rd (bitNumber (s.x rs)) s

/-- INVB.MO, `INVB {D:}[Rd], offset`: rules R164, R168. -/
def execInvbMo (d : Bool) (rd : Reg) (k : BitVec 4) (s : State) : Res State :=
  bitMem .invb d rd k s

end Sys2Proof.Machine
end

