-- ==== Sys2Proof/Machine/Branch.lean ====
section
/-! DEFINITION. Branches and far jumps (`44_control_flow.md`): one meaning for each instruction. -/

namespace Sys2Proof.Machine

/-- JCC, `JCC label (aliases JB, JNAE)`: rule R213. -/
def execJcc (back : Bool) (imm : BitVec 6) (s : State) : Res State :=
  branch .cc back imm s

/-- JCS, `JCS label (aliases JNB, JAE)`: rule R214. -/
def execJcs (back : Bool) (imm : BitVec 6) (s : State) : Res State :=
  branch .cs back imm s

/-- JSC, `JSC label (aliases JGE, JNL)`: rule R215. -/
def execJsc (back : Bool) (imm : BitVec 6) (s : State) : Res State :=
  branch .sc back imm s

/-- JSS, `JSS label (aliases JNGE, JL)`: rule R216. -/
def execJss (back : Bool) (imm : BitVec 6) (s : State) : Res State :=
  branch .ss back imm s

/-- JNE, `JNE label (aliases JNZ)`: rule R217. -/
def execJne (back : Bool) (imm : BitVec 6) (s : State) : Res State :=
  branch .ne back imm s

/-- JZ, `JZ label (aliases JE)`: rule R218. -/
def execJz (back : Bool) (imm : BitVec 6) (s : State) : Res State :=
  branch .z back imm s

/-- JPL, `JPL label`: rule R219. -/
def execJpl (back : Bool) (imm : BitVec 6) (s : State) : Res State :=
  branch .pl back imm s

/-- JMI, `JMI label`: rule R220. -/
def execJmi (back : Bool) (imm : BitVec 6) (s : State) : Res State :=
  branch .mi back imm s

/-- JBE, `JBE label (aliases JNA)`: rule R221. -/
def execJbe (back : Bool) (imm : BitVec 6) (s : State) : Res State :=
  branch .be back imm s

/-- JA, `JA label (aliases JNBE)`: rule R222. -/
def execJa (back : Bool) (imm : BitVec 6) (s : State) : Res State :=
  branch .a back imm s

/-- JLE, `JLE label (aliases JNG)`: rule R223. -/
def execJle (back : Bool) (imm : BitVec 6) (s : State) : Res State :=
  branch .le back imm s

/-- JG, `JG label (aliases JNLE)`: rule R224. -/
def execJg (back : Bool) (imm : BitVec 6) (s : State) : Res State :=
  branch .g back imm s

/-- JVC, `JVC label`: rule R225. -/
def execJvc (back : Bool) (imm : BitVec 6) (s : State) : Res State :=
  branch .vc back imm s

/-- JVS, `JVS label`: rule R226. -/
def execJvs (back : Bool) (imm : BitVec 6) (s : State) : Res State :=
  branch .vs back imm s

/-- JMP, `JMP label`: rule R227. -/
def execJmp (back : Bool) (imm : BitVec 6) (s : State) : Res State :=
  branch .always back imm s

/-- GOTO, `GOTO A22`: rule R229. -/
def execGoto (addr : Addr) (s : State) : Res State :=
  .next (s.setLpc addr)

/-- GOTO_MR, `GOTO MR`: rule R228. -/
def execGotoMr (s : State) : Res State :=
  .next (s.setLpc (mrTarget s))

end Sys2Proof.Machine
end

