-- ==== Sys2Proof/Machine/CallReturn.lean ====
section
/-! DEFINITION. CALL, RETF, RETI, BREAK (`46_call_interrupt.md`): one meaning for each instruction. -/

namespace Sys2Proof.Machine

/-- RETF, `RETF`: rule R263. -/
def execRetf (s : State) : Res State :=
  returnFar s

/-- RETI, `RETI`: rule R266. -/
def execReti (s : State) : Res State :=
  returnInterrupt s

/-- CALL, `CALL A22`: rule R260. -/
def execCall (addr : Addr) (s : State) : Res State :=
  callTo addr s

/-- BREAK, `BREAK`: rule R265. -/
def execBrk (s : State) : Res State :=
  enterInterrupt .brk s

/-- CALL_MR, `CALL MR`: rule R261. -/
def execCallMr (s : State) : Res State :=
  callTo (mrTarget s) s

end Sys2Proof.Machine
end

