-- ==== Sys2Proof/Machine/Mode.lean ====
section
/-! DEFINITION. The mode instructions (`40_operation_mode.md`): one meaning for each instruction. -/

namespace Sys2Proof.Machine

/-- INT_OFF, `INT OFF`: rule R115. -/
def execIntOff (s : State) : Res State :=
  writeMode 0x0060#16 0x0000#16 s

/-- INT_IRQ, `INT IRQ`: rule R115. -/
def execIntIrq (s : State) : Res State :=
  writeMode 0x0060#16 0x0020#16 s

/-- INT_FIQ, `INT FIQ`: rule R115. -/
def execIntFiq (s : State) : Res State :=
  writeMode 0x0060#16 0x0040#16 s

/-- INT_FIQ_IRQ, `INT FIQ,IRQ`: rule R115. -/
def execIntFiqIrq (s : State) : Res State :=
  writeMode 0x0060#16 0x0060#16 s

/-- FIR_MOV_ON, `FIR_MOV ON`: rule R112. -/
def execFirMovOn (s : State) : Res State :=
  writeMode 0x0800#16 0x0000#16 s

/-- FIR_MOV_OFF, `FIR_MOV OFF`: rule R112. -/
def execFirMovOff (s : State) : Res State :=
  writeMode 0x0800#16 0x0800#16 s

/-- FRACTION_OFF, `FRACTION OFF`: rule R111. -/
def execFractionOff (s : State) : Res State :=
  writeMode 0x1000#16 0x0000#16 s

/-- FRACTION_ON, `FRACTION ON`: rule R111. -/
def execFractionOn (s : State) : Res State :=
  writeMode 0x1000#16 0x1000#16 s

/-- IRQ_OFF, `IRQ OFF`: rule R114. -/
def execIrqOff (s : State) : Res State :=
  writeMode 0x0020#16 0x0000#16 s

/-- IRQ_ON, `IRQ ON`: rule R114. -/
def execIrqOn (s : State) : Res State :=
  writeMode 0x0020#16 0x0020#16 s

/-- SECBANK_OFF, `SECBANK OFF`: rule R110. -/
def execSecbankOff (s : State) : Res State :=
  writeMode 0x2000#16 0x0000#16 s

/-- SECBANK_ON, `SECBANK ON`: rule R110. -/
def execSecbankOn (s : State) : Res State :=
  writeMode 0x2000#16 0x2000#16 s

/-- FIQ_OFF, `FIQ OFF`: rule R113. -/
def execFiqOff (s : State) : Res State :=
  writeMode 0x0040#16 0x0000#16 s

/-- IRQNEST_OFF, `IRQNEST OFF`: rule R116. -/
def execIrqnestOff (s : State) : Res State :=
  writeMode 0x0010#16 0x0000#16 s

/-- FIQ_ON, `FIQ ON`: rule R113. -/
def execFiqOn (s : State) : Res State :=
  writeMode 0x0040#16 0x0040#16 s

/-- IRQNEST_ON, `IRQNEST ON`: rule R116. -/
def execIrqnestOn (s : State) : Res State :=
  writeMode 0x0010#16 0x0010#16 s

end Sys2Proof.Machine
end

