-- ==== Sys2Proof/Machine/MulDiv.lean ====
section
/-! DEFINITION. MUL, MULS, DIVS, DIVQ, EXP, NOP (`43_mul_div_exp.md`): one meaning for each instruction. -/

namespace Sys2Proof.Machine

/-- MUL.UU, `MR = Rd*Rs, uu`: rules R189, R185. -/
def execMulUu (rd : Reg) (rs : Reg) (s : State) : Res State :=
  multiply .uu rd rs s

/-- MULS.UU, `MR = [Rd]*[Rs], uu, N`: rules R195, R190. -/
def execMulsUu (rd : Reg) (n : BitVec 4) (rs : Reg) (s : State) : Res State :=
  innerProduct .uu rd n rs s

/-- MUL.US, `MR = Rd*Rs, us`: rules R188, R185. -/
def execMulUs (rd : Reg) (rs : Reg) (s : State) : Res State :=
  multiply .us rd rs s

/-- MULS.US, `MR = [Rd]*[Rs], us, N`: rules R194, R190. -/
def execMulsUs (rd : Reg) (n : BitVec 4) (rs : Reg) (s : State) : Res State :=
  innerProduct .us rd n rs s

/-- MUL.SS, `MR = Rd*Rs {, ss}`: rules R187, R185. -/
def execMulSs (rd : Reg) (rs : Reg) (s : State) : Res State :=
  multiply .ss rd rs s

/-- MULS.SS, `MR = [Rd]*[Rs] {, ss}, N`: rules R193, R190. -/
def execMulsSs (rd : Reg) (n : BitVec 4) (rs : Reg) (s : State) : Res State :=
  innerProduct .ss rd n rs s

/-- DIVS, `DIVS MR, R2`: rule R196. -/
def execDivs (s : State) : Res State :=
  divSign s

/-- DIVQ, `DIVQ MR, R2`: rule R197. -/
def execDivq (s : State) : Res State :=
  divQuotient s

/-- EXP, `EXP R2, R4`: rule R200. -/
def execExp (s : State) : Res State :=
  effectiveExponent s

/-- NOP, `NOP`: rule R201. -/
def execNop (s : State) : Res State :=
  .next s

end Sys2Proof.Machine
end

