-- ==== Sys2Proof/Machine/SegmentFlag.lean ====
section
/-! DEFINITION. DS and FR access (`45_segment_flag_stack.md` section 1): one meaning for each instruction. -/

namespace Sys2Proof.Machine

/-- DS_IM6, `DS = IM6`: rule R240. -/
def execDsIm6 (imm : BitVec 6) (s : State) : Res State :=
  .next (s.setDs imm)

/-- MOV_RS_DS, `Rs = DS`: rule R241. -/
def execMovRsDs (rs : Reg) (s : State) : Res State :=
  .next (s.setX rs (s.ds.setWidth 16))

/-- MOV_DS_RS, `DS = Rs`: rule R242. -/
def execMovDsRs (rs : Reg) (s : State) : Res State :=
  .next (s.setDs ((s.x rs).setWidth 6))

/-- MOV_RS_FR, `Rs = FR`: rule R243. -/
def execMovRsFr (rs : Reg) (s : State) : Res State :=
  .next (s.setX rs s.frWord)

/-- MOV_FR_RS, `FR = Rs`: rule R244. -/
def execMovFrRs (rs : Reg) (s : State) : Res State :=
  .next (s.setFr (s.x rs))

end Sys2Proof.Machine
end

