-- ==== Sys2Proof/Machine/Shift16.lean ====
section
/-! DEFINITION. The 16-bit multi-cycle shifts (`42_bit_shift.md` section 2): one meaning for each instruction. -/

namespace Sys2Proof.Machine

/-- SHIFT16.ASR, `Rd = Rd ASR Rs`: rules R172, R171. -/
def execShift16Asr (rd : Reg) (rs : Reg) (s : State) : Res State :=
  shiftPlain .asr rd rs s

/-- SHIFT16.ASROR, `MR |= Rd ASR Rs`: rules R173, R171. -/
def execShift16Asror (rd : Reg) (rs : Reg) (s : State) : Res State :=
  shiftOr .asror rd rs s

/-- SHIFT16.LSL, `Rd = Rd LSL Rs`: rules R174, R171. -/
def execShift16Lsl (rd : Reg) (rs : Reg) (s : State) : Res State :=
  shiftPlain .lsl rd rs s

/-- SHIFT16.LSLOR, `MR |= Rd LSL Rs`: rules R175, R171. -/
def execShift16Lslor (rd : Reg) (rs : Reg) (s : State) : Res State :=
  shiftOr .lslor rd rs s

/-- SHIFT16.LSR, `Rd = Rd LSR Rs`: rules R176, R171. -/
def execShift16Lsr (rd : Reg) (rs : Reg) (s : State) : Res State :=
  shiftPlain .lsr rd rs s

/-- SHIFT16.LSROR, `MR |= Rd LSR Rs`: rules R177, R171. -/
def execShift16Lsror (rd : Reg) (rs : Reg) (s : State) : Res State :=
  shiftOr .lsror rd rs s

/-- SHIFT16.ROL, `Rd = Rd ROL Rs`: rules R178, R171. -/
def execShift16Rol (rd : Reg) (rs : Reg) (s : State) : Res State :=
  shiftRotate .rol rd rs s

/-- SHIFT16.ROR, `Rd = Rd ROR Rs`: rules R179, R171. -/
def execShift16Ror (rd : Reg) (rs : Reg) (s : State) : Res State :=
  shiftRotate .ror rd rs s

end Sys2Proof.Machine
end

