-- ==== Sys2Proof/Machine/Stack.lean ====
section
/-! DEFINITION. PUSH and POP (`45_segment_flag_stack.md`): one meaning for each instruction. -/

namespace Sys2Proof.Machine

/-- PUSH, `Push R_H, R_L to [Rs]`: rule R245. -/
def execPush (rd : Reg) (n : BitVec 3) (rs : Reg) (s : State) : Res State :=
  pushList rd n rs s

/-- POP, `Pop R_L, R_H from [Rs]`: rule R248. -/
def execPop (rd : Reg) (n : BitVec 3) (rs : Reg) (s : State) : Res State :=
  popList rd n rs s

end Sys2Proof.Machine
end

