-- ==== Sys2Proof/Machine/Dispatch.lean ====
section
/-! DEFINITION. Which meaning each instruction has. -/

namespace Sys2Proof.Machine

/-- The meaning of an instruction, after its words have been fetched. -/
def exec (i : Instr) (s : State) : Host.Outcome State Fault Refusal :=
  match i with
  | .jcc back imm => Sys2Proof.Machine.execJcc back imm s
  | .jcs back imm => Sys2Proof.Machine.execJcs back imm s
  | .jsc back imm => Sys2Proof.Machine.execJsc back imm s
  | .jss back imm => Sys2Proof.Machine.execJss back imm s
  | .jne back imm => Sys2Proof.Machine.execJne back imm s
  | .jz back imm => Sys2Proof.Machine.execJz back imm s
  | .jpl back imm => Sys2Proof.Machine.execJpl back imm s
  | .jmi back imm => Sys2Proof.Machine.execJmi back imm s
  | .jbe back imm => Sys2Proof.Machine.execJbe back imm s
  | .ja back imm => Sys2Proof.Machine.execJa back imm s
  | .jle back imm => Sys2Proof.Machine.execJle back imm s
  | .jg back imm => Sys2Proof.Machine.execJg back imm s
  | .jvc back imm => Sys2Proof.Machine.execJvc back imm s
  | .jvs back imm => Sys2Proof.Machine.execJvs back imm s
  | .jmp back imm => Sys2Proof.Machine.execJmp back imm s
  | .retf => Sys2Proof.Machine.execRetf s
  | .reti => Sys2Proof.Machine.execReti s
  | .addBpIm6 rd imm => Sys2Proof.Machine.execAddBpIm6 rd imm s
  | .addIm6 rd imm => Sys2Proof.Machine.execAddIm6 rd imm s
  | .addInd rd d mark rs => Sys2Proof.Machine.execAddInd rd d mark rs s
  | .addReg rd rs => Sys2Proof.Machine.execAddReg rd rs s
  | .addIm16 rd rs imm => Sys2Proof.Machine.execAddIm16 rd rs imm s
  | .addA16 rd rs addr => Sys2Proof.Machine.execAddA16 rd rs addr s
  | .addA16w rd rs addr => Sys2Proof.Machine.execAddA16w rd rs addr s
  | .addAsr rd n rs => Sys2Proof.Machine.execAddAsr rd n rs s
  | .addLsl rd n rs => Sys2Proof.Machine.execAddLsl rd n rs s
  | .addLsr rd n rs => Sys2Proof.Machine.execAddLsr rd n rs s
  | .addRol rd n rs => Sys2Proof.Machine.execAddRol rd n rs s
  | .addRor rd n rs => Sys2Proof.Machine.execAddRor rd n rs s
  | .addA6 rd addr => Sys2Proof.Machine.execAddA6 rd addr s
  | .adcBpIm6 rd imm => Sys2Proof.Machine.execAdcBpIm6 rd imm s
  | .adcIm6 rd imm => Sys2Proof.Machine.execAdcIm6 rd imm s
  | .adcInd rd d mark rs => Sys2Proof.Machine.execAdcInd rd d mark rs s
  | .adcReg rd rs => Sys2Proof.Machine.execAdcReg rd rs s
  | .adcIm16 rd rs imm => Sys2Proof.Machine.execAdcIm16 rd rs imm s
  | .adcA16 rd rs addr => Sys2Proof.Machine.execAdcA16 rd rs addr s
  | .adcA16w rd rs addr => Sys2Proof.Machine.execAdcA16w rd rs addr s
  | .adcAsr rd n rs => Sys2Proof.Machine.execAdcAsr rd n rs s
  | .adcLsl rd n rs => Sys2Proof.Machine.execAdcLsl rd n rs s
  | .adcLsr rd n rs => Sys2Proof.Machine.execAdcLsr rd n rs s
  | .adcRol rd n rs => Sys2Proof.Machine.execAdcRol rd n rs s
  | .adcRor rd n rs => Sys2Proof.Machine.execAdcRor rd n rs s
  | .adcA6 rd addr => Sys2Proof.Machine.execAdcA6 rd addr s
  | .subBpIm6 rd imm => Sys2Proof.Machine.execSubBpIm6 rd imm s
  | .subIm6 rd imm => Sys2Proof.Machine.execSubIm6 rd imm s
  | .subInd rd d mark rs => Sys2Proof.Machine.execSubInd rd d mark rs s
  | .subReg rd rs => Sys2Proof.Machine.execSubReg rd rs s
  | .subIm16 rd rs imm => Sys2Proof.Machine.execSubIm16 rd rs imm s
  | .subA16 rd rs addr => Sys2Proof.Machine.execSubA16 rd rs addr s
  | .subA16w rd rs addr => Sys2Proof.Machine.execSubA16w rd rs addr s
  | .subAsr rd n rs => Sys2Proof.Machine.execSubAsr rd n rs s
  | .subLsl rd n rs => Sys2Proof.Machine.execSubLsl rd n rs s
  | .subLsr rd n rs => Sys2Proof.Machine.execSubLsr rd n rs s
  | .subRol rd n rs => Sys2Proof.Machine.execSubRol rd n rs s
  | .subRor rd n rs => Sys2Proof.Machine.execSubRor rd n rs s
  | .subA6 rd addr => Sys2Proof.Machine.execSubA6 rd addr s
  | .sbcBpIm6 rd imm => Sys2Proof.Machine.execSbcBpIm6 rd imm s
  | .sbcIm6 rd imm => Sys2Proof.Machine.execSbcIm6 rd imm s
  | .sbcInd rd d mark rs => Sys2Proof.Machine.execSbcInd rd d mark rs s
  | .sbcReg rd rs => Sys2Proof.Machine.execSbcReg rd rs s
  | .sbcIm16 rd rs imm => Sys2Proof.Machine.execSbcIm16 rd rs imm s
  | .sbcA16 rd rs addr => Sys2Proof.Machine.execSbcA16 rd rs addr s
  | .sbcA16w rd rs addr => Sys2Proof.Machine.execSbcA16w rd rs addr s
  | .sbcAsr rd n rs => Sys2Proof.Machine.execSbcAsr rd n rs s
  | .sbcLsl rd n rs => Sys2Proof.Machine.execSbcLsl rd n rs s
  | .sbcLsr rd n rs => Sys2Proof.Machine.execSbcLsr rd n rs s
  | .sbcRol rd n rs => Sys2Proof.Machine.execSbcRol rd n rs s
  | .sbcRor rd n rs => Sys2Proof.Machine.execSbcRor rd n rs s
  | .sbcA6 rd addr => Sys2Proof.Machine.execSbcA6 rd addr s
  | .cmpBpIm6 rd imm => Sys2Proof.Machine.execCmpBpIm6 rd imm s
  | .cmpIm6 rd imm => Sys2Proof.Machine.execCmpIm6 rd imm s
  | .cmpInd rd d mark rs => Sys2Proof.Machine.execCmpInd rd d mark rs s
  | .cmpReg rd rs => Sys2Proof.Machine.execCmpReg rd rs s
  | .cmpIm16 rs imm => Sys2Proof.Machine.execCmpIm16 rs imm s
  | .cmpA16 rs addr => Sys2Proof.Machine.execCmpA16 rs addr s
  | .cmpA16w rd rs addr => Sys2Proof.Machine.execCmpA16w rd rs addr s
  | .cmpAsr rd n rs => Sys2Proof.Machine.execCmpAsr rd n rs s
  | .cmpLsl rd n rs => Sys2Proof.Machine.execCmpLsl rd n rs s
  | .cmpLsr rd n rs => Sys2Proof.Machine.execCmpLsr rd n rs s
  | .cmpRol rd n rs => Sys2Proof.Machine.execCmpRol rd n rs s
  | .cmpRor rd n rs => Sys2Proof.Machine.execCmpRor rd n rs s
  | .cmpA6 rd addr => Sys2Proof.Machine.execCmpA6 rd addr s
  | .negBpIm6 rd imm => Sys2Proof.Machine.execNegBpIm6 rd imm s
  | .negIm6 rd imm => Sys2Proof.Machine.execNegIm6 rd imm s
  | .negInd rd d mark rs => Sys2Proof.Machine.execNegInd rd d mark rs s
  | .negReg rd rs => Sys2Proof.Machine.execNegReg rd rs s
  | .negIm16 rd imm => Sys2Proof.Machine.execNegIm16 rd imm s
  | .negA16 rd addr => Sys2Proof.Machine.execNegA16 rd addr s
  | .negA16w rd addr => Sys2Proof.Machine.execNegA16w rd addr s
  | .negAsr rd n rs => Sys2Proof.Machine.execNegAsr rd n rs s
  | .negLsl rd n rs => Sys2Proof.Machine.execNegLsl rd n rs s
  | .negLsr rd n rs => Sys2Proof.Machine.execNegLsr rd n rs s
  | .negRol rd n rs => Sys2Proof.Machine.execNegRol rd n rs s
  | .negRor rd n rs => Sys2Proof.Machine.execNegRor rd n rs s
  | .negA6 rd addr => Sys2Proof.Machine.execNegA6 rd addr s
  | .xorBpIm6 rd imm => Sys2Proof.Machine.execXorBpIm6 rd imm s
  | .xorIm6 rd imm => Sys2Proof.Machine.execXorIm6 rd imm s
  | .xorInd rd d mark rs => Sys2Proof.Machine.execXorInd rd d mark rs s
  | .xorReg rd rs => Sys2Proof.Machine.execXorReg rd rs s
  | .xorIm16 rd rs imm => Sys2Proof.Machine.execXorIm16 rd rs imm s
  | .xorA16 rd rs addr => Sys2Proof.Machine.execXorA16 rd rs addr s
  | .xorA16w rd rs addr => Sys2Proof.Machine.execXorA16w rd rs addr s
  | .xorAsr rd n rs => Sys2Proof.Machine.execXorAsr rd n rs s
  | .xorLsl rd n rs => Sys2Proof.Machine.execXorLsl rd n rs s
  | .xorLsr rd n rs => Sys2Proof.Machine.execXorLsr rd n rs s
  | .xorRol rd n rs => Sys2Proof.Machine.execXorRol rd n rs s
  | .xorRor rd n rs => Sys2Proof.Machine.execXorRor rd n rs s
  | .xorA6 rd addr => Sys2Proof.Machine.execXorA6 rd addr s
  | .loadBpIm6 rd imm => Sys2Proof.Machine.execLoadBpIm6 rd imm s
  | .loadIm6 rd imm => Sys2Proof.Machine.execLoadIm6 rd imm s
  | .loadInd rd d mark rs => Sys2Proof.Machine.execLoadInd rd d mark rs s
  | .loadReg rd rs => Sys2Proof.Machine.execLoadReg rd rs s
  | .loadIm16 rd imm => Sys2Proof.Machine.execLoadIm16 rd imm s
  | .loadA16 rd addr => Sys2Proof.Machine.execLoadA16 rd addr s
  | .loadAsr rd n rs => Sys2Proof.Machine.execLoadAsr rd n rs s
  | .loadLsl rd n rs => Sys2Proof.Machine.execLoadLsl rd n rs s
  | .loadLsr rd n rs => Sys2Proof.Machine.execLoadLsr rd n rs s
  | .loadRol rd n rs => Sys2Proof.Machine.execLoadRol rd n rs s
  | .loadRor rd n rs => Sys2Proof.Machine.execLoadRor rd n rs s
  | .loadA6 rd addr => Sys2Proof.Machine.execLoadA6 rd addr s
  | .orBpIm6 rd imm => Sys2Proof.Machine.execOrBpIm6 rd imm s
  | .orIm6 rd imm => Sys2Proof.Machine.execOrIm6 rd imm s
  | .orInd rd d mark rs => Sys2Proof.Machine.execOrInd rd d mark rs s
  | .orReg rd rs => Sys2Proof.Machine.execOrReg rd rs s
  | .orIm16 rd rs imm => Sys2Proof.Machine.execOrIm16 rd rs imm s
  | .orA16 rd rs addr => Sys2Proof.Machine.execOrA16 rd rs addr s
  | .orA16w rd rs addr => Sys2Proof.Machine.execOrA16w rd rs addr s
  | .orAsr rd n rs => Sys2Proof.Machine.execOrAsr rd n rs s
  | .orLsl rd n rs => Sys2Proof.Machine.execOrLsl rd n rs s
  | .orLsr rd n rs => Sys2Proof.Machine.execOrLsr rd n rs s
  | .orRol rd n rs => Sys2Proof.Machine.execOrRol rd n rs s
  | .orRor rd n rs => Sys2Proof.Machine.execOrRor rd n rs s
  | .orA6 rd addr => Sys2Proof.Machine.execOrA6 rd addr s
  | .andBpIm6 rd imm => Sys2Proof.Machine.execAndBpIm6 rd imm s
  | .andIm6 rd imm => Sys2Proof.Machine.execAndIm6 rd imm s
  | .andInd rd d mark rs => Sys2Proof.Machine.execAndInd rd d mark rs s
  | .andReg rd rs => Sys2Proof.Machine.execAndReg rd rs s
  | .andIm16 rd rs imm => Sys2Proof.Machine.execAndIm16 rd rs imm s
  | .andA16 rd rs addr => Sys2Proof.Machine.execAndA16 rd rs addr s
  | .andA16w rd rs addr => Sys2Proof.Machine.execAndA16w rd rs addr s
  | .andAsr rd n rs => Sys2Proof.Machine.execAndAsr rd n rs s
  | .andLsl rd n rs => Sys2Proof.Machine.execAndLsl rd n rs s
  | .andLsr rd n rs => Sys2Proof.Machine.execAndLsr rd n rs s
  | .andRol rd n rs => Sys2Proof.Machine.execAndRol rd n rs s
  | .andRor rd n rs => Sys2Proof.Machine.execAndRor rd n rs s
  | .andA6 rd addr => Sys2Proof.Machine.execAndA6 rd addr s
  | .testBpIm6 rd imm => Sys2Proof.Machine.execTestBpIm6 rd imm s
  | .testIm6 rd imm => Sys2Proof.Machine.execTestIm6 rd imm s
  | .testInd rd d mark rs => Sys2Proof.Machine.execTestInd rd d mark rs s
  | .testReg rd rs => Sys2Proof.Machine.execTestReg rd rs s
  | .testIm16 rs imm => Sys2Proof.Machine.execTestIm16 rs imm s
  | .testA16 rs addr => Sys2Proof.Machine.execTestA16 rs addr s
  | .testA16w rd rs addr => Sys2Proof.Machine.execTestA16w rd rs addr s
  | .testAsr rd n rs => Sys2Proof.Machine.execTestAsr rd n rs s
  | .testLsl rd n rs => Sys2Proof.Machine.execTestLsl rd n rs s
  | .testLsr rd n rs => Sys2Proof.Machine.execTestLsr rd n rs s
  | .testRol rd n rs => Sys2Proof.Machine.execTestRol rd n rs s
  | .testRor rd n rs => Sys2Proof.Machine.execTestRor rd n rs s
  | .testA6 rd addr => Sys2Proof.Machine.execTestA6 rd addr s
  | .storeBpIm6 rd imm => Sys2Proof.Machine.execStoreBpIm6 rd imm s
  | .storeInd rd d mark rs => Sys2Proof.Machine.execStoreInd rd d mark rs s
  | .storeA16w rd addr => Sys2Proof.Machine.execStoreA16w rd addr s
  | .storeA6 rd addr => Sys2Proof.Machine.execStoreA6 rd addr s
  | .push rd n rs => Sys2Proof.Machine.execPush rd n rs s
  | .pop rd n rs => Sys2Proof.Machine.execPop rd n rs s
  | .tstbRr rd rs => Sys2Proof.Machine.execTstbRr rd rs s
  | .tstbRo rd k => Sys2Proof.Machine.execTstbRo rd k s
  | .tstbMr d rd rs => Sys2Proof.Machine.execTstbMr d rd rs s
  | .tstbMo d rd k => Sys2Proof.Machine.execTstbMo d rd k s
  | .setbRr rd rs => Sys2Proof.Machine.execSetbRr rd rs s
  | .setbRo rd k => Sys2Proof.Machine.execSetbRo rd k s
  | .setbMr d rd rs => Sys2Proof.Machine.execSetbMr d rd rs s
  | .setbMo d rd k => Sys2Proof.Machine.execSetbMo d rd k s
  | .clrbRr rd rs => Sys2Proof.Machine.execClrbRr rd rs s
  | .clrbRo rd k => Sys2Proof.Machine.execClrbRo rd k s
  | .clrbMr d rd rs => Sys2Proof.Machine.execClrbMr d rd rs s
  | .clrbMo d rd k => Sys2Proof.Machine.execClrbMo d rd k s
  | .invbRr rd rs => Sys2Proof.Machine.execInvbRr rd rs s
  | .invbRo rd k => Sys2Proof.Machine.execInvbRo rd k s
  | .invbMr d rd rs => Sys2Proof.Machine.execInvbMr d rd rs s
  | .invbMo d rd k => Sys2Proof.Machine.execInvbMo d rd k s
  | .shift16Asr rd rs => Sys2Proof.Machine.execShift16Asr rd rs s
  | .shift16Asror rd rs => Sys2Proof.Machine.execShift16Asror rd rs s
  | .shift16Lsl rd rs => Sys2Proof.Machine.execShift16Lsl rd rs s
  | .shift16Lslor rd rs => Sys2Proof.Machine.execShift16Lslor rd rs s
  | .shift16Lsr rd rs => Sys2Proof.Machine.execShift16Lsr rd rs s
  | .shift16Lsror rd rs => Sys2Proof.Machine.execShift16Lsror rd rs s
  | .shift16Rol rd rs => Sys2Proof.Machine.execShift16Rol rd rs s
  | .shift16Ror rd rs => Sys2Proof.Machine.execShift16Ror rd rs s
  | .mulUu rd rs => Sys2Proof.Machine.execMulUu rd rs s
  | .mulsUu rd n rs => Sys2Proof.Machine.execMulsUu rd n rs s
  | .dsIm6 imm => Sys2Proof.Machine.execDsIm6 imm s
  | .mulUs rd rs => Sys2Proof.Machine.execMulUs rd rs s
  | .movRsDs rs => Sys2Proof.Machine.execMovRsDs rs s
  | .movDsRs rs => Sys2Proof.Machine.execMovDsRs rs s
  | .movRsFr rs => Sys2Proof.Machine.execMovRsFr rs s
  | .movFrRs rs => Sys2Proof.Machine.execMovFrRs rs s
  | .call addr => Sys2Proof.Machine.execCall addr s
  | .goto addr => Sys2Proof.Machine.execGoto addr s
  | .gotoMr => Sys2Proof.Machine.execGotoMr s
  | .mulsUs rd n rs => Sys2Proof.Machine.execMulsUs rd n rs s
  | .mulSs rd rs => Sys2Proof.Machine.execMulSs rd rs s
  | .mulsSs rd n rs => Sys2Proof.Machine.execMulsSs rd n rs s
  | .intOff => Sys2Proof.Machine.execIntOff s
  | .intIrq => Sys2Proof.Machine.execIntIrq s
  | .intFiq => Sys2Proof.Machine.execIntFiq s
  | .intFiqIrq => Sys2Proof.Machine.execIntFiqIrq s
  | .firMovOn => Sys2Proof.Machine.execFirMovOn s
  | .firMovOff => Sys2Proof.Machine.execFirMovOff s
  | .fractionOff => Sys2Proof.Machine.execFractionOff s
  | .fractionOn => Sys2Proof.Machine.execFractionOn s
  | .irqOff => Sys2Proof.Machine.execIrqOff s
  | .irqOn => Sys2Proof.Machine.execIrqOn s
  | .secbankOff => Sys2Proof.Machine.execSecbankOff s
  | .secbankOn => Sys2Proof.Machine.execSecbankOn s
  | .fiqOff => Sys2Proof.Machine.execFiqOff s
  | .irqnestOff => Sys2Proof.Machine.execIrqnestOff s
  | .fiqOn => Sys2Proof.Machine.execFiqOn s
  | .irqnestOn => Sys2Proof.Machine.execIrqnestOn s
  | .brk => Sys2Proof.Machine.execBrk s
  | .callMr => Sys2Proof.Machine.execCallMr s
  | .divs => Sys2Proof.Machine.execDivs s
  | .divq => Sys2Proof.Machine.execDivq s
  | .exp => Sys2Proof.Machine.execExp s
  | .nop => Sys2Proof.Machine.execNop s

end Sys2Proof.Machine
end

