-- ==== Sys2Proof/Decode.lean ====
section
/-! DEFINITION. Decoding, total on any words and rejecting by name, and the encoder, both written from
`30_encoding.md` rules R76 to R104. -/

namespace Sys2Proof

/-! ### Field values -/

/-- The register a 3-bit field names (`10_state.md` rule R21). -/
def Reg.ofBits (b : BitVec 3) : Reg :=
  if b = 0#3 then .sp else if b = 1#3 then .r1 else if b = 2#3 then .r2 else if b = 3#3 then .r3
  else if b = 4#3 then .r4 else if b = 5#3 then .bp else if b = 6#3 then .sr else .pc

/-- The field that names a register. -/
def Reg.bits (r : Reg) : BitVec 3 := BitVec.ofNat 3 r.num

/-- ALU_OP (rule R103); 0101, 0111, 1110 and 1111 are no ALU operations. -/
def AluOp.ofBits (b : BitVec 4) : Option AluOp :=
  if b = 0#4 then some .add else if b = 1#4 then some .adc else if b = 2#4 then some .sub
  else if b = 3#4 then some .sbc else if b = 4#4 then some .cmp else if b = 6#4 then some .neg
  else if b = 8#4 then some .xor else if b = 9#4 then some .load else if b = 10#4 then some .or
  else if b = 11#4 then some .and else if b = 12#4 then some .test else if b = 13#4 then some .store
  else none

/-- ALU_OP of an operation (rule R103). -/
def AluOp.bits : AluOp → BitVec 4
  | .add => 0#4 | .adc => 1#4 | .sub => 2#4 | .sbc => 3#4 | .cmp => 4#4 | .neg => 6#4
  | .xor => 8#4 | .load => 9#4 | .or => 10#4 | .and => 11#4 | .test => 12#4 | .store => 13#4

/-- BRANCH_OP (`44_control_flow.md` rule R211); 1111 is no branch. -/
def Cond.ofBits (b : BitVec 4) : Option Cond :=
  if b = 0#4 then some .cc else if b = 1#4 then some .cs else if b = 2#4 then some .sc
  else if b = 3#4 then some .ss else if b = 4#4 then some .ne else if b = 5#4 then some .z
  else if b = 6#4 then some .pl else if b = 7#4 then some .mi else if b = 8#4 then some .be
  else if b = 9#4 then some .a else if b = 10#4 then some .le else if b = 11#4 then some .g
  else if b = 12#4 then some .vc else if b = 13#4 then some .vs else if b = 14#4 then some .always
  else none

/-- BRANCH_OP of a condition (rule R211). -/
def Cond.bits : Cond → BitVec 4
  | .cc => 0#4 | .cs => 1#4 | .sc => 2#4 | .ss => 3#4 | .ne => 4#4 | .z => 5#4 | .pl => 6#4 | .mi => 7#4
  | .be => 8#4 | .a => 9#4 | .le => 10#4 | .g => 11#4 | .vc => 12#4 | .vs => 13#4 | .always => 14#4

/-- SFT_OP 001 to 101 (rule R83). -/
def ShiftKind.ofBits (b : BitVec 3) : Option ShiftKind :=
  if b = 1#3 then some .asr else if b = 2#3 then some .lsl else if b = 3#3 then some .lsr
  else if b = 4#3 then some .rol else if b = 5#3 then some .ror else none

/-- SFT_OP of a shift (rule R83). -/
def ShiftKind.bits : ShiftKind → BitVec 3
  | .asr => 1#3 | .lsl => 2#3 | .lsr => 3#3 | .rol => 4#3 | .ror => 5#3

/-- LSFT_OP (`42_bit_shift.md` rules R172 to R179). -/
def LongShift.ofBits (b : BitVec 3) : LongShift :=
  if b = 0#3 then .asr else if b = 1#3 then .asror else if b = 2#3 then .lsl else if b = 3#3 then .lslor
  else if b = 4#3 then .lsr else if b = 5#3 then .lsror else if b = 6#3 then .rol else .ror

/-- LSFT_OP of a 16-bit shift. -/
def LongShift.bits : LongShift → BitVec 3
  | .asr => 0#3 | .asror => 1#3 | .lsl => 2#3 | .lslor => 3#3
  | .lsr => 4#3 | .lsror => 5#3 | .rol => 6#3 | .ror => 7#3

/-- BIT_OP (`42_bit_shift.md` rules R161 to R164). -/
def BitOp.ofBits (b : BitVec 2) : BitOp :=
  if b = 0#2 then .tstb else if b = 1#2 then .setb else if b = 2#2 then .clrb else .invb

/-- BIT_OP of a bit operation. -/
def BitOp.bits : BitOp → BitVec 2
  | .tstb => 0#2 | .setb => 1#2 | .clrb => 2#2 | .invb => 3#2

/-- The @ field (rule R86). -/
def PtrMark.ofBits (b : BitVec 2) : PtrMark :=
  if b = 0#2 then .keep else if b = 1#2 then .postDec else if b = 2#2 then .postInc else .preInc

/-- The @ field of a pointer mark. -/
def PtrMark.bits : PtrMark → BitVec 2
  | .keep => 0#2 | .postDec => 1#2 | .postInc => 2#2 | .preInc => 3#2

/-- The low four bits of a mode word (rule R92). -/
def ModeOp.ofBits (b : BitVec 4) : ModeOp :=
  if b = 0#4 then .intOff else if b = 1#4 then .intIrq else if b = 2#4 then .intFiq
  else if b = 3#4 then .intFiqIrq else if b = 4#4 then .firMovOn else if b = 5#4 then .firMovOff
  else if b = 6#4 then .fractionOff else if b = 7#4 then .fractionOn else if b = 8#4 then .irqOff
  else if b = 9#4 then .irqOn else if b = 10#4 then .secbankOff else if b = 11#4 then .secbankOn
  else if b = 12#4 then .fiqOff else if b = 13#4 then .irqnestOff else if b = 14#4 then .fiqOn
  else .irqnestOn

/-- The low four bits of a mode word. -/
def ModeOp.bits : ModeOp → BitVec 4
  | .intOff => 0#4 | .intIrq => 1#4 | .intFiq => 2#4 | .intFiqIrq => 3#4
  | .firMovOn => 4#4 | .firMovOff => 5#4 | .fractionOff => 6#4 | .fractionOn => 7#4
  | .irqOff => 8#4 | .irqOn => 9#4 | .secbankOff => 10#4 | .secbankOn => 11#4
  | .fiqOff => 12#4 | .irqnestOff => 13#4 | .fiqOn => 14#4 | .irqnestOn => 15#4

/-! ### Fields of the first word (`00_scope.md` rule R11, `30_encoding.md` rule R76) -/

/-- op0, bits 15:12. -/
def fieldOp0 (w : Word) : BitVec 4 := w.extractLsb' 12 4
/-- The number in bits 11:9. -/
def fieldRdBits (w : Word) : BitVec 3 := w.extractLsb' 9 3
/-- Rd, bits 11:9. -/
def fieldRd (w : Word) : Reg := Reg.ofBits (fieldRdBits w)
/-- op1, bits 8:6. -/
def fieldOp1 (w : Word) : BitVec 3 := w.extractLsb' 6 3
/-- opn, bits 5:3; also N of PUSH and POP. -/
def fieldOpn (w : Word) : BitVec 3 := w.extractLsb' 3 3
/-- Rs, bits 2:0. -/
def fieldRs (w : Word) : Reg := Reg.ofBits (w.extractLsb' 0 3)
/-- The 6-bit field, bits 5:0: IM6, A6, A22[21:16] or f. -/
def fieldImm6 (w : Word) : BitVec 6 := w.extractLsb' 0 6
/-- SFT_OP, bits 7:5 (rule R83). -/
def fieldSft (w : Word) : BitVec 3 := w.extractLsb' 5 3
/-- n, bits 4:3: the shift count minus one (rule R83). -/
def fieldN2 (w : Word) : BitVec 2 := w.extractLsb' 3 2
/-- The @ field, bits 4:3 (rule R86). -/
def fieldMark (w : Word) : PtrMark := PtrMark.ofBits (w.extractLsb' 3 2)
/-- BIT_OP, bits 5:4 (rule R90). -/
def fieldBitOp (w : Word) : BitOp := BitOp.ofBits (w.extractLsb' 4 2)
/-- The offset of a bit operation, bits 3:0 (rule R93). -/
def fieldOffset (w : Word) : BitVec 4 := w.extractLsb' 0 4
/-- LSFT_OP, bits 6:4 (rule R90). -/
def fieldLongShift (w : Word) : LongShift := LongShift.ofBits (w.extractLsb' 4 3)
/-- N of MULS, bits 6:3 (rule R93). -/
def fieldN4 (w : Word) : BitVec 4 := w.extractLsb' 3 4

/-! ### Decoding -/

/-- The ALU group by op1 and opn (rule R80). -/
def decodeAlu (op : AluOp) (w0 w1 : Word) : Except Reserved Shape :=
  let rd := fieldRd w0
  let rs := fieldRs w0
  let op1 := fieldOp1 w0
  let opn := fieldOpn w0
  if op1 = 0#3 then .ok (.bpIm6 op rd (fieldImm6 w0))
  else if op1 = 1#3 then .ok (.im6 op rd (fieldImm6 w0))
  else if op1 = 2#3 then
    match op with
    | .store => .ok (.push rd opn rs)
    | .load => .ok (.pop rd opn rs)
    | _ => .error .stackGroup
  else if op1 = 3#3 then .ok (.ind op rd (w0.getLsbD 5) (fieldMark w0) rs)
  else if op1 = 7#3 then .ok (.a6 op rd (fieldImm6 w0))
  else if op1 = 4#3 ∧ opn = 0#3 then .ok (.reg op rd rs)
  else if op1 = 4#3 ∧ opn = 1#3 then .ok (.im16 op rd rs w1)
  else if op1 = 4#3 ∧ opn = 2#3 then .ok (.a16 op rd rs w1)
  else if op1 = 4#3 ∧ opn = 3#3 then .ok (.a16w op rd rs w1)
  else match ShiftKind.ofBits (fieldSft w0) with
    | some k => .ok (.shifted op k rd (fieldN2 w0) rs)
    | none => .error .operationNotInForm

/-- The 1110 group with rd not 111 (rule R90). -/
def decode1110 (w0 : Word) : Except Reserved Shape :=
  let rd := fieldRd w0
  let rs := fieldRs w0
  let op1 := fieldOp1 w0
  if rd = .pc then .error .pcOperand
  else if op1 = 0#3 then
    if w0.getLsbD 3 = false then .ok (.bitRr (fieldBitOp w0) rd rs)
    else if fieldOpn w0 = 1#3 then .ok (.mul .uu rd rs)
    else .error .group1110
  else if op1 = 1#3 then .ok (.bitRo (fieldBitOp w0) rd (fieldOffset w0))
  else if op1 = 2#3 ∨ op1 = 3#3 then .ok (.muls .uu rd (fieldN4 w0) rs)
  else if op1 = 4#3 ∨ op1 = 5#3 then
    if w0.getLsbD 3 = false then .ok (.bitMr (fieldBitOp w0) (w0.getLsbD 6) rd rs)
    else .ok (.shift16 (fieldLongShift w0) rd rs)
  else .ok (.bitMo (fieldBitOp w0) (w0.getLsbD 6) rd (fieldOffset w0))

/-- The control subgroup (rule R92). -/
def decodeControl (w0 : Word) : Except Reserved Shape :=
  if w0.getLsbD 5 = false then
    if w0.getLsbD 4 = false then .ok (.mode (ModeOp.ofBits (fieldOffset w0))) else .error .group1111
  else
    let f := w0.extractLsb' 0 3
    if f = 0#3 then .ok .brk
    else if f = 1#3 then .ok .callMr
    else if f = 2#3 then .ok .divs
    else if f = 3#3 then .ok .divq
    else if f = 4#3 then .ok .exp
    else if f = 5#3 then .ok .nop
    else .error .group1111

/-- The 1111 group (rule R91). -/
def decode1111 (w0 w1 : Word) : Except Reserved Shape :=
  let rd := fieldRd w0
  let rs := fieldRs w0
  let op1 := fieldOp1 w0
  let opn := fieldOpn w0
  if op1 = 0#3 then
    if rd = .pc then .ok (.dsIm6 (fieldImm6 w0))
    else if opn = 1#3 then .ok (.mul .us rd rs)
    else if opn = 4#3 then .ok (.movRsDs rs)
    else if opn = 5#3 then .ok (.movDsRs rs)
    else if opn = 6#3 then .ok (.movRsFr rs)
    else if opn = 7#3 then .ok (.movFrRs rs)
    else .error .group1111
  else if op1 = 1#3 then .ok (.call (fieldImm6 w0 ++ w1))
  else if op1 = 2#3 then
    if rd = .pc then .ok (.goto (fieldImm6 w0 ++ w1)) else .ok (.muls .us rd (fieldN4 w0) rs)
  else if op1 = 3#3 then
    if rd = .pc then .ok .gotoMr else .ok (.muls .us rd (fieldN4 w0) rs)
  else if op1 = 4#3 then
    if rd ≠ .pc ∧ opn = 1#3 then .ok (.mul .ss rd rs) else .error .group1111
  else if op1 = 5#3 then decodeControl w0
  else if rd = .pc then .error .group1111
  else .ok (.muls .ss rd (fieldN4 w0) rs)

/-- The top-level decode order (rule R79), RETF and RETI before POP (rule R88). -/
def decodeShape (w0 w1 : Word) : Except Reserved Shape :=
  let op0 := fieldOp0 w0
  if op0 ≠ 15#4 ∧ fieldRd w0 = .pc ∧ (fieldOp1 w0 = 0#3 ∨ fieldOp1 w0 = 1#3) then
    match Cond.ofBits op0 with
    | some c => .ok (.branch c (w0.getLsbD 6) (fieldImm6 w0))
    | none => .error .noOperation
  else if op0 = 15#4 then decode1111 w0 w1
  else if op0 = 14#4 then decode1110 w0
  else if w0 = 0x9A90#16 then .ok .retf
  else if w0 = 0x9A98#16 then .ok .reti
  else match AluOp.ofBits op0 with
    | some op => decodeAlu op w0 w1
    | none => .error .noOperation

/-- The instruction a form spells, if the form lists the operation (the validity matrix of rule R104).  A
register field the instruction does not use is ignored (rule R94). -/
def Shape.toInstr : Shape → Option Instr
  | .branch .cc back imm => some (.jcc back imm)
  | .branch .cs back imm => some (.jcs back imm)
  | .branch .sc back imm => some (.jsc back imm)
  | .branch .ss back imm => some (.jss back imm)
  | .branch .ne back imm => some (.jne back imm)
  | .branch .z back imm => some (.jz back imm)
  | .branch .pl back imm => some (.jpl back imm)
  | .branch .mi back imm => some (.jmi back imm)
  | .branch .be back imm => some (.jbe back imm)
  | .branch .a back imm => some (.ja back imm)
  | .branch .le back imm => some (.jle back imm)
  | .branch .g back imm => some (.jg back imm)
  | .branch .vc back imm => some (.jvc back imm)
  | .branch .vs back imm => some (.jvs back imm)
  | .branch .always back imm => some (.jmp back imm)
  | .retf => some (.retf)
  | .reti => some (.reti)
  | .bpIm6 .add rd imm => some (.addBpIm6 rd imm)
  | .im6 .add rd imm => some (.addIm6 rd imm)
  | .ind .add rd d mark rs => some (.addInd rd d mark rs)
  | .reg .add rd rs => some (.addReg rd rs)
  | .im16 .add rd rs imm => some (.addIm16 rd rs imm)
  | .a16 .add rd rs addr => some (.addA16 rd rs addr)
  | .a16w .add rd rs addr => some (.addA16w rd rs addr)
  | .shifted .add .asr rd n rs => some (.addAsr rd n rs)
  | .shifted .add .lsl rd n rs => some (.addLsl rd n rs)
  | .shifted .add .lsr rd n rs => some (.addLsr rd n rs)
  | .shifted .add .rol rd n rs => some (.addRol rd n rs)
  | .shifted .add .ror rd n rs => some (.addRor rd n rs)
  | .a6 .add rd addr => some (.addA6 rd addr)
  | .bpIm6 .adc rd imm => some (.adcBpIm6 rd imm)
  | .im6 .adc rd imm => some (.adcIm6 rd imm)
  | .ind .adc rd d mark rs => some (.adcInd rd d mark rs)
  | .reg .adc rd rs => some (.adcReg rd rs)
  | .im16 .adc rd rs imm => some (.adcIm16 rd rs imm)
  | .a16 .adc rd rs addr => some (.adcA16 rd rs addr)
  | .a16w .adc rd rs addr => some (.adcA16w rd rs addr)
  | .shifted .adc .asr rd n rs => some (.adcAsr rd n rs)
  | .shifted .adc .lsl rd n rs => some (.adcLsl rd n rs)
  | .shifted .adc .lsr rd n rs => some (.adcLsr rd n rs)
  | .shifted .adc .rol rd n rs => some (.adcRol rd n rs)
  | .shifted .adc .ror rd n rs => some (.adcRor rd n rs)
  | .a6 .adc rd addr => some (.adcA6 rd addr)
  | .bpIm6 .sub rd imm => some (.subBpIm6 rd imm)
  | .im6 .sub rd imm => some (.subIm6 rd imm)
  | .ind .sub rd d mark rs => some (.subInd rd d mark rs)
  | .reg .sub rd rs => some (.subReg rd rs)
  | .im16 .sub rd rs imm => some (.subIm16 rd rs imm)
  | .a16 .sub rd rs addr => some (.subA16 rd rs addr)
  | .a16w .sub rd rs addr => some (.subA16w rd rs addr)
  | .shifted .sub .asr rd n rs => some (.subAsr rd n rs)
  | .shifted .sub .lsl rd n rs => some (.subLsl rd n rs)
  | .shifted .sub .lsr rd n rs => some (.subLsr rd n rs)
  | .shifted .sub .rol rd n rs => some (.subRol rd n rs)
  | .shifted .sub .ror rd n rs => some (.subRor rd n rs)
  | .a6 .sub rd addr => some (.subA6 rd addr)
  | .bpIm6 .sbc rd imm => some (.sbcBpIm6 rd imm)
  | .im6 .sbc rd imm => some (.sbcIm6 rd imm)
  | .ind .sbc rd d mark rs => some (.sbcInd rd d mark rs)
  | .reg .sbc rd rs => some (.sbcReg rd rs)
  | .im16 .sbc rd rs imm => some (.sbcIm16 rd rs imm)
  | .a16 .sbc rd rs addr => some (.sbcA16 rd rs addr)
  | .a16w .sbc rd rs addr => some (.sbcA16w rd rs addr)
  | .shifted .sbc .asr rd n rs => some (.sbcAsr rd n rs)
  | .shifted .sbc .lsl rd n rs => some (.sbcLsl rd n rs)
  | .shifted .sbc .lsr rd n rs => some (.sbcLsr rd n rs)
  | .shifted .sbc .rol rd n rs => some (.sbcRol rd n rs)
  | .shifted .sbc .ror rd n rs => some (.sbcRor rd n rs)
  | .a6 .sbc rd addr => some (.sbcA6 rd addr)
  | .bpIm6 .cmp rd imm => some (.cmpBpIm6 rd imm)
  | .im6 .cmp rd imm => some (.cmpIm6 rd imm)
  | .ind .cmp rd d mark rs => some (.cmpInd rd d mark rs)
  | .reg .cmp rd rs => some (.cmpReg rd rs)
  | .im16 .cmp _ rs imm => some (.cmpIm16 rs imm)
  | .a16 .cmp _ rs addr => some (.cmpA16 rs addr)
  | .a16w .cmp rd rs addr => some (.cmpA16w rd rs addr)
  | .shifted .cmp .asr rd n rs => some (.cmpAsr rd n rs)
  | .shifted .cmp .lsl rd n rs => some (.cmpLsl rd n rs)
  | .shifted .cmp .lsr rd n rs => some (.cmpLsr rd n rs)
  | .shifted .cmp .rol rd n rs => some (.cmpRol rd n rs)
  | .shifted .cmp .ror rd n rs => some (.cmpRor rd n rs)
  | .a6 .cmp rd addr => some (.cmpA6 rd addr)
  | .bpIm6 .neg rd imm => some (.negBpIm6 rd imm)
  | .im6 .neg rd imm => some (.negIm6 rd imm)
  | .ind .neg rd d mark rs => some (.negInd rd d mark rs)
  | .reg .neg rd rs => some (.negReg rd rs)
  | .im16 .neg rd _ imm => some (.negIm16 rd imm)
  | .a16 .neg rd _ addr => some (.negA16 rd addr)
  | .a16w .neg rd _ addr => some (.negA16w rd addr)
  | .shifted .neg .asr rd n rs => some (.negAsr rd n rs)
  | .shifted .neg .lsl rd n rs => some (.negLsl rd n rs)
  | .shifted .neg .lsr rd n rs => some (.negLsr rd n rs)
  | .shifted .neg .rol rd n rs => some (.negRol rd n rs)
  | .shifted .neg .ror rd n rs => some (.negRor rd n rs)
  | .a6 .neg rd addr => some (.negA6 rd addr)
  | .bpIm6 .xor rd imm => some (.xorBpIm6 rd imm)
  | .im6 .xor rd imm => some (.xorIm6 rd imm)
  | .ind .xor rd d mark rs => some (.xorInd rd d mark rs)
  | .reg .xor rd rs => some (.xorReg rd rs)
  | .im16 .xor rd rs imm => some (.xorIm16 rd rs imm)
  | .a16 .xor rd rs addr => some (.xorA16 rd rs addr)
  | .a16w .xor rd rs addr => some (.xorA16w rd rs addr)
  | .shifted .xor .asr rd n rs => some (.xorAsr rd n rs)
  | .shifted .xor .lsl rd n rs => some (.xorLsl rd n rs)
  | .shifted .xor .lsr rd n rs => some (.xorLsr rd n rs)
  | .shifted .xor .rol rd n rs => some (.xorRol rd n rs)
  | .shifted .xor .ror rd n rs => some (.xorRor rd n rs)
  | .a6 .xor rd addr => some (.xorA6 rd addr)
  | .bpIm6 .load rd imm => some (.loadBpIm6 rd imm)
  | .im6 .load rd imm => some (.loadIm6 rd imm)
  | .ind .load rd d mark rs => some (.loadInd rd d mark rs)
  | .reg .load rd rs => some (.loadReg rd rs)
  | .im16 .load rd _ imm => some (.loadIm16 rd imm)
  | .a16 .load rd _ addr => some (.loadA16 rd addr)
  | .shifted .load .asr rd n rs => some (.loadAsr rd n rs)
  | .shifted .load .lsl rd n rs => some (.loadLsl rd n rs)
  | .shifted .load .lsr rd n rs => some (.loadLsr rd n rs)
  | .shifted .load .rol rd n rs => some (.loadRol rd n rs)
  | .shifted .load .ror rd n rs => some (.loadRor rd n rs)
  | .a6 .load rd addr => some (.loadA6 rd addr)
  | .bpIm6 .or rd imm => some (.orBpIm6 rd imm)
  | .im6 .or rd imm => some (.orIm6 rd imm)
  | .ind .or rd d mark rs => some (.orInd rd d mark rs)
  | .reg .or rd rs => some (.orReg rd rs)
  | .im16 .or rd rs imm => some (.orIm16 rd rs imm)
  | .a16 .or rd rs addr => some (.orA16 rd rs addr)
  | .a16w .or rd rs addr => some (.orA16w rd rs addr)
  | .shifted .or .asr rd n rs => some (.orAsr rd n rs)
  | .shifted .or .lsl rd n rs => some (.orLsl rd n rs)
  | .shifted .or .lsr rd n rs => some (.orLsr rd n rs)
  | .shifted .or .rol rd n rs => some (.orRol rd n rs)
  | .shifted .or .ror rd n rs => some (.orRor rd n rs)
  | .a6 .or rd addr => some (.orA6 rd addr)
  | .bpIm6 .and rd imm => some (.andBpIm6 rd imm)
  | .im6 .and rd imm => some (.andIm6 rd imm)
  | .ind .and rd d mark rs => some (.andInd rd d mark rs)
  | .reg .and rd rs => some (.andReg rd rs)
  | .im16 .and rd rs imm => some (.andIm16 rd rs imm)
  | .a16 .and rd rs addr => some (.andA16 rd rs addr)
  | .a16w .and rd rs addr => some (.andA16w rd rs addr)
  | .shifted .and .asr rd n rs => some (.andAsr rd n rs)
  | .shifted .and .lsl rd n rs => some (.andLsl rd n rs)
  | .shifted .and .lsr rd n rs => some (.andLsr rd n rs)
  | .shifted .and .rol rd n rs => some (.andRol rd n rs)
  | .shifted .and .ror rd n rs => some (.andRor rd n rs)
  | .a6 .and rd addr => some (.andA6 rd addr)
  | .bpIm6 .test rd imm => some (.testBpIm6 rd imm)
  | .im6 .test rd imm => some (.testIm6 rd imm)
  | .ind .test rd d mark rs => some (.testInd rd d mark rs)
  | .reg .test rd rs => some (.testReg rd rs)
  | .im16 .test _ rs imm => some (.testIm16 rs imm)
  | .a16 .test _ rs addr => some (.testA16 rs addr)
  | .a16w .test rd rs addr => some (.testA16w rd rs addr)
  | .shifted .test .asr rd n rs => some (.testAsr rd n rs)
  | .shifted .test .lsl rd n rs => some (.testLsl rd n rs)
  | .shifted .test .lsr rd n rs => some (.testLsr rd n rs)
  | .shifted .test .rol rd n rs => some (.testRol rd n rs)
  | .shifted .test .ror rd n rs => some (.testRor rd n rs)
  | .a6 .test rd addr => some (.testA6 rd addr)
  | .bpIm6 .store rd imm => some (.storeBpIm6 rd imm)
  | .ind .store rd d mark rs => some (.storeInd rd d mark rs)
  | .a16w .store rd _ addr => some (.storeA16w rd addr)
  | .a6 .store rd addr => some (.storeA6 rd addr)
  | .push rd n rs => some (.push rd n rs)
  | .pop rd n rs => some (.pop rd n rs)
  | .bitRr .tstb rd rs => some (.tstbRr rd rs)
  | .bitRo .tstb rd k => some (.tstbRo rd k)
  | .bitMr .tstb d rd rs => some (.tstbMr d rd rs)
  | .bitMo .tstb d rd k => some (.tstbMo d rd k)
  | .bitRr .setb rd rs => some (.setbRr rd rs)
  | .bitRo .setb rd k => some (.setbRo rd k)
  | .bitMr .setb d rd rs => some (.setbMr d rd rs)
  | .bitMo .setb d rd k => some (.setbMo d rd k)
  | .bitRr .clrb rd rs => some (.clrbRr rd rs)
  | .bitRo .clrb rd k => some (.clrbRo rd k)
  | .bitMr .clrb d rd rs => some (.clrbMr d rd rs)
  | .bitMo .clrb d rd k => some (.clrbMo d rd k)
  | .bitRr .invb rd rs => some (.invbRr rd rs)
  | .bitRo .invb rd k => some (.invbRo rd k)
  | .bitMr .invb d rd rs => some (.invbMr d rd rs)
  | .bitMo .invb d rd k => some (.invbMo d rd k)
  | .shift16 .asr rd rs => some (.shift16Asr rd rs)
  | .shift16 .asror rd rs => some (.shift16Asror rd rs)
  | .shift16 .lsl rd rs => some (.shift16Lsl rd rs)
  | .shift16 .lslor rd rs => some (.shift16Lslor rd rs)
  | .shift16 .lsr rd rs => some (.shift16Lsr rd rs)
  | .shift16 .lsror rd rs => some (.shift16Lsror rd rs)
  | .shift16 .rol rd rs => some (.shift16Rol rd rs)
  | .shift16 .ror rd rs => some (.shift16Ror rd rs)
  | .mul .uu rd rs => some (.mulUu rd rs)
  | .muls .uu rd n rs => some (.mulsUu rd n rs)
  | .dsIm6 imm => some (.dsIm6 imm)
  | .mul .us rd rs => some (.mulUs rd rs)
  | .movRsDs rs => some (.movRsDs rs)
  | .movDsRs rs => some (.movDsRs rs)
  | .movRsFr rs => some (.movRsFr rs)
  | .movFrRs rs => some (.movFrRs rs)
  | .call addr => some (.call addr)
  | .goto addr => some (.goto addr)
  | .gotoMr => some (.gotoMr)
  | .muls .us rd n rs => some (.mulsUs rd n rs)
  | .mul .ss rd rs => some (.mulSs rd rs)
  | .muls .ss rd n rs => some (.mulsSs rd n rs)
  | .mode .intOff => some (.intOff)
  | .mode .intIrq => some (.intIrq)
  | .mode .intFiq => some (.intFiq)
  | .mode .intFiqIrq => some (.intFiqIrq)
  | .mode .firMovOn => some (.firMovOn)
  | .mode .firMovOff => some (.firMovOff)
  | .mode .fractionOff => some (.fractionOff)
  | .mode .fractionOn => some (.fractionOn)
  | .mode .irqOff => some (.irqOff)
  | .mode .irqOn => some (.irqOn)
  | .mode .secbankOff => some (.secbankOff)
  | .mode .secbankOn => some (.secbankOn)
  | .mode .fiqOff => some (.fiqOff)
  | .mode .irqnestOff => some (.irqnestOff)
  | .mode .fiqOn => some (.fiqOn)
  | .mode .irqnestOn => some (.irqnestOn)
  | .brk => some (.brk)
  | .callMr => some (.callMr)
  | .divs => some (.divs)
  | .divq => some (.divq)
  | .exp => some (.exp)
  | .nop => some (.nop)
  | .im6 .store _ _ | .reg .store _ _ | .im16 .store _ _ _ | .a16 .store _ _ _ | .shifted .store _ _ _ _
  | .a16w .load _ _ _ => none

/-- Decoding an instruction from its first word and the word after it, which is looked at only by a
two-word instruction (`00_scope.md` rule R10).  A word that spells no instruction is rejected with the
reason (`30_encoding.md` rule R98). -/
def decode (w0 w1 : Word) : Except Reserved Instr :=
  match decodeShape w0 w1 with
  | .error e => .error e
  | .ok sh =>
    match sh.toInstr with
    | none => .error .operationNotInForm
    | some i =>
      match i.check with
      | some e => .error e
      | none => .ok i

/-- The operations the IM16 and `[A16]` forms accept for a first word `.... ... 100 0xx ...` (rules R104,
R78): all but LOAD with W = 1 and STORE without it. -/
def acceptsSecondWord (op : AluOp) (opn : BitVec 3) : Bool :=
  if opn = 1#3 ∨ opn = 2#3 then op != .store
  else if opn = 3#3 then op != .load
  else false

/-- Whether a first word is followed by a second one: the four patterns of rule R78. -/
def isTwoWord (w0 : Word) : Bool :=
  if fieldOp0 w0 = 15#4 then
    (fieldOp1 w0 == 1#3) || (fieldRdBits w0 == 7#3 && fieldOp1 w0 == 2#3)
  else if fieldOp1 w0 = 4#3 then
    match AluOp.ofBits (fieldOp0 w0) with
    | some op => acceptsSecondWord op (fieldOpn w0)
    | none => false
  else false

/-! ### Encoding: the canonical words, every ignored bit 0 (rule R94) -/

/-- A first word from the common fields of rule R76. -/
def packFields (op0 : BitVec 4) (rd op1 opn rs : BitVec 3) : Word := op0 ++ rd ++ op1 ++ opn ++ rs

/-- A first word whose low six bits are one field. -/
def packImm6 (op0 : BitVec 4) (rd op1 : BitVec 3) (imm : BitVec 6) : Word := op0 ++ rd ++ op1 ++ imm

/-- One bit as a field. -/
def bit1 (b : Bool) : BitVec 1 := BitVec.ofBool b

/-- The first word of a form. -/
def Shape.word0 : Shape → Word
  | .branch c back imm => c.bits ++ 7#3 ++ 0#2 ++ bit1 back ++ imm
  | .retf => 0x9A90#16
  | .reti => 0x9A98#16
  | .bpIm6 op rd imm => packImm6 op.bits rd.bits 0#3 imm
  | .im6 op rd imm => packImm6 op.bits rd.bits 1#3 imm
  | .ind op rd d mark rs => op.bits ++ rd.bits ++ 3#3 ++ bit1 d ++ mark.bits ++ rs.bits
  | .reg op rd rs => packFields op.bits rd.bits 4#3 0#3 rs.bits
  | .im16 op rd rs _ => packFields op.bits rd.bits 4#3 1#3 rs.bits
  | .a16 op rd rs _ => packFields op.bits rd.bits 4#3 2#3 rs.bits
  | .a16w op rd rs _ => packFields op.bits rd.bits 4#3 3#3 rs.bits
  | .shifted op k rd n rs => op.bits ++ rd.bits ++ 1#1 ++ k.bits ++ n ++ rs.bits
  | .a6 op rd addr => packImm6 op.bits rd.bits 7#3 addr
  | .push rd n rs => packFields 13#4 rd.bits 2#3 n rs.bits
  | .pop rd n rs => packFields 9#4 rd.bits 2#3 n rs.bits
  | .bitRr b rd rs => 14#4 ++ rd.bits ++ 0#3 ++ b.bits ++ 0#1 ++ rs.bits
  | .bitRo b rd k => 14#4 ++ rd.bits ++ 1#3 ++ b.bits ++ k
  | .bitMr b d rd rs => 14#4 ++ rd.bits ++ 2#2 ++ bit1 d ++ b.bits ++ 0#1 ++ rs.bits
  | .bitMo b d rd k => 14#4 ++ rd.bits ++ 3#2 ++ bit1 d ++ b.bits ++ k
  | .shift16 k rd rs => 14#4 ++ rd.bits ++ 2#2 ++ k.bits ++ 1#1 ++ rs.bits
  | .mul .uu rd rs => packFields 14#4 rd.bits 0#3 1#3 rs.bits
  | .mul .us rd rs => packFields 15#4 rd.bits 0#3 1#3 rs.bits
  | .mul .ss rd rs => packFields 15#4 rd.bits 4#3 1#3 rs.bits
  | .muls .uu rd n rs => 14#4 ++ rd.bits ++ 1#2 ++ n ++ rs.bits
  | .muls .us rd n rs => 15#4 ++ rd.bits ++ 1#2 ++ n ++ rs.bits
  | .muls .ss rd n rs => 15#4 ++ rd.bits ++ 3#2 ++ n ++ rs.bits
  | .dsIm6 imm => packImm6 15#4 7#3 0#3 imm
  | .movRsDs rs => packFields 15#4 0#3 0#3 4#3 rs.bits
  | .movDsRs rs => packFields 15#4 0#3 0#3 5#3 rs.bits
  | .movRsFr rs => packFields 15#4 0#3 0#3 6#3 rs.bits
  | .movFrRs rs => packFields 15#4 0#3 0#3 7#3 rs.bits
  | .call addr => packImm6 15#4 0#3 1#3 (addr.extractLsb' 16 6)
  | .goto addr => packImm6 15#4 7#3 2#3 (addr.extractLsb' 16 6)
  | .gotoMr => packImm6 15#4 7#3 3#3 0#6
  | .mode m => 15#4 ++ 0#3 ++ 5#3 ++ 0#2 ++ m.bits
  | .brk => packFields 15#4 0#3 5#3 4#3 0#3
  | .callMr => packFields 15#4 0#3 5#3 4#3 1#3
  | .divs => packFields 15#4 0#3 5#3 4#3 2#3
  | .divq => packFields 15#4 0#3 5#3 4#3 3#3
  | .exp => packFields 15#4 0#3 5#3 4#3 4#3
  | .nop => packFields 15#4 0#3 5#3 4#3 5#3

/-- The second word of a form, if it has one (rule R78). -/
def Shape.word1 : Shape → Option Word
  | .im16 _ _ _ imm => some imm
  | .a16 _ _ _ addr => some addr
  | .a16w _ _ _ addr => some addr
  | .call addr => some (addr.extractLsb' 0 16)
  | .goto addr => some (addr.extractLsb' 0 16)
  | _ => none

/-- The words of an instruction, the first at the lower address (`20_memory.md` rule R53). -/
def encode (i : Instr) : List Word := i.shape.word0 :: i.shape.word1.toList

/-- How many words an instruction has. -/
def Instr.words (i : Instr) : Nat := if i.shape.word1.isSome then 2 else 1

/-- Decoding a list of words, as the fetch does: the second word counts only for a two-word instruction. -/
def decodeWords : List Word → Except Reserved Instr
  | [] => .error .noOperation
  | [w0] => decode w0 0#16
  | w0 :: w1 :: _ => decode w0 w1

/-- The instruction read from a number that holds the first word in bits 15:0 and the second in bits
31:16; bits at and above `nbits` count as 0. -/
def decodeTableWord (nbits w : Nat) : Option Instr :=
  let v := w % 2 ^ nbits
  match decode (BitVec.ofNat 16 v) (BitVec.ofNat 16 (v / 65536)) with
  | .ok i => some i
  | .error _ => none

end Sys2Proof
end

