-- ==== Sys2Proof/Machine/Fetch.lean ====
section
/-! DEFINITION. Before an instruction runs: which interrupt is accepted, and the fetch. -/

namespace Sys2Proof.Machine

/-! ### Acceptance (`60_exceptions.md` rules R277 to R283) -/

/-- The least IRQ whose line is 1 and whose number is below FR.PRI (rules R277, R280). -/
def admissibleIrq (l : Lines) (s : State) : Option (Fin 8) :=
  [0, 1, 2, 3, 4, 5, 6, 7].find? fun n : Fin 8 => l.irq.getLsbD n.val && decide (n.val < s.pri.toNat)

/-- The acceptance test, made once per step before the fetch (rule R280). -/
def accepted (l : Lines) (s : State) : Option IntSource :=
  if l.fiq && s.fiqOn && !s.inFiq && !s.inBrk then some .fiq
  else if s.irqOn && !s.inFiq && !s.inBrk && (s.irqDepth == 0 || s.ine) then
    (admissibleIrq l s).map .irq
  else none

/-- The request lines of this step; when no sample is left there is no request (log 22). -/
def State.linesNow (s : State) : Lines := s.irqIn.headD quietLines

/-- The state with this step's sample used. -/
def State.nextSample (s : State) : State := { s with irqIn := s.irqIn.tail }

/-! ### Fetch (`00_scope.md` rule R10; `20_memory.md` rules R57, R58) -/

/-- Read the word at LPC and advance. -/
def fetchWord (s : State) : Res (Word × State) := andThen (memRead s.lpc s) fun w => .next (w, s.advance)

/-- The second word, of a two-word instruction only (`30_encoding.md` rule R78). -/
def fetchSecond (w0 : Word) (s : State) : Res (Word × State) :=
  if isTwoWord w0 then fetchWord s else .next (0#16, s)

/-- Fetch and decode the next instruction; LPC is then the address of the one after it.  A word that spells
no instruction is refused (`30_encoding.md` rule R98, decision D16, log 15). -/
def fetch (s : State) : Res (Instr × State) :=
  andThen (fetchWord s) fun (w0, t) =>
  andThen (fetchSecond w0 t) fun (w1, u) =>
  match decode w0 w1 with
  | .ok i => .next (i, u)
  | .error why => .refused (.reserved why)

/-! ### Placing a word where the next step fetches it -/

/-- The platform with an address made RAM unless it can be read already. -/
def Platform.admitRead (p : Platform) (a : Addr) : Platform :=
  match kindIn p.map a.toNat with
  | .ram | .rom => p
  | _ => { p with map := ⟨a.toNat, 1, .ram⟩ :: p.map }

/-- The state with two words placed at LPC and the address after it, ready to run them: both addresses can be
read, this step's request sample is quiet, and no reset step is pending (log 20). -/
def State.placeWords (s : State) (w0 w1 : Word) : State :=
  { s with
    mem := Memory.setWord (Memory.setWord s.mem s.lpc w0) (s.lpc + 1#22) w1
    plat := (s.plat.admitRead s.lpc).admitRead (s.lpc + 1#22)
    irqIn := match s.irqIn with
      | [] => []
      | _ :: rest => quietLines :: rest
    resetPending := false }

end Sys2Proof.Machine
end

