-- ==== Sys2Proof/Machine/Timing.lean ====
section
/-! DEFINITION. Cycle counts: the table of `70_reset_and_hazards.md` rule R330 with the wait states of the
platform (rules R328, R329; log 40).  No meaning reads the counter. -/

namespace Sys2Proof.Machine

/-- `base + pm*PM + dm*DM`. -/
def waits (base pm dm : Nat) (s : State) : Nat := base + pm * s.plat.waitPm + dm * s.plat.waitDm

/-- The cycles of an ALU instruction that writes PC.  Without wait cycles they are the section's count (`41_alu.md`
rule R151).  With wait cycles the source gives no count: Appendix A's formulas hold only "if Rd is NOT pc" (rule
R329), so the whole count is a free value, with no lower bound, for each instruction with its operands.  That it
is a natural number, the same each time that instruction runs under the same wait_PM and wait_DM, is the model's
choice (DESIGN CHOICE, unsafe for a statement about time, log 40). -/
def pcWriteCycles (sh : Shape) (pcBase : Nat) (s : State) : Nat :=
  if s.plat.waitPm = 0 ∧ s.plat.waitDm = 0 then pcBase
  else Config.pcWriteCycles sh s.plat.waitPm s.plat.waitDm

/-- The cycles of an ALU form: `base` cycles with the waits of Appendix A, or those of a write of PC, whose
section count is `pcBase` (`41_alu.md` rule R151). -/
def aluCycles (sh : Shape) (op : AluOp) (rd : Reg) (base pcBase pm dm : Nat) (s : State) : Nat :=
  if writesResult op ∧ rd = .pc then pcWriteCycles sh pcBase s else waits base pm dm s

/-- The cycles of an instruction in the state it starts in, its words fetched.

Rule R329 says that the formulas of Appendix A hold only "if Rd is NOT pc".  The instructions that have PC in that
field, or write PC, and are no ALU instruction that writes PC keep their printed formulas on a chip with wait cycles
too: a PUSH whose Rd field is PC, as in `Push PC, R3`; a POP whose list holds PC; a PUSH or POP whose pointer is PC;
STORE with Rd = PC, CMP and TEST with Rd = PC or with Rd's ignored field 111, and the other `[A16] = Rd op Rs` with
Rd = PC; Rs = DS and Rs = FR with Rs = PC.  Rules R151, R252 and R330 print these formulas with no exception of
their own (DEDUCED, unsafe for a statement about time, log 40).  An ALU instruction that writes PC has a free value
there (`pcWriteCycles`). -/
def cyclesOf (sh : Shape) (s : State) : Nat :=
  match sh with
  | .branch c _ _ => if condHolds c s then waits 4 2 0 s else waits 2 1 0 s
  | .retf => waits 8 1 2 s
  | .reti => if popsFr s then waits 10 1 3 s else waits 8 1 2 s
  | .im6 _ _ _ => waits 2 1 0 s
  | .im16 op rd _ _ => aluCycles sh op rd 4 5 2 0 s
  | .reg op rd _ => aluCycles sh op rd 3 5 1 0 s
  | .shifted op _ rd _ _ => aluCycles sh op rd 3 5 1 0 s
  | .a6 op rd _ => aluCycles sh op rd 5 6 1 1 s
  | .a16 op rd _ _ => aluCycles sh op rd 7 8 2 1 s
  | .a16w _ _ _ _ => waits 7 2 1 s
  | .ind op rd _ _ _ => aluCycles sh op rd 6 7 1 1 s
  | .bpIm6 _ _ _ => waits 6 1 1 s
  | .push _ n _ => waits (4 + 2 * n.toNat) 1 n.toNat s
  | .pop _ n _ => waits (4 + 2 * n.toNat) 1 n.toNat s
  | .bitRr _ _ _ | .bitRo _ _ _ => waits 4 1 0 s
  | .bitMr _ _ _ _ | .bitMo _ _ _ _ => waits 7 1 2 s
  | .shift16 _ _ _ => waits 8 1 0 s
  | .mul .uu _ _ => waits 13 1 0 s
  | .mul _ _ _ => waits 12 1 0 s
  | .muls .uu _ n _ => waits (6 + 11 * levels n) (levels n + 1) (levels n) s
  | .muls _ _ n _ => waits (6 + 10 * levels n) (levels n + 1) (levels n) s
  | .dsIm6 _ | .movRsDs _ | .movDsRs _ | .movRsFr _ | .movFrRs _ | .mode _ => waits 2 1 0 s
  | .call _ => waits 9 2 2 s
  | .callMr => waits 8 2 2 s
  | .goto _ => waits 5 2 0 s
  | .gotoMr => waits 4 2 0 s
  | .brk => waits 10 2 2 s
  | .divs => waits 2 1 0 s
  | .divq => waits 3 1 0 s
  | .exp => waits 2 1 0 s
  | .nop => waits 2 1 0 s

/-- The state with the cycles of a step counted. -/
def State.addCycles (s : State) (n : Nat) : State := { s with cycles := s.cycles + n }

end Sys2Proof.Machine
end

