-- ==== Sys2Proof/Machine/Step.lean ====
section
/-! DEFINITION. One step of the machine (`00_scope.md` rule R10). -/

namespace Sys2Proof.Machine

/-- Fetch one instruction, run its meaning, and count its cycles. -/
def runInstr (s : State) : Host.Outcome State Fault Refusal :=
  andThen (fetch s) fun (i, t) =>
  andThen (exec i t) fun u => .next (u.addCycles (cyclesOf i.shape t))

/-- Enter an interrupt; its cycles are a free value (`60_exceptions.md` rule R302, log 40). -/
def runEntry (src : IntSource) (s : State) : Host.Outcome State Fault Refusal :=
  andThen (enterInterrupt src s) fun u => .next (u.addCycles (Config.unstatedCycles s.draws))

/-- One step: the reset step if it is pending, else an accepted interrupt's entry, else one instruction.
Every step uses one sample of the request lines. -/
def step (s : State) : Host.Outcome State Fault Refusal :=
  let t := s.nextSample
  if s.resetPending then resetStep t
  else match accepted s.linesNow t with
    | some src => runEntry src t
    | none => runInstr t

/-- The state with the instruction whose first word is in bits 15:0 of `w` and whose second word is in bits
31:16 (bits at and above `nbits` being 0) placed where the next step fetches and runs it. -/
def State.withFetchWord (s : State) (nbits w : Nat) : State :=
  let v := w % 2 ^ nbits
  s.placeWords (BitVec.ofNat 16 v) (BitVec.ofNat 16 (v / 65536))

end Sys2Proof.Machine
end

