-- ==== Sys2Proof/Safety.lean ====
section
/-! DEFINITION. The terms the statements are written in: what may be read and written, what a step leaves
alone, and the spec's arithmetic said a second time, over integers and single bits, apart from the machine's own
operations. -/

namespace Sys2Proof.Machine

/-! ### Reading the state -/

/-- The byte at a byte address: every statement about memory goes through it. -/
def byteAt (s : State) (a : Nat) : Byte := Memory.get s.mem a

/-- `MEM[a]`: the word at a word address. -/
def wordAt (s : State) (a : Addr) : Word := Memory.getWord s.mem a

/-- What every state a run reaches satisfies: memory in its canonical form and FR[15] zero (`10_state.md` rule
R42). -/
def Inv (s : State) : Prop := Memory.wf s.mem = true ∧ s.fr.getLsbD 15 = false

/-- The platform admits a read at `a` (`20_memory.md` rule R69). -/
def readable (s : State) (a : Addr) : Prop := kindAt s a = .ram ∨ kindAt s a = .rom

/-- The platform admits a write at `a`. -/
def writable (s : State) (a : Addr) : Prop := kindAt s a = .ram

/-- The platform admits every access of a push of `n` words through a pointer that holds `p`. -/
def pushable (s : State) (p : Word) (n : Nat) : Prop :=
  ∀ i : Nat, i < n → writable s (bank0 (p - BitVec.ofNat 16 i))

/-- The platform admits every access of a pop of `n` words through a pointer that holds `p`. -/
def poppable (s : State) (p : Word) (n : Nat) : Prop :=
  ∀ i : Nat, i < n → readable s (bank0 (p + BitVec.ofNat 16 (i + 1)))

/-! ### What a step leaves alone -/

/-- Every byte of memory outside the bytes of the listed words reads as before. -/
def SameMemBut (stored : List Addr) (s t : State) : Prop :=
  ∀ a : Nat, (∀ w ∈ stored, a ≠ Memory.lowAddr w ∧ a ≠ Memory.highAddr w) → byteAt t a = byteAt s a

/-- Every byte of memory reads as before. -/
def SameMem (s t : State) : Prop := ∀ a : Nat, byteAt t a = byteAt s a

/-- The interrupt servicing state is as before. -/
def SameService (s t : State) : Prop := t.inBrk = s.inBrk ∧ t.inFiq = s.inFiq ∧ t.irqDepth = s.irqDepth

/-- The request samples, the pending reset, the platform and the cycle count are as before. -/
def SamePlatform (s t : State) : Prop :=
  t.irqIn = s.irqIn ∧ t.resetPending = s.resetPending ∧ t.plat = s.plat ∧ t.cycles = s.cycles

/-- Everything but the registers, FR, memory and the model's own draw counter is as before. -/
def SameRest (s t : State) : Prop := SameService s t ∧ SamePlatform s t

/-- Nothing but registers changed: FR, memory and everything `SameRest` names are as before. -/
def OnlyRegisters (s t : State) : Prop := t.fr = s.fr ∧ SameMem s t ∧ SameRest s t

/-- Of the twelve registers other than FR, in both banks, only those the listed numbers name (in the bank in
force before) may change. -/
def KeepsRegs (changed : List Reg) (s t : State) : Prop :=
  ∀ p : Phys, p ∉ changed.map (physOf s.bnk) → t.get p = s.get p

/-- DS and CS are as before. -/
def KeepsSegments (s t : State) : Prop := t.ds = s.ds ∧ t.cs = s.cs

/-- N, Z, S and C are as before. -/
def KeepsFlags (s t : State) : Prop :=
  t.flagN = s.flagN ∧ t.flagZ = s.flagZ ∧ t.flagS = s.flagS ∧ t.flagC = s.flagC

/-- Every bit of FR but the listed ones is as before. -/
def KeepsFrBut (bits : List Nat) (s t : State) : Prop :=
  ∀ i : Nat, i ∉ bits → t.fr.getLsbD i = s.fr.getLsbD i

/-- Every bit of a word but the listed ones agrees with another word's. -/
def AgreesBut (bits : List Nat) (v w : Word) : Prop := ∀ i : Nat, i ∉ bits → v.getLsbD i = w.getLsbD i

/-! ### The ALU (`41_alu.md` rules R121 to R133) -/

/-- The carry as a word. -/
def carryWord (c : Bool) : Word := if c then 1#16 else 0#16

/-- The carry as a number. -/
def carryNat (c : Bool) : Nat := if c then 1 else 0

/-- The result `r` (rules R122 to R133). -/
def opResult (op : AluOp) (a b : Word) (c : Bool) : Word :=
  match op with
  | .add => a + b
  | .adc => a + b + carryWord c
  | .sub => a - b
  | .cmp => a - b
  | .sbc => a - b - 1#16 + carryWord c
  | .neg => -b
  | .xor => a ^^^ b
  | .load => b
  | .store => b
  | .or => a ||| b
  | .and => a &&& b
  | .test => a &&& b

/-- The exact signed result of an addition or subtraction, whose sign is S (rule R121). -/
def exactSigned (op : AluOp) (a b : Word) (c : Bool) : Int :=
  match op with
  | .add => a.toInt + b.toInt
  | .adc => a.toInt + b.toInt + carryNat c
  | .sub => a.toInt - b.toInt
  | .cmp => a.toInt - b.toInt
  | .sbc => a.toInt - b.toInt - 1 + carryNat c
  | _ => 0

/-- C after an addition: carry out of bit 15; after a subtraction: no borrow (rule R121). -/
def carryAfter (op : AluOp) (a b : Word) (c : Bool) : Bool :=
  match op with
  | .add => decide (65536 ≤ a.toNat + b.toNat)
  | .adc => decide (65536 ≤ a.toNat + b.toNat + carryNat c)
  | .sub => decide (b.toNat ≤ a.toNat)
  | .cmp => decide (b.toNat ≤ a.toNat)
  | .sbc => decide (b.toNat + 1 ≤ a.toNat + carryNat c)
  | _ => false

/-- The bits of SR an operation writes: N, Z, S, C or N, Z or none (`10_state.md` rule R30). -/
def listedFlags (op : AluOp) : List Nat :=
  match op with
  | .add | .adc | .sub | .sbc | .cmp => [9, 8, 7, 6]
  | .store => []
  | _ => [9, 8]

/-- The four flags after an operation. -/
def FlagsAfter (op : AluOp) (a b : Word) (s t : State) : Prop :=
  match op with
  | .store => KeepsFlags s t
  | .neg | .xor | .load | .or | .and | .test =>
    t.flagN = (opResult op a b s.flagC).msb ∧ t.flagZ = decide (opResult op a b s.flagC = 0#16) ∧
      t.flagS = s.flagS ∧ t.flagC = s.flagC
  | .add | .adc | .sub | .sbc | .cmp =>
    t.flagN = (opResult op a b s.flagC).msb ∧ t.flagZ = decide (opResult op a b s.flagC = 0#16) ∧
      t.flagS = decide (exactSigned op a b s.flagC < 0) ∧ t.flagC = carryAfter op a b s.flagC

/-- What an ALU operation on `a` and `b` with destination `rd` does to the registers (rule R120): the result in
`rd` unless it is CMP or TEST, the flags, DS at `ds`, and no other register but the pointers listed in `also`.
With `rd` = SR the bits the operation does not list as flags take the result's, and nothing is said of the
others (`10_state.md` rule R43). -/
def AluDone (op : AluOp) (rd : Reg) (a b : Word) (also : List Reg) (ds : BitVec 6) (s t : State) : Prop :=
  if op = .cmp ∨ op = .test then
    FlagsAfter op a b s t ∧ t.ds = ds ∧ t.cs = s.cs ∧ KeepsRegs (.sr :: also) s t
  else if rd = .sr then
    AgreesBut (listedFlags op) t.sr (opResult op a b s.flagC) ∧ KeepsRegs (.sr :: also) s t
  else
    t.x rd = opResult op a b s.flagC ∧ FlagsAfter op a b s t ∧ t.ds = ds ∧ t.cs = s.cs ∧
      KeepsRegs (rd :: .sr :: also) s t

/-! ### The shifter (`41_alu.md` rules R137 to R142) -/

/-- The shifted operand: for ASR, LSL and LSR "the ordinary arithmetic or logical shift"; ROL and ROR rotate
the 20 bits of operand and shift buffer. -/
def shiftedOperand (k : ShiftKind) (n : Nat) (v : Word) (sb : BitVec 4) : Word :=
  match k with
  | .asr => v.sshiftRight n
  | .lsl => v <<< n
  | .lsr => v >>> n
  | .rol => ((sb ++ v : BitVec 20).rotateLeft n).extractLsb' 0 16
  | .ror => ((v ++ sb : BitVec 20).rotateRight n).extractLsb' 4 16

/-- The shift buffer afterwards: "will store the shifted-out data". -/
def shiftedOut (k : ShiftKind) (n : Nat) (v : Word) (sb : BitVec 4) : BitVec 4 :=
  match k with
  | .asr | .lsr | .ror => ((v ++ sb : BitVec 20) >>> n).extractLsb' 0 4
  | .lsl | .rol => ((sb ++ v : BitVec 20) <<< n).extractLsb' 16 4

/-! ### Pointers (`20_memory.md` rules R63, R64) -/

/-- How far a mark steps the pointer before the access. -/
def stepBefore (mark : PtrMark) : Addr := if mark = .preInc then 1#22 else 0#22

/-- How far a mark steps the pointer in all. -/
def stepInAll (mark : PtrMark) : Addr :=
  match mark with
  | .keep => 0#22
  | .postDec => -1#22
  | .postInc | .preInc => 1#22

/-- The pair `{SR.DS, x[rs]}` stepped: on 22 bits with "D:", else the register alone on 16 bits. -/
def pointerAt (d : Bool) (delta : Addr) (rs : Reg) (s : State) : Addr :=
  if d then mkAddr s.ds (s.x rs) + delta else mkAddr s.ds (s.x rs + delta.extractLsb' 0 16)

/-- The address an indirect access uses. -/
def indAddr (d : Bool) (mark : PtrMark) (rs : Reg) (s : State) : Addr :=
  let p := pointerAt d (stepBefore mark) rs s
  if d then p else bank0 (p.extractLsb' 0 16)

/-- The pointer register after an indirect access. -/
def indPointer (d : Bool) (mark : PtrMark) (rs : Reg) (s : State) : Word :=
  (pointerAt d (stepInAll mark) rs s).extractLsb' 0 16

/-- DS after an indirect access. -/
def indDs (d : Bool) (mark : PtrMark) (rs : Reg) (s : State) : BitVec 6 :=
  (pointerAt d (stepInAll mark) rs s).extractLsb' 16 6

/-- The register an indirect access may step. -/
def indAlso (mark : PtrMark) (rs : Reg) : List Reg := if mark = .keep then [] else [rs]

/-- The combinations of the indirect form that have a meaning (`41_alu.md` rule R150). -/
def indAllowed (rd : Reg) (d : Bool) (mark : PtrMark) (rs : Reg) : Prop :=
  mark = .keep ∨ (rd ≠ rs ∧ rs ≠ .sr ∧ rs ≠ .pc ∧ ¬(rd = .sr ∧ d = true))

/-! ### Bit operations (`42_bit_shift.md` rules R160 to R164) -/

/-- Bit `k` after the operation. -/
def bitAfter (b : BitOp) (old : Bool) : Bool :=
  match b with
  | .tstb => old
  | .setb => true
  | .clrb => false
  | .invb => !old

/-- A word whose bit `k` is changed by the operation and whose other bits are the old ones. -/
def BitChanged (b : BitOp) (k : Nat) (old new : Word) : Prop :=
  ∀ i : Nat, i < 16 → new.getLsbD i = if i = k then bitAfter b (old.getLsbD i) else old.getLsbD i

/-- Z after a bit operation on bit `k` of `old`, and everything else of SR as before. -/
def BitFlags (k : Nat) (old : Word) (s t : State) : Prop :=
  t.flagZ = !old.getLsbD k ∧ t.flagN = s.flagN ∧ t.flagS = s.flagS ∧ t.flagC = s.flagC ∧ KeepsSegments s t

/-- What a bit operation on bit `k` of register `rd` does to the registers.  With `rd` = SR the operations that
write the register leave Z unspecified (`42_bit_shift.md` rule R170). -/
def BitRegDone (b : BitOp) (rd : Reg) (k : Nat) (s t : State) : Prop :=
  if b = .tstb then BitFlags k (s.x rd) s t ∧ KeepsRegs [.sr] s t
  else if rd = .sr then
    (∀ i : Nat, i < 16 → i ≠ 8 →
      t.sr.getLsbD i = if i = k then bitAfter b (s.sr.getLsbD i) else s.sr.getLsbD i) ∧ KeepsRegs [.sr] s t
  else BitChanged b k (s.x rd) (t.x rd) ∧ BitFlags k (s.x rd) s t ∧ KeepsRegs [rd, .sr] s t

/-- What a bit operation on bit `k` of the word at `a` does. -/
def BitMemDone (b : BitOp) (a : Addr) (k : Nat) (s t : State) : Prop :=
  BitFlags k (wordAt s a) s t ∧ KeepsRegs [.sr] s t ∧
    (if b = .tstb then SameMem s t else BitChanged b k (wordAt s a) (wordAt t a) ∧ SameMemBut [a] s t)

/-- What a 16-bit shift with result `r` does to the registers but C. -/
def ShiftDone (rd : Reg) (r : Word) (s t : State) : Prop :=
  if rd = .sr then AgreesBut [6] t.sr r ∧ KeepsRegs [.sr] s t
  else t.x rd = r ∧ AgreesBut [6] t.sr s.sr ∧ KeepsRegs [rd, .sr] s t

/-! ### Multiplication (`43_mul_div_exp.md` rules R185 to R191) -/

/-- The value of Rd's operand: signed only for signed*signed. -/
def rdValue (k : MulKind) (v : Word) : Int :=
  match k with
  | .ss => v.toInt
  | _ => v.toNat

/-- The value of Rs's operand: unsigned only for unsigned*unsigned. -/
def rsValue (k : MulKind) (v : Word) : Int :=
  match k with
  | .uu => v.toNat
  | _ => v.toInt

/-- The exact product, doubled in fraction mode. -/
def exactProduct (k : MulKind) (fraction : Bool) (a b : Word) : Int :=
  rdValue k a * rsValue k b * (if fraction then 2 else 1)

/-- The sum of the products of the words at `xd + i` and `xs + i` for `i` below `n`. -/
def innerSum (k : MulKind) (s : State) (xd xs : Word) : Nat → Int
  | 0 => 0
  | n + 1 => innerSum k s xd xs n +
      exactProduct k s.fra (wordAt s (bank0 (xd + BitVec.ofNat 16 n))) (wordAt s (bank0 (xs + BitVec.ofNat 16 n)))

/-- The number of levels: "N=0 denotes the 16-level inner product operation". -/
def levelCount (n : BitVec 4) : Nat := if n = 0#4 then 16 else n.toNat

/-- The 36-bit sum does not fit the 32 bits of MR (rule R191). -/
def sumOverflows (k : MulKind) (acc : BitVec 36) : Bool :=
  match k with
  | .uu => decide (2 ^ 32 ≤ acc.toNat)
  | _ => decide (acc.toInt < -2 ^ 31 ∨ 2 ^ 31 ≤ acc.toInt)

/-- What MULS does to the pointers and to SR when `muls_adjust` writes `p.1` to Rd and then `p.2` to Rs (rules
R190, R191; SR as a pointer: log 39). -/
def PointersDone (rd rs : Reg) (p : Word × Word) (overflow : Bool) (s t : State) : Prop :=
  (rd ≠ .sr ∧ rs ≠ .sr → t.flagS = overflow ∧ AgreesBut [7] t.sr s.sr) ∧
  (rd ≠ rs → if rd = .sr then AgreesBut [7] t.sr p.1 else t.x rd = p.1) ∧
  (if rs = .sr then AgreesBut [7] t.sr p.2 else t.x rs = p.2)

/-- Words written in bank 0 one after another, as (offset, word): each offset holds the last word written there,
and no other byte of memory changed. -/
def WordsWritten (ws : List (Word × Word)) (s t : State) : Prop :=
  (∀ earlier later off v, ws = earlier ++ (off, v) :: later → off ∉ later.map Prod.fst →
    wordAt t (bank0 off) = v) ∧
  SameMemBut (ws.map fun w => bank0 w.1) s t

/-! ### Running an instruction, or steps, more than once -/

/-- The same instruction executed `n` times. -/
def execTimes (i : Instr) : Nat → State → Host.Outcome State Fault Refusal
  | 0, s => .next s
  | n + 1, s => andThen (exec i s) (execTimes i n)

/-! ### The stack (`45_segment_flag_stack.md` rules R247, R250) -/

/-- The words a push of `n` registers stores to, through a pointer that holds `p`. -/
def pushedAt (p : Word) (n : Nat) : List Addr :=
  (List.range n).map fun i => bank0 (p - BitVec.ofNat 16 i)

/-- The words of the return frame of a state: PC at SP, SR below it (`46_call_interrupt.md` rule R262). -/
def FramePushed (s t : State) : Prop :=
  wordAt t (bank0 s.sp) = s.pc ∧ wordAt t (bank0 (s.sp - 1#16)) = s.sr

/-! ### Interrupts (`60_exceptions.md` rules R280 to R290) -/

/-- FIQ passes the test of rule R280. -/
def FiqAdmitted (l : Lines) (s : State) : Prop :=
  l.fiq = true ∧ s.fiqOn = true ∧ s.inFiq = false ∧ s.inBrk = false

/-- IRQn's line is up and its number is below FR.PRI. -/
def IrqRequested (l : Lines) (s : State) (n : Nat) : Prop := l.irq.getLsbD n = true ∧ n < s.pri.toNat

/-- The IRQs pass the test of rule R280 but for their lines. -/
def IrqAdmitted (s : State) : Prop :=
  s.irqOn = true ∧ s.inFiq = false ∧ s.inBrk = false ∧ (s.irqDepth = 0 ∨ s.ine = true)

/-- An IRQ in nest mode: FR is part of the frame. -/
def IntSource.nests (src : IntSource) (s : State) : Bool :=
  match src with
  | .irq _ => s.ine
  | _ => false

/-- How many words the entry of a source pushes. -/
def frameWords (src : IntSource) (s : State) : Nat := if src.nests s = true then 3 else 2

/-- The servicing state after the entry of a source (rule R285). -/
def ServiceBegun (src : IntSource) (s t : State) : Prop :=
  match src with
  | .brk => t.inBrk = true ∧ t.inFiq = s.inFiq ∧ t.irqDepth = s.irqDepth
  | .fiq => t.inBrk = s.inBrk ∧ t.inFiq = true ∧ t.irqDepth = s.irqDepth
  | .irq _ => t.inBrk = s.inBrk ∧ t.inFiq = s.inFiq ∧ t.irqDepth = s.irqDepth + 1

/-- RETI leaves an IRQ handler: neither the BREAK nor the FIQ flag is set, and an IRQ is in service. -/
def leavesIrq (s : State) : Prop := s.inBrk = false ∧ s.inFiq = false ∧ 0 < s.irqDepth

/-- The servicing state after RETI: the highest-ranking item cleared (rule R290). -/
def ServiceEnded (s t : State) : Prop :=
  if s.inBrk = true then t.inBrk = false ∧ t.inFiq = s.inFiq ∧ t.irqDepth = s.irqDepth
  else if s.inFiq = true then t.inBrk = s.inBrk ∧ t.inFiq = false ∧ t.irqDepth = s.irqDepth
  else t.inBrk = s.inBrk ∧ t.inFiq = s.inFiq ∧ t.irqDepth = s.irqDepth - 1

/-- No handler of the source's rank or above is active, IRQs over IRQs apart: what the acceptance test sees to
for FIQ and IRQ, and software for BREAK (rule R289). -/
def NotBlocked (src : IntSource) (s : State) : Prop :=
  match src with
  | .brk => s.inBrk = false
  | .fiq => s.inBrk = false ∧ s.inFiq = false
  | .irq _ => s.inBrk = false ∧ s.inFiq = false

/-! ### Which instructions write SR -/

/-- The flags of SR an instruction is listed as writing (`10_state.md` rule R30). -/
def flagsListedFor (sh : Shape) : List Nat :=
  match sh with
  | .bpIm6 op .. | .im6 op .. | .ind op .. | .reg op .. | .im16 op .. | .a16 op .. | .a16w op .. | .shifted op ..
  | .a6 op .. => listedFlags op
  | .bitRr .. | .bitRo .. | .bitMr .. | .bitMo .. => [8]
  | .shift16 .. => [6]
  | .muls .. => [7]
  | _ => []

/-- The instruction writes SR as a register, pops it, or enters a handler. -/
def writesSrWhole (sh : Shape) : Bool :=
  match sh with
  | .retf | .reti | .brk | .pop .. => true
  | .bpIm6 _ rd _ | .im6 _ rd _ | .reg _ rd _ | .im16 _ rd _ _ | .a16 _ rd _ _ | .shifted _ _ rd _ _ | .a6 _ rd _ =>
    rd == .sr
  | .ind _ rd _ _ rs => rd == .sr || rs == .sr
  | .bitRr _ rd _ | .bitRo _ rd _ | .shift16 _ rd _ => rd == .sr
  | .muls _ rd _ rs => rd == .sr || rs == .sr
  | .push _ _ rs | .movRsDs rs | .movRsFr rs => rs == .sr
  | _ => false

/-! ### Words that spell no instruction -/

/-- The number in bits `lo + n - 1` to `lo` of a word. -/
def bitsAt (w : Word) (lo n : Nat) : Nat := w.toNat / 2 ^ lo % 2 ^ n

/-- op0 of a word. -/
def op0At (w : Word) : Nat := bitsAt w 12 4
/-- rd of a word. -/
def rdAt (w : Word) : Nat := bitsAt w 9 3
/-- op1 of a word. -/
def op1At (w : Word) : Nat := bitsAt w 6 3
/-- opn of a word. -/
def opnAt (w : Word) : Nat := bitsAt w 3 3
/-- rs of a word. -/
def rsAt (w : Word) : Nat := bitsAt w 0 3

/-- A word of the ALU group (`30_encoding.md` rule R79 line 4). -/
def inAluGroup (w : Word) : Bool := decide (op0At w < 14) && !(rdAt w == 7 && decide (op1At w < 2))

/-- A MUL word (rules R90, R91). -/
def isMulWord (w : Word) : Bool :=
  rdAt w != 7 && opnAt w == 1 &&
    ((op0At w == 14 && op1At w == 0) || (op0At w == 15 && (op1At w == 0 || op1At w == 4)))

/-- A MULS word (rules R90, R91). -/
def isMulsWord (w : Word) : Bool :=
  rdAt w != 7 &&
    ((op0At w == 14 && (op1At w == 2 || op1At w == 3)) ||
      (op0At w == 15 && (op1At w == 2 || op1At w == 3 || decide (6 ≤ op1At w))))

/-- Rule R97 items 1 to 3. -/
def reservedAlu (w : Word) : Bool :=
  inAluGroup w &&
    (op0At w == 5 || op0At w == 7 ||
      (op0At w == 13 && (op1At w == 1 || op1At w == 5 || op1At w == 6 || (op1At w == 4 && opnAt w != 3))) ||
      (op0At w == 9 && op1At w == 4 && opnAt w == 3) ||
      (op1At w == 2 && op0At w != 13 && op0At w != 9))

/-- Rule R97 item 4. -/
def reservedStack (w : Word) : Bool :=
  op1At w == 2 &&
    ((op0At w == 13 && (opnAt w == 0 || decide (rdAt w + 1 < opnAt w))) ||
      (op0At w == 9 && w != 0x9A98#16 && (opnAt w == 0 || decide (7 < rdAt w + opnAt w))))

/-- Rule R97 item 5. -/
def reserved1110 (w : Word) : Bool :=
  op0At w == 14 &&
    ((op1At w == 0 && rdAt w != 7 && bitsAt w 3 1 == 1 && bitsAt w 4 2 != 0) ||
      (rdAt w == 7 && decide (2 ≤ op1At w)))

/-- Rule R97 item 6. -/
def reserved1111 (w : Word) : Bool :=
  op0At w == 15 &&
    ((op1At w == 0 && rdAt w != 7 && (opnAt w == 0 || opnAt w == 2 || opnAt w == 3)) ||
      (op1At w == 4 && (opnAt w != 1 || rdAt w == 7)) ||
      (decide (6 ≤ op1At w) && rdAt w == 7) ||
      (op1At w == 5 && (bitsAt w 4 2 == 1 || (bitsAt w 5 1 == 1 && bitsAt w 1 2 == 3))))

/-- Rule R97 item 7 (MULS uu or ss with Rd = PC are words of items 5 and 6). -/
def reservedPc (w : Word) : Bool := (isMulWord w || isMulsWord w) && rsAt w == 7

/-- The collisions of the indirect form (`41_alu.md` rule R150). -/
def refusedIndirect (w : Word) : Bool :=
  inAluGroup w && op1At w == 3 && bitsAt w 3 2 != 0 &&
    (rdAt w == rsAt w || rsAt w == 6 || rsAt w == 7 || (rdAt w == 6 && bitsAt w 5 1 == 1))

/-- The pointer in the list of a PUSH or POP (`45_segment_flag_stack.md` rules R246, R249). -/
def refusedStack (w : Word) : Bool :=
  op1At w == 2 &&
    ((op0At w == 13 && decide (rdAt w + 1 ≤ rsAt w + opnAt w) && decide (rsAt w ≤ rdAt w)) ||
      (op0At w == 9 && decide (rdAt w + 1 ≤ rsAt w) && decide (rsAt w ≤ rdAt w + opnAt w)))

/-- ASROR and LSROR elsewhere than in R4, LSLOR elsewhere than in R3 (`42_bit_shift.md` rules R173, R175,
R177). -/
def refusedShift (w : Word) : Bool :=
  op0At w == 14 && rdAt w != 7 && (op1At w == 4 || op1At w == 5) && bitsAt w 3 1 == 1 &&
    (((bitsAt w 4 3 == 1 || bitsAt w 4 3 == 5) && rdAt w != 4) || (bitsAt w 4 3 == 3 && rdAt w != 3))

/-- MULS with R3 or R4 as a pointer (`43_mul_div_exp.md` rule R202). -/
def refusedMuls (w : Word) : Bool :=
  isMulsWord w && (rdAt w == 3 || rdAt w == 4 || rsAt w == 3 || rsAt w == 4)

/-- The reserved words of `30_encoding.md` rule R97 and the operand combinations a model must refuse. -/
def reservedWord (w : Word) : Bool :=
  reservedAlu w || reservedStack w || reserved1110 w || reserved1111 w || reservedPc w || refusedIndirect w ||
    refusedStack w || refusedShift w || refusedMuls w

/-! ### The register bank that is not in force -/

/-- The registers of one bank replaced. -/
def State.setBank (s : State) (secondary : Bool) (v : Fin 4 → Word) : State :=
  if secondary then { s with sr1 := v 0, sr2 := v 1, sr3 := v 2, sr4 := v 3 }
  else { s with r1 := v 0, r2 := v 1, r3 := v 2, r4 := v 3 }

/-- An outcome with its next state changed. -/
def mapNext (f : State → State) : Host.Outcome State Fault Refusal → Host.Outcome State Fault Refusal
  | .next s => .next (f s)
  | .fault e => .fault e
  | .refused r => .refused r

end Sys2Proof.Machine
end

