-- ==== Sys2Proof/Certificates/Slice0/Obligations.lean ====
section
/-! DEFINITION. The statements for the provers, from the numbered rules of spec/. -/

section

open Sys2Proof Sys2Proof.Machine

/-- Decoding the encoding of any well-formed instruction gives it back, for all 225 instructions. No bit of an
encoding is dropped (log 42: 0x9A90 is RETF, not POP). -/
def Obligations.DecodeOfEncodeIsIdentity : Prop :=
  ∀ (i : Instr) (rest : List Word), i.wellFormed = true → decodeWords (encode i ++ rest) = .ok i

/-- Whatever the decoder reads is well formed, and its length is what the first word says. The decoder reads no
ill-formed instruction, and "the decoder needs only `w0`" for the length. -/
def Obligations.DecodedInstructionIsWellFormed : Prop :=
  ∀ (w0 w1 : Word) (i : Instr), decode w0 w1 = .ok i →
    i.wellFormed = true ∧ (i.words = 2 ↔ isTwoWord w0 = true) ∧
      (isTwoWord w0 = false → ∀ w : Word, decode w0 w = .ok i)

/-- A word starts a two-word instruction exactly when it matches one of the four patterns of R78. The patterns
of rule R78, written as masks. -/
def Obligations.TwoWordPatterns : Prop :=
  ∀ w0 w1 : Word,
    let op0 := op0At w0
    let arith : Prop := op0 ∈ [0, 1, 2, 3, 4, 6, 8, 9, 10, 11, 12]
    let im16 : Prop := w0 &&& 0x01F8#16 = 0x0108#16 ∧ arith
    let a16 : Prop := w0 &&& 0x01F8#16 = 0x0110#16 ∧ arith
    let a16w : Prop := w0 &&& 0x01F8#16 = 0x0118#16 ∧ op0 ∈ [0, 1, 2, 3, 4, 6, 8, 10, 11, 12, 13]
    let goto : Prop := w0 &&& 0xFFC0#16 = 0xFE80#16
    let call : Prop := w0 &&& 0xF1C0#16 = 0xF040#16
    (isTwoWord w0 = true ↔ im16 ∨ a16 ∨ a16w ∨ goto ∨ call) ∧
      (goto → decode w0 w1 = .ok (.goto (w0.extractLsb' 0 6 ++ w1))) ∧
      (call → decode w0 w1 = .ok (.call (w0.extractLsb' 0 6 ++ w1))) ∧
      (im16 ∨ a16 ∨ a16w → ∃ i, decode w0 w1 = .ok i ∧ i.shape.word1 = some w1)

/-- The decoder rejects exactly the reserved words and the operand combinations a model must refuse. Rests on
the spec's decisions D16, D18, D19, D34 and D36 (logs 15, 17, 19, 34, 36). -/
def Obligations.RejectedWordsAreTheReservedOnes : Prop :=
  ∀ w0 w1 : Word, (∃ why, decode w0 w1 = .error why) ↔ reservedWord w0 = true

/-- The bits the manual draws as "-" and the register fields an instruction does not read never matter. Rests on
the spec's decisions D14 and D15 (logs 13, 14). -/
def Obligations.IgnoredBitsDecodeAlike : Prop :=
  ∀ w0 w1 : Word,
    let form := w0 &&& 0x01F8#16
    let op0 := op0At w0
    (w0 &&& 0xF1C0#16 = 0xF040#16 ∨ w0 &&& 0xF1C0#16 = 0xF140#16 → decode w0 w1 = decode (w0 &&& 0xF1FF#16) w1) ∧
    (w0 &&& 0xF1E0#16 = 0xF160#16 → decode w0 w1 = decode (w0 &&& 0xF1E7#16) w1) ∧
    (w0 &&& 0xF1E0#16 = 0xF020#16 → w0 &&& 0x0E00#16 ≠ 0x0E00#16 → decode w0 w1 = decode (w0 &&& 0xF1FF#16) w1) ∧
    (w0 &&& 0xFFC0#16 = 0xFEC0#16 → decode w0 w1 = .ok .gotoMr) ∧
    (op0 = 6 ∨ op0 = 9 → form = 0x0108#16 ∨ form = 0x0110#16 → decode w0 w1 = decode (w0 &&& 0xFFF8#16) w1) ∧
    (op0 = 6 ∨ op0 = 13 → form = 0x0118#16 → decode w0 w1 = decode (w0 &&& 0xFFF8#16) w1) ∧
    (op0 = 4 ∨ op0 = 12 → form = 0x0108#16 ∨ form = 0x0110#16 → decode w0 w1 = decode (w0 &&& 0xF1FF#16) w1)

/-- The words the spec writes out as examples decode to the instructions it says they are. The decode rules
cited, on the words that R134, R135, R147, R210, R165 to R168, R187, R188, R194, R229, R240 to R242, R246, R249,
R260, R263, R266, R110 and R201 write out, in this order of the instructions; DS = 0x12 against FR access rests
on decision D15 (log 14), and 0x9A90 is read as RETF (log 42). -/
def Obligations.ManualWordsDecode : Prop :=
  decode 0x1260#16 0#16 = .ok (.adcIm6 .r1 0x20#6) ∧
    decode 0x0F0D#16 0x2400#16 = .ok (.addIm16 .pc .bp 0x2400#16) ∧
    decode 0xD200#16 0#16 = .ok (.storeBpIm6 .r1 0#6) ∧
    decode 0x0E41#16 0#16 = .ok (.jcc true 1#6) ∧
    decode 0xE835#16 0#16 = .ok (.invbRr .r4 .bp) ∧
    decode 0xE66A#16 0#16 = .ok (.clrbRo .r3 10#4) ∧
    decode 0xE313#16 0#16 = .ok (.setbMr false .r1 .r3) ∧
    decode 0xE3DD#16 0#16 = .ok (.setbMo true .r1 13#4) ∧
    decode 0xF709#16 0#16 = .ok (.mulSs .r3 .r1) ∧
    decode 0xF20A#16 0#16 = .ok (.mulUs .r1 .r2) ∧
    decode 0xF4A1#16 0#16 = .ok (.mulsUs .r2 4#4 .r1) ∧
    decode 0xFE83#16 0x5678#16 = .ok (.goto 0x035678#22) ∧
    decode 0xFE12#16 0#16 = .ok (.dsIm6 0x12#6) ∧
    decode 0xF022#16 0#16 = .ok (.movRsDs .r2) ∧
    decode 0xF029#16 0#16 = .ok (.movDsRs .r1) ∧
    decode 0xDEA8#16 0#16 = .ok (.push .pc 5#3 .sp) ∧
    decode 0x96A0#16 0#16 = .ok (.pop .r3 4#3 .sp) ∧
    decode 0xF041#16 0x2345#16 = .ok (.call 0x012345#22) ∧
    decode 0x9A90#16 0#16 = .ok .retf ∧
    decode 0x9A98#16 0#16 = .ok .reti ∧
    decode 0xF14B#16 0#16 = .ok .secbankOn ∧
    decode 0xF165#16 0#16 = .ok .nop

/-- When no reset and no interrupt is due, a step is exec of the instruction decoded at {CS, PC}. Rests on
decision D1 (log 1); the cycle count is the model's own counter (log 40). -/
def Obligations.StepRunsTheDecodedInstruction : Prop :=
  ∀ (s : State) (i : Instr),
    s.resetPending = false → accepted s.linesNow s = none → readable s s.lpc →
    (i.words = 2 → readable s (s.lpc + 1#22)) →
    decode (wordAt s s.lpc) (wordAt s (s.lpc + 1#22)) = .ok i →
    let t := s.nextSample.setLpc (s.lpc + BitVec.ofNat 22 i.words)
    (∀ u, exec i t = .next u → step s = .next (u.addCycles (cyclesOf i.shape t))) ∧
      (∀ f, exec i t = .fault f → step s = .fault f) ∧
      (∀ q, exec i t = .refused q → step s = .refused q)

/-- A step at a reserved word is refused: there is no next state. Rests on the spec's decisions D16, D18, D19,
D34 and D36 (logs 15, 17, 19, 34, 36). -/
def Obligations.StepRefusesReservedWord : Prop :=
  ∀ s : State,
    s.resetPending = false → accepted s.linesNow s = none → readable s s.lpc →
    reservedWord (wordAt s s.lpc) = true → ∃ why, step s = .refused (.reserved why)

/-- When the acceptance test admits a source, the step is its entry and no instruction runs. Rests on decisions
D1 and D25 (log 1); the cycles of an entry are a free value (log 40). -/
def Obligations.StepTakesAcceptedInterrupt : Prop :=
  ∀ (s u : State) (src : IntSource),
    s.resetPending = false → accepted s.linesNow s = some src → enterInterrupt src s.nextSample = .next u →
    ∃ n : Nat, step s = .next (u.addCycles n)

/-- The reset step loads PC from the vector word and clears CS, and touches nothing else. Rests on decision D20
(log 20). -/
def Obligations.ResetStepLoadsVector : Prop :=
  ∀ s : State, s.resetPending = true → readable s s.plat.vecReset →
    ∃ t, step s = .next t ∧ t.pc = wordAt s s.plat.vecReset ∧ t.cs = 0#6 ∧ t.ds = s.ds ∧ KeepsFlags s t ∧
      KeepsRegs [.pc, .sr] s t ∧ t.fr = s.fr ∧ SameMem s t ∧ SameService s t ∧ t.plat = s.plat ∧
      t.resetPending = false ∧ t.irqIn = s.irqIn.tail

/-- After reset FR is 0x0008, CS is 0, no handler is active and PC is the word at VEC_RESET. CS, PC and the
servicing state rest on decisions D20 and D24 (logs 20, 25). -/
def Obligations.ResetLeavesStatedValues : Prop :=
  let s := State.reset
  s.aq = false ∧ s.bnk = false ∧ s.fra = false ∧ s.fir = false ∧ s.sb = 0#4 ∧ s.fiqOn = false ∧ s.irqOn = false ∧
    s.ine = false ∧ s.pri = 8#4 ∧ s.frWord = 0x0008#16 ∧ s.cs = 0#6 ∧ s.inBrk = false ∧ s.inFiq = false ∧
    s.irqDepth = 0 ∧ s.pc = wordAt s s.plat.vecReset

/-- Every step keeps memory canonical and FR[15] zero. FR[15] rests on decision D6 (log 6); the canonical form
is the model's (log 37). -/
def Obligations.MachineInvariantKept : Prop :=
  ∀ s t : State, Inv s → step s = .next t → Inv t

/-- The state after reset meets the invariant. The base case of `MachineInvariantKept`. -/
def Obligations.InvariantAtReset : Prop :=
  Inv State.reset

/-- No step changes the platform; each uses one request sample, and the counters never fall. The sample list and
the counters are the model's (logs 22, 40, 41). -/
def Obligations.StepKeepsPlatform : Prop :=
  ∀ s t : State, step s = .next t →
    t.plat = s.plat ∧ t.irqIn = s.irqIn.tail ∧ t.resetPending = false ∧ s.cycles ≤ t.cycles ∧ s.draws ≤ t.draws

/-- Every one of the 225 instructions completes in every state when all of memory is RAM. "Synchronous
exceptions: none": ordinary data never ends a run. -/
def Obligations.AdmittedInstructionCompletes : Prop :=
  ∀ (i : Instr) (s : State), i.check = none → s.plat.map = [] → ∃ t, exec i s = .next t

/-- Exec refuses exactly the operands the check rejects, by the reason the check gives. The refusals are those
the spec asks for (logs 15, 17, 19, 34, 36, 45). -/
def Obligations.RefusedExactlyOnRejectedOperands : Prop :=
  ∀ (i : Instr) (s : State) (q : Refusal),
    exec i s = .refused q ↔ ∃ why, i.check = some why ∧ q = .reserved why

/-- An instruction faults only at an address the platform does not admit, and names it. Rests on decision D9
(log 9). -/
def Obligations.FaultOnlyFromUnadmittedAccess : Prop :=
  ∀ (i : Instr) (s : State) (f : Fault), exec i s = .fault f →
    ∃ a : Addr, (f = .absentAddress a.toNat ∧ kindAt s a = .absent) ∨
      (f = .deviceAccess a.toNat ∧ kindAt s a = .device) ∨ (f = .romWrite a.toNat ∧ kindAt s a = .rom)

/-- N, Z, S and C change only where R30 lists them, unless SR is written as a register. The flag table of rule
R30, read as a frame over all instructions. -/
def Obligations.OnlyListedFlagsChange : Prop :=
  ∀ (i : Instr) (s t : State) (k : Nat), exec i s = .next t → k ∈ [6, 7, 8, 9] →
    k ∉ flagsListedFor i.shape → writesSrWhole i.shape = false → t.sr.getLsbD k = s.sr.getLsbD k

/-- The bank not in force can neither be seen nor changed by any instruction. "all access to R1~R4 will be
redirected to SR1~SR4", for every instruction at once. -/
def Obligations.HiddenBankIsInvisible : Prop :=
  ∀ (i : Instr) (s : State) (v : Fin 4 → Word),
    exec i (s.setBank (!s.bnk) v) = mapNext (fun t => t.setBank (!s.bnk) v) (exec i s)

/-- Only RETI clears the servicing state and only BREAK among instructions sets it. Rests on decision D23 (log
23). -/
def Obligations.OnlyRetiClearsServicing : Prop :=
  ∀ (i : Instr) (s t : State), exec i s = .next t → i ≠ .reti →
    (i ≠ .brk → SameService s t) ∧ (i = .brk → ServiceBegun .brk s t)

/-- After a compare or subtract the branch conditions are the unsigned and signed comparisons. Rests on decision
D4, the reading of S (log 4). -/
def Obligations.ConditionsAfterCompare : Prop :=
  ∀ (s : State) (rd rs : Reg) (imm : Word),
    let means := fun (a b : Word) (t : State) =>
      condHolds .cc t = decide (a.toNat < b.toNat) ∧ condHolds .cs t = decide (b.toNat ≤ a.toNat) ∧
        condHolds .be t = decide (a.toNat ≤ b.toNat) ∧ condHolds .a t = decide (b.toNat < a.toNat) ∧
        condHolds .ss t = decide (a.toInt < b.toInt) ∧ condHolds .sc t = decide (b.toInt ≤ a.toInt) ∧
        condHolds .le t = decide (a.toInt ≤ b.toInt) ∧ condHolds .g t = decide (b.toInt < a.toInt) ∧
        condHolds .z t = decide (a = b) ∧ condHolds .ne t = decide (a ≠ b) ∧
        condHolds .vs t = decide (a.toInt - b.toInt < -32768 ∨ 32767 < a.toInt - b.toInt) ∧
        condHolds .vc t = decide (-32768 ≤ a.toInt - b.toInt ∧ a.toInt - b.toInt ≤ 32767)
    (∃ t, exec (.cmpReg rd rs) s = .next t ∧ means (s.x rd) (s.x rs) t) ∧
      (∃ t, exec (.cmpIm16 rs imm) s = .next t ∧ means (s.x rs) imm t) ∧
      (rd ≠ .sr → ∃ t, exec (.subReg rd rs) s = .next t ∧ means (s.x rd) (s.x rs) t)

/-- ADD to TEST with IM6: Rd op= IM6, for the eleven operations. That IM6 is zero-extended is decision D17 (log
16, DESIGN CHOICE), the flags rest on D4 (log 4), SR as a destination on D5 (log 5). -/
def Obligations.AluImmediate6 : Prop :=
  ∀ p ∈ ([(.addIm6, .add), (.adcIm6, .adc), (.subIm6, .sub), (.sbcIm6, .sbc),
       (.cmpIm6, .cmp), (.negIm6, .neg), (.xorIm6, .xor), (.loadIm6, .load),
       (.orIm6, .or), (.andIm6, .and), (.testIm6, .test)] :
      List ((Reg → BitVec 6 → Instr) × AluOp)),
    ∀ (rd : Reg) (imm : BitVec 6) (s : State), rd ≠ .pc →
      ∃ t, exec (p.1 rd imm) s = .next t ∧ AluDone p.2 rd (s.x rd) (imm.setWidth 16) [] s.ds s t ∧
        OnlyRegisters s t

/-- ADD to TEST with IM16: Rd = Rs op IM16, for the eleven operations. The flags rest on decision D4 (log 4) and
SR as a destination on decision D5 (log 5). -/
def Obligations.AluImmediate16 : Prop :=
  ∀ p ∈ ([(.addIm16, .add), (.adcIm16, .adc),
       (.subIm16, .sub), (.sbcIm16, .sbc),
       (fun _ rs imm => .cmpIm16 rs imm, .cmp), (fun rd _ imm => .negIm16 rd imm, .neg),
       (.xorIm16, .xor), (fun rd _ imm => .loadIm16 rd imm, .load),
       (.orIm16, .or), (.andIm16, .and),
       (fun _ rs imm => .testIm16 rs imm, .test)] :
      List ((Reg → Reg → Word → Instr) × AluOp)),
    ∀ (rd rs : Reg) (imm : Word) (s : State),
      ∃ t, exec (p.1 rd rs imm) s = .next t ∧ AluDone p.2 rd (s.x rs) imm [] s.ds s t ∧ OnlyRegisters s t

/-- ADD to TEST with a register: Rd op= Rs, for the eleven operations. The flags rest on decision D4 (log 4) and
SR as a destination on decision D5 (log 5). -/
def Obligations.AluRegister : Prop :=
  ∀ p ∈ ([(.addReg, .add), (.adcReg, .adc), (.subReg, .sub), (.sbcReg, .sbc),
       (.cmpReg, .cmp), (.negReg, .neg), (.xorReg, .xor), (.loadReg, .load),
       (.orReg, .or), (.andReg, .and), (.testReg, .test)] :
      List ((Reg → Reg → Instr) × AluOp)),
    ∀ (rd rs : Reg) (s : State),
      ∃ t, exec (p.1 rd rs) s = .next t ∧ AluDone p.2 rd (s.x rd) (s.x rs) [] s.ds s t ∧ OnlyRegisters s t

/-- ADD to TEST with a shifted register: Rd op= Rs SFT n, all 55 instructions. The flags rest on decision D4
(log 4) and SR as a destination on decision D5 (log 5). -/
def Obligations.AluShifted : Prop :=
  ∀ p ∈ ([([.addAsr, .addLsl, .addLsr, .addRol, .addRor], .add),
       ([.adcAsr, .adcLsl, .adcLsr, .adcRol, .adcRor], .adc),
       ([.subAsr, .subLsl, .subLsr, .subRol, .subRor], .sub),
       ([.sbcAsr, .sbcLsl, .sbcLsr, .sbcRol, .sbcRor], .sbc),
       ([.cmpAsr, .cmpLsl, .cmpLsr, .cmpRol, .cmpRor], .cmp),
       ([.negAsr, .negLsl, .negLsr, .negRol, .negRor], .neg),
       ([.xorAsr, .xorLsl, .xorLsr, .xorRol, .xorRor], .xor),
       ([.loadAsr, .loadLsl, .loadLsr, .loadRol, .loadRor], .load),
       ([.orAsr, .orLsl, .orLsr, .orRol, .orRor], .or),
       ([.andAsr, .andLsl, .andLsr, .andRol, .andRor], .and),
       ([.testAsr, .testLsl, .testLsr, .testRol, .testRor], .test)] :
      List (List (Reg → BitVec 2 → Reg → Instr) × AluOp)),
    ∀ q ∈ p.1.zip [ShiftKind.asr, .lsl, .lsr, .rol, .ror],
    ∀ (rd : Reg) (n : BitVec 2) (rs : Reg) (s : State),
      ∃ t, exec (q.1 rd n rs) s = .next t ∧
        AluDone p.2 rd (s.x rd) (shiftedOperand q.2 (n.toNat + 1) (s.x rs) s.sb) [] s.ds s t ∧
        t.sb = shiftedOut q.2 (n.toNat + 1) (s.x rs) s.sb ∧ KeepsFrBut [7, 8, 9, 10] s t ∧ SameMem s t ∧
        SameRest s t

/-- ADD to TEST with [A6] and with [A16], W = 0: Rd op= [A6] and Rd = Rs op [A16], for the eleven operations.
The flags rest on decision D4 (log 4) and SR as a destination on decision D5 (log 5). -/
def Obligations.AluDirectAddress : Prop :=
  (∀ p ∈ ([(.addA6, .add), (.adcA6, .adc), (.subA6, .sub), (.sbcA6, .sbc),
       (.cmpA6, .cmp), (.negA6, .neg), (.xorA6, .xor), (.loadA6, .load),
       (.orA6, .or), (.andA6, .and), (.testA6, .test)] :
      List ((Reg → BitVec 6 → Instr) × AluOp)),
    ∀ (rd : Reg) (addr : BitVec 6) (s : State), readable s (addrA6 addr) →
      ∃ t, exec (p.1 rd addr) s = .next t ∧ AluDone p.2 rd (s.x rd) (wordAt s (addrA6 addr)) [] s.ds s t ∧
        OnlyRegisters s t) ∧
  ∀ p ∈ ([(.addA16, .add), (.adcA16, .adc),
       (.subA16, .sub), (.sbcA16, .sbc),
       (fun _ rs addr => .cmpA16 rs addr, .cmp), (fun rd _ addr => .negA16 rd addr, .neg),
       (.xorA16, .xor), (fun rd _ addr => .loadA16 rd addr, .load),
       (.orA16, .or), (.andA16, .and),
       (fun _ rs addr => .testA16 rs addr, .test)] :
      List ((Reg → Reg → Word → Instr) × AluOp)),
    ∀ (rd rs : Reg) (addr : Word) (s : State), readable s (addrA16 addr) →
      ∃ t, exec (p.1 rd rs addr) s = .next t ∧ AluDone p.2 rd (s.x rs) (wordAt s (addrA16 addr)) [] s.ds s t ∧
        OnlyRegisters s t

/-- Bit by bit, what ASR, LSL, LSR, ROL and ROR make of the operand and of the shift buffer. The rules of the
shifter alone; the operations on its output, the flags and SR as the destination are in `AluShifted`. -/
def Obligations.ShifterBits : Prop :=
  ∀ (rd rs : Reg) (field : BitVec 2) (s : State),
    let n := field.toNat + 1
    let v := s.x rs
    let leaves := fun (i : Instr) (operand buffer : Nat → Bool) => ∃ t, exec i s = .next t ∧
      (rd ≠ .sr → ∀ k : Nat, k < 16 → (t.x rd).getLsbD k = operand k) ∧
      (∀ k : Nat, k < 4 → t.sb.getLsbD k = buffer k)
    let right := fun (top : Nat → Bool) (k : Nat) => if k + n < 16 then v.getLsbD (k + n) else top (k + n - 16)
    let left := fun (bottom : Nat → Bool) (k : Nat) => if n ≤ k then v.getLsbD (k - n) else bottom (4 + k - n)
    let outRight := fun (k : Nat) => if k + n < 4 then s.sb.getLsbD (k + n) else v.getLsbD (k + n - 4)
    let outLeft := fun (k : Nat) => if n ≤ k then s.sb.getLsbD (k - n) else v.getLsbD (16 + k - n)
    leaves (.loadAsr rd field rs) (right fun _ => v.getLsbD 15) outRight ∧
      leaves (.loadLsl rd field rs) (left fun _ => false) outLeft ∧
      leaves (.loadLsr rd field rs) (right fun _ => false) outRight ∧
      leaves (.loadRol rd field rs) (left s.sb.getLsbD) outLeft ∧
      leaves (.loadRor rd field rs) (right s.sb.getLsbD) outRight

/-- ADD to TEST with [A16], W = 1: [A16] = Rd op Rs goes to memory and writes no register. The flags rest on
decision D4 (log 4); the operand of NEG on the spec's reading of the table, conflict C9 (log 44). -/
def Obligations.AluToMemory16 : Prop :=
  ∀ p ∈ ([(.addA16w, .add), (.adcA16w, .adc), (.subA16w, .sub), (.sbcA16w, .sbc),
       (.cmpA16w, .cmp), (fun rd _ addr => .negA16w rd addr, .neg), (.xorA16w, .xor), (.orA16w, .or),
       (.andA16w, .and), (.testA16w, .test)] :
      List ((Reg → Reg → Word → Instr) × AluOp)),
    ∀ (rd rs : Reg) (addr : Word) (s : State),
      let b := if p.2 = .neg then s.x rd else s.x rs
      let stores : Prop := ¬(p.2 = .cmp ∨ p.2 = .test)
      (stores → writable s (addrA16 addr)) →
      ∃ t, exec (p.1 rd rs addr) s = .next t ∧ FlagsAfter p.2 (s.x rd) b s t ∧ KeepsSegments s t ∧
        KeepsRegs [.sr] s t ∧ t.fr = s.fr ∧ SameRest s t ∧ (¬stores → SameMem s t) ∧
        (stores → wordAt t (addrA16 addr) = opResult p.2 (s.x rd) b s.flagC ∧ SameMemBut [addrA16 addr] s t)

/-- ADD to TEST with {D:}[Rs@]: Rd op= {D:}[Rs@], for the eleven operations. The flags rest on decision D4 (log
4), SR as a destination on D5 (log 5), the wrap of the pair on D3 (log 3) and the allowed combinations on D18
(log 17). -/
def Obligations.AluIndirect : Prop :=
  ∀ p ∈ ([(.addInd, .add), (.adcInd, .adc), (.subInd, .sub), (.sbcInd, .sbc),
       (.cmpInd, .cmp), (.negInd, .neg), (.xorInd, .xor), (.loadInd, .load),
       (.orInd, .or), (.andInd, .and), (.testInd, .test)] :
      List ((Reg → Bool → PtrMark → Reg → Instr) × AluOp)),
    ∀ (rd : Reg) (d : Bool) (mark : PtrMark) (rs : Reg) (s : State),
      indAllowed rd d mark rs → readable s (indAddr d mark rs s) →
      ∃ t, exec (p.1 rd d mark rs) s = .next t ∧
        AluDone p.2 rd (s.x rd) (wordAt s (indAddr d mark rs s)) (indAlso mark rs) (indDs d mark rs s) s t ∧
        (mark ≠ .keep → t.x rs = indPointer d mark rs s) ∧ OnlyRegisters s t

/-- ADD to TEST with [BP+IM6]: Rd op= [BP+IM6], for the eleven operations. The flags rest on decision D4 (log
4), SR as a destination on D5 (log 5) and the address on D7 (log 7). -/
def Obligations.AluDisplacement : Prop :=
  ∀ p ∈ ([(.addBpIm6, .add), (.adcBpIm6, .adc), (.subBpIm6, .sub), (.sbcBpIm6, .sbc),
       (.cmpBpIm6, .cmp), (.negBpIm6, .neg), (.xorBpIm6, .xor), (.loadBpIm6, .load),
       (.orBpIm6, .or), (.andBpIm6, .and), (.testBpIm6, .test)] :
      List ((Reg → BitVec 6 → Instr) × AluOp)),
    ∀ (rd : Reg) (imm : BitVec 6) (s : State), rd ≠ .pc → readable s (addrBp imm s) →
      ∃ t, exec (p.1 rd imm) s = .next t ∧ AluDone p.2 rd (s.x rd) (wordAt s (addrBp imm s)) [] s.ds s t ∧
        OnlyRegisters s t ∧ addrBp imm s = bank0 (s.bp + imm.setWidth 16)

/-- STORE to [A6], [A16], [BP+IM6] and {D:}[Rs@] writes one word, steps the pointer and does nothing else. The
[BP+IM6] address rests on decision D7 (log 7), the wrap of the pair on D3 (log 3), the allowed combinations on
D18 (log 17). -/
def Obligations.StoreForms : Prop :=
  (∀ (rd : Reg) (s : State),
    let stored := fun (i : Instr) (a : Addr) => ∃ t, exec i s = .next t ∧ wordAt t a = s.x rd ∧
      SameMemBut [a] s t ∧ KeepsRegs [] s t ∧ t.fr = s.fr ∧ SameRest s t
    (∀ addr : BitVec 6, writable s (addrA6 addr) → stored (.storeA6 rd addr) (addrA6 addr)) ∧
      (∀ addr : Word, writable s (addrA16 addr) → stored (.storeA16w rd addr) (addrA16 addr)) ∧
      (∀ imm : BitVec 6, rd ≠ .pc → writable s (addrBp imm s) → stored (.storeBpIm6 rd imm) (addrBp imm s))) ∧
  ∀ (rd : Reg) (d : Bool) (mark : PtrMark) (rs : Reg) (s : State),
    indAllowed rd d mark rs → writable s (indAddr d mark rs s) →
    ∃ t, exec (.storeInd rd d mark rs) s = .next t ∧ wordAt t (indAddr d mark rs s) = s.x rd ∧
      SameMemBut [indAddr d mark rs s] s t ∧ (mark ≠ .keep → t.x rs = indPointer d mark rs s ∧ t.ds = indDs d mark rs s) ∧
      (d = false ∨ mark = .keep → KeepsRegs (indAlso mark rs) s t) ∧
      KeepsRegs (.sr :: indAlso mark rs) s t ∧ t.cs = s.cs ∧ KeepsFlags s t ∧ t.fr = s.fr ∧ SameRest s t

/-- MUL: MR is the exact product in its own signedness, and twice that modulo 2^32 in fraction mode. Rule R186
whole; the words, the frame and the cycles of MUL are in `MultiplyProduct`. -/
def Obligations.ProductFitsUnlessFraction : Prop :=
  ∀ (rd rs : Reg) (s : State), rd ≠ .pc → rs ≠ .pc →
    let a := s.x rd
    let b := s.x rs
    let leaves := fun (i : Instr) (reads : BitVec 32 → Int) (product : Int) =>
      ∃ (t : State) (mr : BitVec 32), exec i s = .next t ∧ t.x .r4 = mr.extractLsb' 16 16 ∧
        t.x .r3 = mr.extractLsb' 0 16 ∧ (s.fra = false → reads mr = product) ∧
        (s.fra = true → (mr.toNat : Int) = (2 * product) % 2 ^ 32)
    leaves (.mulUu rd rs) (fun mr => mr.toNat) (a.toNat * b.toNat) ∧
      leaves (.mulUs rd rs) BitVec.toInt (a.toNat * b.toInt) ∧
      leaves (.mulSs rd rs) BitVec.toInt (a.toInt * b.toInt) ∧
      (s.fra = true → a = 0x8000#16 → b = 0x8000#16 → ∃ t, exec (.mulSs rd rs) s = .next t ∧ t.mr = 0x80000000#32) ∧
      (s.fra = true → 2 ^ 31 ≤ a.toNat * b.toNat → ∃ t, exec (.mulUu rd rs) s = .next t ∧
        t.mr.toNat = 2 * (a.toNat * b.toNat) - 2 ^ 32)

/-- TSTB, SETB, CLRB and INVB on a register change bit k alone and put its old complement in Z. SR as a
destination rests on decision D5 (log 5). -/
def Obligations.BitOpsOnRegister : Prop :=
  ∀ p ∈ ([(.tstbRr, .tstbRo, .tstb), (.setbRr, .setbRo, .setb), (.clrbRr, .clrbRo, .clrb), (.invbRr, .invbRo, .invb)] :
      List ((Reg → Reg → Instr) × (Reg → BitVec 4 → Instr) × BitOp)),
    ∀ (rd rs : Reg) (k : BitVec 4) (s : State), rd ≠ .pc →
      (∃ t, exec (p.1 rd rs) s = .next t ∧ BitRegDone p.2.2 rd ((s.x rs).toNat % 16) s t ∧ OnlyRegisters s t) ∧
        (∃ t, exec (p.2.1 rd k) s = .next t ∧ BitRegDone p.2.2 rd k.toNat s t ∧ OnlyRegisters s t)

/-- TSTB, SETB, CLRB and INVB on memory change bit k of one word alone and put its old complement in Z. That
TSTB does not write rests on decision D11 (log 11). -/
def Obligations.BitOpsOnMemory : Prop :=
  ∀ p ∈ ([(.tstbMr, .tstbMo, .tstb), (.setbMr, .setbMo, .setb), (.clrbMr, .clrbMo, .clrb), (.invbMr, .invbMo, .invb)] :
      List ((Bool → Reg → Reg → Instr) × (Bool → Reg → BitVec 4 → Instr) × BitOp)),
    ∀ (d : Bool) (rd rs : Reg) (k : BitVec 4) (s : State), rd ≠ .pc →
      (p.2.2 = .tstb → readable s (dataAddr d (s.x rd) s)) → (p.2.2 ≠ .tstb → writable s (dataAddr d (s.x rd) s)) →
      (∃ t, exec (p.1 d rd rs) s = .next t ∧
        BitMemDone p.2.2 (dataAddr d (s.x rd) s) ((s.x rs).toNat % 16) s t ∧ t.fr = s.fr ∧ SameRest s t) ∧
      (∃ t, exec (p.2.1 d rd k) s = .next t ∧ BitMemDone p.2.2 (dataAddr d (s.x rd) s) k.toNat s t ∧
        t.fr = s.fr ∧ SameRest s t)

/-- Rd ASR, LSL and LSR Rs shift by Rs[4:0], and change no flag but C. C rests on decision D19 (log 18), SR as a
destination on D5 (log 5). -/
def Obligations.Shift16Plain : Prop :=
  ∀ p ∈ ([(.shift16Asr, fun v n => v.sshiftRight n), (.shift16Lsl, fun v n => v <<< n),
       (.shift16Lsr, fun v n => v >>> n)] :
      List ((Reg → Reg → Instr) × (Word → Nat → Word))),
    ∀ (rd rs : Reg) (s : State), rd ≠ .pc →
      ∃ t, exec (p.1 rd rs) s = .next t ∧ ShiftDone rd (p.2 (s.x rd) ((s.x rs).toNat % 32)) s t ∧ OnlyRegisters s t

/-- Rd ROL and ROR Rs rotate the 17 bits {C, Rd} by Rs[3:0]. The place of C rests on decision D19 (log 18), SR
as a destination on D5 (log 5). -/
def Obligations.Shift16Rotate : Prop :=
  ∀ p ∈ ([(.shift16Rol, fun v n => v.rotateLeft n), (.shift16Ror, fun v n => v.rotateRight n)] :
      List ((Reg → Reg → Instr) × (BitVec 17 → Nat → BitVec 17))),
    ∀ (rd rs : Reg) (s : State), rd ≠ .pc →
      let out := p.2 (BitVec.ofBool s.flagC ++ s.x rd) ((s.x rs).toNat % 16)
      ∃ t, exec (p.1 rd rs) s = .next t ∧ ShiftDone rd (out.setWidth 16) s t ∧ (rd ≠ .sr → t.flagC = out.msb) ∧
        OnlyRegisters s t

/-- ASROR and LSROR of R4 and LSLOR of R3 OR the shifted-out half into the other half of MR. C and the halves
rest on decision D19 (logs 18, 19). -/
def Obligations.Shift16IntoMr : Prop :=
  ∀ (rs : Reg) (s : State),
    let n := (s.x rs).toNat % 32
    let high : BitVec 32 := s.x .r4 ++ 0#16
    let low : BitVec 32 := 0#16 ++ s.x .r3
    let done := fun (i : Instr) (r4 r3 : Word) => ∃ t, exec i s = .next t ∧ t.x .r4 = r4 ∧ t.x .r3 = r3 ∧
      AgreesBut [6] t.sr s.sr ∧ KeepsRegs [.r3, .r4, .sr] s t ∧ OnlyRegisters s t
    done (.shift16Asror .r4 rs) ((high.sshiftRight n).extractLsb' 16 16)
        (s.x .r3 ||| (high.sshiftRight n).extractLsb' 0 16) ∧
      done (.shift16Lsror .r4 rs) ((high >>> n).extractLsb' 16 16) (s.x .r3 ||| (high >>> n).extractLsb' 0 16) ∧
      done (.shift16Lslor .r3 rs) (s.x .r4 ||| (low <<< n).extractLsb' 16 16) ((low <<< n).extractLsb' 0 16)

/-- Two shift instructions shift the 32 bits of MR, for every count 0 to 31. The combinations of rule R180 (the
logical one by the same rules; halves: decision D19, log 19). -/
def Obligations.WideShiftFromTwoShifts : Prop :=
  ∀ (rs : Reg) (s : State), rs ≠ .r3 → rs ≠ .r4 →
    let n := (s.x rs).toNat % 32
    let both := fun (i j : Instr) (r : BitVec 32) => ∃ u t, exec i s = .next u ∧ exec j u = .next t ∧ t.mr = r
    both (.shift16Lsr .r3 rs) (.shift16Asror .r4 rs) (s.mr.sshiftRight n) ∧
      both (.shift16Lsr .r3 rs) (.shift16Lsror .r4 rs) (s.mr >>> n) ∧
      both (.shift16Lsl .r4 rs) (.shift16Lslor .r3 rs) (s.mr <<< n)

/-- MUL puts the exact product modulo 2^32 in MR, doubled in fraction mode, and changes no flag. PC as an
operand is reserved by the spec (rule R97 item 7, log 15); the 13, 12 and 12 cycles are the sections' and not
Appendix A's 13 + PM, conflict C11 (logs 40 and 44, DEDUCED). -/
def Obligations.MultiplyProduct : Prop :=
  ∀ p ∈ ([(.mulUu, .uu, 13), (.mulUs, .us, 12), (.mulSs, .ss, 12)] :
      List ((Reg → Reg → Instr) × MulKind × Nat)),
    ∀ (rd rs : Reg) (s : State), rd ≠ .pc → rs ≠ .pc →
      ∃ t, exec (p.1 rd rs) s = .next t ∧
        t.mr = BitVec.ofInt 32 (exactProduct p.2.1 s.fra (s.x rd) (s.x rs)) ∧
        KeepsRegs [.r3, .r4] s t ∧ OnlyRegisters s t ∧
        (s.plat.waitPm = 0 → cyclesOf (p.1 rd rs).shape s = p.2.2)

/-- MULS puts the 36-bit inner product in MR and SB, flags overflow in S, moves samples and steps pointers. The
defaults of the pointer adjustment and of the FIR move are the spec's, from general knowledge (decisions D31,
D32; logs 31, 32, PRESUMED), and the other clauses hold for every value of the two parameters; the test for S is
decision D33 (log 33), bank 0 decision D8 (log 8); S with SR as a pointer is a free value (log 39), and that one
register used as both pointers takes the second value matters only under another chip's muls_adjust (log 38). -/
def Obligations.InnerProduct : Prop :=
  ∀ p ∈ ([(.mulsUu, .uu), (.mulsUs, .us), (.mulsSs, .ss)] :
      List ((Reg → BitVec 4 → Reg → Instr) × MulKind)),
    ∀ (rd rs : Reg) (n : BitVec 4) (s : State), rd ∉ [.r3, .r4, .pc] → rs ∉ [.r3, .r4, .pc] →
      let l := levelCount n
      let acc := BitVec.ofInt 36 (innerSum p.2 s (s.x rd) (s.x rs) l)
      let sample := fun i : Nat => wordAt s (bank0 (s.x rd + BitVec.ofNat 16 i))
      let moved := firWrites s.plat.firMove (s.x rd) ((List.range l).map sample)
      let pointers := adjustedPointers s.plat.mulsAdjust rd rs (s.x rd) (s.x rs) l
      let moves : Prop := s.fir = false ∧ 1 < l
      (∀ i : Nat, i < l → readable s (bank0 (s.x rd + BitVec.ofNat 16 i)) ∧
        readable s (bank0 (s.x rs + BitVec.ofNat 16 i))) →
      (moves → ∀ w ∈ moved, writable s (bank0 w.1)) →
      (∃ t, exec (p.1 rd n rs) s = .next t ∧ t.mr = acc.extractLsb' 0 32 ∧ t.sb = acc.extractLsb' 32 4 ∧
        KeepsFrBut [7, 8, 9, 10] s t ∧ PointersDone rd rs pointers (sumOverflows p.2 acc) s t ∧
        (moves → WordsWritten moved s t) ∧ (¬moves → SameMem s t) ∧
        KeepsRegs [rd, rs, .r3, .r4, .sr] s t ∧ SameRest s t) ∧
      (s.plat.firMove = .default → moved =
        (List.range (l - 1)).reverse.map fun i => (s.x rd + BitVec.ofNat 16 (i + 1), sample i)) ∧
      (s.plat.mulsAdjust = .default → pointers = (s.x rd + BitVec.ofNat 16 l, s.x rs + BitVec.ofNat 16 l))

/-- DIVS and DIVQ change MR and AQ alone; by default a left shift with a quotient bit. The register-level effect
is a parameter (decision D30, log 30): the default clause is the spec's default from general knowledge
(PRESUMED), and that DIVS touches no more than DIVQ is read from its operands (DEDUCED). -/
def Obligations.DivisionSteps : Prop :=
  ∀ s : State,
    let changesMrAq := fun (i : Instr) (gives : State → Prop) => ∃ t, exec i s = .next t ∧ gives t ∧
      KeepsFrBut [14] s t ∧ KeepsRegs [.r3, .r4] s t ∧ SameMem s t ∧ SameRest s t
    let sign := (s.x .r4).msb ^^ (s.x .r2).msb
    let r := if s.aq = true then s.x .r4 + s.x .r2 else s.x .r4 - s.x .r2
    let next := r.msb ^^ (s.x .r2).msb
    changesMrAq .divs (fun t => s.plat.divStep = .default →
        t.mr = s.mr <<< 1 ||| (BitVec.ofBool sign).setWidth 32 ∧ t.aq = sign) ∧
      changesMrAq .divq (fun t => s.plat.divStep = .default →
        t.mr = (r ++ s.x .r3 : BitVec 32) <<< 1 ||| (BitVec.ofBool (!next)).setWidth 32 ∧ t.aq = next)

/-- Sixteen DIVQ steps divide: R3 is the quotient of an unsigned dividend by a divisor up to 0x7FFF. The premise
on the platform is the spec's default of div_step (decision D30, log 30, PRESUMED). -/
def Obligations.SixteenDivqDivide : Prop :=
  ∀ (s : State) (dividend : Nat), s.plat.divStep = .default → s.aq = false → dividend < 2 ^ 31 →
    s.mr = BitVec.ofNat 32 (2 * dividend) → 0 < (s.x .r2).toNat → (s.x .r2).toNat ≤ 0x7FFF →
    dividend / (s.x .r2).toNat < 2 ^ 16 →
    ∃ t, execTimes .divq 16 s = .next t ∧ (t.x .r3).toNat = dividend / (s.x .r2).toNat ∧
      KeepsFrBut [14] s t ∧ KeepsRegs [.r3, .r4] s t ∧ SameMem s t ∧ SameRest s t

/-- EXP puts the number of redundant sign bits of R4 in R2 and changes nothing else. Rule R200: word, operation,
flags, cycles; that the bits drawn "-" do not matter and are encoded as 0 is decision D14 (log 13, DESIGN
CHOICE). -/
def Obligations.ExpCountsRedundantSigns : Prop :=
  (∀ w0 w1 : Word, w0 &&& 0xF1E7#16 = 0xF164#16 → decode w0 w1 = .ok .exp ∧ isTwoWord w0 = false) ∧
    encode .exp = [0xF164#16] ∧ ∀ s : State, cyclesOf Instr.exp.shape s = 2 + s.plat.waitPm ∧
      ∃ t, exec .exp s = .next t ∧
        (let c := (t.x .r2).toNat
         let v := s.x .r4
         c ≤ 15 ∧ (∀ i : Nat, 15 - c ≤ i → i < 15 → v.getLsbD i = v.getLsbD 15) ∧
          (c < 15 → v.getLsbD (14 - c) ≠ v.getLsbD 15)) ∧
        KeepsRegs [.r2] s t ∧ OnlyRegisters s t

/-- NOP changes nothing, and a step at NOP only moves to the next address. Rule R201: word, operation, cycles;
that the bits drawn "-" do not matter and are encoded as 0 is decision D14 (log 13, DESIGN CHOICE), and the wrap
of LPC + 1 at the last address decision D3 (log 3, DESIGN CHOICE). -/
def Obligations.NopOnlyAdvances : Prop :=
  (∀ w0 w1 : Word, w0 &&& 0xF1E7#16 = 0xF165#16 → decode w0 w1 = .ok .nop ∧ isTwoWord w0 = false) ∧
    encode .nop = [0xF165#16] ∧ (∀ s : State, exec .nop s = .next s) ∧
    ∀ s : State, s.resetPending = false → accepted s.linesNow s = none → readable s s.lpc →
      wordAt s s.lpc &&& 0xF1E7#16 = 0xF165#16 →
      step s = .next ((s.nextSample.setLpc (s.lpc + 1#22)).addCycles (2 + s.plat.waitPm))

/-- The fifteen branches are taken exactly on their conditions, up to 63 words each way, changing only LPC. The
base and the crossing of a segment rest on decision D35 (log 35). -/
def Obligations.Branches : Prop :=
  ∀ p ∈ ([(.jcc, fun s => !s.flagC), (.jcs, fun s => s.flagC),
       (.jsc, fun s => !s.flagS), (.jss, fun s => s.flagS),
       (.jne, fun s => !s.flagZ), (.jz, fun s => s.flagZ),
       (.jpl, fun s => !s.flagN), (.jmi, fun s => s.flagN),
       (.jbe, fun s => s.flagZ || !s.flagC), (.ja, fun s => !s.flagZ && s.flagC),
       (.jle, fun s => s.flagZ || s.flagS), (.jg, fun s => !s.flagZ && !s.flagS),
       (.jvc, fun s => decide (s.flagN = s.flagS)), (.jvs, fun s => decide (s.flagN ≠ s.flagS)),
       (.jmp, fun _ => true)] :
      List ((Bool → BitVec 6 → Instr) × (State → Bool))),
    ∀ (back : Bool) (imm : BitVec 6) (s : State),
      let target := if back then s.lpc - imm.setWidth 22 else s.lpc + imm.setWidth 22
      cyclesOf (p.1 back imm).shape s =
        (if p.2 s = true then 4 + 2 * s.plat.waitPm else 2 + s.plat.waitPm) ∧
      ∃ t, exec (p.1 back imm) s = .next t ∧ t.lpc = (if p.2 s = true then target else s.lpc) ∧ t.ds = s.ds ∧
        KeepsFlags s t ∧ KeepsRegs [.pc, .sr] s t ∧ OnlyRegisters s t

/-- GOTO MR loads CS and PC from {R4[5:0], R3} and changes nothing else. Rule R228: word, operation, flags,
cycles; that w0[5:0] does not matter and is encoded as 0 is decision D14 (log 13, DESIGN CHOICE). -/
def Obligations.GotoMrJumps : Prop :=
  (∀ w0 w1 : Word, w0 &&& 0xFFC0#16 = 0xFEC0#16 → decode w0 w1 = .ok .gotoMr ∧ isTwoWord w0 = false) ∧
    encode .gotoMr = [0xFEC0#16] ∧
    ∀ s : State, cyclesOf Instr.gotoMr.shape s = 4 + 2 * s.plat.waitPm ∧
      ∃ t, exec .gotoMr s = .next t ∧ t.lpc = (s.x .r4).extractLsb' 0 6 ++ s.x .r3 ∧ t.ds = s.ds ∧ KeepsFlags s t ∧
        KeepsRegs [.pc, .sr] s t ∧ OnlyRegisters s t

/-- DS = IM6, DS = Rs and Rs = DS move the data segment and change nothing else. Rules R240 to R242: words,
operation, flags, cycles; that w0[11:9] other than 111 does not matter is decision D14 (log 13, DESIGN CHOICE),
that 1111 111 000 1xxxxx is DS = IM6 decision D15 (log 14, DESIGN CHOICE), and the count of Rs = DS with Rs = PC
on a chip with waits is DEDUCED (log 40). -/
def Obligations.DsAccess : Prop :=
  (∀ w0 w1 : Word,
      (w0 &&& 0xFFC0#16 = 0xFE00#16 →
        decode w0 w1 = .ok (.dsIm6 (w0.extractLsb' 0 6)) ∧ isTwoWord w0 = false) ∧
      (w0 &&& 0xF1F8#16 = 0xF020#16 → w0 &&& 0x0E00#16 ≠ 0x0E00#16 →
        decode w0 w1 = .ok (.movRsDs (fieldRs w0)) ∧ isTwoWord w0 = false) ∧
      (w0 &&& 0xF1F8#16 = 0xF028#16 → w0 &&& 0x0E00#16 ≠ 0x0E00#16 →
        decode w0 w1 = .ok (.movDsRs (fieldRs w0)) ∧ isTwoWord w0 = false)) ∧
    (∀ rs : Reg, encode (.movRsDs rs) = [0xF020#16 ||| rs.bits.setWidth 16] ∧
      encode (.movDsRs rs) = [0xF028#16 ||| rs.bits.setWidth 16]) ∧
    ∀ (imm : BitVec 6) (rs : Reg) (s : State),
      let dsBecomes := fun (i : Instr) (v : BitVec 6) => ∃ t, exec i s = .next t ∧ t.ds = v ∧ t.cs = s.cs ∧
        KeepsFlags s t ∧ KeepsRegs [.sr] s t ∧ OnlyRegisters s t ∧ cyclesOf i.shape s = 2 + s.plat.waitPm
      dsBecomes (.dsIm6 imm) imm ∧ dsBecomes (.movDsRs rs) ((s.x rs).extractLsb' 0 6) ∧
        cyclesOf (Instr.movRsDs rs).shape s = 2 + s.plat.waitPm ∧
        ∃ t, exec (.movRsDs rs) s = .next t ∧ t.x rs = s.ds.setWidth 16 ∧ KeepsRegs [rs] s t ∧ OnlyRegisters s t

/-- FR = Rs writes FR[14:0] and Rs = FR reads it with bit 15 zero. FR[15] rests on decision D6 (log 6); that
w0[11:9] other than 111 does not matter is decision D14 (log 13), and that 111 is DS = IM6 decision D15 (log 14,
both DESIGN CHOICE); the count of Rs = FR with Rs = PC on a chip with waits is DEDUCED (log 40). -/
def Obligations.FrAccess : Prop :=
  (∀ w0 w1 : Word, w0 &&& 0x0E00#16 ≠ 0x0E00#16 →
      (w0 &&& 0xF1F8#16 = 0xF030#16 → decode w0 w1 = .ok (.movRsFr (fieldRs w0))) ∧
      (w0 &&& 0xF1F8#16 = 0xF038#16 → decode w0 w1 = .ok (.movFrRs (fieldRs w0)))) ∧
    ∀ (rs : Reg) (s : State),
      cyclesOf (Instr.movRsFr rs).shape s = 2 + s.plat.waitPm ∧ cyclesOf (Instr.movFrRs rs).shape s = 2 + s.plat.waitPm ∧
      (∃ t, exec (.movRsFr rs) s = .next t ∧ (t.x rs).getLsbD 15 = false ∧
        (∀ i : Nat, i < 15 → (t.x rs).getLsbD i = s.fr.getLsbD i) ∧ KeepsRegs [rs] s t ∧ OnlyRegisters s t) ∧
      (∃ t, exec (.movFrRs rs) s = .next t ∧ t.fr.getLsbD 15 = s.fr.getLsbD 15 ∧
        (∀ i : Nat, i < 15 → t.fr.getLsbD i = (s.x rs).getLsbD i) ∧ KeepsRegs [] s t ∧ SameMem s t ∧ SameRest s t)

/-- Each of the sixteen mode words writes the one or two bits of FR it names and nothing else. Rules R110 to
R116; the ignored bits rest on decision D14 (log 13). -/
def Obligations.ModeInstructions : Prop :=
  ∀ e ∈ ([(0xF140#16, .intOff, [(6, false), (5, false)]), (0xF141#16, .intIrq, [(6, false), (5, true)]),
       (0xF142#16, .intFiq, [(6, true), (5, false)]), (0xF143#16, .intFiqIrq, [(6, true), (5, true)]),
       (0xF144#16, .firMovOn, [(11, false)]), (0xF145#16, .firMovOff, [(11, true)]),
       (0xF146#16, .fractionOff, [(12, false)]), (0xF147#16, .fractionOn, [(12, true)]),
       (0xF148#16, .irqOff, [(5, false)]), (0xF149#16, .irqOn, [(5, true)]),
       (0xF14A#16, .secbankOff, [(13, false)]), (0xF14B#16, .secbankOn, [(13, true)]),
       (0xF14C#16, .fiqOff, [(6, false)]), (0xF14D#16, .irqnestOff, [(4, false)]),
       (0xF14E#16, .fiqOn, [(6, true)]), (0xF14F#16, .irqnestOn, [(4, true)])] :
      List (Word × Instr × List (Nat × Bool))),
    (∀ w0 w1 : Word, w0 &&& 0xF1FF#16 = e.1 → decode w0 w1 = .ok e.2.1) ∧
    ∀ s : State, cyclesOf e.2.1.shape s = 2 + s.plat.waitPm ∧
      ∃ t, exec e.2.1 s = .next t ∧ (∀ b ∈ e.2.2, t.fr.getLsbD b.1 = b.2) ∧ KeepsFrBut (e.2.2.map Prod.fst) s t ∧
        KeepsRegs [] s t ∧ SameMem s t ∧ SameRest s t

/-- PUSH stores the list from its highest register down and leaves the pointer N lower. The discipline rests on
decision D8 (log 8), the pointer outside the list on D36 (log 36). -/
def Obligations.PushStoresList : Prop :=
  ∀ (rd : Reg) (n : BitVec 3) (rs : Reg) (s : State),
    0 < n.toNat → n.toNat ≤ rd.num + 1 → (rs.num + n.toNat ≤ rd.num ∨ rd.num < rs.num) →
    pushable s (s.x rs) n.toNat →
    ∃ t, exec (.push rd n rs) s = .next t ∧
      (∀ i : Nat, i < n.toNat → wordAt t (bank0 (s.x rs - BitVec.ofNat 16 i)) = s.x (regOfNum (rd.num - i))) ∧
      t.x rs = s.x rs - BitVec.ofNat 16 n.toNat ∧ SameMemBut (pushedAt (s.x rs) n.toNat) s t ∧
      KeepsRegs [rs] s t ∧ t.fr = s.fr ∧ SameRest s t

/-- POP loads the list from its lowest register up and leaves the pointer N higher. The discipline rests on
decision D8 (log 8), the pointer outside the list on D36 (log 36). -/
def Obligations.PopLoadsList : Prop :=
  ∀ (rd : Reg) (n : BitVec 3) (rs : Reg) (s : State),
    0 < n.toNat → rd.num + n.toNat ≤ 7 → (rs.num ≤ rd.num ∨ rd.num + n.toNat < rs.num) →
    poppable s (s.x rs) n.toNat →
    ∃ t, exec (.pop rd n rs) s = .next t ∧
      (∀ i : Nat, i < n.toNat →
        t.x (regOfNum (rd.num + (i + 1))) = wordAt s (bank0 (s.x rs + BitVec.ofNat 16 (i + 1)))) ∧
      t.x rs = s.x rs + BitVec.ofNat 16 n.toNat ∧
      KeepsRegs (rs :: (List.range n.toNat).map fun i => regOfNum (rd.num + (i + 1))) s t ∧ OnlyRegisters s t

/-- A PUSH followed by a POP of the same list restores every register and the pointer. Rests on decision D8 (log
8). -/
def Obligations.PopUndoesPush : Prop :=
  ∀ (rd : Reg) (n : BitVec 3) (rs : Reg) (s : State),
    0 < n.toNat → n.toNat ≤ rd.num → (rs.num + n.toNat ≤ rd.num ∨ rd.num < rs.num) →
    pushable s (s.x rs) n.toNat →
    ∃ u t, exec (.push rd n rs) s = .next u ∧ exec (.pop (regOfNum (rd.num - n.toNat)) n rs) u = .next t ∧
      KeepsRegs [] s t ∧ t.fr = s.fr ∧ SameMemBut (pushedAt (s.x rs) n.toNat) s t ∧ SameRest s t

/-- CALL A22 and CALL MR push PC then SR and jump far, changing nothing else. The stack discipline rests on
decision D8 (log 8). -/
def Obligations.CallPushesFrame : Prop :=
  ∀ (addr : Addr) (s : State), pushable s s.sp 2 →
    let done := fun (i : Instr) (target : Addr) => ∃ t, exec i s = .next t ∧ FramePushed s t ∧ t.sp = s.sp - 2#16 ∧
      t.lpc = target ∧ t.ds = s.ds ∧ KeepsFlags s t ∧ KeepsRegs [.sp, .sr, .pc] s t ∧
      SameMemBut (pushedAt s.sp 2) s t ∧ t.fr = s.fr ∧ SameRest s t
    done (.call addr) addr ∧ done .callMr ((s.x .r4).extractLsb' 0 6 ++ s.x .r3)

/-- RETF pops SR then PC and changes nothing else, and undoes a CALL if the callee left SP and the frame. The
stack discipline rests on decision D8 (log 8). -/
def Obligations.RetfReturns : Prop :=
  (∀ s : State, poppable s s.sp 2 →
    ∃ t, exec .retf s = .next t ∧ t.sr = wordAt s (bank0 (s.sp + 1#16)) ∧ t.pc = wordAt s (bank0 (s.sp + 2#16)) ∧
      t.sp = s.sp + 2#16 ∧ KeepsRegs [.sp, .sr, .pc] s t ∧ OnlyRegisters s t) ∧
  ∀ (addr : Addr) (s u v : State), exec (.call addr) s = .next u →
    v.sp = u.sp → FramePushed s v → readable v (bank0 s.sp) → readable v (bank0 (s.sp - 1#16)) →
    ∃ t, exec .retf v = .next t ∧ t.lpc = s.lpc ∧ t.sr = s.sr ∧ t.sp = s.sp ∧ KeepsRegs [.sp, .sr, .pc] v t ∧
      OnlyRegisters v t

/-- GOTO A22 loads CS and PC with the address its two words hold and changes nothing else. Rule R229 whole:
words, operation, flags, no data access, cycles. -/
def Obligations.GotoAddressJumps : Prop :=
  ∀ (hi : BitVec 6) (lo : Word) (s : State),
    encode (.goto (hi ++ lo)) = [0xFE80#16 ||| hi.setWidth 16, lo] ∧
      decode (0xFE80#16 ||| hi.setWidth 16) lo = .ok (.goto (hi ++ lo)) ∧
      isTwoWord (0xFE80#16 ||| hi.setWidth 16) = true ∧
      cyclesOf (Instr.goto (hi ++ lo)).shape s = 5 + 2 * s.plat.waitPm ∧
      ∃ t, exec (.goto (hi ++ lo)) s = .next t ∧ t.cs = hi ∧ t.pc = lo ∧ t.ds = s.ds ∧ KeepsFlags s t ∧
        KeepsRegs [.pc, .sr] s t ∧ OnlyRegisters s t

/-- BREAK saves PC and SR, marks the BREAK handler and goes to the word at 0x00FFF5 in bank 0. CS rests on
decision D28 (log 28), DS and the flags on D29 (log 29), the stack on D8 (log 8). -/
def Obligations.BreakEntersHandler : Prop :=
  ∀ s : State, pushable s s.sp 2 → readable s 0x00FFF5#22 →
    ∃ t, exec .brk s = .next t ∧ FramePushed s t ∧ t.sp = s.sp - 2#16 ∧ t.pc = wordAt t 0x00FFF5#22 ∧ t.cs = 0#6 ∧
      ServiceBegun .brk s t ∧ t.fr = s.fr ∧ KeepsRegs [.sp, .sr, .pc] s t ∧ SameMemBut (pushedAt s.sp 2) s t ∧
      SamePlatform s t

/-- RETI pops FR only when leaving an IRQ handler in nest mode, then SR and PC, and clears one item. Rests on
decision D23 (log 23) and, for the stack, D8 (log 8). -/
def Obligations.RetiReturns : Prop :=
  ∀ s : State,
    let nest : Prop := s.ine = true ∧ leavesIrq s
    let done := fun (k : Nat) => ∃ t, exec .reti s = .next t ∧
      t.sr = wordAt s (bank0 (s.sp + BitVec.ofNat 16 (k + 1))) ∧
      t.pc = wordAt s (bank0 (s.sp + BitVec.ofNat 16 (k + 2))) ∧ t.sp = s.sp + BitVec.ofNat 16 (k + 2) ∧
      (k = 0 → t.fr = s.fr) ∧
      (k = 1 → t.fr.getLsbD 15 = s.fr.getLsbD 15 ∧
        ∀ i : Nat, i < 15 → t.fr.getLsbD i = (wordAt s (bank0 (s.sp + 1#16))).getLsbD i) ∧
      ServiceEnded s t ∧ KeepsRegs [.sp, .sr, .pc] s t ∧ SameMem s t ∧ SamePlatform s t
    (nest → poppable s s.sp 3 → done 1) ∧ (¬nest → poppable s s.sp 2 → done 0)

/-- The entry of BREAK, FIQ and IRQn saves PC, SR and in nest mode FR, and goes to the vector in bank 0. Rests
on decisions D21, D23, D28, D29 and D8 (logs 21, 23, 28, 29, 8). -/
def Obligations.InterruptEntry : Prop :=
  ∀ (src : IntSource) (s : State),
    pushable s s.sp (frameWords src s) → readable s (vectorOf src s) →
    ∃ t, enterInterrupt src s = .next t ∧ FramePushed s t ∧ t.sp = s.sp - BitVec.ofNat 16 (frameWords src s) ∧
      t.pc = wordAt t (vectorOf src s) ∧ t.cs = 0#6 ∧ ServiceBegun src s t ∧
      (src.nests s = false → t.fr = s.fr) ∧
      (src.nests s = true → wordAt t (bank0 (s.sp - 2#16)) = s.frWord ∧ KeepsFrBut [0, 1, 2, 3] s t ∧
        ∀ n : Fin 8, src = .irq n → t.pri = BitVec.ofNat 4 n.val) ∧
      KeepsRegs [.sp, .sr, .pc] s t ∧ SameMemBut (pushedAt s.sp (frameWords src s)) s t ∧ SamePlatform s t

/-- FIQ is accepted first, else the lowest-numbered IRQ below PRI, never under a handler that blocks it. Rests
on decisions D26 and D27 (logs 26, 27). -/
def Obligations.AcceptanceTest : Prop :=
  ∀ (l : Lines) (s : State),
    (accepted l s = some .fiq ↔ FiqAdmitted l s) ∧
      (∀ n : Fin 8, accepted l s = some (.irq n) ↔
        ¬FiqAdmitted l s ∧ IrqAdmitted s ∧ IrqRequested l s n.val ∧ ∀ m : Nat, m < n.val → ¬IrqRequested l s m) ∧
      accepted l s ≠ some .brk

/-- RETI returns to the interrupted instruction with SR, SP, servicing and nest-mode FR as they were. Rests on
decisions D23 and D26 (logs 23, 26) and, for the place of the frame words, on D8 (log 8, PRESUMED); the premise
on INE is rule R324's. -/
def Obligations.RetiUndoesEntry : Prop :=
  ∀ (src : IntSource) (s u v : State),
    NotBlocked src s → enterInterrupt src s = .next u →
    v.sp = u.sp → SameService u v → v.ine = s.ine → FramePushed s v →
    (src.nests s = true → wordAt v (bank0 (s.sp - 2#16)) = s.frWord) →
    (∀ i : Nat, i < frameWords src s → readable v (bank0 (s.sp - BitVec.ofNat 16 i))) →
    ∃ t, exec .reti v = .next t ∧ t.lpc = s.lpc ∧ t.sr = s.sr ∧ t.sp = s.sp ∧ SameService s t ∧
      (src.nests s = true → t.frWord = s.frWord) ∧ (src.nests s = false → t.fr = v.fr) ∧
      KeepsRegs [.sp, .sr, .pc] v t ∧ SameMem v t ∧ SamePlatform v t

end
end

