-- ==== Sys2Proof/Laws/State.lean ====
section
/-! SUPPORT. One lemma per field per update of the state, and the bits of a masked write. -/

namespace Sys2Proof.Machine

@[simp] theorem getLsbD_mergeBits (m v o : Word) (i : Nat) :
    (mergeBits m v o).getLsbD i = if m.getLsbD i then v.getLsbD i else o.getLsbD i := by
  unfold mergeBits
  rcases Nat.lt_or_ge i 16 with h | h
  · simp only [BitVec.getLsbD_or, BitVec.getLsbD_and, BitVec.getLsbD_not, h, decide_true, Bool.true_and]
    cases m.getLsbD i <;> simp
  · simp [BitVec.getLsbD_of_ge _ _ h]

theorem physOf_inj (b : Bool) (q r : Reg) : physOf b q = physOf b r ↔ q = r := by
  cases b <;> cases q <;> cases r <;> decide

namespace State

/-! #### Registers by name -/

@[simp] theorem get_set (s : State) (p q : Phys) (v : Word) :
    (s.set p v).get q = if q = p then v else s.get q := by cases p <;> cases q <;> rfl
@[simp] theorem set_fr (s : State) (p : Phys) (v : Word) : (s.set p v).fr = s.fr := by cases p <;> rfl
@[simp] theorem set_mem (s : State) (p : Phys) (v : Word) : (s.set p v).mem = s.mem := by cases p <;> rfl
@[simp] theorem set_plat (s : State) (p : Phys) (v : Word) : (s.set p v).plat = s.plat := by cases p <;> rfl
@[simp] theorem set_inBrk (s : State) (p : Phys) (v : Word) : (s.set p v).inBrk = s.inBrk := by cases p <;> rfl
@[simp] theorem set_inFiq (s : State) (p : Phys) (v : Word) : (s.set p v).inFiq = s.inFiq := by cases p <;> rfl
@[simp] theorem set_irqDepth (s : State) (p : Phys) (v : Word) : (s.set p v).irqDepth = s.irqDepth := by
  cases p <;> rfl
@[simp] theorem set_irqIn (s : State) (p : Phys) (v : Word) : (s.set p v).irqIn = s.irqIn := by cases p <;> rfl
@[simp] theorem set_resetPending (s : State) (p : Phys) (v : Word) :
    (s.set p v).resetPending = s.resetPending := by cases p <;> rfl
@[simp] theorem set_cycles (s : State) (p : Phys) (v : Word) : (s.set p v).cycles = s.cycles := by
  cases p <;> rfl
@[simp] theorem set_draws (s : State) (p : Phys) (v : Word) : (s.set p v).draws = s.draws := by cases p <;> rfl

/-! #### Registers by number -/

@[simp] theorem setX_fr (s : State) (r : Reg) (v : Word) : (s.setX r v).fr = s.fr := by simp [setX]
@[simp] theorem setX_bnk (s : State) (r : Reg) (v : Word) : (s.setX r v).bnk = s.bnk := by simp [bnk]
@[simp] theorem setX_mem (s : State) (r : Reg) (v : Word) : (s.setX r v).mem = s.mem := by simp [setX]
@[simp] theorem setX_plat (s : State) (r : Reg) (v : Word) : (s.setX r v).plat = s.plat := by simp [setX]
@[simp] theorem setX_inBrk (s : State) (r : Reg) (v : Word) : (s.setX r v).inBrk = s.inBrk := by simp [setX]
@[simp] theorem setX_inFiq (s : State) (r : Reg) (v : Word) : (s.setX r v).inFiq = s.inFiq := by simp [setX]
@[simp] theorem setX_irqDepth (s : State) (r : Reg) (v : Word) : (s.setX r v).irqDepth = s.irqDepth := by
  simp [setX]
@[simp] theorem setX_irqIn (s : State) (r : Reg) (v : Word) : (s.setX r v).irqIn = s.irqIn := by simp [setX]
@[simp] theorem setX_resetPending (s : State) (r : Reg) (v : Word) :
    (s.setX r v).resetPending = s.resetPending := by simp [setX]
@[simp] theorem setX_cycles (s : State) (r : Reg) (v : Word) : (s.setX r v).cycles = s.cycles := by simp [setX]
@[simp] theorem setX_draws (s : State) (r : Reg) (v : Word) : (s.setX r v).draws = s.draws := by simp [setX]
@[simp] theorem get_setX (s : State) (r : Reg) (v : Word) (p : Phys) :
    (s.setX r v).get p = if p = physOf s.bnk r then v else s.get p := by simp [setX]
@[simp] theorem x_setX (s : State) (r q : Reg) (v : Word) :
    (s.setX r v).x q = if q = r then v else s.x q := by simp [x, physOf_inj]

/-! #### Writes to FR -/

@[simp] theorem get_writeFr (s : State) (m v : Word) (p : Phys) : (s.writeFr m v).get p = s.get p := by
  cases p <;> rfl
@[simp] theorem writeFr_fr (s : State) (m v : Word) : (s.writeFr m v).fr = mergeBits m v s.fr := rfl
@[simp] theorem writeFr_mem (s : State) (m v : Word) : (s.writeFr m v).mem = s.mem := rfl
@[simp] theorem writeFr_plat (s : State) (m v : Word) : (s.writeFr m v).plat = s.plat := rfl
@[simp] theorem writeFr_inBrk (s : State) (m v : Word) : (s.writeFr m v).inBrk = s.inBrk := rfl
@[simp] theorem writeFr_inFiq (s : State) (m v : Word) : (s.writeFr m v).inFiq = s.inFiq := rfl
@[simp] theorem writeFr_irqDepth (s : State) (m v : Word) : (s.writeFr m v).irqDepth = s.irqDepth := rfl
@[simp] theorem writeFr_irqIn (s : State) (m v : Word) : (s.writeFr m v).irqIn = s.irqIn := rfl
@[simp] theorem writeFr_resetPending (s : State) (m v : Word) :
    (s.writeFr m v).resetPending = s.resetPending := rfl
@[simp] theorem writeFr_cycles (s : State) (m v : Word) : (s.writeFr m v).cycles = s.cycles := rfl
@[simp] theorem writeFr_draws (s : State) (m v : Word) : (s.writeFr m v).draws = s.draws := rfl

/-- A write that leaves FR.BNK alone keeps the bank. -/
theorem writeFr_bnk (s : State) (m v : Word) (h : m.getLsbD 13 = false) : (s.writeFr m v).bnk = s.bnk := by
  simp only [bnk, writeFr_fr, getLsbD_mergeBits, h, Bool.false_eq_true, if_false]

@[simp] theorem setSb_bnk (s : State) (v : BitVec 4) : (s.setSb v).bnk = s.bnk :=
  writeFr_bnk s _ _ (by decide)
@[simp] theorem setAq_bnk (s : State) (b : Bool) : (s.setAq b).bnk = s.bnk := writeFr_bnk s _ _ (by decide)
@[simp] theorem setPri_bnk (s : State) (v : BitVec 4) : (s.setPri v).bnk = s.bnk :=
  writeFr_bnk s _ _ (by decide)
@[simp] theorem get_setSb (s : State) (v : BitVec 4) (p : Phys) : (s.setSb v).get p = s.get p :=
  get_writeFr s _ _ p
@[simp] theorem x_setSb (s : State) (v : BitVec 4) (r : Reg) : (s.setSb v).x r = s.x r := by simp [x]

/-! #### Writes to SR -/

theorem writeSr_eq_set (s : State) (m v : Word) : s.writeSr m v = s.set .sr (mergeBits m v s.sr) := rfl
@[simp] theorem get_writeSr (s : State) (m v : Word) (p : Phys) :
    (s.writeSr m v).get p = if p = .sr then mergeBits m v s.sr else s.get p := by cases p <;> rfl
@[simp] theorem writeSr_sr (s : State) (m v : Word) : (s.writeSr m v).sr = mergeBits m v s.sr := rfl
@[simp] theorem writeSr_fr (s : State) (m v : Word) : (s.writeSr m v).fr = s.fr := rfl
@[simp] theorem writeSr_bnk (s : State) (m v : Word) : (s.writeSr m v).bnk = s.bnk := rfl
@[simp] theorem writeSr_mem (s : State) (m v : Word) : (s.writeSr m v).mem = s.mem := rfl
@[simp] theorem writeSr_plat (s : State) (m v : Word) : (s.writeSr m v).plat = s.plat := rfl
@[simp] theorem writeSr_inBrk (s : State) (m v : Word) : (s.writeSr m v).inBrk = s.inBrk := rfl
@[simp] theorem writeSr_inFiq (s : State) (m v : Word) : (s.writeSr m v).inFiq = s.inFiq := rfl
@[simp] theorem writeSr_irqDepth (s : State) (m v : Word) : (s.writeSr m v).irqDepth = s.irqDepth := rfl
@[simp] theorem writeSr_irqIn (s : State) (m v : Word) : (s.writeSr m v).irqIn = s.irqIn := rfl
@[simp] theorem writeSr_resetPending (s : State) (m v : Word) :
    (s.writeSr m v).resetPending = s.resetPending := rfl
@[simp] theorem writeSr_cycles (s : State) (m v : Word) : (s.writeSr m v).cycles = s.cycles := rfl
@[simp] theorem writeSr_draws (s : State) (m v : Word) : (s.writeSr m v).draws = s.draws := rfl

@[simp] theorem get_setDs (s : State) (v : BitVec 6) (p : Phys) :
    (s.setDs v).get p = if p = .sr then v ++ s.sr.extractLsb' 0 10 else s.get p := by cases p <;> rfl
@[simp] theorem setDs_sr (s : State) (v : BitVec 6) : (s.setDs v).sr = v ++ s.sr.extractLsb' 0 10 := rfl
@[simp] theorem setDs_fr (s : State) (v : BitVec 6) : (s.setDs v).fr = s.fr := rfl
@[simp] theorem setDs_bnk (s : State) (v : BitVec 6) : (s.setDs v).bnk = s.bnk := rfl
@[simp] theorem setDs_mem (s : State) (v : BitVec 6) : (s.setDs v).mem = s.mem := rfl
@[simp] theorem setDs_plat (s : State) (v : BitVec 6) : (s.setDs v).plat = s.plat := rfl

@[simp] theorem get_setCs (s : State) (v : BitVec 6) (p : Phys) :
    (s.setCs v).get p = if p = .sr then s.sr.extractLsb' 6 10 ++ v else s.get p := by cases p <;> rfl
@[simp] theorem setCs_sr (s : State) (v : BitVec 6) : (s.setCs v).sr = s.sr.extractLsb' 6 10 ++ v := rfl
@[simp] theorem setCs_fr (s : State) (v : BitVec 6) : (s.setCs v).fr = s.fr := rfl
@[simp] theorem setCs_bnk (s : State) (v : BitVec 6) : (s.setCs v).bnk = s.bnk := rfl
@[simp] theorem setCs_mem (s : State) (v : BitVec 6) : (s.setCs v).mem = s.mem := rfl
@[simp] theorem setCs_plat (s : State) (v : BitVec 6) : (s.setCs v).plat = s.plat := rfl

/-! #### The location counter -/

theorem lpc_cs_pc (s : State) : s.lpc = s.cs ++ s.pc := rfl

@[simp] theorem setLpc_pc (s : State) (a : Addr) : (s.setLpc a).pc = a.extractLsb' 0 16 := rfl
@[simp] theorem setLpc_sr (s : State) (a : Addr) :
    (s.setLpc a).sr = s.sr.extractLsb' 6 10 ++ a.extractLsb' 16 6 := rfl
@[simp] theorem setLpc_fr (s : State) (a : Addr) : (s.setLpc a).fr = s.fr := rfl
@[simp] theorem setLpc_bnk (s : State) (a : Addr) : (s.setLpc a).bnk = s.bnk := rfl
@[simp] theorem setLpc_mem (s : State) (a : Addr) : (s.setLpc a).mem = s.mem := rfl
@[simp] theorem setLpc_plat (s : State) (a : Addr) : (s.setLpc a).plat = s.plat := rfl
@[simp] theorem get_setLpc (s : State) (a : Addr) (p : Phys) :
    (s.setLpc a).get p =
      if p = .pc then a.extractLsb' 0 16
      else if p = .sr then s.sr.extractLsb' 6 10 ++ a.extractLsb' 16 6 else s.get p := by cases p <;> rfl

theorem extractLsb'_append_low {n m : Nat} (a : BitVec n) (b : BitVec m) : (a ++ b).extractLsb' 0 m = b := by
  apply BitVec.eq_of_getLsbD_eq
  intro i hi
  simp [BitVec.getLsbD_append, hi]

theorem extractLsb'_append_high {n m : Nat} (a : BitVec n) (b : BitVec m) : (a ++ b).extractLsb' m n = a := by
  apply BitVec.eq_of_getLsbD_eq
  intro i hi
  simp [BitVec.getLsbD_append, hi]

theorem append_extractLsb' {n m : Nat} (a : BitVec (n + m)) :
    a.extractLsb' m n ++ a.extractLsb' 0 m = a := by
  apply BitVec.eq_of_getLsbD_eq
  intro i hi
  rw [BitVec.getLsbD_append]
  by_cases h : i < m
  · simp [h]
  · have : i - m < n := by omega
    have e : m + (i - m) = i := by omega
    simp [h, this, e]

/-- LPC holds what is written to it. -/
@[simp] theorem lpc_setLpc (s : State) (a : Addr) : (s.setLpc a).lpc = a := by
  simp only [lpc, cs, mkAddr, setLpc_sr, setLpc_pc]
  rw [extractLsb'_append_low]
  exact append_extractLsb' (n := 6) (m := 16) a

/-- A second write to LPC replaces the first. -/
@[simp] theorem setLpc_setLpc (s : State) (a b : Addr) : (s.setLpc a).setLpc b = s.setLpc b := by
  unfold setLpc setCs
  simp only [State.mk.injEq, and_true, true_and]
  rw [extractLsb'_append_high]

/-! #### Counters and samples -/

@[simp] theorem countDraw_draws (s : State) : s.countDraw.draws = s.draws + 1 := rfl
@[simp] theorem countDraw_fr (s : State) : s.countDraw.fr = s.fr := rfl
@[simp] theorem countDraw_bnk (s : State) : s.countDraw.bnk = s.bnk := rfl
@[simp] theorem countDraw_mem (s : State) : s.countDraw.mem = s.mem := rfl
@[simp] theorem countDraw_plat (s : State) : s.countDraw.plat = s.plat := rfl
@[simp] theorem get_countDraw (s : State) (p : Phys) : s.countDraw.get p = s.get p := by cases p <;> rfl
@[simp] theorem drawSr_fr (s : State) (m : Word) : (s.drawSr m).fr = s.fr := rfl
@[simp] theorem drawSr_bnk (s : State) (m : Word) : (s.drawSr m).bnk = s.bnk := rfl
@[simp] theorem drawSr_mem (s : State) (m : Word) : (s.drawSr m).mem = s.mem := rfl
@[simp] theorem drawSr_plat (s : State) (m : Word) : (s.drawSr m).plat = s.plat := rfl
@[simp] theorem drawSr_sr (s : State) (m : Word) : (s.drawSr m).sr = mergeBits m s.drawn s.sr := rfl
@[simp] theorem get_drawSr (s : State) (m : Word) (p : Phys) :
    (s.drawSr m).get p = if p = .sr then mergeBits m s.drawn s.sr else s.get p := by cases p <;> rfl
@[simp] theorem get_nextSample (s : State) (p : Phys) : s.nextSample.get p = s.get p := by cases p <;> rfl
@[simp] theorem nextSample_fr (s : State) : s.nextSample.fr = s.fr := rfl
@[simp] theorem nextSample_mem (s : State) : s.nextSample.mem = s.mem := rfl
@[simp] theorem nextSample_plat (s : State) : s.nextSample.plat = s.plat := rfl
@[simp] theorem nextSample_lpc (s : State) : s.nextSample.lpc = s.lpc := rfl
@[simp] theorem addCycles_fr (s : State) (n : Nat) : (s.addCycles n).fr = s.fr := rfl
@[simp] theorem addCycles_mem (s : State) (n : Nat) : (s.addCycles n).mem = s.mem := rfl
@[simp] theorem addCycles_plat (s : State) (n : Nat) : (s.addCycles n).plat = s.plat := rfl
@[simp] theorem get_addCycles (s : State) (n : Nat) (p : Phys) : (s.addCycles n).get p = s.get p := by
  cases p <;> rfl

end State

end Sys2Proof.Machine
end

