-- ==== Sys2Proof/Laws/Alu.lean ====
section
/-! SUPPORT. The ALU: its results and flags are those of the spec's integers, and what the end of an ALU
instruction does. -/

namespace Sys2Proof.Machine

@[simp] theorem getLsbD_flagBit (b : Bool) (m : Word) (i : Nat) :
    (flagBit b m).getLsbD i = (b && m.getLsbD i) := by
  cases b <;> simp [flagBit]

/-! ### Results -/

theorem aluResult_eq (op : AluOp) (a b : Word) (c : Bool) : aluResult op a b c = opResult op a b c := by
  cases op <;> simp only [aluResult, opResult, adderSum, adderB, adderCin]
  all_goals
    apply BitVec.eq_of_toNat_eq
    have ha := a.isLt
    have hb := b.isLt
    cases c <;>
      simp [BitVec.toNat_add, BitVec.toNat_sub, BitVec.toNat_not, BitVec.toNat_setWidth, carryWord] <;> omega

theorem adderSum_toNat (a bb : Word) (c : Bool) :
    (adderSum a bb c).toNat = a.toNat + bb.toNat + carryNat c := by
  have ha := a.isLt
  have hb := bb.isLt
  cases c <;> simp [adderSum, BitVec.toNat_add, BitVec.toNat_setWidth, carryNat] <;> omega

theorem adderSum_msb (a bb : Word) (c : Bool) :
    (adderSum a bb c).msb = decide (65536 ≤ a.toNat + bb.toNat + carryNat c) := by
  rw [BitVec.msb_eq_decide, adderSum_toNat]

theorem word_msb (a : Word) : a.msb = decide (32768 ≤ a.toNat) := BitVec.msb_eq_decide a

theorem word_toInt (a : Word) : a.toInt = if a.toNat < 32768 then (a.toNat : Int) else a.toNat - 65536 := by
  rw [BitVec.toInt_eq_toNat_cond]
  have := a.isLt
  split <;> split <;> omega

theorem sign_of_sum (a bb : Word) (c : Bool) :
    (a.msb ^^ bb.msb ^^ (adderSum a bb c).msb) = decide (a.toInt + bb.toInt + carryNat c < 0) := by
  rw [adderSum_msb, word_msb, word_msb, word_toInt, word_toInt]
  have ha := a.isLt
  have hb := bb.isLt
  have hc : carryNat c ≤ 1 := by cases c <;> simp [carryNat]
  by_cases h1 : 32768 ≤ a.toNat <;> by_cases h2 : 32768 ≤ bb.toNat <;>
    by_cases h3 : 65536 ≤ a.toNat + bb.toNat + carryNat c <;> simp [h1, h2, h3] <;> (repeat' split) <;> omega

theorem not_toInt (b : Word) : (~~~b).toInt = -b.toInt - 1 := by
  rw [word_toInt, word_toInt, BitVec.toNat_not]
  have := b.isLt
  repeat' split
  all_goals omega

/-- C of the adder is the spec's carry. -/
theorem adder_carry (op : AluOp) (a b : Word) (c : Bool) (h : isAdder op = true) :
    (adderSum a (adderB op b) (adderCin op c)).msb = carryAfter op a b c := by
  have ha := a.isLt
  have hb := b.isLt
  rw [adderSum_msb]
  cases op <;> first | exact absurd h (by decide) | skip
  all_goals simp only [adderB, adderCin, carryAfter, BitVec.toNat_not, carryNat, decide_eq_decide]
  all_goals (repeat' split)
  all_goals (try simp_all)
  all_goals omega

/-- S of the adder is the sign of the exact signed result. -/
theorem adder_sign (op : AluOp) (a b : Word) (c : Bool) (h : isAdder op = true) :
    (a.msb ^^ (adderB op b).msb ^^ (adderSum a (adderB op b) (adderCin op c)).msb) =
      decide (exactSigned op a b c < 0) := by
  rw [sign_of_sum, decide_eq_decide]
  cases op <;> first | exact absurd h (by decide) | skip
  all_goals simp only [adderB, adderCin, exactSigned, not_toInt, carryNat]
  all_goals (repeat' split)
  all_goals (try simp_all)
  all_goals omega

/-! ### Flags -/

theorem flagN_writeSr (s : State) (m v : Word) :
    (s.writeSr m v).flagN = if m.getLsbD 9 then v.getLsbD 9 else s.flagN := by
  simp only [State.flagN, State.writeSr_sr, getLsbD_mergeBits]
theorem flagZ_writeSr (s : State) (m v : Word) :
    (s.writeSr m v).flagZ = if m.getLsbD 8 then v.getLsbD 8 else s.flagZ := by
  simp only [State.flagZ, State.writeSr_sr, getLsbD_mergeBits]
theorem flagS_writeSr (s : State) (m v : Word) :
    (s.writeSr m v).flagS = if m.getLsbD 7 then v.getLsbD 7 else s.flagS := by
  simp only [State.flagS, State.writeSr_sr, getLsbD_mergeBits]
theorem flagC_writeSr (s : State) (m v : Word) :
    (s.writeSr m v).flagC = if m.getLsbD 6 then v.getLsbD 6 else s.flagC := by
  simp only [State.flagC, State.writeSr_sr, getLsbD_mergeBits]

/-- A write of SR that touches no DS bit keeps DS. -/
theorem ds_writeSr (s : State) (m v : Word) (h : m.extractLsb' 10 6 = 0#6) : (s.writeSr m v).ds = s.ds := by
  apply BitVec.eq_of_getLsbD_eq
  intro i hi
  have hm : m.getLsbD (10 + i) = false := by
    have := congrArg (fun x : BitVec 6 => x.getLsbD i) h
    simpa [hi] using this
  simp only [State.ds, State.writeSr_sr, BitVec.getLsbD_extractLsb', getLsbD_mergeBits, hm, Bool.false_eq_true,
    if_false]

/-- A write of SR that touches no CS bit keeps CS. -/
theorem cs_writeSr (s : State) (m v : Word) (h : m.extractLsb' 0 6 = 0#6) : (s.writeSr m v).cs = s.cs := by
  apply BitVec.eq_of_getLsbD_eq
  intro i hi
  have hm : m.getLsbD (0 + i) = false := by
    have := congrArg (fun x : BitVec 6 => x.getLsbD i) h
    simpa [hi] using this
  simp only [State.cs, State.writeSr_sr, BitVec.getLsbD_extractLsb', getLsbD_mergeBits, hm, Bool.false_eq_true,
    if_false]

theorem aluMask_segments (op : AluOp) :
    (aluMask op).extractLsb' 10 6 = 0#6 ∧ (aluMask op).extractLsb' 0 6 = 0#6 := by cases op <;> decide

theorem aluFlagBits_n (op : AluOp) (a b : Word) (c : Bool) :
    (aluFlagBits op a b c).getLsbD 9 = (opResult op a b c).msb := by
  simp only [aluFlagBits, aluResult_eq, BitVec.getLsbD_or, getLsbD_flagBit,
    show maskN.getLsbD 9 = true from rfl, show maskZ.getLsbD 9 = false from rfl,
    show maskS.getLsbD 9 = false from rfl, show maskC.getLsbD 9 = false from rfl, Bool.and_true, Bool.and_false,
    Bool.or_false]

theorem aluFlagBits_z (op : AluOp) (a b : Word) (c : Bool) :
    (aluFlagBits op a b c).getLsbD 8 = decide (opResult op a b c = 0#16) := by
  simp only [aluFlagBits, aluResult_eq, BitVec.getLsbD_or, getLsbD_flagBit,
    show maskN.getLsbD 8 = false from rfl, show maskZ.getLsbD 8 = true from rfl,
    show maskS.getLsbD 8 = false from rfl, show maskC.getLsbD 8 = false from rfl, Bool.and_true, Bool.and_false,
    Bool.or_false, Bool.false_or, beq_eq_decide]

theorem aluFlagBits_s (op : AluOp) (a b : Word) (c : Bool) (h : isAdder op = true) :
    (aluFlagBits op a b c).getLsbD 7 = decide (exactSigned op a b c < 0) := by
  simp only [aluFlagBits, BitVec.getLsbD_or, getLsbD_flagBit, adder_sign op a b c h,
    show maskN.getLsbD 7 = false from rfl, show maskZ.getLsbD 7 = false from rfl,
    show maskS.getLsbD 7 = true from rfl, show maskC.getLsbD 7 = false from rfl, Bool.and_true, Bool.and_false,
    Bool.or_false, Bool.false_or]

theorem aluFlagBits_c (op : AluOp) (a b : Word) (c : Bool) (h : isAdder op = true) :
    (aluFlagBits op a b c).getLsbD 6 = carryAfter op a b c := by
  simp only [aluFlagBits, BitVec.getLsbD_or, getLsbD_flagBit, adder_carry op a b c h,
    show maskN.getLsbD 6 = false from rfl, show maskZ.getLsbD 6 = false from rfl,
    show maskS.getLsbD 6 = false from rfl, show maskC.getLsbD 6 = true from rfl, Bool.and_true, Bool.and_false,
    Bool.or_false, Bool.false_or]

/-- The flags after the flag write of an operation. -/
theorem setAluFlags_flags (op : AluOp) (a b : Word) (s : State) : FlagsAfter op a b s (s.setAluFlags op a b) := by
  simp only [FlagsAfter, KeepsFlags, State.setAluFlags, flagN_writeSr, flagZ_writeSr, flagS_writeSr, flagC_writeSr,
    aluFlagBits_n, aluFlagBits_z]
  cases op
  case store => exact ⟨rfl, rfl, rfl, rfl⟩
  case neg | xor | load | or | and | test => exact ⟨rfl, rfl, rfl, rfl⟩
  all_goals exact ⟨rfl, rfl, aluFlagBits_s _ a b s.flagC rfl, aluFlagBits_c _ a b s.flagC rfl⟩

theorem setAluFlags_segments (op : AluOp) (a b : Word) (s : State) : KeepsSegments s (s.setAluFlags op a b) :=
  ⟨ds_writeSr s _ _ (aluMask_segments op).1, cs_writeSr s _ _ (aluMask_segments op).2⟩

/-! ### The end of an ALU instruction -/

theorem keepsRegs_writeSr (s : State) (m v : Word) (also : List Reg) :
    KeepsRegs (.sr :: also) s (s.writeSr m v) := by
  intro p hp
  rw [State.get_writeSr, if_neg]
  intro e
  exact hp (by simp [e, physOf])

theorem writesResult_iff (op : AluOp) (h : op ≠ .store) : writesResult op = true ↔ ¬(op = .cmp ∨ op = .test) := by
  cases op <;> simp [writesResult] at *

theorem aluMask_listed (op : AluOp) (i : Nat) (h : i ∉ listedFlags op) : (aluMask op).getLsbD i = false := by
  rcases Nat.lt_or_ge i 16 with hi | hi
  · revert h
    have : ∀ op : AluOp, ∀ i : Fin 16, i.val ∉ listedFlags op → (aluMask op).getLsbD i.val = false := by
      intro op
      cases op <;> decide
    exact this op ⟨i, hi⟩
  · exact BitVec.getLsbD_of_ge _ _ hi

theorem sameMem_of_eq {s t : State} (h : t.mem = s.mem) : SameMem s t := fun a => by simp [byteAt, h]

theorem sameRest_setX (s : State) (r : Reg) (v : Word) : SameRest s (s.setX r v) :=
  ⟨⟨by simp, by simp, by simp⟩, by simp, by simp, by simp, by simp⟩

/-- The end of an ALU instruction touches nothing but registers and the draw counter. -/
theorem aluFinish_only (op : AluOp) (rd : Reg) (a b : Word) (s : State) :
    OnlyRegisters s (aluFinish op rd a b s) := by
  unfold aluFinish writeBack
  split
  · split
    · exact ⟨rfl, sameMem_of_eq rfl, ⟨rfl, rfl, rfl⟩, rfl, rfl, rfl, rfl⟩
    · refine ⟨by simp, sameMem_of_eq (by simp), ⟨?_, ?_, ?_⟩, ?_, ?_, ?_, ?_⟩ <;> simp
  · exact ⟨rfl, sameMem_of_eq rfl, ⟨rfl, rfl, rfl⟩, rfl, rfl, rfl, rfl⟩

/-- What the end of an ALU instruction does to the registers. -/
theorem aluFinish_done (op : AluOp) (rd : Reg) (a b : Word) (s : State) (h : op ≠ .store) :
    AluDone op rd a b [] s.ds s (aluFinish op rd a b s) := by
  have hf := setAluFlags_flags op a b s
  have hs := setAluFlags_segments op a b s
  unfold AluDone aluFinish
  by_cases hw : op = .cmp ∨ op = .test
  · have : writesResult op = false := by rcases hw with rfl | rfl <;> rfl
    simp only [this, Bool.false_eq_true, if_false, hw, if_true]
    exact ⟨hf, hs.1, hs.2, keepsRegs_writeSr s _ _ []⟩
  · simp only [hw, if_false, (writesResult_iff op h).2 hw, if_true, writeBack, aluResult_eq]
    by_cases hr : rd = .sr
    · subst hr
      simp only [if_true]
      refine ⟨?_, ?_⟩
      · intro i hi
        simp only [State.drawSr_sr, getLsbD_mergeBits, aluMask_listed op i hi]
        rfl
      · intro p hp
        have : p ≠ .sr := fun e => hp (by simp [e, physOf])
        simp [this, State.get_setX, physOf]
    · simp only [hr, if_false]
      have hx : ∀ q, q ≠ rd → ((s.setAluFlags op a b).setX rd (opResult op a b s.flagC)).x q
          = (s.setAluFlags op a b).x q := fun q hq => by rw [State.x_setX, if_neg hq]
      have hsr : ((s.setAluFlags op a b).setX rd (opResult op a b s.flagC)).sr = (s.setAluFlags op a b).sr :=
        hx .sr (Ne.symm hr)
      refine ⟨by simp, ?_, ?_, ?_, ?_⟩
      · revert hf
        simp only [FlagsAfter, KeepsFlags, State.flagN, State.flagZ, State.flagS, State.flagC]
        rw [← hsr]
        exact id
      · rw [← hs.1]
        simp only [State.ds]
        rw [← hsr]
        rfl
      · rw [← hs.2]
        simp only [State.cs]
        rw [← hsr]
        rfl
      · intro p hp
        have h1 : p ≠ physOf s.bnk rd := fun e => hp (by simp [e])
        have h2 : p ≠ .sr := fun e => hp (by simp [e, physOf])
        have hb : (s.writeSr (aluMask op) (aluFlagBits op a b s.flagC)).bnk = s.bnk := rfl
        rw [State.get_setX, hb, if_neg h1, State.get_writeSr, if_neg h2]

end Sys2Proof.Machine
end

