-- ==== Sys2Proof/Laws/Decode.lean ====
section
/-! SUPPORT. Each field of an instruction's word reads back what the encoder puts there. -/

namespace Sys2Proof

@[simp] theorem Reg.ofBits_bits (r : Reg) : Reg.ofBits r.bits = r := by cases r <;> rfl
@[simp] theorem AluOp.ofBits_bits (op : AluOp) : AluOp.ofBits op.bits = some op := by cases op <;> rfl
@[simp] theorem Cond.ofBits_bits (c : Cond) : Cond.ofBits c.bits = some c := by cases c <;> rfl
@[simp] theorem ShiftKind.ofBits_bits (k : ShiftKind) : ShiftKind.ofBits k.bits = some k := by cases k <;> rfl
@[simp] theorem LongShift.ofBits_bits (k : LongShift) : LongShift.ofBits k.bits = k := by cases k <;> rfl
@[simp] theorem BitOp.ofBits_bits (b : BitOp) : BitOp.ofBits b.bits = b := by cases b <;> rfl
@[simp] theorem PtrMark.ofBits_bits (m : PtrMark) : PtrMark.ofBits m.bits = m := by cases m <;> rfl
@[simp] theorem ModeOp.ofBits_bits (m : ModeOp) : ModeOp.ofBits m.bits = m := by cases m <;> rfl

theorem Reg.bits_inj {q r : Reg} : q.bits = r.bits ↔ q = r := by
  constructor
  · intro h
    rw [← Reg.ofBits_bits q, h, Reg.ofBits_bits]
  · exact congrArg _

/-- What the decoder answers, from the form it reads and the operand check. -/
theorem decode_ok_iff (w0 w1 : Word) (i : Instr) :
    decode w0 w1 = .ok i ↔ ∃ sh, decodeShape w0 w1 = .ok sh ∧ sh.toInstr = some i ∧ i.check = none := by
  unfold decode
  split
  · simp_all
  · rename_i sh h
    simp only [h, Except.ok.injEq, exists_eq_left']
    split
    · simp_all
    · rename_i j hj
      simp only [hj, Option.some.injEq]
      split
      · rename_i e he
        simp only [reduceCtorEq, false_iff, not_and]
        rintro rfl
        simp [he]
      · rename_i he
        simp only [Except.ok.injEq]
        constructor
        · rintro rfl
          exact ⟨rfl, he⟩
        · exact fun h => h.1

/-- A form that spells an instruction whose operands pass the check decodes to it. -/
theorem decode_of_shape {w0 w1 : Word} {sh : Shape} {i : Instr} (h : decodeShape w0 w1 = .ok sh)
    (hi : sh.toInstr = some i) (hc : i.check = none) : decode w0 w1 = .ok i :=
  (decode_ok_iff w0 w1 i).2 ⟨sh, h, hi, hc⟩

end Sys2Proof
end

