-- ==== Sys2Proof/Laws/Exec.lean ====
section
/-! SUPPORT. The meanings by operand form: every instruction of one form has the same meaning up to its
operation, so that a proof about all 225 instructions has one case for each form. -/

namespace Sys2Proof.Machine

/-- The bits of FR a mode instruction writes, and their values. -/
def modeBits : ModeOp → Word × Word
  | .intOff => (0x0060#16, 0x0000#16)
  | .intIrq => (0x0060#16, 0x0020#16)
  | .intFiq => (0x0060#16, 0x0040#16)
  | .intFiqIrq => (0x0060#16, 0x0060#16)
  | .firMovOn => (0x0800#16, 0x0000#16)
  | .firMovOff => (0x0800#16, 0x0800#16)
  | .fractionOff => (0x1000#16, 0x0000#16)
  | .fractionOn => (0x1000#16, 0x1000#16)
  | .irqOff => (0x0020#16, 0x0000#16)
  | .irqOn => (0x0020#16, 0x0020#16)
  | .secbankOff => (0x2000#16, 0x0000#16)
  | .secbankOn => (0x2000#16, 0x2000#16)
  | .fiqOff => (0x0040#16, 0x0000#16)
  | .irqnestOff => (0x0010#16, 0x0000#16)
  | .fiqOn => (0x0040#16, 0x0040#16)
  | .irqnestOn => (0x0010#16, 0x0010#16)

/-- The meaning of a form. -/
def execShape (sh : Shape) (s : State) : Res State :=
  match sh with
  | .branch c back imm => branch c back imm s
  | .retf => returnFar s
  | .reti => returnInterrupt s
  | .bpIm6 op rd imm => if op = .store then storeBpIm6 rd imm s else aluBpIm6 op rd imm s
  | .im6 op rd imm => aluIm6 op rd imm s
  | .ind op rd d mark rs => if op = .store then storeInd rd d mark rs s else aluInd op rd d mark rs s
  | .reg op rd rs => aluReg op rd rs s
  | .im16 op rd rs imm => aluIm16 op rd rs imm s
  | .a16 op rd rs addr => aluA16 op rd rs addr s
  | .a16w op rd rs addr =>
    if op = .store then storeA16w rd addr s
    else aluA16w op rd (if op = .neg then s.x rd else s.x rs) addr s
  | .shifted op k rd n rs => aluShifted op k rd n rs s
  | .a6 op rd addr => if op = .store then storeA6 rd addr s else aluA6 op rd addr s
  | .push rd n rs => pushList rd n rs s
  | .pop rd n rs => popList rd n rs s
  | .bitRr b rd rs => bitReg b rd (bitNumber (s.x rs)) s
  | .bitRo b rd k => bitReg b rd k s
  | .bitMr b d rd rs => bitMem b d rd (bitNumber (s.x rs)) s
  | .bitMo b d rd k => bitMem b d rd k s
  | .shift16 k rd rs =>
    match k with
    | .asr | .lsl | .lsr => shiftPlain k rd rs s
    | .asror | .lslor | .lsror => shiftOr k rd rs s
    | .rol | .ror => shiftRotate k rd rs s
  | .mul k rd rs => multiply k rd rs s
  | .muls k rd n rs => innerProduct k rd n rs s
  | .dsIm6 imm => .next (s.setDs imm)
  | .movRsDs rs => .next (s.setX rs (s.ds.setWidth 16))
  | .movDsRs rs => .next (s.setDs ((s.x rs).setWidth 6))
  | .movRsFr rs => .next (s.setX rs s.frWord)
  | .movFrRs rs => .next (s.setFr (s.x rs))
  | .call addr => callTo addr s
  | .goto addr => .next (s.setLpc addr)
  | .gotoMr => .next (s.setLpc (mrTarget s))
  | .mode m => writeMode (modeBits m).1 (modeBits m).2 s
  | .brk => enterInterrupt .brk s
  | .callMr => callTo (mrTarget s) s
  | .divs => divSign s
  | .divq => divQuotient s
  | .exp => effectiveExponent s
  | .nop => .next s

/-- `exec` is the meaning of the instruction's form. -/
theorem exec_shape (i : Instr) (s : State) : exec i s = execShape i.shape s := by
  cases i <;> rfl

end Sys2Proof.Machine
end

