-- ==== Sys2Proof/Laws/Memory.lean ====
section
/-! SUPPORT. Memory: a read after a write, and the canonical form. -/

namespace Sys2Proof.Machine.Memory

theorem get_erase (m : List Host.Cell) (a b : Nat) :
    get (erase m a) b = if b = a then unlisted else get m b := by
  induction m with
  | nil => simp [erase, get]
  | cons c m ih =>
    simp only [erase] at ih
    by_cases h : c.1 = a
    · by_cases hb : b = a
      · simp_all [erase]
      · have : c.1 ≠ b := fun e => hb (by rw [← e, h])
        simp_all [erase, get]
    · by_cases hb : c.1 = b
      · have : b ≠ a := fun e => h (by rw [hb, e])
        simp_all [erase, get]
      · by_cases hba : b = a
        · simp_all [erase, get]
        · simp_all [erase, get]

theorem get_insert_self (m : List Host.Cell) (a : Nat) (v : Byte) (h : ∀ c ∈ m, c.1 ≠ a) :
    get (insert a v m) a = v := by
  induction m with
  | nil => simp [insert, get]
  | cons c m ih =>
    have hc : c.1 ≠ a := h c (by simp)
    by_cases hlt : a < c.1
    · simp [insert, hlt, get]
    · simp [insert, hlt, get, hc, ih fun d hd => h d (by simp [hd])]

theorem get_insert_ne (m : List Host.Cell) (a b : Nat) (v : Byte) (h : b ≠ a) :
    get (insert a v m) b = get m b := by
  induction m with
  | nil => simp [insert, get, h.symm]
  | cons c m ih =>
    by_cases hlt : a < c.1
    · simp [insert, hlt, get, h.symm]
    · simp [insert, hlt, get, ih]

/-- What one byte reads as after a byte is stored. -/
theorem get_set (m : List Host.Cell) (a b : Nat) (v : Byte) :
    get (set m a v) b = if b = a then v else get m b := by
  unfold set
  split
  · rename_i hv
    simp [get_erase, hv]
  · by_cases h : b = a
    · subst h
      simp only [if_true]
      apply get_insert_self
      intro c hc e
      simp [erase, e] at hc
    · simp [get_insert_ne _ _ _ _ h, get_erase, h]

theorem byte_addr_inj (a b : Addr) : lowAddr a = lowAddr b ↔ a = b := by
  simp only [lowAddr]
  constructor
  · intro h
    exact BitVec.eq_of_toNat_eq (by omega)
  · rintro rfl
    rfl

theorem lowByte_highByte (v : Word) : (highByte v ++ lowByte v : Word) = v := by
  apply BitVec.eq_of_getLsbD_eq
  intro i hi
  simp only [highByte, lowByte, BitVec.getLsbD_append, BitVec.getLsbD_extractLsb']
  by_cases h : i < 8
  · simp [h]
  · have : i - 8 < 8 := by omega
    have e : 8 + (i - 8) = i := by omega
    simp [h, this, e]

/-- What one byte reads as after a word is stored. -/
theorem get_setWord (m : List Host.Cell) (a : Addr) (v : Word) (b : Nat) :
    get (setWord m a v) b =
      if b = highAddr a then highByte v else if b = lowAddr a then lowByte v else get m b := by
  simp [setWord, get_set]

/-- A word reads back as it was stored. -/
@[simp] theorem getWord_setWord_self (m : List Host.Cell) (a : Addr) (v : Word) :
    getWord (setWord m a v) a = v := by
  have h : lowAddr a ≠ highAddr a := by simp only [lowAddr, highAddr]; omega
  simp [getWord, get_setWord, h, lowByte_highByte]

/-- Storing a word leaves every other word alone. -/
theorem getWord_setWord_ne (m : List Host.Cell) (a b : Addr) (v : Word) (h : b ≠ a) :
    getWord (setWord m a v) b = getWord m b := by
  have hn : b.toNat ≠ a.toNat := fun e => h (BitVec.eq_of_toNat_eq e)
  have h1 : highAddr b ≠ highAddr a := by simp only [highAddr]; omega
  have h2 : highAddr b ≠ lowAddr a := by simp only [highAddr, lowAddr]; omega
  have h3 : lowAddr b ≠ highAddr a := by simp only [highAddr, lowAddr]; omega
  have h4 : lowAddr b ≠ lowAddr a := by simp only [lowAddr]; omega
  simp [getWord, get_setWord, h1, h2, h3, h4]

/-! ### The canonical form -/

theorem risingFrom_mono {lo lo' : Nat} {m : List Host.Cell} (h : lo' ≤ lo) (hm : risingFrom lo m = true) :
    risingFrom lo' m = true := by
  cases m with
  | nil => rfl
  | cons c m =>
    simp only [risingFrom, Bool.and_eq_true, decide_eq_true_eq] at hm ⊢
    exact ⟨⟨⟨by omega, hm.1.1.2⟩, hm.1.2⟩, hm.2⟩

theorem risingFrom_erase (m : List Host.Cell) (lo a : Nat) (hm : risingFrom lo m = true) :
    risingFrom lo (erase m a) = true := by
  induction m generalizing lo with
  | nil => rfl
  | cons c m ih =>
    simp only [risingFrom, Bool.and_eq_true, decide_eq_true_eq] at hm
    have hrest := ih _ hm.2
    simp only [erase] at hrest
    by_cases h : c.1 = a
    · simp only [erase, List.filter_cons, h, bne_self_eq_false, Bool.false_eq_true, if_false]
      rw [h] at hrest
      exact risingFrom_mono (by omega) hrest
    · simp only [erase, List.filter_cons, bne_iff_ne, ne_eq, h, not_false_eq_true, if_true, risingFrom,
        Bool.and_eq_true, decide_eq_true_eq]
      exact ⟨⟨hm.1.1, by simpa using hm.1.2⟩, hrest⟩

theorem risingFrom_insert (m : List Host.Cell) (lo a : Nat) (v : Byte) (hm : risingFrom lo m = true)
    (hlo : lo ≤ a) (ha : a < 2 ^ 23) (hv : v ≠ unlisted) (hn : ∀ c ∈ m, c.1 ≠ a) :
    risingFrom lo (insert a v m) = true := by
  induction m generalizing lo with
  | nil => simp [insert, risingFrom, hlo, hv]; omega
  | cons c m ih =>
    have hc : c.1 ≠ a := hn c (by simp)
    simp only [risingFrom, Bool.and_eq_true, decide_eq_true_eq] at hm
    by_cases hlt : a < c.1
    · simp only [insert, hlt, if_true, risingFrom, Bool.and_eq_true, decide_eq_true_eq, bne_iff_ne]
      exact ⟨⟨⟨hlo, ha⟩, hv⟩, ⟨⟨⟨by omega, hm.1.1.2⟩, by simpa using hm.1.2⟩, hm.2⟩⟩
    · simp only [insert, hlt, if_false, risingFrom, Bool.and_eq_true, decide_eq_true_eq]
      refine ⟨⟨⟨hm.1.1.1, hm.1.1.2⟩, hm.1.2⟩, ih _ hm.2 (by omega) fun d hd => hn d (by simp [hd])⟩

/-- Storing a byte of the space keeps the canonical form. -/
theorem wf_set (m : List Host.Cell) (a : Nat) (v : Byte) (hm : wf m = true) (ha : a < 2 ^ 23) :
    wf (set m a v) = true := by
  unfold set wf at *
  split
  · exact risingFrom_erase m 0 a hm
  · rename_i hv
    refine risingFrom_insert _ 0 a v (risingFrom_erase m 0 a hm) (Nat.zero_le _) ha hv ?_
    intro c hc e
    simp [erase, e] at hc

/-- Storing a word keeps the canonical form. -/
theorem wf_setWord (m : List Host.Cell) (a : Addr) (v : Word) (hm : wf m = true) :
    wf (setWord m a v) = true := by
  have := a.isLt
  apply wf_set
  · apply wf_set _ _ _ hm
    simp only [lowAddr]
    omega
  · simp only [highAddr]
    omega

end Sys2Proof.Machine.Memory
end

