-- ==== Sys2Proof/Laws/Ops.lean ====
section
/-! SUPPORT. For each shared operation: exactly when it answers a next state, and which. -/

namespace Sys2Proof.Machine

/-! ### Sequencing -/

@[simp] theorem andThen_next_left {α β : Type} (a : α) (k : α → Res β) : andThen (.next a) k = k a := rfl

theorem andThen_next {α β : Type} (r : Res α) (k : α → Res β) (b : β) :
    andThen r k = .next b ↔ ∃ a, r = .next a ∧ k a = .next b := by
  cases r <;> simp [andThen]

theorem andThen_fault {α β : Type} (r : Res α) (k : α → Res β) (f : Fault) :
    andThen r k = .fault f ↔ r = .fault f ∨ ∃ a, r = .next a ∧ k a = .fault f := by
  cases r <;> simp [andThen]

theorem andThen_refused {α β : Type} (r : Res α) (k : α → Res β) (q : Refusal) :
    andThen r k = .refused q ↔ r = .refused q ∨ ∃ a, r = .next a ∧ k a = .refused q := by
  cases r <;> simp [andThen]

theorem guarded_next {α : Type} (c : Option Reserved) (r : Res α) (a : α) :
    guarded c r = .next a ↔ c = none ∧ r = .next a := by
  cases c <;> simp [guarded]

theorem guarded_fault {α : Type} (c : Option Reserved) (r : Res α) (f : Fault) :
    guarded c r = .fault f ↔ c = none ∧ r = .fault f := by
  cases c <;> simp [guarded]

theorem guarded_refused {α : Type} (c : Option Reserved) (r : Res α) (q : Refusal) :
    guarded c r = .refused q ↔ (∃ why, c = some why ∧ q = .reserved why) ∨ (c = none ∧ r = .refused q) := by
  cases c <;> simp [guarded, eq_comm]

/-! ### Memory -/

/-- The state with one word of memory stored. -/
def State.stored (s : State) (a : Addr) (v : Word) : State := { s with mem := Memory.setWord s.mem a v }

namespace State

@[simp] theorem stored_mem (s : State) (a : Addr) (v : Word) :
    (s.stored a v).mem = Memory.setWord s.mem a v := rfl
@[simp] theorem stored_fr (s : State) (a : Addr) (v : Word) : (s.stored a v).fr = s.fr := rfl
@[simp] theorem stored_sr (s : State) (a : Addr) (v : Word) : (s.stored a v).sr = s.sr := rfl
@[simp] theorem stored_pc (s : State) (a : Addr) (v : Word) : (s.stored a v).pc = s.pc := rfl
@[simp] theorem stored_bnk (s : State) (a : Addr) (v : Word) : (s.stored a v).bnk = s.bnk := rfl
@[simp] theorem stored_plat (s : State) (a : Addr) (v : Word) : (s.stored a v).plat = s.plat := rfl
@[simp] theorem stored_draws (s : State) (a : Addr) (v : Word) : (s.stored a v).draws = s.draws := rfl
@[simp] theorem stored_get (s : State) (a : Addr) (v : Word) (p : Phys) : (s.stored a v).get p = s.get p := by
  cases p <;> rfl
@[simp] theorem stored_x (s : State) (a : Addr) (v : Word) (r : Reg) : (s.stored a v).x r = s.x r := by
  simp [x]

end State

theorem kindAt_congr {s t : State} (h : t.plat = s.plat) (a : Addr) : kindAt t a = kindAt s a := by
  simp [kindAt, h]

theorem readable_congr {s t : State} (h : t.plat = s.plat) (a : Addr) : readable t a ↔ readable s a := by
  simp [readable, kindAt_congr h]

theorem writable_congr {s t : State} (h : t.plat = s.plat) (a : Addr) : writable t a ↔ writable s a := by
  simp [writable, kindAt_congr h]

/-- Where the platform lists no region, all of memory can be written. -/
theorem writable_of_no_map {s : State} (h : s.plat.map = []) (a : Addr) : writable s a := by
  simp [writable, kindAt, kindIn, h]

/-- Where the platform lists no region, all of memory can be read. -/
theorem readable_of_no_map {s : State} (h : s.plat.map = []) (a : Addr) : readable s a :=
  .inl (writable_of_no_map h a)

theorem writable.readable {s : State} {a : Addr} (h : writable s a) : readable s a := .inl h

theorem memRead_next (a : Addr) (s : State) (v : Word) :
    memRead a s = .next v ↔ readable s a ∧ v = wordAt s a := by
  unfold memRead readable wordAt
  cases kindAt s a <;> simp [eq_comm]

theorem memRead_ok {s : State} {a : Addr} (h : readable s a) : memRead a s = .next (wordAt s a) :=
  (memRead_next a s _).2 ⟨h, rfl⟩

theorem memWrite_next (a : Addr) (v : Word) (s t : State) :
    memWrite a v s = .next t ↔ writable s a ∧ t = s.stored a v := by
  unfold memWrite writable State.stored
  cases kindAt s a <;> simp [eq_comm]

theorem memWrite_ok {s : State} {a : Addr} (v : Word) (h : writable s a) :
    memWrite a v s = .next (s.stored a v) := (memWrite_next a v s _).2 ⟨h, rfl⟩

/-- A read faults only at a hole or a device. -/
theorem memRead_fault {a : Addr} {s : State} {f : Fault} (h : memRead a s = .fault f) :
    (f = .absentAddress a.toNat ∧ kindAt s a = .absent) ∨ (f = .deviceAccess a.toNat ∧ kindAt s a = .device) := by
  unfold memRead at h
  cases hk : kindAt s a <;> simp_all

/-- A write faults only at a hole, a device or read-only memory. -/
theorem memWrite_fault {a : Addr} {v : Word} {s : State} {f : Fault} (h : memWrite a v s = .fault f) :
    (f = .absentAddress a.toNat ∧ kindAt s a = .absent) ∨ (f = .deviceAccess a.toNat ∧ kindAt s a = .device) ∨
      (f = .romWrite a.toNat ∧ kindAt s a = .rom) := by
  unfold memWrite at h
  cases hk : kindAt s a <;> simp_all

theorem memRead_refused (a : Addr) (s : State) (q : Refusal) : memRead a s ≠ .refused q := by
  unfold memRead
  cases kindAt s a <;> simp

theorem memWrite_refused (a : Addr) (v : Word) (s : State) (q : Refusal) : memWrite a v s ≠ .refused q := by
  unfold memWrite
  cases kindAt s a <;> simp

/-- The word a store wrote, and every other word. -/
theorem wordAt_stored (s : State) (a b : Addr) (v : Word) :
    wordAt (s.stored a v) b = if b = a then v else wordAt s b := by
  by_cases h : b = a
  · subst h
    simp [wordAt, Memory.getWord_setWord_self]
  · simp [wordAt, h, Memory.getWord_setWord_ne s.mem a b v h]

/-- A store leaves every byte outside its word alone. -/
theorem sameMemBut_stored (s : State) (a : Addr) (v : Word) : SameMemBut [a] s (s.stored a v) := by
  intro b hb
  have := hb a (by simp)
  simp [byteAt, Memory.get_setWord, this.1, this.2]

theorem bank0_inj {a b : Word} : bank0 a = bank0 b ↔ a = b := by
  constructor
  · intro h
    have := congrArg (fun x : Addr => x.extractLsb' 0 16) h
    simpa only [bank0, mkAddr, State.extractLsb'_append_low] using this
  · exact congrArg _

/-! ### The stack -/

theorem pushAt_next (ptr : Reg) (v : Word) (s t : State) :
    pushAt ptr v s = .next t ↔ writable s (bank0 (s.x ptr)) ∧
      t = (s.stored (bank0 (s.x ptr)) v).setX ptr (s.x ptr - 1#16) := by
  simp only [pushAt, andThen_next, memWrite_next]
  constructor
  · rintro ⟨u, ⟨hw, rfl⟩, h⟩
    exact ⟨hw, (Host.Outcome.next.inj h).symm⟩
  · rintro ⟨hw, rfl⟩
    exact ⟨_, ⟨hw, rfl⟩, rfl⟩

theorem popAt_next (ptr : Reg) (s t : State) (v : Word) :
    popAt ptr s = .next (v, t) ↔ readable s (bank0 (s.x ptr + 1#16)) ∧ v = wordAt s (bank0 (s.x ptr + 1#16)) ∧
      t = s.setX ptr (s.x ptr + 1#16) := by
  have hr := readable_congr (s := s) (t := s.setX ptr (s.x ptr + 1#16)) (by simp)
  have hw : ∀ a, wordAt (s.setX ptr (s.x ptr + 1#16)) a = wordAt s a := fun a => by simp [wordAt]
  simp only [popAt, andThen_next, memRead_next, State.x_setX, if_true, hr, hw]
  constructor
  · rintro ⟨u, ⟨h1, rfl⟩, h⟩
    simp only [Host.Outcome.next.injEq, Prod.mk.injEq] at h
    exact ⟨h1, h.1.symm, h.2.symm⟩
  · rintro ⟨h1, rfl, rfl⟩
    exact ⟨_, ⟨h1, rfl⟩, rfl⟩

/-- The state after the return frame is pushed. -/
def State.framed (s : State) : State :=
  ((((s.stored (bank0 s.sp) s.pc).setX .sp (s.sp - 1#16)).stored (bank0 (s.sp - 1#16)) s.sr).setX .sp
    (s.sp - 1#16 - 1#16))

theorem x_sp (s : State) : s.x .sp = s.sp := by simp [State.x, physOf, State.get]
theorem x_bp (s : State) : s.x .bp = s.bp := by simp [State.x, physOf, State.get]
theorem x_sr (s : State) : s.x .sr = s.sr := by simp [State.x, physOf, State.get]
theorem x_pc (s : State) : s.x .pc = s.pc := by simp [State.x, physOf, State.get]
theorem setX_sr (s : State) (v : Word) : s.setX .sr v = { s with sr := v } := rfl
theorem setX_sp (s : State) (v : Word) : s.setX .sp v = { s with sp := v } := rfl
theorem setX_pc (s : State) (v : Word) : s.setX .pc v = { s with pc := v } := rfl

theorem pushFrame_next (s t : State) :
    pushFrame s = .next t ↔ writable s (bank0 s.sp) ∧ writable s (bank0 (s.sp - 1#16)) ∧ t = s.framed := by
  simp only [pushFrame, push, andThen_next, pushAt_next, x_sp]
  constructor
  · rintro ⟨u, ⟨h1, rfl⟩, h2, rfl⟩
    exact ⟨h1, (writable_congr (by simp) _).1 h2, rfl⟩
  · rintro ⟨h1, h2, rfl⟩
    exact ⟨_, ⟨h1, rfl⟩, (writable_congr (by simp) _).2 h2, rfl⟩

/-- The state after the return frame is popped. -/
def State.unframed (s : State) : State :=
  { s with
    sp := s.sp + 1#16 + 1#16
    sr := wordAt s (bank0 (s.sp + 1#16))
    pc := wordAt s (bank0 (s.sp + 1#16 + 1#16)) }

theorem popFrame_next (s t : State) :
    popFrame s = .next t ↔ readable s (bank0 (s.sp + 1#16)) ∧ readable s (bank0 (s.sp + 1#16 + 1#16)) ∧
      t = s.unframed := by
  simp only [popFrame, pop, andThen_next, Prod.exists, popAt_next, x_sp, setX_sp]
  constructor
  · rintro ⟨v, u, ⟨h1, rfl, rfl⟩, w, x, ⟨h2, rfl, rfl⟩, h⟩
    exact ⟨h1, (readable_congr (by rfl) _).1 h2, (Host.Outcome.next.inj h).symm⟩
  · rintro ⟨h1, h2, rfl⟩
    exact ⟨_, _, ⟨h1, rfl, rfl⟩, _, _, ⟨(readable_congr (by rfl) _).2 h2, rfl, rfl⟩, rfl⟩

/-! ### Interrupt entry and return -/

theorem pushNestFr_next (src : IntSource) (s t : State) :
    pushNestFr src s = .next t ↔
      (src.nests s = false ∧ t = s) ∨
      (∃ n, src = .irq n ∧ s.ine = true ∧ writable s (bank0 s.sp) ∧
        t = ((s.stored (bank0 s.sp) s.frWord).setX .sp (s.sp - 1#16)).setPri (BitVec.ofNat 4 n.val)) := by
  cases src with
  | brk => simpa [pushNestFr, IntSource.nests] using eq_comm
  | fiq => simpa [pushNestFr, IntSource.nests] using eq_comm
  | irq n =>
    simp only [pushNestFr, IntSource.nests]
    by_cases h : s.ine = true
    · simp only [h, if_true, push, andThen_next, pushAt_next, x_sp, IntSource.irq.injEq, Bool.true_eq_false,
        false_and, true_and, false_or]
      constructor
      · rintro ⟨u, ⟨h1, rfl⟩, h2⟩
        exact ⟨n, rfl, h1, (Host.Outcome.next.inj h2).symm⟩
      · rintro ⟨m, rfl, h1, rfl⟩
        exact ⟨_, ⟨h1, rfl⟩, rfl⟩
    · simp [h, eq_comm]

/-- Everything an interrupt entry can do, when it completes: the pushes, the mark, and PC, CS and the rest of SR
at the end. -/
theorem enterInterrupt_next (src : IntSource) (s t : State) :
    enterInterrupt src s = .next t ↔
      ∃ u, pushFrame s = .next u ∧ ∃ v, pushNestFr src u = .next v ∧
        readable (v.beginService src) (vectorOf src (v.beginService src)) ∧
        t = (({ v.beginService src with
          pc := wordAt (v.beginService src) (vectorOf src (v.beginService src)) }).setCs 0#6).drawSr maskNotCs := by
  simp only [enterInterrupt, andThen_next, memRead_next]
  constructor
  · rintro ⟨u, hu, v, hv, w, ⟨hr, rfl⟩, h⟩
    exact ⟨u, hu, v, hv, hr, (Host.Outcome.next.inj h).symm⟩
  · rintro ⟨u, hu, v, hv, hr, rfl⟩
    exact ⟨u, hu, v, hv, _, ⟨hr, rfl⟩, rfl⟩

/-- Everything RETI can do when it completes. -/
theorem returnInterrupt_next (s t : State) :
    returnInterrupt s = .next t ↔
      (popsFr s = true ∧ readable s (bank0 (s.sp + 1#16)) ∧
        ∃ u, popFrame ((s.setX .sp (s.sp + 1#16)).setFr (wordAt s (bank0 (s.sp + 1#16)))) = .next u ∧
          t = u.endService (serviceLevel s)) ∨
      (popsFr s = false ∧ ∃ u, popFrame s = .next u ∧ t = u.endService (serviceLevel s)) := by
  unfold returnInterrupt
  by_cases h : popsFr s = true
  · simp only [h, if_true, pop, andThen_next, Prod.exists, popAt_next, x_sp, true_and, Bool.true_eq_false, false_and,
      or_false]
    constructor
    · rintro ⟨u, ⟨v, w, ⟨h1, rfl, rfl⟩, h2⟩, y, h3, h4⟩
      simp only [Host.Outcome.next.injEq] at h2 h4
      subst h2
      exact ⟨h1, y, h3, h4.symm⟩
    · rintro ⟨h1, y, h3, rfl⟩
      exact ⟨_, ⟨_, _, ⟨h1, rfl, rfl⟩, rfl⟩, y, h3, rfl⟩
  · simp only [h, Bool.false_eq_true, if_false, andThen_next, false_and, false_or]
    constructor
    · rintro ⟨u, h2, y, h3, h4⟩
      simp only [Host.Outcome.next.injEq] at h2 h4
      subst h2
      exact ⟨by simp, y, h3, h4.symm⟩
    · rintro ⟨_, y, h3, rfl⟩
      exact ⟨s, rfl, y, h3, rfl⟩

theorem callTo_next (target : Addr) (s t : State) :
    callTo target s = .next t ↔ writable s (bank0 s.sp) ∧ writable s (bank0 (s.sp - 1#16)) ∧
      t = s.framed.setLpc target := by
  simp only [callTo, andThen_next, pushFrame_next]
  constructor
  · rintro ⟨u, ⟨h1, h2, rfl⟩, h⟩
    exact ⟨h1, h2, (Host.Outcome.next.inj h).symm⟩
  · rintro ⟨h1, h2, rfl⟩
    exact ⟨_, ⟨h1, h2, rfl⟩, rfl⟩

theorem resetStep_next (s t : State) :
    resetStep s = .next t ↔ readable s s.plat.vecReset ∧
      t = (({ s with pc := wordAt s s.plat.vecReset, resetPending := false,
                     cycles := s.cycles + Config.unstatedCycles s.draws }).setCs 0#6).countDraw := by
  simp only [resetStep, andThen_next, memRead_next]
  constructor
  · rintro ⟨w, ⟨hr, rfl⟩, h⟩
    exact ⟨hr, (Host.Outcome.next.inj h).symm⟩
  · rintro ⟨hr, rfl⟩
    exact ⟨_, ⟨hr, rfl⟩, rfl⟩

end Sys2Proof.Machine
end

