-- ==== Sys2Proof/Laws/Operands.lean ====
section
/-! SUPPORT. For each operand form: exactly when it answers a next state, and which. -/

namespace Sys2Proof.Machine

/-! ### The shifter -/

/-- The shifter's outputs are the spec's shifted operand and shifted-out bits. -/
theorem shifter_eq (k : ShiftKind) (n : BitVec 2) (v : Word) (sb : BitVec 4) :
    shifter k (shiftCount n) v sb = (shiftedOperand k (n.toNat + 1) v sb, shiftedOut k (n.toNat + 1) v sb) := by
  have hn : shiftCount n = n.toNat + 1 := rfl
  have h4 : n.toNat < 4 := n.isLt
  rw [hn]
  generalize n.toNat = c at *
  have hc : c = 0 ∨ c = 1 ∨ c = 2 ∨ c = 3 := by omega
  cases k <;> simp only [shifter, shiftedOperand, shiftedOut] <;> refine Prod.ext ?_ ?_ <;> simp only <;>
    apply BitVec.eq_of_getLsbD_eq <;> intro i hi
  all_goals
    rcases hc with rfl | rfl | rfl | rfl <;> interval_cases i <;>
      simp only [BitVec.getLsbD_extractLsb', BitVec.getLsbD_sshiftRight, BitVec.getLsbD_ushiftRight,
        BitVec.getLsbD_shiftLeft, BitVec.getLsbD_or, BitVec.getLsbD_append, BitVec.rotateLeft, BitVec.rotateRight,
        BitVec.rotateLeftAux, BitVec.rotateRightAux, BitVec.msb_append] <;> simp

/-- A write of SB leaves the other bits of FR. -/
theorem setSb_fr (s : State) (v : BitVec 4) : KeepsFrBut [7, 8, 9, 10] s (s.setSb v) := by
  intro i hi
  have hm : maskSb.getLsbD i = false := by
    rcases Nat.lt_or_ge i 16 with h | h
    · revert hi
      have : ∀ j : Fin 16, j.val ∉ [7, 8, 9, 10] → maskSb.getLsbD j.val = false := by decide
      exact this ⟨i, h⟩
    · exact BitVec.getLsbD_of_ge _ _ h
  simp only [State.setSb, State.writeFr_fr, getLsbD_mergeBits, hm, Bool.false_eq_true, if_false]

/-- SB holds what is written to it. -/
theorem setSb_sb (s : State) (v : BitVec 4) : (s.setSb v).sb = v := by
  apply BitVec.eq_of_getLsbD_eq
  intro i hi
  simp only [State.sb, State.setSb, State.writeFr_fr, BitVec.getLsbD_extractLsb', getLsbD_mergeBits, maskSb]
  interval_cases i <;> simp

/-! ### ALU forms -/

theorem aluFrom_next (op : AluOp) (rd : Reg) (a : Word) (addr : Addr) (s t : State) :
    aluFrom op rd a addr s = .next t ↔ readable s addr ∧ t = aluFinish op rd a (wordAt s addr) s := by
  simp only [aluFrom, andThen_next, memRead_next]
  constructor
  · rintro ⟨b, ⟨h, rfl⟩, e⟩
    exact ⟨h, (Host.Outcome.next.inj e).symm⟩
  · rintro ⟨h, rfl⟩
    exact ⟨_, ⟨h, rfl⟩, rfl⟩

theorem aluA16w_next (op : AluOp) (rd : Reg) (b : Word) (addr : Word) (s t : State) :
    aluA16w op rd b addr s = .next t ↔
      (writesResult op = true ∧ writable s (addrA16 addr) ∧
        t = (s.stored (addrA16 addr) (aluResult op (s.x rd) b s.flagC)).setAluFlags op (s.x rd) b) ∨
      (writesResult op = false ∧ t = s.setAluFlags op (s.x rd) b) := by
  unfold aluA16w
  cases writesResult op
  · simp [eq_comm]
  · simp only [if_true, andThen_next, memWrite_next, true_and, Bool.true_eq_false, false_and, or_false]
    constructor
    · rintro ⟨u, ⟨h, rfl⟩, e⟩
      exact ⟨h, (Host.Outcome.next.inj e).symm⟩
    · rintro ⟨h, rfl⟩
      exact ⟨_, ⟨h, rfl⟩, rfl⟩

theorem aluInd_next (op : AluOp) (rd : Reg) (d : Bool) (mark : PtrMark) (rs : Reg) (s t : State) :
    aluInd op rd d mark rs s = .next t ↔ checkInd rd d mark rs = none ∧
      (let u := preStep d mark rs s
       readable u (dataAddr d (u.x rs) u) ∧
        t = postStep d mark rs (aluFinish op rd (u.x rd) (wordAt u (dataAddr d (u.x rs) u)) u)) := by
  simp only [aluInd, guarded_next, andThen_next, aluFrom_next]
  constructor
  · rintro ⟨hc, u, ⟨h, rfl⟩, e⟩
    exact ⟨hc, h, (Host.Outcome.next.inj e).symm⟩
  · rintro ⟨hc, h, rfl⟩
    exact ⟨hc, _, ⟨h, rfl⟩, rfl⟩

theorem storeInd_next (rd : Reg) (d : Bool) (mark : PtrMark) (rs : Reg) (s t : State) :
    storeInd rd d mark rs s = .next t ↔ checkInd rd d mark rs = none ∧
      (let u := preStep d mark rs s
       writable u (dataAddr d (u.x rs) u) ∧
        t = postStep d mark rs (u.stored (dataAddr d (u.x rs) u) (u.x rd))) := by
  simp only [storeInd, guarded_next, andThen_next, memWrite_next]
  constructor
  · rintro ⟨hc, u, ⟨h, rfl⟩, e⟩
    exact ⟨hc, h, (Host.Outcome.next.inj e).symm⟩
  · rintro ⟨hc, h, rfl⟩
    exact ⟨hc, _, ⟨h, rfl⟩, rfl⟩

/-! ### Bit operations -/

theorem bitReg_next (b : BitOp) (rd : Reg) (k : BitVec 4) (s t : State) :
    bitReg b rd k s = .next t ↔ rd ≠ .pc ∧
      t = if b = .tstb then s.writeSr maskZ (bitZ (s.x rd) k)
          else writeBack maskZ (bitZ (s.x rd) k) rd (bitResult b (s.x rd) k) s := by
  have hc : checkDest rd = none ↔ rd ≠ .pc := by cases rd <;> simp [checkDest, reservedIf]
  simp only [bitReg, guarded_next, hc, Host.Outcome.next.injEq]
  cases b <;> simp [eq_comm]

theorem bitMem_next (b : BitOp) (d : Bool) (rd : Reg) (k : BitVec 4) (s t : State) :
    bitMem b d rd k s = .next t ↔ rd ≠ .pc ∧
      (let a := dataAddr d (s.x rd) s
       readable s a ∧ (b ≠ .tstb → writable s a) ∧
        t = (if b = .tstb then s else s.stored a (bitResult b (wordAt s a) k)).writeSr maskZ
          (bitZ (wordAt s a) k)) := by
  have hc : checkDest rd = none ↔ rd ≠ .pc := by cases rd <;> simp [checkDest, reservedIf]
  simp only [bitMem, guarded_next, hc, andThen_next, memRead_next]
  constructor
  · rintro ⟨h1, old, ⟨h2, rfl⟩, h⟩
    refine ⟨h1, h2, ?_⟩
    cases b <;> simp only [andThen_next, memWrite_next, reduceCtorEq, if_false, if_true, ne_eq, not_false_eq_true,
      not_true_eq_false, false_implies, true_implies, true_and] at h ⊢
    · exact (Host.Outcome.next.inj h).symm
    all_goals
      obtain ⟨u, ⟨hw, rfl⟩, e⟩ := h
      exact ⟨hw, (Host.Outcome.next.inj e).symm⟩
  · rintro ⟨h1, h2, hw, rfl⟩
    refine ⟨h1, _, ⟨h2, rfl⟩, ?_⟩
    cases b
    · rfl
    all_goals
      simp only [andThen_next, memWrite_next]
      exact ⟨_, ⟨hw (by simp), rfl⟩, rfl⟩

end Sys2Proof.Machine
end

