-- ==== Sys2Proof/Laws/Forms.lean ====
section
/-! SUPPORT. For the 16-bit shifts, the multiplications, the division steps, EXP, the branches, PUSH and POP:
exactly when they answer a next state, and which. -/

namespace Sys2Proof.Machine

/-- A checked operation that always completes. -/
theorem guarded_ok_next (c : Option Reserved) (t u : State) :
    guarded c (.next u) = .next t ↔ c = none ∧ t = u := by
  rw [guarded_next, Host.Outcome.next.injEq]
  exact and_congr_right fun _ => eq_comm

/-! ### 16-bit shifts -/

theorem shiftPlain_next (k : LongShift) (rd rs : Reg) (s t : State) :
    shiftPlain k rd rs s = .next t ↔ checkShift16 k rd = none ∧
      t = (s.setX rd (longShiftResult k (s.x rd) (longCount (s.x rs)))).drawSr maskC := by
  exact guarded_ok_next _ _ _

theorem shiftOr_next (k : LongShift) (rd rs : Reg) (s t : State) :
    shiftOr k rd rs s = .next t ↔ checkShift16 k rd = none ∧
      (let wide := orShiftWide k (s.x rd) (longCount (s.x rs))
       t = (s.setMr (if k = .lslor then (s.x .r4 ||| wide.extractLsb' 16 16) ++ wide.extractLsb' 0 16
          else wide.extractLsb' 16 16 ++ (s.x .r3 ||| wide.extractLsb' 0 16))).drawSr maskC) := by
  exact guarded_ok_next _ _ _

theorem shiftRotate_next (k : LongShift) (rd rs : Reg) (s t : State) :
    shiftRotate k rd rs s = .next t ↔ checkShift16 k rd = none ∧
      (let r := rotateThroughC k s.flagC (s.x rd) (bitNumber (s.x rs)).toNat
       t = writeBack maskC (flagBit r.msb maskC) rd (r.setWidth 16) s) := by
  exact guarded_ok_next _ _ _

/-- The count of the shifts that do not rotate, as a number. -/
theorem longCount_eq (v : Word) : longCount v = v.toNat % 32 := by
  simp [longCount, BitVec.extractLsb'_toNat]

/-- The bit number in a register, and the count of the rotates, as a number. -/
theorem bitNumber_toNat (v : Word) : (bitNumber v).toNat = v.toNat % 16 := by
  simp [bitNumber, BitVec.extractLsb'_toNat]

/-! ### MR -/

/-- MR holds what is written to it. -/
@[simp] theorem mr_setMr (s : State) (v : BitVec 32) : (s.setMr v).mr = v := by
  have hb : (s.setMr v).bnk = s.bnk := by simp [State.setMr]
  have h4 : (s.setMr v).x .r4 = v.extractLsb' 16 16 := by simp [State.setMr]
  have h3 : (s.setMr v).x .r3 = v.extractLsb' 0 16 := by simp [State.setMr]
  rw [State.mr, h4, h3]
  exact State.append_extractLsb' (n := 16) (m := 16) v

@[simp] theorem setMr_fr (s : State) (v : BitVec 32) : (s.setMr v).fr = s.fr := by simp [State.setMr]
@[simp] theorem setMr_bnk (s : State) (v : BitVec 32) : (s.setMr v).bnk = s.bnk := by simp [State.setMr]
@[simp] theorem setMr_mem (s : State) (v : BitVec 32) : (s.setMr v).mem = s.mem := by simp [State.setMr]
@[simp] theorem setMr_plat (s : State) (v : BitVec 32) : (s.setMr v).plat = s.plat := by simp [State.setMr]

/-! ### MUL and MULS -/

theorem productOf_eq (k : MulKind) (fraction : Bool) (a b : Word) :
    productOf k fraction a b = exactProduct k fraction a b := by
  cases k <;> cases fraction <;> simp [productOf, exactProduct, wordInt, rdSigned, rsSigned, rdValue, rsValue]

theorem levels_eq (n : BitVec 4) : levels n = levelCount n := by
  unfold levels levelCount
  have : n.toNat = 0 ↔ n = 0#4 := by
    constructor
    · intro h
      exact BitVec.eq_of_toNat_eq (by simpa using h)
    · rintro rfl
      rfl
  simp only [this]

theorem multiply_next (k : MulKind) (rd rs : Reg) (s t : State) :
    multiply k rd rs s = .next t ↔ checkMul rd rs = none ∧
      t = s.setMr (BitVec.ofInt 32 (exactProduct k s.fra (s.x rd) (s.x rs))) := by
  rw [← productOf_eq]
  exact guarded_ok_next _ _ _

theorem readLevels_next (xd xs : Word) (s : State) (l : List Nat) (data : List (Word × Word)) :
    readLevels xd xs s l = .next data ↔
      (∀ i ∈ l, readable s (bank0 (xd + BitVec.ofNat 16 i)) ∧ readable s (bank0 (xs + BitVec.ofNat 16 i))) ∧
      data = l.map fun i =>
        (wordAt s (bank0 (xd + BitVec.ofNat 16 i)), wordAt s (bank0 (xs + BitVec.ofNat 16 i))) := by
  induction l generalizing data with
  | nil => simp [readLevels, eq_comm]
  | cons i is ih =>
    simp only [readLevels, andThen_next, memRead_next, ih, Host.Outcome.next.injEq, List.forall_mem_cons,
      List.map_cons]
    constructor
    · rintro ⟨a, ⟨ha, rfl⟩, b, ⟨hb, rfl⟩, rest, ⟨hr, rfl⟩, rfl⟩
      exact ⟨⟨⟨ha, hb⟩, hr⟩, rfl⟩
    · rintro ⟨⟨⟨ha, hb⟩, hr⟩, rfl⟩
      exact ⟨_, ⟨ha, rfl⟩, _, ⟨hb, rfl⟩, _, ⟨hr, rfl⟩, rfl⟩

/-- Everything a sequence of writes in bank 0 can do when it completes. -/
theorem writeEach_next (ws : List (Word × Word)) (s t : State) :
    writeEach ws s = .next t ↔
      (∀ w ∈ ws, writable s (bank0 w.1)) ∧ t = ws.foldl (fun u w => u.stored (bank0 w.1) w.2) s := by
  induction ws generalizing s with
  | nil => simp [writeEach, eq_comm]
  | cons w ws ih =>
    simp only [writeEach, andThen_next, memWrite_next, ih, List.forall_mem_cons, List.foldl_cons]
    have keeps : ∀ a, writable (s.stored (bank0 w.1) w.2) a ↔ writable s a := writable_congr (by simp)
    constructor
    · rintro ⟨u, ⟨hw, rfl⟩, hs, rfl⟩
      exact ⟨⟨hw, fun x hx => (keeps _).1 (hs x hx)⟩, rfl⟩
    · rintro ⟨⟨hw, hs⟩, rfl⟩
      exact ⟨_, ⟨hw, rfl⟩, fun x hx => (keeps _).2 (hs x hx), rfl⟩

/-- Stores change memory only. -/
theorem foldl_stored_keeps (ws : List (Word × Word)) (s : State) :
    ws.foldl (fun u w => u.stored (bank0 w.1) w.2) s =
      { s with mem := (ws.foldl (fun u w => u.stored (bank0 w.1) w.2) s).mem } := by
  induction ws generalizing s with
  | nil => rfl
  | cons w ws ih => rw [List.foldl_cons, ih]; rfl

/-- A word that none of the stores is to reads as before. -/
theorem wordAt_foldl_stored (ws : List (Word × Word)) (s : State) (off : Word) (h : off ∉ ws.map Prod.fst) :
    wordAt (ws.foldl (fun u w => u.stored (bank0 w.1) w.2) s) (bank0 off) = wordAt s (bank0 off) := by
  induction ws generalizing s with
  | nil => rfl
  | cons w ws ih =>
    simp only [List.map_cons, List.mem_cons, not_or] at h
    rw [List.foldl_cons, ih _ h.2, wordAt_stored, if_neg fun e => h.1 (bank0_inj.1 e)]

/-- A sequence of writes in bank 0 leaves the last word written at each offset, and no other byte changed. -/
theorem writeEach_written (ws : List (Word × Word)) (s t : State) (h : writeEach ws s = .next t) :
    WordsWritten ws s t := by
  obtain ⟨-, rfl⟩ := (writeEach_next ws s t).1 h
  refine ⟨fun earlier later off v e hl => ?_, ?_⟩
  · rw [e, List.foldl_append, List.foldl_cons, wordAt_foldl_stored _ _ _ hl, wordAt_stored, if_pos rfl]
  · clear h
    induction ws generalizing s with
    | nil => exact fun _ _ => rfl
    | cons w ws ih =>
      intro a ha
      simp only [List.map_cons, List.forall_mem_cons] at ha
      rw [List.foldl_cons, ih (s.stored (bank0 w.1) w.2) a ha.2]
      exact sameMemBut_stored s (bank0 w.1) w.2 a (by simpa using ha.1)

/-- Everything the FIR move can do when it completes. -/
theorem firMove_next (xd : Word) (samples : List Word) (s t : State) :
    firMove xd samples s = .next t ↔
      if s.fir = true ∨ samples.length ≤ 1 then t = s
      else writeEach (firWrites s.plat.firMove xd samples) s = .next t := by
  unfold firMove
  by_cases h : s.fir = true ∨ samples.length ≤ 1
  · rw [if_pos h, if_pos (by simpa using h), Host.Outcome.next.injEq]
    exact eq_comm
  · rw [if_neg h, if_neg (by simpa using h)]

/-- The FIR move changes memory only. -/
theorem firMove_keeps (xd : Word) (samples : List Word) (s t : State) (h : firMove xd samples s = .next t) :
    t = { s with mem := t.mem } := by
  rw [firMove_next] at h
  split at h
  · rw [h]
  · obtain ⟨-, e⟩ := (writeEach_next _ s t).1 h
    rw [e]
    exact foldl_stored_keeps _ s

/-- Everything MULS can do when it completes. -/
theorem innerProduct_next (k : MulKind) (rd : Reg) (n : BitVec 4) (rs : Reg) (s t : State) :
    innerProduct k rd n rs s = .next t ↔ checkMuls rd rs = none ∧
      ∃ data, readLevels (s.x rd) (s.x rs) s (List.range (levels n)) = .next data ∧
      ∃ u, firMove (s.x rd) (data.map Prod.fst) s = .next u ∧
        (let acc : BitVec 36 := BitVec.ofInt 36 (sumProducts k s.fra data)
         t = mulsFlag rd rs (accOverflow k acc) (mulsAdjust rd rs (s.x rd) (s.x rs) (levels n)
          ((u.setMr (acc.extractLsb' 0 32)).setSb (acc.extractLsb' 32 4)))) := by
  simp only [innerProduct, guarded_next, andThen_next, Host.Outcome.next.injEq]
  refine and_congr_right fun _ => exists_congr fun data => and_congr_right fun _ => exists_congr fun u => ?_
  exact and_congr_right fun _ => eq_comm

/-! ### Division steps, EXP, branches -/

/-- Whatever the chip's `div_step`, DIVS writes MR and AQ and nothing else. -/
theorem divSign_next (s : State) : ∃ mr aq, divSign s = .next ((s.setMr mr).setAq aq) := ⟨_, _, rfl⟩

/-- Whatever the chip's `div_step`, DIVQ writes MR and AQ and nothing else. -/
theorem divQuotient_next (s : State) : ∃ mr aq, divQuotient s = .next ((s.setMr mr).setAq aq) := ⟨_, _, rfl⟩

theorem divSign_default (s : State) (h : s.plat.divStep = .default) :
    divSign s = .next
      ((s.setMr (((s.x .r4).extractLsb' 0 15 ++ BitVec.ofBool (s.x .r3).msb : Word) ++
        ((s.x .r3).extractLsb' 0 15 ++ BitVec.ofBool ((s.x .r4).msb ^^ (s.x .r2).msb) : Word))).setAq
        ((s.x .r4).msb ^^ (s.x .r2).msb)) := by
  simp only [divSign, h]
  rfl

theorem divQuotient_default (s : State) (h : s.plat.divStep = .default) :
    divQuotient s =
      (let r := if s.aq then s.x .r4 + s.x .r2 else s.x .r4 - s.x .r2
       let next := r.msb ^^ (s.x .r2).msb
       .next ((s.setMr ((r.extractLsb' 0 15 ++ BitVec.ofBool (s.x .r3).msb : Word) ++
        ((s.x .r3).extractLsb' 0 15 ++ BitVec.ofBool (!next) : Word))).setAq next)) := by
  simp only [divQuotient, h]
  rfl

/-- The run of equal bits below bit `n`: all equal bit 15, and the bit under them, if any, differs. -/
theorem signRun_spec (v : Word) (n : Nat) :
    signRun v n ≤ n ∧ (∀ i, n - signRun v n ≤ i → i < n → v.getLsbD i = v.msb) ∧
      (signRun v n < n → v.getLsbD (n - 1 - signRun v n) ≠ v.msb) := by
  induction n with
  | zero => simp [signRun]
  | succ n ih =>
    unfold signRun
    split
    · rename_i h
      obtain ⟨h1, h2, h3⟩ := ih
      refine ⟨by omega, fun i hi hn => ?_, fun hlt => ?_⟩
      · rcases Nat.lt_or_ge i n with hl | hl
        · exact h2 i (by omega) hl
        · obtain rfl : i = n := by omega
          exact h
      · have := h3 (by omega)
        have e : n + 1 - 1 - (1 + signRun v n) = n - 1 - signRun v n := by omega
        rwa [e]
    · rename_i h
      refine ⟨by omega, fun i hi hn => by omega, fun _ => ?_⟩
      simpa using h

theorem branch_next (c : Cond) (back : Bool) (imm : BitVec 6) (s t : State) :
    branch c back imm s = .next t ↔ t = if condHolds c s then s.setLpc (branchTarget back imm s) else s := by
  simp only [branch, Host.Outcome.next.injEq, eq_comm]

/-! ### PUSH and POP -/

theorem pushEach_nil_next (ptr : Reg) (s t : State) : pushEach ptr [] s = .next t ↔ t = s := by
  simp only [pushEach, Host.Outcome.next.injEq, eq_comm]

theorem pushEach_cons_next (ptr r : Reg) (rs : List Reg) (s t : State) :
    pushEach ptr (r :: rs) s = .next t ↔ writable s (bank0 (s.x ptr)) ∧
      pushEach ptr rs ((s.stored (bank0 (s.x ptr)) (s.x r)).setX ptr (s.x ptr - 1#16)) = .next t := by
  simp only [pushEach, andThen_next, pushAt_next]
  constructor
  · rintro ⟨u, ⟨h1, rfl⟩, h2⟩
    exact ⟨h1, h2⟩
  · rintro ⟨h1, h2⟩
    exact ⟨_, ⟨h1, rfl⟩, h2⟩

theorem popEach_nil_next (ptr : Reg) (s t : State) : popEach ptr [] s = .next t ↔ t = s := by
  simp only [popEach, Host.Outcome.next.injEq, eq_comm]

theorem popEach_cons_next (ptr r : Reg) (rs : List Reg) (s t : State) :
    popEach ptr (r :: rs) s = .next t ↔ readable s (bank0 (s.x ptr + 1#16)) ∧
      popEach ptr rs ((s.setX ptr (s.x ptr + 1#16)).setX r (wordAt s (bank0 (s.x ptr + 1#16)))) = .next t := by
  simp only [popEach, andThen_next, Prod.exists, popAt_next]
  constructor
  · rintro ⟨v, u, ⟨h1, rfl, rfl⟩, h2⟩
    exact ⟨h1, h2⟩
  · rintro ⟨h1, h2⟩
    exact ⟨_, _, ⟨h1, rfl, rfl⟩, h2⟩

theorem pushList_next (rd : Reg) (n : BitVec 3) (rs : Reg) (s t : State) :
    pushList rd n rs s = .next t ↔ checkPush rd n rs = none ∧ pushEach rs (pushRegs rd n) s = .next t := by
  simp only [pushList, guarded_next]

theorem popList_next (rd : Reg) (n : BitVec 3) (rs : Reg) (s t : State) :
    popList rd n rs s = .next t ↔ checkPop rd n rs = none ∧ popEach rs (popRegs rd n) s = .next t := by
  simp only [popList, guarded_next]

@[simp] theorem regOfNum_num (r : Reg) : regOfNum r.num = r := by cases r <;> rfl

theorem num_regOfNum {n : Nat} (h : n < 8) : (regOfNum n).num = n := by
  interval_cases n <;> rfl

theorem checkPush_none (rd : Reg) (n : BitVec 3) (rs : Reg) :
    checkPush rd n rs = none ↔
      0 < n.toNat ∧ n.toNat ≤ rd.num + 1 ∧ (rs.num + n.toNat ≤ rd.num ∨ rd.num < rs.num) := by
  unfold checkPush reservedIf
  split
  · simp_all
  · split
    · simp only [reduceCtorEq, false_iff]
      omega
    · simp only [Bool.and_eq_true, decide_eq_true_eq, ite_eq_right_iff, reduceCtorEq, imp_false]
      omega

theorem checkPop_none (rd : Reg) (n : BitVec 3) (rs : Reg) :
    checkPop rd n rs = none ↔
      0 < n.toNat ∧ rd.num + n.toNat ≤ 7 ∧ (rs.num ≤ rd.num ∨ rd.num + n.toNat < rs.num) := by
  unfold checkPop reservedIf
  split
  · simp_all
  · split
    · simp only [reduceCtorEq, false_iff]
      omega
    · simp only [Bool.and_eq_true, decide_eq_true_eq, ite_eq_right_iff, reduceCtorEq, imp_false]
      omega

end Sys2Proof.Machine
end

