-- ==== Sys2Proof/Laws/Frames.lean ====
section
/-! SUPPORT. Frames: how what one part of an instruction leaves alone adds up, and the pointer steps. -/

namespace Sys2Proof.Machine

/-! ### Frames -/

theorem KeepsRegs.trans {l m : List Reg} {s t u : State} (hb : t.bnk = s.bnk) (h : KeepsRegs l s t)
    (g : KeepsRegs m t u) : KeepsRegs (l ++ m) s u := by
  intro p hp
  simp only [List.map_append, List.mem_append, not_or] at hp
  rw [g p (by rw [hb]; exact hp.2), h p hp.1]

theorem KeepsRegs.mono {l m : List Reg} {s t : State} (hl : ∀ r ∈ l, r ∈ m) (h : KeepsRegs l s t) :
    KeepsRegs m s t := by
  intro p hp
  refine h p fun hq => hp ?_
  simp only [List.mem_map] at *
  obtain ⟨r, hr, e⟩ := hq
  exact ⟨r, hl r hr, e⟩

/-- A register number outside the list reads as before. -/
theorem KeepsRegs.x {l : List Reg} {s t : State} (hb : t.bnk = s.bnk) (h : KeepsRegs l s t) (r : Reg)
    (hr : r ∉ l) : t.x r = s.x r := by
  unfold State.x
  rw [hb]
  apply h
  simp only [List.mem_map, not_exists, not_and]
  intro q hq e
  rw [physOf_inj] at e
  exact hr (e ▸ hq)

theorem keepsRegs_setX (s : State) (r : Reg) (v : Word) : KeepsRegs [r] s (s.setX r v) := by
  intro p hp
  rw [State.get_setX, if_neg]
  intro e
  exact hp (by simp [e])

theorem keepsRegs_stored (s : State) (a : Addr) (v : Word) : KeepsRegs [] s (s.stored a v) := by
  intro p _
  simp

theorem SameRest.refl (s : State) : SameRest s s := ⟨⟨rfl, rfl, rfl⟩, rfl, rfl, rfl, rfl⟩

theorem SameRest.trans {s t u : State} (h : SameRest s t) (g : SameRest t u) : SameRest s u := by
  obtain ⟨⟨a, b, c⟩, d, e, f, i⟩ := h
  obtain ⟨⟨a', b', c'⟩, d', e', f', i'⟩ := g
  exact ⟨⟨a'.trans a, b'.trans b, c'.trans c⟩, d'.trans d, e'.trans e, f'.trans f, i'.trans i⟩

theorem sameRest_stored (s : State) (a : Addr) (v : Word) : SameRest s (s.stored a v) :=
  ⟨⟨rfl, rfl, rfl⟩, rfl, rfl, rfl, rfl⟩

theorem sameRest_writeSr (s : State) (m v : Word) : SameRest s (s.writeSr m v) :=
  ⟨⟨rfl, rfl, rfl⟩, rfl, rfl, rfl, rfl⟩

theorem sameRest_drawSr (s : State) (m : Word) : SameRest s (s.drawSr m) := ⟨⟨rfl, rfl, rfl⟩, rfl, rfl, rfl, rfl⟩

theorem sameRest_setDs (s : State) (v : BitVec 6) : SameRest s (s.setDs v) := ⟨⟨rfl, rfl, rfl⟩, rfl, rfl, rfl, rfl⟩

theorem sameRest_setLpc (s : State) (a : Addr) : SameRest s (s.setLpc a) := ⟨⟨rfl, rfl, rfl⟩, rfl, rfl, rfl, rfl⟩

/-! ### The fields of SR -/

/-- States whose SR agrees in bits 9 to 0 have the same flags and CS. -/
theorem low_sr_fields {s t : State} (h : ∀ i, i < 10 → t.sr.getLsbD i = s.sr.getLsbD i) :
    KeepsFlags s t ∧ t.cs = s.cs := by
  refine ⟨⟨h 9 (by omega), h 8 (by omega), h 7 (by omega), h 6 (by omega)⟩, ?_⟩
  apply BitVec.eq_of_getLsbD_eq
  intro i hi
  simp only [State.cs, BitVec.getLsbD_extractLsb', hi, decide_true, Bool.true_and]
  exact h (0 + i) (by omega)

theorem FlagsAfter.post {op : AluOp} {a b : Word} {s t u : State}
    (h : ∀ i, i < 10 → u.sr.getLsbD i = t.sr.getLsbD i) (g : FlagsAfter op a b s t) : FlagsAfter op a b s u := by
  obtain ⟨⟨h1, h2, h3, h4⟩, _⟩ := low_sr_fields h
  unfold FlagsAfter KeepsFlags at *
  rw [h1, h2, h3, h4]
  exact g

theorem FlagsAfter.pre {op : AluOp} {a b : Word} {s t u : State}
    (h : ∀ i, i < 10 → t.sr.getLsbD i = s.sr.getLsbD i) (g : FlagsAfter op a b t u) : FlagsAfter op a b s u := by
  obtain ⟨⟨h1, h2, h3, h4⟩, _⟩ := low_sr_fields h
  unfold FlagsAfter KeepsFlags at *
  rw [h1, h2, h3, h4] at g
  exact g

theorem sr_setX (s : State) (r : Reg) (v : Word) (h : r ≠ .sr) : (s.setX r v).sr = s.sr := by
  have := State.x_setX s r .sr v
  rw [if_neg (Ne.symm h), x_sr, x_sr] at this
  exact this

theorem ds_setX (s : State) (r : Reg) (v : Word) (h : r ≠ .sr) : (s.setX r v).ds = s.ds := by
  simp only [State.ds, sr_setX s r v h]

theorem cs_setX (s : State) (r : Reg) (v : Word) (h : r ≠ .sr) : (s.setX r v).cs = s.cs := by
  simp only [State.cs, sr_setX s r v h]

theorem ds_setDs (s : State) (v : BitVec 6) : (s.setDs v).ds = v := by
  simp only [State.ds, State.setDs_sr]
  exact State.extractLsb'_append_high v _

theorem x_setDs (s : State) (v : BitVec 6) (r : Reg) (h : r ≠ .sr) : (s.setDs v).x r = s.x r := by
  have : physOf s.bnk r ≠ .sr := by cases r <;> simp [physOf] at * <;> split <;> simp
  simp [State.x, this]

theorem low_setDs (s : State) (v : BitVec 6) (i : Nat) (h : i < 10) :
    (s.setDs v).sr.getLsbD i = s.sr.getLsbD i := by
  rw [State.setDs_sr]
  erw [BitVec.getLsbD_append]
  simp [h]

/-! ### Pointer steps -/

@[simp] theorem stepPtr_mem (d : Bool) (δ : Addr) (rs : Reg) (s : State) : (stepPtr d δ rs s).mem = s.mem := by
  unfold stepPtr
  split <;> simp
@[simp] theorem stepPtr_fr (d : Bool) (δ : Addr) (rs : Reg) (s : State) : (stepPtr d δ rs s).fr = s.fr := by
  unfold stepPtr
  split <;> simp
@[simp] theorem stepPtr_bnk (d : Bool) (δ : Addr) (rs : Reg) (s : State) : (stepPtr d δ rs s).bnk = s.bnk := by
  unfold stepPtr
  split <;> simp
@[simp] theorem stepPtr_plat (d : Bool) (δ : Addr) (rs : Reg) (s : State) : (stepPtr d δ rs s).plat = s.plat := by
  unfold stepPtr
  split <;> simp

theorem sameRest_stepPtr (d : Bool) (δ : Addr) (rs : Reg) (s : State) : SameRest s (stepPtr d δ rs s) := by
  unfold stepPtr
  split
  · exact SameRest.trans (sameRest_setDs _ _) (sameRest_setX _ _ _)
  · exact sameRest_setX _ _ _

/-- Everything a pointer step does, for a pointer other than SR where DS is stepped too. -/
theorem stepPtr_spec (d : Bool) (δ : Addr) (rs : Reg) (s : State) (h : d = true → rs ≠ .sr) :
    (stepPtr d δ rs s).x rs = (pointerAt d δ rs s).extractLsb' 0 16 ∧
      (rs ≠ .sr → (stepPtr d δ rs s).ds = (pointerAt d δ rs s).extractLsb' 16 6) ∧
      (∀ i, i < 10 → rs ≠ .sr → (stepPtr d δ rs s).sr.getLsbD i = s.sr.getLsbD i) ∧
      KeepsRegs [.sr, rs] s (stepPtr d δ rs s) ∧ (d = false → KeepsRegs [rs] s (stepPtr d δ rs s)) := by
  unfold stepPtr pointerAt
  cases d
  · simp only [Bool.false_eq_true, if_false]
    refine ⟨?_, ?_, ?_, ?_, ?_⟩
    · simp only [mkAddr]
      rw [State.x_setX, if_pos rfl]
      exact (State.extractLsb'_append_low _ _).symm
    · intro hr
      rw [ds_setX _ _ _ hr]
      simp only [mkAddr]
      rw [State.extractLsb'_append_high]
    · intro i _ hr
      rw [sr_setX _ _ _ hr]
    · exact (keepsRegs_setX s rs _).mono (by simp)
    · intro _
      exact keepsRegs_setX s rs _
  · have hr := h rfl
    simp only [if_true]
    refine ⟨by simp, ?_, ?_, ?_, by simp⟩
    · intro hr
      rw [ds_setX _ _ _ hr, ds_setDs]
    · intro i hi hr
      rw [sr_setX _ _ _ hr, low_setDs _ _ _ hi]
    · intro p hp
      rw [State.get_setX, if_neg, State.get_setDs, if_neg]
      · intro e
        exact hp (by simp [e, physOf])
      · intro e
        exact hp (by simp [e])

theorem checkInd_allowed (rd : Reg) (d : Bool) (mark : PtrMark) (rs : Reg) :
    checkInd rd d mark rs = none ↔ indAllowed rd d mark rs := by
  unfold checkInd reservedIf indAllowed
  cases mark <;> cases d <;> simp <;> cases rd <;> cases rs <;> simp

theorem preStep_eq (d : Bool) (mark : PtrMark) (rs : Reg) (s : State) :
    preStep d mark rs s = if mark = .preInc then stepPtr d 1#22 rs s else s := by
  cases mark <;> rfl

theorem pointerAt_zero (d : Bool) (rs : Reg) (s : State) : pointerAt d 0#22 rs s = mkAddr s.ds (s.x rs) := by
  unfold pointerAt
  cases d <;> simp

/-- The address of an indirect access. -/
theorem dataAddr_preStep (d : Bool) (mark : PtrMark) (rs : Reg) (s : State) (h : mark = .preInc → rs ≠ .sr) :
    dataAddr d ((preStep d mark rs s).x rs) (preStep d mark rs s) = indAddr d mark rs s := by
  rw [preStep_eq]
  unfold dataAddr indAddr stepBefore
  by_cases hm : mark = .preInc
  · simp only [hm, if_true]
    have hp := stepPtr_spec d 1#22 rs s (fun _ => h hm)
    cases d
    · simp only [Bool.false_eq_true, if_false]
      rw [hp.1]
    · simp only [if_true]
      rw [hp.1, hp.2.1 (h hm)]
      exact State.append_extractLsb' (n := 6) (m := 16) _
  · simp only [hm, if_false, pointerAt_zero]
    cases d
    · simp only [Bool.false_eq_true, if_false, mkAddr]
      congr 1
      exact (State.extractLsb'_append_low _ _).symm
    · rfl

end Sys2Proof.Machine
end

