-- ==== Sys2Proof/Laws/PerInstr.lean ====
section
/-! SUPPORT. Laws of the instructions as syntax, one lemma for each constructor of `Instr`. -/

namespace Sys2Proof.Laws

/-- The form of an instruction spells the instruction (`Shape.toInstr` inverts `Instr.shape`), and its encoding
has as many words as the instruction's length says. -/
def ShapeSpells.Statement (i : Instr) : Prop := i.shape.toInstr = some i ∧ (encode i).length = i.words

theorem ShapeSpells.jcc (back : Bool) (imm : BitVec 6) : ShapeSpells.Statement (.jcc back imm) := ⟨rfl, rfl⟩
theorem ShapeSpells.jcs (back : Bool) (imm : BitVec 6) : ShapeSpells.Statement (.jcs back imm) := ⟨rfl, rfl⟩
theorem ShapeSpells.jsc (back : Bool) (imm : BitVec 6) : ShapeSpells.Statement (.jsc back imm) := ⟨rfl, rfl⟩
theorem ShapeSpells.jss (back : Bool) (imm : BitVec 6) : ShapeSpells.Statement (.jss back imm) := ⟨rfl, rfl⟩
theorem ShapeSpells.jne (back : Bool) (imm : BitVec 6) : ShapeSpells.Statement (.jne back imm) := ⟨rfl, rfl⟩
theorem ShapeSpells.jz (back : Bool) (imm : BitVec 6) : ShapeSpells.Statement (.jz back imm) := ⟨rfl, rfl⟩
theorem ShapeSpells.jpl (back : Bool) (imm : BitVec 6) : ShapeSpells.Statement (.jpl back imm) := ⟨rfl, rfl⟩
theorem ShapeSpells.jmi (back : Bool) (imm : BitVec 6) : ShapeSpells.Statement (.jmi back imm) := ⟨rfl, rfl⟩
theorem ShapeSpells.jbe (back : Bool) (imm : BitVec 6) : ShapeSpells.Statement (.jbe back imm) := ⟨rfl, rfl⟩
theorem ShapeSpells.ja (back : Bool) (imm : BitVec 6) : ShapeSpells.Statement (.ja back imm) := ⟨rfl, rfl⟩
theorem ShapeSpells.jle (back : Bool) (imm : BitVec 6) : ShapeSpells.Statement (.jle back imm) := ⟨rfl, rfl⟩
theorem ShapeSpells.jg (back : Bool) (imm : BitVec 6) : ShapeSpells.Statement (.jg back imm) := ⟨rfl, rfl⟩
theorem ShapeSpells.jvc (back : Bool) (imm : BitVec 6) : ShapeSpells.Statement (.jvc back imm) := ⟨rfl, rfl⟩
theorem ShapeSpells.jvs (back : Bool) (imm : BitVec 6) : ShapeSpells.Statement (.jvs back imm) := ⟨rfl, rfl⟩
theorem ShapeSpells.jmp (back : Bool) (imm : BitVec 6) : ShapeSpells.Statement (.jmp back imm) := ⟨rfl, rfl⟩
theorem ShapeSpells.retf : ShapeSpells.Statement .retf := ⟨rfl, rfl⟩
theorem ShapeSpells.reti : ShapeSpells.Statement .reti := ⟨rfl, rfl⟩
theorem ShapeSpells.addBpIm6 (rd : Reg) (imm : BitVec 6) : ShapeSpells.Statement (.addBpIm6 rd imm) := ⟨rfl, rfl⟩
theorem ShapeSpells.addIm6 (rd : Reg) (imm : BitVec 6) : ShapeSpells.Statement (.addIm6 rd imm) := ⟨rfl, rfl⟩
theorem ShapeSpells.addInd (rd : Reg) (d : Bool) (mark : PtrMark) (rs : Reg) :
    ShapeSpells.Statement (.addInd rd d mark rs) := ⟨rfl, rfl⟩
theorem ShapeSpells.addReg (rd : Reg) (rs : Reg) : ShapeSpells.Statement (.addReg rd rs) := ⟨rfl, rfl⟩
theorem ShapeSpells.addIm16 (rd : Reg) (rs : Reg) (imm : Word) :
    ShapeSpells.Statement (.addIm16 rd rs imm) := ⟨rfl, rfl⟩
theorem ShapeSpells.addA16 (rd : Reg) (rs : Reg) (addr : Word) :
    ShapeSpells.Statement (.addA16 rd rs addr) := ⟨rfl, rfl⟩
theorem ShapeSpells.addA16w (rd : Reg) (rs : Reg) (addr : Word) :
    ShapeSpells.Statement (.addA16w rd rs addr) := ⟨rfl, rfl⟩
theorem ShapeSpells.addAsr (rd : Reg) (n : BitVec 2) (rs : Reg) :
    ShapeSpells.Statement (.addAsr rd n rs) := ⟨rfl, rfl⟩
theorem ShapeSpells.addLsl (rd : Reg) (n : BitVec 2) (rs : Reg) :
    ShapeSpells.Statement (.addLsl rd n rs) := ⟨rfl, rfl⟩
theorem ShapeSpells.addLsr (rd : Reg) (n : BitVec 2) (rs : Reg) :
    ShapeSpells.Statement (.addLsr rd n rs) := ⟨rfl, rfl⟩
theorem ShapeSpells.addRol (rd : Reg) (n : BitVec 2) (rs : Reg) :
    ShapeSpells.Statement (.addRol rd n rs) := ⟨rfl, rfl⟩
theorem ShapeSpells.addRor (rd : Reg) (n : BitVec 2) (rs : Reg) :
    ShapeSpells.Statement (.addRor rd n rs) := ⟨rfl, rfl⟩
theorem ShapeSpells.addA6 (rd : Reg) (addr : BitVec 6) : ShapeSpells.Statement (.addA6 rd addr) := ⟨rfl, rfl⟩
theorem ShapeSpells.adcBpIm6 (rd : Reg) (imm : BitVec 6) : ShapeSpells.Statement (.adcBpIm6 rd imm) := ⟨rfl, rfl⟩
theorem ShapeSpells.adcIm6 (rd : Reg) (imm : BitVec 6) : ShapeSpells.Statement (.adcIm6 rd imm) := ⟨rfl, rfl⟩
theorem ShapeSpells.adcInd (rd : Reg) (d : Bool) (mark : PtrMark) (rs : Reg) :
    ShapeSpells.Statement (.adcInd rd d mark rs) := ⟨rfl, rfl⟩
theorem ShapeSpells.adcReg (rd : Reg) (rs : Reg) : ShapeSpells.Statement (.adcReg rd rs) := ⟨rfl, rfl⟩
theorem ShapeSpells.adcIm16 (rd : Reg) (rs : Reg) (imm : Word) :
    ShapeSpells.Statement (.adcIm16 rd rs imm) := ⟨rfl, rfl⟩
theorem ShapeSpells.adcA16 (rd : Reg) (rs : Reg) (addr : Word) :
    ShapeSpells.Statement (.adcA16 rd rs addr) := ⟨rfl, rfl⟩
theorem ShapeSpells.adcA16w (rd : Reg) (rs : Reg) (addr : Word) :
    ShapeSpells.Statement (.adcA16w rd rs addr) := ⟨rfl, rfl⟩
theorem ShapeSpells.adcAsr (rd : Reg) (n : BitVec 2) (rs : Reg) :
    ShapeSpells.Statement (.adcAsr rd n rs) := ⟨rfl, rfl⟩
theorem ShapeSpells.adcLsl (rd : Reg) (n : BitVec 2) (rs : Reg) :
    ShapeSpells.Statement (.adcLsl rd n rs) := ⟨rfl, rfl⟩
theorem ShapeSpells.adcLsr (rd : Reg) (n : BitVec 2) (rs : Reg) :
    ShapeSpells.Statement (.adcLsr rd n rs) := ⟨rfl, rfl⟩
theorem ShapeSpells.adcRol (rd : Reg) (n : BitVec 2) (rs : Reg) :
    ShapeSpells.Statement (.adcRol rd n rs) := ⟨rfl, rfl⟩
theorem ShapeSpells.adcRor (rd : Reg) (n : BitVec 2) (rs : Reg) :
    ShapeSpells.Statement (.adcRor rd n rs) := ⟨rfl, rfl⟩
theorem ShapeSpells.adcA6 (rd : Reg) (addr : BitVec 6) : ShapeSpells.Statement (.adcA6 rd addr) := ⟨rfl, rfl⟩
theorem ShapeSpells.subBpIm6 (rd : Reg) (imm : BitVec 6) : ShapeSpells.Statement (.subBpIm6 rd imm) := ⟨rfl, rfl⟩
theorem ShapeSpells.subIm6 (rd : Reg) (imm : BitVec 6) : ShapeSpells.Statement (.subIm6 rd imm) := ⟨rfl, rfl⟩
theorem ShapeSpells.subInd (rd : Reg) (d : Bool) (mark : PtrMark) (rs : Reg) :
    ShapeSpells.Statement (.subInd rd d mark rs) := ⟨rfl, rfl⟩
theorem ShapeSpells.subReg (rd : Reg) (rs : Reg) : ShapeSpells.Statement (.subReg rd rs) := ⟨rfl, rfl⟩
theorem ShapeSpells.subIm16 (rd : Reg) (rs : Reg) (imm : Word) :
    ShapeSpells.Statement (.subIm16 rd rs imm) := ⟨rfl, rfl⟩
theorem ShapeSpells.subA16 (rd : Reg) (rs : Reg) (addr : Word) :
    ShapeSpells.Statement (.subA16 rd rs addr) := ⟨rfl, rfl⟩
theorem ShapeSpells.subA16w (rd : Reg) (rs : Reg) (addr : Word) :
    ShapeSpells.Statement (.subA16w rd rs addr) := ⟨rfl, rfl⟩
theorem ShapeSpells.subAsr (rd : Reg) (n : BitVec 2) (rs : Reg) :
    ShapeSpells.Statement (.subAsr rd n rs) := ⟨rfl, rfl⟩
theorem ShapeSpells.subLsl (rd : Reg) (n : BitVec 2) (rs : Reg) :
    ShapeSpells.Statement (.subLsl rd n rs) := ⟨rfl, rfl⟩
theorem ShapeSpells.subLsr (rd : Reg) (n : BitVec 2) (rs : Reg) :
    ShapeSpells.Statement (.subLsr rd n rs) := ⟨rfl, rfl⟩
theorem ShapeSpells.subRol (rd : Reg) (n : BitVec 2) (rs : Reg) :
    ShapeSpells.Statement (.subRol rd n rs) := ⟨rfl, rfl⟩
theorem ShapeSpells.subRor (rd : Reg) (n : BitVec 2) (rs : Reg) :
    ShapeSpells.Statement (.subRor rd n rs) := ⟨rfl, rfl⟩
theorem ShapeSpells.subA6 (rd : Reg) (addr : BitVec 6) : ShapeSpells.Statement (.subA6 rd addr) := ⟨rfl, rfl⟩
theorem ShapeSpells.sbcBpIm6 (rd : Reg) (imm : BitVec 6) : ShapeSpells.Statement (.sbcBpIm6 rd imm) := ⟨rfl, rfl⟩
theorem ShapeSpells.sbcIm6 (rd : Reg) (imm : BitVec 6) : ShapeSpells.Statement (.sbcIm6 rd imm) := ⟨rfl, rfl⟩
theorem ShapeSpells.sbcInd (rd : Reg) (d : Bool) (mark : PtrMark) (rs : Reg) :
    ShapeSpells.Statement (.sbcInd rd d mark rs) := ⟨rfl, rfl⟩
theorem ShapeSpells.sbcReg (rd : Reg) (rs : Reg) : ShapeSpells.Statement (.sbcReg rd rs) := ⟨rfl, rfl⟩
theorem ShapeSpells.sbcIm16 (rd : Reg) (rs : Reg) (imm : Word) :
    ShapeSpells.Statement (.sbcIm16 rd rs imm) := ⟨rfl, rfl⟩
theorem ShapeSpells.sbcA16 (rd : Reg) (rs : Reg) (addr : Word) :
    ShapeSpells.Statement (.sbcA16 rd rs addr) := ⟨rfl, rfl⟩
theorem ShapeSpells.sbcA16w (rd : Reg) (rs : Reg) (addr : Word) :
    ShapeSpells.Statement (.sbcA16w rd rs addr) := ⟨rfl, rfl⟩
theorem ShapeSpells.sbcAsr (rd : Reg) (n : BitVec 2) (rs : Reg) :
    ShapeSpells.Statement (.sbcAsr rd n rs) := ⟨rfl, rfl⟩
theorem ShapeSpells.sbcLsl (rd : Reg) (n : BitVec 2) (rs : Reg) :
    ShapeSpells.Statement (.sbcLsl rd n rs) := ⟨rfl, rfl⟩
theorem ShapeSpells.sbcLsr (rd : Reg) (n : BitVec 2) (rs : Reg) :
    ShapeSpells.Statement (.sbcLsr rd n rs) := ⟨rfl, rfl⟩
theorem ShapeSpells.sbcRol (rd : Reg) (n : BitVec 2) (rs : Reg) :
    ShapeSpells.Statement (.sbcRol rd n rs) := ⟨rfl, rfl⟩
theorem ShapeSpells.sbcRor (rd : Reg) (n : BitVec 2) (rs : Reg) :
    ShapeSpells.Statement (.sbcRor rd n rs) := ⟨rfl, rfl⟩
theorem ShapeSpells.sbcA6 (rd : Reg) (addr : BitVec 6) : ShapeSpells.Statement (.sbcA6 rd addr) := ⟨rfl, rfl⟩
theorem ShapeSpells.cmpBpIm6 (rd : Reg) (imm : BitVec 6) : ShapeSpells.Statement (.cmpBpIm6 rd imm) := ⟨rfl, rfl⟩
theorem ShapeSpells.cmpIm6 (rd : Reg) (imm : BitVec 6) : ShapeSpells.Statement (.cmpIm6 rd imm) := ⟨rfl, rfl⟩
theorem ShapeSpells.cmpInd (rd : Reg) (d : Bool) (mark : PtrMark) (rs : Reg) :
    ShapeSpells.Statement (.cmpInd rd d mark rs) := ⟨rfl, rfl⟩
theorem ShapeSpells.cmpReg (rd : Reg) (rs : Reg) : ShapeSpells.Statement (.cmpReg rd rs) := ⟨rfl, rfl⟩
theorem ShapeSpells.cmpIm16 (rs : Reg) (imm : Word) : ShapeSpells.Statement (.cmpIm16 rs imm) := ⟨rfl, rfl⟩
theorem ShapeSpells.cmpA16 (rs : Reg) (addr : Word) : ShapeSpells.Statement (.cmpA16 rs addr) := ⟨rfl, rfl⟩
theorem ShapeSpells.cmpA16w (rd : Reg) (rs : Reg) (addr : Word) :
    ShapeSpells.Statement (.cmpA16w rd rs addr) := ⟨rfl, rfl⟩
theorem ShapeSpells.cmpAsr (rd : Reg) (n : BitVec 2) (rs : Reg) :
    ShapeSpells.Statement (.cmpAsr rd n rs) := ⟨rfl, rfl⟩
theorem ShapeSpells.cmpLsl (rd : Reg) (n : BitVec 2) (rs : Reg) :
    ShapeSpells.Statement (.cmpLsl rd n rs) := ⟨rfl, rfl⟩
theorem ShapeSpells.cmpLsr (rd : Reg) (n : BitVec 2) (rs : Reg) :
    ShapeSpells.Statement (.cmpLsr rd n rs) := ⟨rfl, rfl⟩
theorem ShapeSpells.cmpRol (rd : Reg) (n : BitVec 2) (rs : Reg) :
    ShapeSpells.Statement (.cmpRol rd n rs) := ⟨rfl, rfl⟩
theorem ShapeSpells.cmpRor (rd : Reg) (n : BitVec 2) (rs : Reg) :
    ShapeSpells.Statement (.cmpRor rd n rs) := ⟨rfl, rfl⟩
theorem ShapeSpells.cmpA6 (rd : Reg) (addr : BitVec 6) : ShapeSpells.Statement (.cmpA6 rd addr) := ⟨rfl, rfl⟩
theorem ShapeSpells.negBpIm6 (rd : Reg) (imm : BitVec 6) : ShapeSpells.Statement (.negBpIm6 rd imm) := ⟨rfl, rfl⟩
theorem ShapeSpells.negIm6 (rd : Reg) (imm : BitVec 6) : ShapeSpells.Statement (.negIm6 rd imm) := ⟨rfl, rfl⟩
theorem ShapeSpells.negInd (rd : Reg) (d : Bool) (mark : PtrMark) (rs : Reg) :
    ShapeSpells.Statement (.negInd rd d mark rs) := ⟨rfl, rfl⟩
theorem ShapeSpells.negReg (rd : Reg) (rs : Reg) : ShapeSpells.Statement (.negReg rd rs) := ⟨rfl, rfl⟩
theorem ShapeSpells.negIm16 (rd : Reg) (imm : Word) : ShapeSpells.Statement (.negIm16 rd imm) := ⟨rfl, rfl⟩
theorem ShapeSpells.negA16 (rd : Reg) (addr : Word) : ShapeSpells.Statement (.negA16 rd addr) := ⟨rfl, rfl⟩
theorem ShapeSpells.negA16w (rd : Reg) (addr : Word) : ShapeSpells.Statement (.negA16w rd addr) := ⟨rfl, rfl⟩
theorem ShapeSpells.negAsr (rd : Reg) (n : BitVec 2) (rs : Reg) :
    ShapeSpells.Statement (.negAsr rd n rs) := ⟨rfl, rfl⟩
theorem ShapeSpells.negLsl (rd : Reg) (n : BitVec 2) (rs : Reg) :
    ShapeSpells.Statement (.negLsl rd n rs) := ⟨rfl, rfl⟩
theorem ShapeSpells.negLsr (rd : Reg) (n : BitVec 2) (rs : Reg) :
    ShapeSpells.Statement (.negLsr rd n rs) := ⟨rfl, rfl⟩
theorem ShapeSpells.negRol (rd : Reg) (n : BitVec 2) (rs : Reg) :
    ShapeSpells.Statement (.negRol rd n rs) := ⟨rfl, rfl⟩
theorem ShapeSpells.negRor (rd : Reg) (n : BitVec 2) (rs : Reg) :
    ShapeSpells.Statement (.negRor rd n rs) := ⟨rfl, rfl⟩
theorem ShapeSpells.negA6 (rd : Reg) (addr : BitVec 6) : ShapeSpells.Statement (.negA6 rd addr) := ⟨rfl, rfl⟩
theorem ShapeSpells.xorBpIm6 (rd : Reg) (imm : BitVec 6) : ShapeSpells.Statement (.xorBpIm6 rd imm) := ⟨rfl, rfl⟩
theorem ShapeSpells.xorIm6 (rd : Reg) (imm : BitVec 6) : ShapeSpells.Statement (.xorIm6 rd imm) := ⟨rfl, rfl⟩
theorem ShapeSpells.xorInd (rd : Reg) (d : Bool) (mark : PtrMark) (rs : Reg) :
    ShapeSpells.Statement (.xorInd rd d mark rs) := ⟨rfl, rfl⟩
theorem ShapeSpells.xorReg (rd : Reg) (rs : Reg) : ShapeSpells.Statement (.xorReg rd rs) := ⟨rfl, rfl⟩
theorem ShapeSpells.xorIm16 (rd : Reg) (rs : Reg) (imm : Word) :
    ShapeSpells.Statement (.xorIm16 rd rs imm) := ⟨rfl, rfl⟩
theorem ShapeSpells.xorA16 (rd : Reg) (rs : Reg) (addr : Word) :
    ShapeSpells.Statement (.xorA16 rd rs addr) := ⟨rfl, rfl⟩
theorem ShapeSpells.xorA16w (rd : Reg) (rs : Reg) (addr : Word) :
    ShapeSpells.Statement (.xorA16w rd rs addr) := ⟨rfl, rfl⟩
theorem ShapeSpells.xorAsr (rd : Reg) (n : BitVec 2) (rs : Reg) :
    ShapeSpells.Statement (.xorAsr rd n rs) := ⟨rfl, rfl⟩
theorem ShapeSpells.xorLsl (rd : Reg) (n : BitVec 2) (rs : Reg) :
    ShapeSpells.Statement (.xorLsl rd n rs) := ⟨rfl, rfl⟩
theorem ShapeSpells.xorLsr (rd : Reg) (n : BitVec 2) (rs : Reg) :
    ShapeSpells.Statement (.xorLsr rd n rs) := ⟨rfl, rfl⟩
theorem ShapeSpells.xorRol (rd : Reg) (n : BitVec 2) (rs : Reg) :
    ShapeSpells.Statement (.xorRol rd n rs) := ⟨rfl, rfl⟩
theorem ShapeSpells.xorRor (rd : Reg) (n : BitVec 2) (rs : Reg) :
    ShapeSpells.Statement (.xorRor rd n rs) := ⟨rfl, rfl⟩
theorem ShapeSpells.xorA6 (rd : Reg) (addr : BitVec 6) : ShapeSpells.Statement (.xorA6 rd addr) := ⟨rfl, rfl⟩
theorem ShapeSpells.loadBpIm6 (rd : Reg) (imm : BitVec 6) : ShapeSpells.Statement (.loadBpIm6 rd imm) := ⟨rfl, rfl⟩
theorem ShapeSpells.loadIm6 (rd : Reg) (imm : BitVec 6) : ShapeSpells.Statement (.loadIm6 rd imm) := ⟨rfl, rfl⟩
theorem ShapeSpells.loadInd (rd : Reg) (d : Bool) (mark : PtrMark) (rs : Reg) :
    ShapeSpells.Statement (.loadInd rd d mark rs) := ⟨rfl, rfl⟩
theorem ShapeSpells.loadReg (rd : Reg) (rs : Reg) : ShapeSpells.Statement (.loadReg rd rs) := ⟨rfl, rfl⟩
theorem ShapeSpells.loadIm16 (rd : Reg) (imm : Word) : ShapeSpells.Statement (.loadIm16 rd imm) := ⟨rfl, rfl⟩
theorem ShapeSpells.loadA16 (rd : Reg) (addr : Word) : ShapeSpells.Statement (.loadA16 rd addr) := ⟨rfl, rfl⟩
theorem ShapeSpells.loadAsr (rd : Reg) (n : BitVec 2) (rs : Reg) :
    ShapeSpells.Statement (.loadAsr rd n rs) := ⟨rfl, rfl⟩
theorem ShapeSpells.loadLsl (rd : Reg) (n : BitVec 2) (rs : Reg) :
    ShapeSpells.Statement (.loadLsl rd n rs) := ⟨rfl, rfl⟩
theorem ShapeSpells.loadLsr (rd : Reg) (n : BitVec 2) (rs : Reg) :
    ShapeSpells.Statement (.loadLsr rd n rs) := ⟨rfl, rfl⟩
theorem ShapeSpells.loadRol (rd : Reg) (n : BitVec 2) (rs : Reg) :
    ShapeSpells.Statement (.loadRol rd n rs) := ⟨rfl, rfl⟩
theorem ShapeSpells.loadRor (rd : Reg) (n : BitVec 2) (rs : Reg) :
    ShapeSpells.Statement (.loadRor rd n rs) := ⟨rfl, rfl⟩
theorem ShapeSpells.loadA6 (rd : Reg) (addr : BitVec 6) : ShapeSpells.Statement (.loadA6 rd addr) := ⟨rfl, rfl⟩
theorem ShapeSpells.orBpIm6 (rd : Reg) (imm : BitVec 6) : ShapeSpells.Statement (.orBpIm6 rd imm) := ⟨rfl, rfl⟩
theorem ShapeSpells.orIm6 (rd : Reg) (imm : BitVec 6) : ShapeSpells.Statement (.orIm6 rd imm) := ⟨rfl, rfl⟩
theorem ShapeSpells.orInd (rd : Reg) (d : Bool) (mark : PtrMark) (rs : Reg) :
    ShapeSpells.Statement (.orInd rd d mark rs) := ⟨rfl, rfl⟩
theorem ShapeSpells.orReg (rd : Reg) (rs : Reg) : ShapeSpells.Statement (.orReg rd rs) := ⟨rfl, rfl⟩
theorem ShapeSpells.orIm16 (rd : Reg) (rs : Reg) (imm : Word) :
    ShapeSpells.Statement (.orIm16 rd rs imm) := ⟨rfl, rfl⟩
theorem ShapeSpells.orA16 (rd : Reg) (rs : Reg) (addr : Word) :
    ShapeSpells.Statement (.orA16 rd rs addr) := ⟨rfl, rfl⟩
theorem ShapeSpells.orA16w (rd : Reg) (rs : Reg) (addr : Word) :
    ShapeSpells.Statement (.orA16w rd rs addr) := ⟨rfl, rfl⟩
theorem ShapeSpells.orAsr (rd : Reg) (n : BitVec 2) (rs : Reg) : ShapeSpells.Statement (.orAsr rd n rs) := ⟨rfl, rfl⟩
theorem ShapeSpells.orLsl (rd : Reg) (n : BitVec 2) (rs : Reg) : ShapeSpells.Statement (.orLsl rd n rs) := ⟨rfl, rfl⟩
theorem ShapeSpells.orLsr (rd : Reg) (n : BitVec 2) (rs : Reg) : ShapeSpells.Statement (.orLsr rd n rs) := ⟨rfl, rfl⟩
theorem ShapeSpells.orRol (rd : Reg) (n : BitVec 2) (rs : Reg) : ShapeSpells.Statement (.orRol rd n rs) := ⟨rfl, rfl⟩
theorem ShapeSpells.orRor (rd : Reg) (n : BitVec 2) (rs : Reg) : ShapeSpells.Statement (.orRor rd n rs) := ⟨rfl, rfl⟩
theorem ShapeSpells.orA6 (rd : Reg) (addr : BitVec 6) : ShapeSpells.Statement (.orA6 rd addr) := ⟨rfl, rfl⟩
theorem ShapeSpells.andBpIm6 (rd : Reg) (imm : BitVec 6) : ShapeSpells.Statement (.andBpIm6 rd imm) := ⟨rfl, rfl⟩
theorem ShapeSpells.andIm6 (rd : Reg) (imm : BitVec 6) : ShapeSpells.Statement (.andIm6 rd imm) := ⟨rfl, rfl⟩
theorem ShapeSpells.andInd (rd : Reg) (d : Bool) (mark : PtrMark) (rs : Reg) :
    ShapeSpells.Statement (.andInd rd d mark rs) := ⟨rfl, rfl⟩
theorem ShapeSpells.andReg (rd : Reg) (rs : Reg) : ShapeSpells.Statement (.andReg rd rs) := ⟨rfl, rfl⟩
theorem ShapeSpells.andIm16 (rd : Reg) (rs : Reg) (imm : Word) :
    ShapeSpells.Statement (.andIm16 rd rs imm) := ⟨rfl, rfl⟩
theorem ShapeSpells.andA16 (rd : Reg) (rs : Reg) (addr : Word) :
    ShapeSpells.Statement (.andA16 rd rs addr) := ⟨rfl, rfl⟩
theorem ShapeSpells.andA16w (rd : Reg) (rs : Reg) (addr : Word) :
    ShapeSpells.Statement (.andA16w rd rs addr) := ⟨rfl, rfl⟩
theorem ShapeSpells.andAsr (rd : Reg) (n : BitVec 2) (rs : Reg) :
    ShapeSpells.Statement (.andAsr rd n rs) := ⟨rfl, rfl⟩
theorem ShapeSpells.andLsl (rd : Reg) (n : BitVec 2) (rs : Reg) :
    ShapeSpells.Statement (.andLsl rd n rs) := ⟨rfl, rfl⟩
theorem ShapeSpells.andLsr (rd : Reg) (n : BitVec 2) (rs : Reg) :
    ShapeSpells.Statement (.andLsr rd n rs) := ⟨rfl, rfl⟩
theorem ShapeSpells.andRol (rd : Reg) (n : BitVec 2) (rs : Reg) :
    ShapeSpells.Statement (.andRol rd n rs) := ⟨rfl, rfl⟩
theorem ShapeSpells.andRor (rd : Reg) (n : BitVec 2) (rs : Reg) :
    ShapeSpells.Statement (.andRor rd n rs) := ⟨rfl, rfl⟩
theorem ShapeSpells.andA6 (rd : Reg) (addr : BitVec 6) : ShapeSpells.Statement (.andA6 rd addr) := ⟨rfl, rfl⟩
theorem ShapeSpells.testBpIm6 (rd : Reg) (imm : BitVec 6) : ShapeSpells.Statement (.testBpIm6 rd imm) := ⟨rfl, rfl⟩
theorem ShapeSpells.testIm6 (rd : Reg) (imm : BitVec 6) : ShapeSpells.Statement (.testIm6 rd imm) := ⟨rfl, rfl⟩
theorem ShapeSpells.testInd (rd : Reg) (d : Bool) (mark : PtrMark) (rs : Reg) :
    ShapeSpells.Statement (.testInd rd d mark rs) := ⟨rfl, rfl⟩
theorem ShapeSpells.testReg (rd : Reg) (rs : Reg) : ShapeSpells.Statement (.testReg rd rs) := ⟨rfl, rfl⟩
theorem ShapeSpells.testIm16 (rs : Reg) (imm : Word) : ShapeSpells.Statement (.testIm16 rs imm) := ⟨rfl, rfl⟩
theorem ShapeSpells.testA16 (rs : Reg) (addr : Word) : ShapeSpells.Statement (.testA16 rs addr) := ⟨rfl, rfl⟩
theorem ShapeSpells.testA16w (rd : Reg) (rs : Reg) (addr : Word) :
    ShapeSpells.Statement (.testA16w rd rs addr) := ⟨rfl, rfl⟩
theorem ShapeSpells.testAsr (rd : Reg) (n : BitVec 2) (rs : Reg) :
    ShapeSpells.Statement (.testAsr rd n rs) := ⟨rfl, rfl⟩
theorem ShapeSpells.testLsl (rd : Reg) (n : BitVec 2) (rs : Reg) :
    ShapeSpells.Statement (.testLsl rd n rs) := ⟨rfl, rfl⟩
theorem ShapeSpells.testLsr (rd : Reg) (n : BitVec 2) (rs : Reg) :
    ShapeSpells.Statement (.testLsr rd n rs) := ⟨rfl, rfl⟩
theorem ShapeSpells.testRol (rd : Reg) (n : BitVec 2) (rs : Reg) :
    ShapeSpells.Statement (.testRol rd n rs) := ⟨rfl, rfl⟩
theorem ShapeSpells.testRor (rd : Reg) (n : BitVec 2) (rs : Reg) :
    ShapeSpells.Statement (.testRor rd n rs) := ⟨rfl, rfl⟩
theorem ShapeSpells.testA6 (rd : Reg) (addr : BitVec 6) : ShapeSpells.Statement (.testA6 rd addr) := ⟨rfl, rfl⟩
theorem ShapeSpells.storeBpIm6 (rd : Reg) (imm : BitVec 6) : ShapeSpells.Statement (.storeBpIm6 rd imm) := ⟨rfl, rfl⟩
theorem ShapeSpells.storeInd (rd : Reg) (d : Bool) (mark : PtrMark) (rs : Reg) :
    ShapeSpells.Statement (.storeInd rd d mark rs) := ⟨rfl, rfl⟩
theorem ShapeSpells.storeA16w (rd : Reg) (addr : Word) : ShapeSpells.Statement (.storeA16w rd addr) := ⟨rfl, rfl⟩
theorem ShapeSpells.storeA6 (rd : Reg) (addr : BitVec 6) : ShapeSpells.Statement (.storeA6 rd addr) := ⟨rfl, rfl⟩
theorem ShapeSpells.push (rd : Reg) (n : BitVec 3) (rs : Reg) : ShapeSpells.Statement (.push rd n rs) := ⟨rfl, rfl⟩
theorem ShapeSpells.pop (rd : Reg) (n : BitVec 3) (rs : Reg) : ShapeSpells.Statement (.pop rd n rs) := ⟨rfl, rfl⟩
theorem ShapeSpells.tstbRr (rd : Reg) (rs : Reg) : ShapeSpells.Statement (.tstbRr rd rs) := ⟨rfl, rfl⟩
theorem ShapeSpells.tstbRo (rd : Reg) (k : BitVec 4) : ShapeSpells.Statement (.tstbRo rd k) := ⟨rfl, rfl⟩
theorem ShapeSpells.tstbMr (d : Bool) (rd : Reg) (rs : Reg) : ShapeSpells.Statement (.tstbMr d rd rs) := ⟨rfl, rfl⟩
theorem ShapeSpells.tstbMo (d : Bool) (rd : Reg) (k : BitVec 4) : ShapeSpells.Statement (.tstbMo d rd k) := ⟨rfl, rfl⟩
theorem ShapeSpells.setbRr (rd : Reg) (rs : Reg) : ShapeSpells.Statement (.setbRr rd rs) := ⟨rfl, rfl⟩
theorem ShapeSpells.setbRo (rd : Reg) (k : BitVec 4) : ShapeSpells.Statement (.setbRo rd k) := ⟨rfl, rfl⟩
theorem ShapeSpells.setbMr (d : Bool) (rd : Reg) (rs : Reg) : ShapeSpells.Statement (.setbMr d rd rs) := ⟨rfl, rfl⟩
theorem ShapeSpells.setbMo (d : Bool) (rd : Reg) (k : BitVec 4) : ShapeSpells.Statement (.setbMo d rd k) := ⟨rfl, rfl⟩
theorem ShapeSpells.clrbRr (rd : Reg) (rs : Reg) : ShapeSpells.Statement (.clrbRr rd rs) := ⟨rfl, rfl⟩
theorem ShapeSpells.clrbRo (rd : Reg) (k : BitVec 4) : ShapeSpells.Statement (.clrbRo rd k) := ⟨rfl, rfl⟩
theorem ShapeSpells.clrbMr (d : Bool) (rd : Reg) (rs : Reg) : ShapeSpells.Statement (.clrbMr d rd rs) := ⟨rfl, rfl⟩
theorem ShapeSpells.clrbMo (d : Bool) (rd : Reg) (k : BitVec 4) : ShapeSpells.Statement (.clrbMo d rd k) := ⟨rfl, rfl⟩
theorem ShapeSpells.invbRr (rd : Reg) (rs : Reg) : ShapeSpells.Statement (.invbRr rd rs) := ⟨rfl, rfl⟩
theorem ShapeSpells.invbRo (rd : Reg) (k : BitVec 4) : ShapeSpells.Statement (.invbRo rd k) := ⟨rfl, rfl⟩
theorem ShapeSpells.invbMr (d : Bool) (rd : Reg) (rs : Reg) : ShapeSpells.Statement (.invbMr d rd rs) := ⟨rfl, rfl⟩
theorem ShapeSpells.invbMo (d : Bool) (rd : Reg) (k : BitVec 4) : ShapeSpells.Statement (.invbMo d rd k) := ⟨rfl, rfl⟩
theorem ShapeSpells.shift16Asr (rd : Reg) (rs : Reg) : ShapeSpells.Statement (.shift16Asr rd rs) := ⟨rfl, rfl⟩
theorem ShapeSpells.shift16Asror (rd : Reg) (rs : Reg) : ShapeSpells.Statement (.shift16Asror rd rs) := ⟨rfl, rfl⟩
theorem ShapeSpells.shift16Lsl (rd : Reg) (rs : Reg) : ShapeSpells.Statement (.shift16Lsl rd rs) := ⟨rfl, rfl⟩
theorem ShapeSpells.shift16Lslor (rd : Reg) (rs : Reg) : ShapeSpells.Statement (.shift16Lslor rd rs) := ⟨rfl, rfl⟩
theorem ShapeSpells.shift16Lsr (rd : Reg) (rs : Reg) : ShapeSpells.Statement (.shift16Lsr rd rs) := ⟨rfl, rfl⟩
theorem ShapeSpells.shift16Lsror (rd : Reg) (rs : Reg) : ShapeSpells.Statement (.shift16Lsror rd rs) := ⟨rfl, rfl⟩
theorem ShapeSpells.shift16Rol (rd : Reg) (rs : Reg) : ShapeSpells.Statement (.shift16Rol rd rs) := ⟨rfl, rfl⟩
theorem ShapeSpells.shift16Ror (rd : Reg) (rs : Reg) : ShapeSpells.Statement (.shift16Ror rd rs) := ⟨rfl, rfl⟩
theorem ShapeSpells.mulUu (rd : Reg) (rs : Reg) : ShapeSpells.Statement (.mulUu rd rs) := ⟨rfl, rfl⟩
theorem ShapeSpells.mulsUu (rd : Reg) (n : BitVec 4) (rs : Reg) :
    ShapeSpells.Statement (.mulsUu rd n rs) := ⟨rfl, rfl⟩
theorem ShapeSpells.dsIm6 (imm : BitVec 6) : ShapeSpells.Statement (.dsIm6 imm) := ⟨rfl, rfl⟩
theorem ShapeSpells.mulUs (rd : Reg) (rs : Reg) : ShapeSpells.Statement (.mulUs rd rs) := ⟨rfl, rfl⟩
theorem ShapeSpells.movRsDs (rs : Reg) : ShapeSpells.Statement (.movRsDs rs) := ⟨rfl, rfl⟩
theorem ShapeSpells.movDsRs (rs : Reg) : ShapeSpells.Statement (.movDsRs rs) := ⟨rfl, rfl⟩
theorem ShapeSpells.movRsFr (rs : Reg) : ShapeSpells.Statement (.movRsFr rs) := ⟨rfl, rfl⟩
theorem ShapeSpells.movFrRs (rs : Reg) : ShapeSpells.Statement (.movFrRs rs) := ⟨rfl, rfl⟩
theorem ShapeSpells.call (addr : Addr) : ShapeSpells.Statement (.call addr) := ⟨rfl, rfl⟩
theorem ShapeSpells.goto (addr : Addr) : ShapeSpells.Statement (.goto addr) := ⟨rfl, rfl⟩
theorem ShapeSpells.gotoMr : ShapeSpells.Statement .gotoMr := ⟨rfl, rfl⟩
theorem ShapeSpells.mulsUs (rd : Reg) (n : BitVec 4) (rs : Reg) :
    ShapeSpells.Statement (.mulsUs rd n rs) := ⟨rfl, rfl⟩
theorem ShapeSpells.mulSs (rd : Reg) (rs : Reg) : ShapeSpells.Statement (.mulSs rd rs) := ⟨rfl, rfl⟩
theorem ShapeSpells.mulsSs (rd : Reg) (n : BitVec 4) (rs : Reg) :
    ShapeSpells.Statement (.mulsSs rd n rs) := ⟨rfl, rfl⟩
theorem ShapeSpells.intOff : ShapeSpells.Statement .intOff := ⟨rfl, rfl⟩
theorem ShapeSpells.intIrq : ShapeSpells.Statement .intIrq := ⟨rfl, rfl⟩
theorem ShapeSpells.intFiq : ShapeSpells.Statement .intFiq := ⟨rfl, rfl⟩
theorem ShapeSpells.intFiqIrq : ShapeSpells.Statement .intFiqIrq := ⟨rfl, rfl⟩
theorem ShapeSpells.firMovOn : ShapeSpells.Statement .firMovOn := ⟨rfl, rfl⟩
theorem ShapeSpells.firMovOff : ShapeSpells.Statement .firMovOff := ⟨rfl, rfl⟩
theorem ShapeSpells.fractionOff : ShapeSpells.Statement .fractionOff := ⟨rfl, rfl⟩
theorem ShapeSpells.fractionOn : ShapeSpells.Statement .fractionOn := ⟨rfl, rfl⟩
theorem ShapeSpells.irqOff : ShapeSpells.Statement .irqOff := ⟨rfl, rfl⟩
theorem ShapeSpells.irqOn : ShapeSpells.Statement .irqOn := ⟨rfl, rfl⟩
theorem ShapeSpells.secbankOff : ShapeSpells.Statement .secbankOff := ⟨rfl, rfl⟩
theorem ShapeSpells.secbankOn : ShapeSpells.Statement .secbankOn := ⟨rfl, rfl⟩
theorem ShapeSpells.fiqOff : ShapeSpells.Statement .fiqOff := ⟨rfl, rfl⟩
theorem ShapeSpells.irqnestOff : ShapeSpells.Statement .irqnestOff := ⟨rfl, rfl⟩
theorem ShapeSpells.fiqOn : ShapeSpells.Statement .fiqOn := ⟨rfl, rfl⟩
theorem ShapeSpells.irqnestOn : ShapeSpells.Statement .irqnestOn := ⟨rfl, rfl⟩
theorem ShapeSpells.brk : ShapeSpells.Statement .brk := ⟨rfl, rfl⟩
theorem ShapeSpells.callMr : ShapeSpells.Statement .callMr := ⟨rfl, rfl⟩
theorem ShapeSpells.divs : ShapeSpells.Statement .divs := ⟨rfl, rfl⟩
theorem ShapeSpells.divq : ShapeSpells.Statement .divq := ⟨rfl, rfl⟩
theorem ShapeSpells.exp : ShapeSpells.Statement .exp := ⟨rfl, rfl⟩
theorem ShapeSpells.nop : ShapeSpells.Statement .nop := ⟨rfl, rfl⟩

end Sys2Proof.Laws
end

