-- ==== Sys2Proof/Laws/Step.lean ====
section
/-! SUPPORT. When a fetch and a step answer a next state, and which; and that reset's memory is canonical. -/

namespace Sys2Proof.Machine

/-! ### Fetch -/

theorem fetchWord_next (s t : State) (w : Word) :
    fetchWord s = .next (w, t) ↔ readable s s.lpc ∧ w = wordAt s s.lpc ∧ t = s.setLpc (s.lpc + 1#22) := by
  simp only [fetchWord, andThen_next, memRead_next, State.advance, Host.Outcome.next.injEq, Prod.mk.injEq]
  constructor
  · rintro ⟨v, ⟨h, rfl⟩, rfl, rfl⟩
    exact ⟨h, rfl, rfl⟩
  · rintro ⟨h, rfl, rfl⟩
    exact ⟨_, ⟨h, rfl⟩, rfl, rfl⟩

/-- The decoder is asked for the words it needs, and the location counter ends past them. -/
theorem fetch_next (s u : State) (i : Instr) :
    fetch s = .next (i, u) ↔ readable s s.lpc ∧
      (if isTwoWord (wordAt s s.lpc) = true then
        readable s (s.lpc + 1#22) ∧ decode (wordAt s s.lpc) (wordAt s (s.lpc + 1#22)) = .ok i ∧
          u = s.setLpc (s.lpc + 1#22 + 1#22)
      else decode (wordAt s s.lpc) 0#16 = .ok i ∧ u = s.setLpc (s.lpc + 1#22)) := by
  have hr : ∀ a b, readable (s.setLpc a) b ↔ readable s b := fun a b => readable_congr (by simp) b
  have hw : ∀ a b, wordAt (s.setLpc a) b = wordAt s b := fun a b => by simp [wordAt]
  have hd : ∀ (w0 w1 : Word) (t : State),
      (match decode w0 w1 with
        | .ok i => (.next (i, t) : Res (Instr × State))
        | .error why => .refused (.reserved why)) = .next (i, u) ↔ decode w0 w1 = .ok i ∧ u = t := by
    intro w0 w1 t
    cases decode w0 w1 <;> simp [eq_comm]
  simp only [fetch, andThen_next, Prod.exists, fetchWord_next, fetchSecond]
  constructor
  · rintro ⟨w0, t, ⟨h1, rfl, rfl⟩, w1, v, h2, h3⟩
    refine ⟨h1, ?_⟩
    split at h2
    · rename_i h
      simp only [fetchWord_next, State.lpc_setLpc, hr, hw, State.setLpc_setLpc] at h2
      obtain ⟨h2, rfl, rfl⟩ := h2
      rw [if_pos h]
      exact ⟨h2, (hd _ _ _).1 h3⟩
    · rename_i h
      simp only [Host.Outcome.next.injEq, Prod.mk.injEq] at h2
      obtain ⟨rfl, rfl⟩ := h2
      rw [if_neg h]
      exact (hd _ _ _).1 h3
  · rintro ⟨h1, h2⟩
    refine ⟨_, _, ⟨h1, rfl, rfl⟩, ?_⟩
    split at h2
    · rename_i h
      refine ⟨_, _, ?_, (hd _ _ _).2 h2.2⟩
      rw [if_pos h]
      simp only [fetchWord_next, State.lpc_setLpc, hr, hw, State.setLpc_setLpc, and_true]
      exact h2.1
    · rename_i h
      refine ⟨_, _, ?_, (hd _ _ _).2 h2⟩
      rw [if_neg h]

/-! ### Step -/

theorem runInstr_next (s t : State) :
    runInstr s = .next t ↔
      ∃ i u v, fetch s = .next (i, u) ∧ exec i u = .next v ∧ t = v.addCycles (cyclesOf i.shape u) := by
  simp only [runInstr, andThen_next, Prod.exists, Host.Outcome.next.injEq]
  constructor
  · rintro ⟨i, u, h1, v, h2, rfl⟩
    exact ⟨i, u, v, h1, h2, rfl⟩
  · rintro ⟨i, u, v, h1, h2, rfl⟩
    exact ⟨i, u, h1, v, h2, rfl⟩

theorem runEntry_next (src : IntSource) (s t : State) :
    runEntry src s = .next t ↔
      ∃ u, enterInterrupt src s = .next u ∧ t = u.addCycles (Config.unstatedCycles s.draws) := by
  simp only [runEntry, andThen_next, Host.Outcome.next.injEq]
  exact exists_congr fun u => and_congr_right fun _ => eq_comm

/-- Everything a step can do: the reset step, the entry of the accepted source, or one instruction. -/
theorem step_next (s t : State) :
    step s = .next t ↔
      (s.resetPending = true ∧ resetStep s.nextSample = .next t) ∨
      (s.resetPending = false ∧ ∃ src, accepted s.linesNow s = some src ∧ runEntry src s.nextSample = .next t) ∨
      (s.resetPending = false ∧ accepted s.linesNow s = none ∧ runInstr s.nextSample = .next t) := by
  have ha : accepted s.linesNow s.nextSample = accepted s.linesNow s := rfl
  unfold step
  cases s.resetPending
  · simp only [Bool.false_eq_true, if_false, ha, false_and, false_or, true_and]
    cases accepted s.linesNow s <;> simp
  · simp

/-! ### Reset -/

theorem reset_mem_wf : Memory.wf State.reset.mem = true := rfl

/-- A write keeps the canonical form. -/
theorem memWrite_wf {a : Addr} {v : Word} {s t : State} (h : memWrite a v s = .next t)
    (hs : Memory.wf s.mem = true) : Memory.wf t.mem = true := by
  obtain ⟨-, rfl⟩ := (memWrite_next a v s t).1 h
  exact Memory.wf_setWord s.mem a v hs

end Sys2Proof.Machine
end

