-- ==== Sys2Proof/Tests/Slice0.lean ====
section
/-! SUPPORT. The model's own tests: the operand checks, the decoding of words written from the spec's
encodings, one-step vectors of `95_test_vectors.md`, and a witness of the hypotheses of each statement. -/

namespace Sys2Proof.Tests

open Sys2Proof.Machine

/-! ### The operand checks refuse ill-formed operands -/

theorem test_wf_pc_destination : (Instr.addIm6 .pc 0#6).check = some .pcOperand := by decide
theorem test_wf_pc_displacement : (Instr.loadBpIm6 .pc 0#6).check = some .pcOperand := by decide
theorem test_wf_ind_same_register : (Instr.addInd .r1 false .postInc .r1).check = some .indirectCollision := by decide
theorem test_wf_ind_sr_pointer : (Instr.storeInd .r1 false .preInc .sr).check = some .indirectCollision := by decide
theorem test_wf_ind_pc_pointer : (Instr.loadInd .r1 false .postDec .pc).check = some .indirectCollision := by decide
theorem test_wf_ind_sr_with_d : (Instr.loadInd .sr true .postInc .r1).check = some .indirectCollision := by decide
theorem test_wf_ind_keep : (Instr.loadInd .r1 true .keep .r1).check = none := by decide
theorem test_wf_push_empty : (Instr.push .r4 0#3 .sp).check = some .emptyList := by decide
theorem test_wf_push_range : (Instr.push .r1 3#3 .bp).check = some .listRange := by decide
theorem test_wf_push_pointer : (Instr.push .r4 3#3 .r2).check = some .pointerInList := by decide
theorem test_wf_pop_empty : (Instr.pop .r4 0#3 .sp).check = some .emptyList := by decide
theorem test_wf_pop_range : (Instr.pop .sr 2#3 .sp).check = some .listRange := by decide
theorem test_wf_pop_pointer : (Instr.pop .r1 3#3 .r4).check = some .pointerInList := by decide
theorem test_wf_bit_pc : (Instr.setbRo .pc 3#4).check = some .pcOperand := by decide
theorem test_wf_shift_pc : (Instr.shift16Asr .pc .r1).check = some .pcOperand := by decide
theorem test_wf_shift_half : (Instr.shift16Asror .r3 .r1).check = some .orShiftHalf ∧
    (Instr.shift16Lslor .r4 .r1).check = some .orShiftHalf ∧
    (Instr.shift16Lsror .r2 .r1).check = some .orShiftHalf := by decide
theorem test_wf_mul_pc : (Instr.mulSs .r1 .pc).check = some .pcOperand := by decide
theorem test_wf_muls_pc : (Instr.mulsSs .pc 1#4 .r1).check = some .pcOperand := by decide
theorem test_wf_muls_mr : (Instr.mulsUs .r1 1#4 .r4).check = some .mulsPointer := by decide
theorem test_wf_retf_spelling : (Instr.pop .bp 2#3 .sp).wellFormed = false := by decide

/-! ### Decoding: one word for every instruction, written from the masks and fields of
`spec/opcode_table.json` -/

/-- The decoder reads `i` from the words. -/
def reads (w0 w1 : Word) (i : Instr) : Bool :=
  match decode w0 w1 with
  | .ok j => decide (j = i)
  | .error _ => false

/-- The decoder refuses the word for this reason. -/
def refuses (w0 : Word) (why : Reserved) : Bool :=
  match decode w0 0#16 with
  | .ok _ => false
  | .error e => decide (e = why)

theorem test_decode_branch :
    (reads 0x0E25#16 0xFFFF#16 (.jcc false 0x25#6) &&
      reads 0x1E13#16 0xFFFF#16 (.jcs false 0x13#6) &&
      reads 0x2E6E#16 0xFFFF#16 (.jsc true 0x2E#6) &&
      reads 0x3E41#16 0xFFFF#16 (.jss true 0x01#6) &&
      reads 0x4E3F#16 0xFFFF#16 (.jne false 0x3F#6) &&
      reads 0x5E20#16 0xFFFF#16 (.jz false 0x20#6) &&
      reads 0x6E65#16 0xFFFF#16 (.jpl true 0x25#6) &&
      reads 0x7E53#16 0xFFFF#16 (.jmi true 0x13#6) &&
      reads 0x8E2E#16 0xFFFF#16 (.jbe false 0x2E#6) &&
      reads 0x9E01#16 0xFFFF#16 (.ja false 0x01#6) &&
      reads 0xAE7F#16 0xFFFF#16 (.jle true 0x3F#6) &&
      reads 0xBE60#16 0xFFFF#16 (.jg true 0x20#6) &&
      reads 0xCE25#16 0xFFFF#16 (.jvc false 0x25#6) &&
      reads 0xDE13#16 0xFFFF#16 (.jvs false 0x13#6) &&
      reads 0xEE6E#16 0xFFFF#16 (.jmp true 0x2E#6)) = true := by decide

theorem test_decode_transfer_and_stack :
    (reads 0x9A90#16 0xFFFF#16 .retf &&
      reads 0x9A98#16 0xFFFF#16 .reti &&
      reads 0xDAA0#16 0xFFFF#16 (.push .bp 4#3 .sp) &&
      reads 0x9498#16 0xFFFF#16 (.pop .r2 3#3 .sp) &&
      reads 0xF06B#16 0x5FEF#16 (.call 0x2B5FEF#22) &&
      reads 0xFEAB#16 0x6112#16 (.goto 0x2B6112#22) &&
      reads 0xFEC0#16 0xFFFF#16 .gotoMr &&
      reads 0xF160#16 0xFFFF#16 .brk &&
      reads 0xF161#16 0xFFFF#16 .callMr) = true := by decide

theorem test_decode_add :
    (reads 0x0C20#16 0xFFFF#16 (.addBpIm6 .sr 0x20#6) &&
      reads 0x0A65#16 0xFFFF#16 (.addIm6 .bp 0x25#6) &&
      reads 0x06E4#16 0xFFFF#16 (.addInd .r3 true .keep .r4) &&
      reads 0x0302#16 0xFFFF#16 (.addReg .r1 .r2) &&
      reads 0x050D#16 0x97DF#16 (.addIm16 .r2 .bp 0x97DF#16) &&
      reads 0x0B11#16 0x9902#16 (.addA16 .bp .r1 0x9902#16) &&
      reads 0x0918#16 0x9A25#16 (.addA16w .r4 .sp 0x9A25#16) &&
      reads 0x0134#16 0xFFFF#16 (.addAsr .sp 2#2 .r4) &&
      reads 0x0749#16 0xFFFF#16 (.addLsl .r3 1#2 .r1) &&
      reads 0x037E#16 0xFFFF#16 (.addLsr .r1 3#2 .sr) &&
      reads 0x0D83#16 0xFFFF#16 (.addRol .sr 0#2 .r3) &&
      reads 0x0BB2#16 0xFFFF#16 (.addRor .bp 2#2 .r2) &&
      reads 0x05E0#16 0xFFFF#16 (.addA6 .r2 0x20#6)) = true := by decide

theorem test_decode_adc :
    (reads 0x1225#16 0xFFFF#16 (.adcBpIm6 .r1 0x25#6) &&
      reads 0x1453#16 0xFFFF#16 (.adcIm6 .r2 0x13#6) &&
      reads 0x12CA#16 0xFFFF#16 (.adcInd .r1 false .postDec .r2) &&
      reads 0x1900#16 0xFFFF#16 (.adcReg .r4 .sp) &&
      reads 0x110C#16 0xA6A6#16 (.adcIm16 .sp .r4 0xA6A6#16) &&
      reads 0x1711#16 0xA7C9#16 (.adcA16 .r3 .r1 0xA7C9#16) &&
      reads 0x131E#16 0xA8EC#16 (.adcA16w .r1 .sr 0xA8EC#16) &&
      reads 0x1D2B#16 0xFFFF#16 (.adcAsr .sr 1#2 .r3) &&
      reads 0x1B5A#16 0xFFFF#16 (.adcLsl .bp 3#2 .r2) &&
      reads 0x1564#16 0xFFFF#16 (.adcLsr .r2 0#2 .r4) &&
      reads 0x1392#16 0xFFFF#16 (.adcRol .r1 2#2 .r2) &&
      reads 0x15AD#16 0xFFFF#16 (.adcRor .r2 1#2 .bp) &&
      reads 0x1BE5#16 0xFFFF#16 (.adcA6 .bp 0x25#6)) = true := by decide

theorem test_decode_sub :
    (reads 0x2813#16 0xFFFF#16 (.subBpIm6 .r4 0x13#6) &&
      reads 0x206E#16 0xFFFF#16 (.subIm6 .sp 0x2E#6) &&
      reads 0x24F5#16 0xFFFF#16 (.subInd .r2 true .postInc .bp) &&
      reads 0x2306#16 0xFFFF#16 (.subReg .r1 .sr) &&
      reads 0x2D0B#16 0xB56D#16 (.subIm16 .sr .r3 0xB56D#16) &&
      reads 0x2B12#16 0xB690#16 (.subA16 .bp .r2 0xB690#16) &&
      reads 0x251C#16 0xB7B3#16 (.subA16w .r2 .r4 0xB7B3#16) &&
      reads 0x233A#16 0xFFFF#16 (.subAsr .r1 3#2 .r2) &&
      reads 0x2545#16 0xFFFF#16 (.subLsl .r2 0#2 .bp) &&
      reads 0x2B71#16 0xFFFF#16 (.subLsr .bp 2#2 .r1) &&
      reads 0x2988#16 0xFFFF#16 (.subRol .r4 1#2 .sp) &&
      reads 0x21BC#16 0xFFFF#16 (.subRor .sp 3#2 .r4) &&
      reads 0x27D3#16 0xFFFF#16 (.subA6 .r3 0x13#6)) = true := by decide

theorem test_decode_sbc :
    (reads 0x322E#16 0xFFFF#16 (.sbcBpIm6 .r1 0x2E#6) &&
      reads 0x3C41#16 0xFFFF#16 (.sbcIm6 .sr 0x01#6) &&
      reads 0x3AD9#16 0xFFFF#16 (.sbcInd .bp false .preInc .r1) &&
      reads 0x3504#16 0xFFFF#16 (.sbcReg .r2 .r4) &&
      reads 0x330A#16 0xC434#16 (.sbcIm16 .r1 .r2 0xC434#16) &&
      reads 0x3515#16 0xC557#16 (.sbcA16 .r2 .bp 0xC557#16) &&
      reads 0x3B19#16 0xC67A#16 (.sbcA16w .bp .r1 0xC67A#16) &&
      reads 0x3920#16 0xFFFF#16 (.sbcAsr .r4 0#2 .sp) &&
      reads 0x3154#16 0xFFFF#16 (.sbcLsl .sp 2#2 .r4) &&
      reads 0x3769#16 0xFFFF#16 (.sbcLsr .r3 1#2 .r1) &&
      reads 0x339E#16 0xFFFF#16 (.sbcRol .r1 3#2 .sr) &&
      reads 0x3DA3#16 0xFFFF#16 (.sbcRor .sr 0#2 .r3) &&
      reads 0x3BEE#16 0xFFFF#16 (.sbcA6 .bp 0x2E#6)) = true := by decide

theorem test_decode_cmp :
    (reads 0x4401#16 0xFFFF#16 (.cmpBpIm6 .r2 0x01#6) &&
      reads 0x427F#16 0xFFFF#16 (.cmpIm6 .r1 0x3F#6) &&
      reads 0x46E4#16 0xFFFF#16 (.cmpInd .r3 true .keep .r4) &&
      reads 0x4B01#16 0xFFFF#16 (.cmpReg .bp .r1) &&
      reads 0x4908#16 0xD2FB#16 (.cmpIm16 .sp 0xD2FB#16) &&
      reads 0x4114#16 0xD41E#16 (.cmpA16 .r4 0xD41E#16) &&
      reads 0x4719#16 0xD541#16 (.cmpA16w .r3 .r1 0xD541#16) &&
      reads 0x4336#16 0xFFFF#16 (.cmpAsr .r1 2#2 .sr) &&
      reads 0x4D4B#16 0xFFFF#16 (.cmpLsl .sr 1#2 .r3) &&
      reads 0x4B7A#16 0xFFFF#16 (.cmpLsr .bp 3#2 .r2) &&
      reads 0x4584#16 0xFFFF#16 (.cmpRol .r2 0#2 .r4) &&
      reads 0x43B2#16 0xFFFF#16 (.cmpRor .r1 2#2 .r2) &&
      reads 0x45C1#16 0xFFFF#16 (.cmpA6 .r2 0x01#6)) = true := by decide

theorem test_decode_neg :
    (reads 0x6A3F#16 0xFFFF#16 (.negBpIm6 .bp 0x3F#6) &&
      reads 0x6860#16 0xFFFF#16 (.negIm6 .r4 0x20#6) &&
      reads 0x62CA#16 0xFFFF#16 (.negInd .r1 false .postDec .r2) &&
      reads 0x6701#16 0xFFFF#16 (.negReg .r3 .r1) &&
      reads 0x630E#16 0xE1C2#16 (.negIm16 .r1 0xE1C2#16) &&
      reads 0x6D13#16 0xE2E5#16 (.negA16 .sr 0xE2E5#16) &&
      reads 0x6B1A#16 0xE408#16 (.negA16w .bp 0xE408#16) &&
      reads 0x652C#16 0xFFFF#16 (.negAsr .r2 1#2 .r4) &&
      reads 0x635A#16 0xFFFF#16 (.negLsl .r1 3#2 .r2) &&
      reads 0x6565#16 0xFFFF#16 (.negLsr .r2 0#2 .bp) &&
      reads 0x6B91#16 0xFFFF#16 (.negRol .bp 2#2 .r1) &&
      reads 0x69A8#16 0xFFFF#16 (.negRor .r4 1#2 .sp) &&
      reads 0x61FF#16 0xFFFF#16 (.negA6 .sp 0x3F#6)) = true := by decide

theorem test_decode_xor :
    (reads 0x8620#16 0xFFFF#16 (.xorBpIm6 .r3 0x20#6) &&
      reads 0x8265#16 0xFFFF#16 (.xorIm6 .r1 0x25#6) &&
      reads 0x84F5#16 0xFFFF#16 (.xorInd .r2 true .postInc .bp) &&
      reads 0x8B02#16 0xFFFF#16 (.xorReg .bp .r2) &&
      reads 0x850C#16 0xF089#16 (.xorIm16 .r2 .r4 0xF089#16) &&
      reads 0x8312#16 0xF1AC#16 (.xorA16 .r1 .r2 0xF1AC#16) &&
      reads 0x851D#16 0xF2CF#16 (.xorA16w .r2 .bp 0xF2CF#16) &&
      reads 0x8B39#16 0xFFFF#16 (.xorAsr .bp 3#2 .r1) &&
      reads 0x8940#16 0xFFFF#16 (.xorLsl .r4 0#2 .sp) &&
      reads 0x8174#16 0xFFFF#16 (.xorLsr .sp 2#2 .r4) &&
      reads 0x8789#16 0xFFFF#16 (.xorRol .r3 1#2 .r1) &&
      reads 0x83BE#16 0xFFFF#16 (.xorRor .r1 3#2 .sr) &&
      reads 0x8DE0#16 0xFFFF#16 (.xorA6 .sr 0x20#6)) = true := by decide

theorem test_decode_load :
    (reads 0x9A25#16 0xFFFF#16 (.loadBpIm6 .bp 0x25#6) &&
      reads 0x9453#16 0xFFFF#16 (.loadIm6 .r2 0x13#6) &&
      reads 0x9AD9#16 0xFFFF#16 (.loadInd .bp false .preInc .r1) &&
      reads 0x9505#16 0xFFFF#16 (.loadReg .r2 .bp) &&
      reads 0x9B09#16 0xFF50#16 (.loadIm16 .bp 0xFF50#16) &&
      reads 0x9910#16 0x0073#16 (.loadA16 .r4 0x0073#16) &&
      reads 0x913C#16 0xFFFF#16 (.loadAsr .sp 3#2 .r4) &&
      reads 0x9741#16 0xFFFF#16 (.loadLsl .r3 0#2 .r1) &&
      reads 0x9376#16 0xFFFF#16 (.loadLsr .r1 2#2 .sr) &&
      reads 0x9D8B#16 0xFFFF#16 (.loadRol .sr 1#2 .r3) &&
      reads 0x9BBA#16 0xFFFF#16 (.loadRor .bp 3#2 .r2) &&
      reads 0x95E0#16 0xFFFF#16 (.loadA6 .r2 0x20#6)) = true := by decide

theorem test_decode_or :
    (reads 0xA225#16 0xFFFF#16 (.orBpIm6 .r1 0x25#6) &&
      reads 0xA453#16 0xFFFF#16 (.orIm6 .r2 0x13#6) &&
      reads 0xAAD9#16 0xFFFF#16 (.orInd .bp false .preInc .r1) &&
      reads 0xA900#16 0xFFFF#16 (.orReg .r4 .sp) &&
      reads 0xA10C#16 0x0CF4#16 (.orIm16 .sp .r4 0x0CF4#16) &&
      reads 0xA711#16 0x0E17#16 (.orA16 .r3 .r1 0x0E17#16) &&
      reads 0xA31E#16 0x0F3A#16 (.orA16w .r1 .sr 0x0F3A#16) &&
      reads 0xAD23#16 0xFFFF#16 (.orAsr .sr 0#2 .r3) &&
      reads 0xAB52#16 0xFFFF#16 (.orLsl .bp 2#2 .r2) &&
      reads 0xA56C#16 0xFFFF#16 (.orLsr .r2 1#2 .r4) &&
      reads 0xA39A#16 0xFFFF#16 (.orRol .r1 3#2 .r2) &&
      reads 0xA5A5#16 0xFFFF#16 (.orRor .r2 0#2 .bp) &&
      reads 0xABE5#16 0xFFFF#16 (.orA6 .bp 0x25#6)) = true := by decide

theorem test_decode_and :
    (reads 0xB813#16 0xFFFF#16 (.andBpIm6 .r4 0x13#6) &&
      reads 0xB06E#16 0xFFFF#16 (.andIm6 .sp 0x2E#6) &&
      reads 0xB6E4#16 0xFFFF#16 (.andInd .r3 true .keep .r4) &&
      reads 0xB306#16 0xFFFF#16 (.andReg .r1 .sr) &&
      reads 0xBD0B#16 0x1BBB#16 (.andIm16 .sr .r3 0x1BBB#16) &&
      reads 0xBB12#16 0x1CDE#16 (.andA16 .bp .r2 0x1CDE#16) &&
      reads 0xB51C#16 0x1E01#16 (.andA16w .r2 .r4 0x1E01#16) &&
      reads 0xB332#16 0xFFFF#16 (.andAsr .r1 2#2 .r2) &&
      reads 0xB54D#16 0xFFFF#16 (.andLsl .r2 1#2 .bp) &&
      reads 0xBB79#16 0xFFFF#16 (.andLsr .bp 3#2 .r1) &&
      reads 0xB980#16 0xFFFF#16 (.andRol .r4 0#2 .sp) &&
      reads 0xB1B4#16 0xFFFF#16 (.andRor .sp 2#2 .r4) &&
      reads 0xB7D3#16 0xFFFF#16 (.andA6 .r3 0x13#6)) = true := by decide

theorem test_decode_test :
    (reads 0xC22E#16 0xFFFF#16 (.testBpIm6 .r1 0x2E#6) &&
      reads 0xCC41#16 0xFFFF#16 (.testIm6 .sr 0x01#6) &&
      reads 0xC2CA#16 0xFFFF#16 (.testInd .r1 false .postDec .r2) &&
      reads 0xC504#16 0xFFFF#16 (.testReg .r2 .r4) &&
      reads 0xC30A#16 0x2A82#16 (.testIm16 .r2 0x2A82#16) &&
      reads 0xC515#16 0x2BA5#16 (.testA16 .bp 0x2BA5#16) &&
      reads 0xCB19#16 0x2CC8#16 (.testA16w .bp .r1 0x2CC8#16) &&
      reads 0xC928#16 0xFFFF#16 (.testAsr .r4 1#2 .sp) &&
      reads 0xC15C#16 0xFFFF#16 (.testLsl .sp 3#2 .r4) &&
      reads 0xC761#16 0xFFFF#16 (.testLsr .r3 0#2 .r1) &&
      reads 0xC396#16 0xFFFF#16 (.testRol .r1 2#2 .sr) &&
      reads 0xCDAB#16 0xFFFF#16 (.testRor .sr 1#2 .r3) &&
      reads 0xCBEE#16 0xFFFF#16 (.testA6 .bp 0x2E#6)) = true := by decide

theorem test_decode_store :
    (reads 0xD401#16 0xFFFF#16 (.storeBpIm6 .r2 0x01#6) &&
      reads 0xD2CA#16 0xFFFF#16 (.storeInd .r1 false .postDec .r2) &&
      reads 0xD51D#16 0x3703#16 (.storeA16w .r2 0x3703#16) &&
      reads 0xDBE5#16 0xFFFF#16 (.storeA6 .bp 0x25#6)) = true := by decide

theorem test_decode_bit_operations :
    (reads 0xE601#16 0xFFFF#16 (.tstbRr .r3 .r1) &&
      reads 0xE246#16 0xFFFF#16 (.tstbRo .r1 6#4) &&
      reads 0xED43#16 0xFFFF#16 (.tstbMr true .sr .r3) &&
      reads 0xEB8D#16 0xFFFF#16 (.tstbMo false .bp 13#4) &&
      reads 0xE414#16 0xFFFF#16 (.setbRr .r2 .r4) &&
      reads 0xE259#16 0xFFFF#16 (.setbRo .r1 9#4) &&
      reads 0xE555#16 0xFFFF#16 (.setbMr true .r2 .bp) &&
      reads 0xEB96#16 0xFFFF#16 (.setbMo false .bp 6#4) &&
      reads 0xE820#16 0xFFFF#16 (.clrbRr .r4 .sp) &&
      reads 0xE06D#16 0xFFFF#16 (.clrbRo .sp 13#4) &&
      reads 0xE761#16 0xFFFF#16 (.clrbMr true .r3 .r1) &&
      reads 0xE3A9#16 0xFFFF#16 (.clrbMo false .r1 9#4) &&
      reads 0xEC33#16 0xFFFF#16 (.invbRr .sr .r3) &&
      reads 0xEA76#16 0xFFFF#16 (.invbRo .bp 6#4) &&
      reads 0xE574#16 0xFFFF#16 (.invbMr true .r2 .r4) &&
      reads 0xE3BD#16 0xFFFF#16 (.invbMo false .r1 13#4)) = true := by decide

theorem test_decode_shift16 :
    (reads 0xE50D#16 0xFFFF#16 (.shift16Asr .r2 .bp) &&
      reads 0xE919#16 0xFFFF#16 (.shift16Asror .r4 .r1) &&
      reads 0xE928#16 0xFFFF#16 (.shift16Lsl .r4 .sp) &&
      reads 0xE73C#16 0xFFFF#16 (.shift16Lslor .r3 .r4) &&
      reads 0xE749#16 0xFFFF#16 (.shift16Lsr .r3 .r1) &&
      reads 0xE95E#16 0xFFFF#16 (.shift16Lsror .r4 .sr) &&
      reads 0xED6B#16 0xFFFF#16 (.shift16Rol .sr .r3) &&
      reads 0xEB7A#16 0xFFFF#16 (.shift16Ror .bp .r2)) = true := by decide

theorem test_decode_multiplication :
    (reads 0xE40C#16 0xFFFF#16 (.mulUu .r2 .r4) &&
      reads 0xE4CD#16 0xFFFF#16 (.mulsUu .r2 9#4 .bp) &&
      reads 0xFA09#16 0xFFFF#16 (.mulUs .bp .r1) &&
      reads 0xFA80#16 0xFFFF#16 (.mulsUs .bp 0#4 .sp) &&
      reads 0xF50D#16 0xFFFF#16 (.mulSs .r2 .bp) &&
      reads 0xF5CD#16 0xFFFF#16 (.mulsSs .r2 9#4 .bp)) = true := by decide

theorem test_decode_segment_and_flag :
    (reads 0xFE20#16 0xFFFF#16 (.dsIm6 0x20#6) &&
      reads 0xF020#16 0xFFFF#16 (.movRsDs .sp) &&
      reads 0xF02C#16 0xFFFF#16 (.movDsRs .r4) &&
      reads 0xF031#16 0xFFFF#16 (.movRsFr .r1) &&
      reads 0xF03E#16 0xFFFF#16 (.movFrRs .sr)) = true := by decide

theorem test_decode_mode :
    (reads 0xF140#16 0xFFFF#16 .intOff &&
      reads 0xF141#16 0xFFFF#16 .intIrq &&
      reads 0xF142#16 0xFFFF#16 .intFiq &&
      reads 0xF143#16 0xFFFF#16 .intFiqIrq &&
      reads 0xF144#16 0xFFFF#16 .firMovOn &&
      reads 0xF145#16 0xFFFF#16 .firMovOff &&
      reads 0xF146#16 0xFFFF#16 .fractionOff &&
      reads 0xF147#16 0xFFFF#16 .fractionOn &&
      reads 0xF148#16 0xFFFF#16 .irqOff &&
      reads 0xF149#16 0xFFFF#16 .irqOn &&
      reads 0xF14A#16 0xFFFF#16 .secbankOff &&
      reads 0xF14B#16 0xFFFF#16 .secbankOn &&
      reads 0xF14C#16 0xFFFF#16 .fiqOff &&
      reads 0xF14D#16 0xFFFF#16 .irqnestOff &&
      reads 0xF14E#16 0xFFFF#16 .fiqOn &&
      reads 0xF14F#16 0xFFFF#16 .irqnestOn) = true := by decide

theorem test_decode_divide_exp_nop :
    (reads 0xF162#16 0xFFFF#16 .divs &&
      reads 0xF163#16 0xFFFF#16 .divq &&
      reads 0xF164#16 0xFFFF#16 .exp &&
      reads 0xF165#16 0xFFFF#16 .nop) = true := by decide

theorem test_decode_refuses :
    (refuses 0x5302#16 .noOperation && refuses 0xD240#16 .operationNotInForm && refuses 0x4290#16 .stackGroup &&
      refuses 0xD280#16 .emptyList && refuses 0xD290#16 .pointerInList && refuses 0xD2B9#16 .listRange &&
      refuses 0xD699#16 .pointerInList && refuses 0xE218#16 .group1110 && refuses 0xF150#16 .group1111 &&
      refuses 0xF166#16 .group1111 && refuses 0xEEC0#16 .pcOperand && refuses 0xF30F#16 .pcOperand &&
      refuses 0xF792#16 .mulsPointer && refuses 0x92D1#16 .indirectCollision &&
      refuses 0xE519#16 .orShiftHalf) = true := by decide

/-! ### One-step vectors: the expected values are those `95_test_vectors.md` prints or derives -/

/-- A state after the reset step: FR = 0x0008, memory empty. -/
def start : State := { State.reset with resetPending := false }

/-- A memory that holds the listed words. -/
def memOf : List (Addr × Word) → List Host.Cell
  | [] => []
  | p :: ps => Memory.setWord (memOf ps) p.1 p.2

/-- One step of the words at the state's location counter ends in a state that passes the test. -/
def runs (w0 w1 : Word) (s : State) (good : State → Bool) : Bool :=
  match step (s.placeWords w0 w1) with
  | .next t => good t
  | _ => false

theorem test_add_reaches_sign :
    runs 0x0302#16 0xABCD#16 { start with r1 := 0x7FFF#16, r2 := 0x0001#16 }
      (fun t => t.r1 == 0x8000#16 && (t.sr &&& 0xFFC0#16) == 0x0200#16) = true := by decide
theorem test_add_carry_and_zero :
    runs 0x0302#16 0xABCD#16 { start with r1 := 0xFFFF#16, r2 := 0x0001#16 }
      (fun t => t.r1 == 0x0000#16 && (t.sr &&& 0xFFC0#16) == 0x0140#16) = true := by decide
theorem test_adc_carry_in :
    runs 0x1302#16 0xABCD#16 { start with sr := 0x0040#16, r1 := 0xFFFF#16, r2 := 0x0000#16 }
      (fun t => t.r1 == 0x0000#16 && (t.sr &&& 0xFFC0#16) == 0x0140#16) = true := by decide
theorem test_sub_borrow :
    runs 0x2302#16 0xABCD#16 { start with r1 := 0x0000#16, r2 := 0x0001#16 }
      (fun t => t.r1 == 0xFFFF#16 && (t.sr &&& 0xFFC0#16) == 0x0280#16) = true := by decide
theorem test_sub_overflow :
    runs 0x2302#16 0xABCD#16 { start with r1 := 0x7FFF#16, r2 := 0xFFFF#16 }
      (fun t => t.r1 == 0x8000#16 && (t.sr &&& 0xFFC0#16) == 0x0200#16) = true := by decide
theorem test_sbc_borrow_in :
    runs 0x3302#16 0xABCD#16 { start with r1 := 0x0005#16, r2 := 0x0003#16 }
      (fun t => t.r1 == 0x0001#16 && (t.sr &&& 0xFFC0#16) == 0x0040#16) = true := by decide
theorem test_cmp_overflow :
    runs 0x4302#16 0xABCD#16 { start with r1 := 0x8000#16, r2 := 0x0001#16 }
      (fun t => t.r1 == 0x8000#16 && (t.sr &&& 0xFFC0#16) == 0x00C0#16) = true := by decide
theorem test_neg_of_zero_keeps_s_c :
    runs 0x6302#16 0xABCD#16 { start with sr := 0x00C0#16, r1 := 0x0007#16, r2 := 0x0000#16 }
      (fun t => t.r1 == 0x0000#16 && (t.sr &&& 0xFFC0#16) == 0x01C0#16) = true := by decide
theorem test_neg_most_negative :
    runs 0x6302#16 0xABCD#16 { start with r1 := 0x0000#16, r2 := 0x8000#16 }
      (fun t => t.r1 == 0x8000#16 && (t.sr &&& 0xFFC0#16) == 0x0200#16) = true := by decide
theorem test_xor_keeps_s_c :
    runs 0x8302#16 0xABCD#16 { start with sr := 0x00C0#16, r1 := 0xFF00#16, r2 := 0x0FF0#16 }
      (fun t => t.r1 == 0xF0F0#16 && (t.sr &&& 0xFFC0#16) == 0x02C0#16) = true := by decide
theorem test_load_sets_n :
    runs 0x9302#16 0xABCD#16 { start with r1 := 0x0009#16, r2 := 0x8001#16 }
      (fun t => t.r1 == 0x8001#16 && (t.sr &&& 0xFFC0#16) == 0x0200#16) = true := by decide
theorem test_or_register :
    runs 0xA302#16 0xABCD#16 { start with r1 := 0x00F0#16, r2 := 0x0F00#16 }
      (fun t => t.r1 == 0x0FF0#16 && (t.sr &&& 0xFFC0#16) == 0x0000#16) = true := by decide
theorem test_and_register :
    runs 0xB302#16 0xABCD#16 { start with r1 := 0xF0F0#16, r2 := 0x0FF0#16 }
      (fun t => t.r1 == 0x00F0#16 && (t.sr &&& 0xFFC0#16) == 0x0000#16) = true := by decide
theorem test_test_writes_nothing :
    runs 0xC302#16 0xABCD#16 { start with r1 := 0x8001#16, r2 := 0x8000#16 }
      (fun t => t.r1 == 0x8001#16 && (t.sr &&& 0xFFC0#16) == 0x0200#16) = true := by decide
theorem test_adc_im6 :
    runs 0x1260#16 0xABCD#16 { start with sr := 0x0040#16, r1 := 0x00F0#16 }
      (fun t => t.r1 == 0x0111#16 && (t.sr &&& 0xFFC0#16) == 0x0000#16) = true := by decide
theorem test_add_im16_to_pc :
    runs 0x0F0D#16 0x2400#16 { start with pc := 0x8000#16, bp := 0x0010#16 }
      (fun t => t.lpc == 0x002410#22 && t.sr == 0x0000#16) = true := by decide
theorem test_neg_im16 :
    runs 0x650A#16 0x0001#16 start
      (fun t => t.r2 == 0xFFFF#16 && (t.sr &&& 0xFFC0#16) == 0x0200#16) = true := by decide
theorem test_and_im16_other_register :
    runs 0xB709#16 0xFF00#16 { start with r1 := 0x0F0F#16 }
      (fun t => t.r3 == 0x0F00#16 && t.r1 == 0x0F0F#16 && (t.sr &&& 0xFFC0#16) == 0x0000#16) = true := by decide
theorem test_adc_lsr_takes_buffer :
    runs 0x1B39#16 0xABCD#16 { start with sr := 0x0040#16, fr := 0x0508#16, r1 := 0x8421#16, bp := 0x1000#16 }
      (fun t => t.bp == 0x0843#16 && t.sb == 1#4 && (t.sr &&& 0xFFC0#16) == 0x0040#16) = true := by decide
theorem test_load_lsl_buffer :
    runs 0x9B49#16 0xABCD#16 { start with fr := 0x0788#16, r1 := 0x4321#16 }
      (fun t => t.bp == 0x0C84#16 && t.sb == 13#4 && (t.sr &&& 0xFFC0#16) == 0x0000#16) = true := by decide
theorem test_load_lsr_out :
    runs 0x9571#16 0xABCD#16 { start with fr := 0x0288#16, r1 := 0x8001#16 }
      (fun t => t.r2 == 0x1000#16 && t.sb == 2#4 && (t.sr &&& 0xFFC0#16) == 0x0000#16) = true := by decide
theorem test_load_asr_sign :
    runs 0x9521#16 0xABCD#16 { start with fr := 0x0288#16, r1 := 0x8001#16 }
      (fun t => t.r2 == 0xC000#16 && t.sb == 10#4 && (t.sr &&& 0xFFC0#16) == 0x0200#16) = true := by decide
theorem test_load_rol_buffer :
    runs 0x9591#16 0xABCD#16 { start with fr := 0x0288#16, r1 := 0x8001#16 }
      (fun t => t.r2 == 0x000A#16 && t.sb == 12#4 && (t.sr &&& 0xFFC0#16) == 0x0000#16) = true := by decide
theorem test_load_ror_buffer :
    runs 0x95B1#16 0xABCD#16 { start with fr := 0x0288#16, r1 := 0x8001#16 }
      (fun t => t.r2 == 0xB000#16 && t.sb == 2#4 && (t.sr &&& 0xFFC0#16) == 0x0200#16) = true := by decide
theorem test_load_a6 :
    runs 0x9BE0#16 0xABCD#16 { start with mem := memOf [(0x000020#22, 0xBEEF#16)] }
      (fun t => t.bp == 0xBEEF#16 && (t.sr &&& 0xFFC0#16) == 0x0200#16) = true := by decide
theorem test_store_a6 :
    runs 0xD5E0#16 0xABCD#16 { start with r2 := 0x5A5A#16 }
      (fun t => wordAt t 0x000020#22 == 0x5A5A#16 && (t.sr &&& 0xFFC0#16) == 0x0000#16) = true := by decide
theorem test_add_a16 :
    runs 0x0B11#16 0x7600#16 { start with r1 := 0x0001#16, mem := memOf [(0x007600#22, 0x7FFF#16)] }
      (fun t => t.bp == 0x8000#16 && (t.sr &&& 0xFFC0#16) == 0x0200#16) = true := by decide
theorem test_xor_a16_to_memory :
    runs 0x8B1A#16 0x760A#16 { start with r2 := 0x00FF#16, bp := 0x0FF0#16 }
      (fun t => wordAt t 0x00760A#22 == 0x0F0F#16 && t.bp == 0x0FF0#16 && (t.sr &&& 0xFFC0#16)
        == 0x0000#16) = true := by decide
theorem test_neg_a16_to_memory :
    runs 0x6B1A#16 0x760A#16 { start with bp := 0x0001#16 }
      (fun t => wordAt t 0x00760A#22 == 0xFFFF#16 && (t.sr &&& 0xFFC0#16) == 0x0200#16) = true := by decide
theorem test_store_a16 :
    runs 0xDB1D#16 0x760A#16 { start with bp := 0x1234#16 }
      (fun t => wordAt t 0x00760A#22 == 0x1234#16 && (t.sr &&& 0xFFC0#16) == 0x0000#16) = true := by decide
theorem test_cmp_a16_keeps_memory :
    runs 0x4B1A#16 0x760A#16 { start with r2 := 0x0003#16, bp := 0x0003#16 }
      (fun t => wordAt t 0x00760A#22 == 0x0000#16 && (t.sr &&& 0xFFC0#16) == 0x0140#16) = true := by decide
theorem test_and_ind_postinc_crosses_segment :
    runs 0xB2F2#16 0xABCD#16
      { start with
        sr := 0x1400#16, r1 := 0xFF0F#16, r2 := 0xFFFF#16, mem := memOf [(0x05FFFF#22, 0x0FF0#16)] }
      (fun t => t.r1 == 0x0F00#16 && t.r2 == 0x0000#16 && (t.sr &&& 0xFFC0#16) == 0x1800#16) = true := by decide
theorem test_store_ind_postdec_crosses_segment :
    runs 0xD2EA#16 0xABCD#16 { start with sr := 0x1400#16, r1 := 0xABCD#16, r2 := 0x0000#16 }
      (fun t => wordAt t 0x050000#22 == 0xABCD#16 && t.r2 == 0xFFFF#16 && (t.sr &&& 0xFFC0#16)
        == 0x1000#16) = true := by decide
theorem test_cmp_ind_preinc :
    runs 0x42DA#16 0xABCD#16
      { start with
        r1 := 0x0005#16, r2 := 0x00FF#16, mem := memOf [(0x000100#22, 0x0005#16)] }
      (fun t => t.r2 == 0x0100#16 && (t.sr &&& 0xFFC0#16) == 0x0140#16) = true := by decide
theorem test_load_ind_wraps_space :
    runs 0x92F2#16 0xABCD#16
      { start with
        sr := 0xFC00#16, r2 := 0xFFFF#16, mem := memOf [(0x3FFFFF#22, 0x0300#16)] }
      (fun t => t.r1 == 0x0300#16 && t.r2 == 0x0000#16 && (t.sr &&& 0xFFC0#16) == 0x0000#16) = true := by decide
theorem test_store_bp :
    runs 0xD200#16 0xABCD#16 { start with r1 := 0x0001#16, bp := 0x2000#16 }
      (fun t => wordAt t 0x002000#22 == 0x0001#16) = true := by decide
theorem test_add_bp_wraps_bank :
    runs 0x023F#16 0xABCD#16
      { start with
        r1 := 0x0001#16, bp := 0xFFF0#16, mem := memOf [(0x00002F#22, 0x0010#16)] }
      (fun t => t.r1 == 0x0011#16) = true := by decide
theorem test_add_to_pc :
    runs 0x0F01#16 0xABCD#16 { start with sr := 0x0002#16, pc := 0x8000#16, r1 := 0x0004#16 }
      (fun t => t.lpc == 0x028005#22 && t.sr == 0x0282#16) = true := by decide
theorem test_invb_register :
    runs 0xE835#16 0xABCD#16 { start with r4 := 0x00F0#16, bp := 0xFFF3#16 }
      (fun t => t.r4 == 0x00F8#16 && (t.sr &&& 0xFFC0#16) == 0x0100#16) = true := by decide
theorem test_clrb_offset :
    runs 0xE66A#16 0xABCD#16 { start with r3 := 0xFFFF#16 }
      (fun t => t.r3 == 0xFBFF#16 && (t.sr &&& 0xFFC0#16) == 0x0000#16) = true := by decide
theorem test_tstb_clear_bit :
    runs 0xE24F#16 0xABCD#16 { start with r1 := 0x7FFF#16 }
      (fun t => (t.sr &&& 0xFFC0#16) == 0x0100#16) = true := by decide
theorem test_setb_uses_low_four_bits :
    runs 0xE212#16 0xABCD#16 { start with r1 := 0x0000#16, r2 := 0x0010#16 }
      (fun t => t.r1 == 0x0001#16 && (t.sr &&& 0xFFC0#16) == 0x0100#16) = true := by decide
theorem test_setb_memory_register :
    runs 0xE313#16 0xABCD#16 { start with r1 := 0x0100#16, r3 := 0x0003#16 }
      (fun t => wordAt t 0x000100#22 == 0x0008#16 && (t.sr &&& 0xFFC0#16) == 0x0100#16) = true := by decide
theorem test_setb_memory_far :
    runs 0xE3DD#16 0xABCD#16
      { start with
        sr := 0x4800#16, r1 := 0x0100#16, mem := memOf [(0x120100#22, 0x2000#16)] }
      (fun t => wordAt t 0x120100#22 == 0x2000#16 && (t.sr &&& 0xFFC0#16) == 0x4800#16) = true := by decide
theorem test_invb_memory :
    runs 0xE5B4#16 0xABCD#16 { start with r2 := 0x0100#16, mem := memOf [(0x000100#22, 0x0010#16)] }
      (fun t => wordAt t 0x000100#22 == 0x0000#16 && (t.sr &&& 0xFFC0#16) == 0x0000#16) = true := by decide
theorem test_clrb_memory :
    runs 0xE323#16 0xABCD#16
      { start with
        r1 := 0x0100#16, r3 := 0x0004#16, mem := memOf [(0x000100#22, 0xFFFF#16)] }
      (fun t => wordAt t 0x000100#22 == 0xFFEF#16 && (t.sr &&& 0xFFC0#16) == 0x0000#16) = true := by decide
theorem test_tstb_memory :
    runs 0xE384#16 0xABCD#16 { start with r1 := 0x0100#16, mem := memOf [(0x000100#22, 0x0010#16)] }
      (fun t => (t.sr &&& 0xFFC0#16) == 0x0000#16) = true := by decide
theorem test_shift16_asr :
    runs 0xE509#16 0xABCD#16 { start with sr := 0x0380#16, r1 := 0x0002#16, r2 := 0x8004#16 }
      (fun t => t.r2 == 0xE001#16) = true := by decide
theorem test_shift16_lsl_sixteen :
    runs 0xE529#16 0xABCD#16 { start with sr := 0x0380#16, r1 := 0x0010#16, r2 := 0x8001#16 }
      (fun t => t.r2 == 0x0000#16) = true := by decide
theorem test_shift16_lsr_low_five_bits :
    runs 0xE549#16 0xABCD#16 { start with sr := 0x0380#16, r1 := 0x0020#16, r2 := 0x8001#16 }
      (fun t => t.r2 == 0x8001#16) = true := by decide
theorem test_shift16_rol_through_c :
    runs 0xE569#16 0xABCD#16 { start with sr := 0x0040#16, r1 := 0x0001#16, r2 := 0x8001#16 }
      (fun t => t.r2 == 0x0003#16 && (t.sr &&& 0xFFC0#16) == 0x0040#16) = true := by decide
theorem test_shift16_ror :
    runs 0xE579#16 0xABCD#16 { start with sr := 0x0040#16, r1 := 0x0004#16, r2 := 0x1234#16 }
      (fun t => t.r2 == 0x9123#16 && (t.sr &&& 0xFFC0#16) == 0x0000#16) = true := by decide
theorem test_shift16_asror_past_half :
    runs 0xE919#16 0xABCD#16 { start with r1 := 0x0014#16, r3 := 0x0000#16, r4 := 0x8004#16 }
      (fun t => t.r4 == 0xFFFF#16 && t.r3 == 0xF800#16) = true := by decide
theorem test_shift16_lsror :
    runs 0xE959#16 0xABCD#16 { start with r1 := 0x0004#16, r3 := 0x0001#16, r4 := 0x8004#16 }
      (fun t => t.r4 == 0x0800#16 && t.r3 == 0x4001#16) = true := by decide
theorem test_shift16_lslor :
    runs 0xE739#16 0xABCD#16 { start with r1 := 0x0011#16, r3 := 0x8004#16, r4 := 0x0000#16 }
      (fun t => t.r4 == 0x0008#16 && t.r3 == 0x0000#16) = true := by decide
theorem test_mul_uu :
    runs 0xE20A#16 0xABCD#16 { start with r1 := 0xFFFF#16, r2 := 0xFFFF#16 }
      (fun t => t.r4 == 0xFFFE#16 && t.r3 == 0x0001#16 && (t.sr &&& 0xFFC0#16) == 0x0000#16 &&
        t.fr == 0x0008#16) = true := by decide
theorem test_mul_us_rs_signed :
    runs 0xF20A#16 0xABCD#16 { start with r1 := 0xFFFF#16, r2 := 0x0002#16 }
      (fun t => t.r4 == 0x0001#16 && t.r3 == 0xFFFE#16 && (t.sr &&& 0xFFC0#16) == 0x0000#16 &&
        t.fr == 0x0008#16) = true := by decide
theorem test_mul_ss :
    runs 0xF30A#16 0xABCD#16 { start with r1 := 0xFFFF#16, r2 := 0x0002#16 }
      (fun t => t.r4 == 0xFFFF#16 && t.r3 == 0xFFFE#16 && (t.sr &&& 0xFFC0#16) == 0x0000#16 &&
        t.fr == 0x0008#16) = true := by decide
theorem test_mul_ss_fraction :
    runs 0xF30A#16 0xABCD#16 { start with fr := 0x1008#16, r1 := 0x8000#16, r2 := 0x8000#16 }
      (fun t => t.r4 == 0x8000#16 && t.r3 == 0x0000#16 && (t.sr &&& 0xFFC0#16) == 0x0000#16 &&
        t.fr == 0x1008#16) = true := by decide
theorem test_muls_ss_moves :
    runs 0xF3A2#16 0xABCD#16
      { start with
        pc := 0x8000#16, r1 := 0x0100#16, r2 := 0x0200#16, mem := memOf [(0x000100#22, 0x0001#16),
          (0x000101#22, 0x0002#16), (0x000102#22, 0x0003#16), (0x000103#22, 0x0004#16), (0x000200#22,
          0x0005#16), (0x000201#22, 0x0006#16), (0x000202#22, 0x0007#16), (0x000203#22, 0x0008#16)] }
      (fun t => t.r4 == 0x0000#16 && t.r3 == 0x0046#16 && t.sb == 0#4 && (t.sr &&& 0xFFC0#16) ==
        0x0000#16 && t.r1 == 0x0104#16 && t.r2 == 0x0204#16 && wordAt t 0x000100#22 == 0x0001#16
        && wordAt t 0x000101#22 == 0x0001#16 && wordAt t 0x000102#22 == 0x0002#16 && wordAt t
        0x000103#22 == 0x0003#16 && wordAt t 0x000104#22 == 0x0000#16) = true := by decide
theorem test_muls_us :
    runs 0xF292#16 0xABCD#16
      { start with
        pc := 0x8000#16, fr := 0x0808#16, r1 := 0x0100#16, r2 := 0x0200#16, mem := memOf [(0x000100#22,
          0xFFFF#16), (0x000101#22, 0xFFFF#16), (0x000200#22, 0xFFFF#16), (0x000201#22, 0x0001#16)] }
      (fun t => t.r4 == 0x0000#16 && t.r3 == 0x0000#16 && t.sb == 0#4 && (t.sr &&& 0xFFC0#16) ==
        0x0000#16 && t.r1 == 0x0102#16 && t.r2 == 0x0202#16 && wordAt t 0x000100#22 == 0xFFFF#16
        && wordAt t 0x000101#22 == 0xFFFF#16) = true := by decide
theorem test_muls_uu_overflow :
    runs 0xE292#16 0xABCD#16
      { start with
        pc := 0x8000#16, fr := 0x0808#16, r1 := 0x0100#16, r2 := 0x0200#16, mem := memOf [(0x000100#22,
          0xFFFF#16), (0x000101#22, 0xFFFF#16), (0x000200#22, 0xFFFF#16), (0x000201#22, 0xFFFF#16)] }
      (fun t => t.r4 == 0xFFFC#16 && t.r3 == 0x0002#16 && t.sb == 1#4 && (t.sr &&& 0xFFC0#16) ==
        0x0080#16 && t.r1 == 0x0102#16 && t.r2 == 0x0202#16 && wordAt t 0x000100#22 == 0xFFFF#16
        && wordAt t 0x000101#22 == 0xFFFF#16) = true := by decide
theorem test_muls_sixteen_levels :
    runs 0xF382#16 0xABCD#16
      { start with
        pc := 0x8000#16, fr := 0x0808#16, r1 := 0x0100#16, r2 := 0x0200#16, mem := memOf [(0x000100#22,
          0x0001#16), (0x000101#22, 0x0001#16), (0x000102#22, 0x0001#16), (0x000103#22, 0x0001#16),
          (0x000104#22, 0x0001#16), (0x000105#22, 0x0001#16), (0x000106#22, 0x0001#16), (0x000107#22,
          0x0001#16), (0x000108#22, 0x0001#16), (0x000109#22, 0x0001#16), (0x00010A#22, 0x0001#16),
          (0x00010B#22, 0x0001#16), (0x00010C#22, 0x0001#16), (0x00010D#22, 0x0001#16), (0x00010E#22,
          0x0001#16), (0x00010F#22, 0x0001#16), (0x000200#22, 0x0001#16), (0x000201#22, 0x0001#16),
          (0x000202#22, 0x0001#16), (0x000203#22, 0x0001#16), (0x000204#22, 0x0001#16), (0x000205#22,
          0x0001#16), (0x000206#22, 0x0001#16), (0x000207#22, 0x0001#16), (0x000208#22, 0x0001#16),
          (0x000209#22, 0x0001#16), (0x00020A#22, 0x0001#16), (0x00020B#22, 0x0001#16), (0x00020C#22,
          0x0001#16), (0x00020D#22, 0x0001#16), (0x00020E#22, 0x0001#16), (0x00020F#22, 0x0001#16)] }
      (fun t => t.r4 == 0x0000#16 && t.r3 == 0x0010#16 && t.sb == 0#4 && (t.sr &&& 0xFFC0#16) ==
        0x0000#16 && t.r1 == 0x0110#16 && t.r2 == 0x0210#16 && wordAt t 0x000100#22 == 0x0001#16
        && wordAt t 0x000101#22 == 0x0001#16 && wordAt t 0x000102#22 == 0x0001#16 && wordAt t
        0x000103#22 == 0x0001#16 && wordAt t 0x000104#22 == 0x0001#16 && wordAt t 0x000105#22 ==
        0x0001#16 && wordAt t 0x000106#22 == 0x0001#16 && wordAt t 0x000107#22 == 0x0001#16 &&
        wordAt t 0x000108#22 == 0x0001#16 && wordAt t 0x000109#22 == 0x0001#16 && wordAt t
        0x00010A#22 == 0x0001#16 && wordAt t 0x00010B#22 == 0x0001#16 && wordAt t 0x00010C#22 ==
        0x0001#16 && wordAt t 0x00010D#22 == 0x0001#16 && wordAt t 0x00010E#22 == 0x0001#16 &&
        wordAt t 0x00010F#22 == 0x0001#16) = true := by decide +kernel
theorem test_exp_mixed :
    runs 0xF164#16 0xABCD#16 { start with sr := 0x0240#16, r4 := 0xF770#16 }
      (fun t => t.r2 == 0x0003#16 && t.r4 == 0xF770#16 && (t.sr &&& 0xFFC0#16) == 0x0240#16) = true := by decide
theorem test_exp_all_ones :
    runs 0xF164#16 0xABCD#16 { start with sr := 0x0240#16, r4 := 0xFFFF#16 }
      (fun t => t.r2 == 0x000F#16 && t.r4 == 0xFFFF#16 && (t.sr &&& 0xFFC0#16) == 0x0240#16) = true := by decide
theorem test_jmp_crosses_segment :
    runs 0xEE01#16 0xABCD#16 { start with sr := 0x0001#16, pc := 0xFFFF#16 }
      (fun t => t.lpc == 0x020001#22 && t.sr == 0x0002#16) = true := by decide
theorem test_jmp_back_across_segment :
    runs 0xEE42#16 0xABCD#16 { start with sr := 0x0002#16 }
      (fun t => t.lpc == 0x01FFFF#22 && t.sr == 0x0001#16) = true := by decide
theorem test_jmp_wraps_space :
    runs 0xEE01#16 0xABCD#16 { start with sr := 0x003F#16, pc := 0xFFFF#16 }
      (fun t => t.lpc == 0x000001#22 && t.sr == 0x0000#16) = true := by decide
theorem test_goto :
    runs 0xFE83#16 0x5678#16 { start with sr := 0x1E40#16, pc := 0x8010#16 }
      (fun t => t.lpc == 0x035678#22 && t.sr == 0x1E43#16) = true := by decide
theorem test_goto_mr :
    runs 0xFEC0#16 0xABCD#16 { start with r3 := 0x5678#16, r4 := 0xFFC3#16 }
      (fun t => t.lpc == 0x035678#22) = true := by decide
theorem test_call :
    runs 0xF041#16 0x2345#16 { start with sr := 0x1240#16, pc := 0x8010#16, sp := 0x27FF#16 }
      (fun t => wordAt t 0x0027FF#22 == 0x8012#16 && wordAt t 0x0027FE#22 == 0x1240#16 && t.sp
        == 0x27FD#16 && t.sr == 0x1241#16 && t.lpc == 0x012345#22) = true := by decide
theorem test_call_wraps_stack :
    runs 0xF040#16 0x0100#16 { start with sr := 0x0200#16, pc := 0x8000#16, sp := 0x0000#16 }
      (fun t => wordAt t 0x000000#22 == 0x8002#16 && wordAt t 0x00FFFF#22 == 0x0200#16 && t.sp
        == 0xFFFE#16) = true := by decide
theorem test_call_mr :
    runs 0xF161#16 0xABCD#16
      { start with
        sr := 0x1241#16, pc := 0x8010#16, sp := 0x27FF#16, r3 := 0x0100#16, r4 := 0x0002#16 }
      (fun t => wordAt t 0x0027FF#22 == 0x8011#16 && wordAt t 0x0027FE#22 == 0x1241#16 && t.sp
        == 0x27FD#16 && t.sr == 0x1242#16 && t.lpc == 0x020100#22) = true := by decide
theorem test_retf :
    runs 0x9A90#16 0xABCD#16
      { start with
        sr := 0x0001#16, pc := 0x2345#16, sp := 0x27FD#16, mem := memOf [(0x0027FE#22, 0x1241#16),
          (0x0027FF#22, 0x8012#16)] }
      (fun t => t.sr == 0x1241#16 && t.lpc == 0x018012#22 && t.sp == 0x27FF#16) = true := by decide
theorem test_ds_im6 :
    runs 0xFE12#16 0xABCD#16 { start with sr := 0x03C5#16 } (fun t => t.sr == 0x4BC5#16) = true := by decide
theorem test_ds_from_register :
    runs 0xF029#16 0xABCD#16 { start with sr := 0x03C5#16, r1 := 0xFFD2#16 }
      (fun t => t.sr == 0x4BC5#16) = true := by decide
theorem test_register_from_ds :
    runs 0xF022#16 0xABCD#16 { start with sr := 0x4BC5#16 } (fun t => t.r2 == 0x0012#16) = true := by decide
theorem test_fr_from_register :
    runs 0xF039#16 0xABCD#16 { start with r1 := 0xFFFF#16 } (fun t => t.fr == 0x7FFF#16) = true := by decide
theorem test_register_from_fr :
    runs 0xF032#16 0xABCD#16 { start with fr := 0x5A5A#16 } (fun t => t.r2 == 0x5A5A#16) = true := by decide
theorem test_push_with_pc :
    runs 0xDEA8#16 0xABCD#16
      { start with
        sr := 0x1240#16, pc := 0x8000#16, sp := 0x27FF#16, r3 := 0x3333#16, r4 := 0x4444#16, bp := 0x5555#16 }
      (fun t => wordAt t 0x0027FF#22 == 0x8001#16 && wordAt t 0x0027FE#22 == 0x1240#16 && wordAt
        t 0x0027FD#22 == 0x5555#16 && wordAt t 0x0027FC#22 == 0x4444#16 && wordAt t 0x0027FB#22
        == 0x3333#16 && t.sp == 0x27FA#16) = true := by decide
theorem test_push_other_pointer :
    runs 0xD28A#16 0xABCD#16 { start with r1 := 0x1111#16, r2 := 0x0300#16 }
      (fun t => wordAt t 0x000300#22 == 0x1111#16 && t.r2 == 0x02FF#16) = true := by decide
theorem test_push_secondary_bank :
    runs 0xD288#16 0xABCD#16 { start with fr := 0x2008#16, sp := 0x27FF#16, r1 := 0x1111#16, sr1 := 0xAAAA#16 }
      (fun t => wordAt t 0x0027FF#22 == 0xAAAA#16 && t.sp == 0x27FE#16) = true := by decide
theorem test_pop_with_pc :
    runs 0x96A0#16 0xABCD#16
      { start with
        pc := 0x8000#16, sp := 0x27FA#16, mem := memOf [(0x0027FB#22, 0x4444#16), (0x0027FC#22, 0x5555#16),
          (0x0027FD#22, 0x0A41#16), (0x0027FE#22, 0x9000#16)] }
      (fun t => t.r4 == 0x4444#16 && t.bp == 0x5555#16 && t.sr == 0x0A41#16 && t.lpc ==
        0x019000#22 && t.sp == 0x27FE#16) = true := by decide
theorem test_pop_five :
    runs 0x90A8#16 0xABCD#16
      { start with
        pc := 0x8000#16, sp := 0x27FA#16, mem := memOf [(0x0027FB#22, 0x0001#16), (0x0027FC#22, 0x0002#16),
          (0x0027FD#22, 0x0003#16), (0x0027FE#22, 0x0004#16), (0x0027FF#22, 0x0005#16)] }
      (fun t => t.r1 == 0x0001#16 && t.r2 == 0x0002#16 && t.r3 == 0x0003#16 && t.r4 == 0x0004#16
        && t.bp == 0x0005#16 && t.sp == 0x27FF#16) = true := by decide
theorem test_branches_taken :
    (runs 0x0E05#16 0xABCD#16 { start with pc := 0x8000#16 }
      (fun t => t.lpc == 0x008006#22 && t.sr == 0x0000#16) &&
    runs 0x1E43#16 0xABCD#16 { start with sr := 0x0040#16, pc := 0x8000#16 }
      (fun t => t.lpc == 0x007FFE#22 && t.sr == 0x0040#16) &&
    runs 0x2E01#16 0xABCD#16 { start with pc := 0x8000#16 }
      (fun t => t.lpc == 0x008002#22 && t.sr == 0x0000#16) &&
    runs 0x3E01#16 0xABCD#16 { start with sr := 0x0080#16, pc := 0x8000#16 }
      (fun t => t.lpc == 0x008002#22 && t.sr == 0x0080#16) &&
    runs 0x4E02#16 0xABCD#16 { start with pc := 0x8000#16 }
      (fun t => t.lpc == 0x008003#22 && t.sr == 0x0000#16) &&
    runs 0x5E02#16 0xABCD#16 { start with sr := 0x0100#16, pc := 0x8000#16 }
      (fun t => t.lpc == 0x008003#22 && t.sr == 0x0100#16) &&
    runs 0x6E02#16 0xABCD#16 { start with pc := 0x8000#16 }
      (fun t => t.lpc == 0x008003#22 && t.sr == 0x0000#16) &&
    runs 0x7E02#16 0xABCD#16 { start with sr := 0x0200#16, pc := 0x8000#16 }
      (fun t => t.lpc == 0x008003#22 && t.sr == 0x0200#16) &&
    runs 0x8E02#16 0xABCD#16 { start with sr := 0x0140#16, pc := 0x8000#16 }
      (fun t => t.lpc == 0x008003#22 && t.sr == 0x0140#16) &&
    runs 0x9E02#16 0xABCD#16 { start with sr := 0x0040#16, pc := 0x8000#16 }
      (fun t => t.lpc == 0x008003#22 && t.sr == 0x0040#16) &&
    runs 0xAE02#16 0xABCD#16 { start with sr := 0x0080#16, pc := 0x8000#16 }
      (fun t => t.lpc == 0x008003#22 && t.sr == 0x0080#16) &&
    runs 0xBE02#16 0xABCD#16 { start with pc := 0x8000#16 }
      (fun t => t.lpc == 0x008003#22 && t.sr == 0x0000#16) &&
    runs 0xCE02#16 0xABCD#16 { start with sr := 0x0280#16, pc := 0x8000#16 }
      (fun t => t.lpc == 0x008003#22 && t.sr == 0x0280#16) &&
    runs 0xDE02#16 0xABCD#16 { start with sr := 0x0200#16, pc := 0x8000#16 }
      (fun t => t.lpc == 0x008003#22 && t.sr == 0x0200#16) &&
    runs 0xEE00#16 0xABCD#16 { start with pc := 0x8000#16 }
      (fun t => t.lpc == 0x008001#22 && t.sr == 0x0000#16)) = true := by decide
theorem test_branches_not_taken :
    (runs 0x0E05#16 0xABCD#16 { start with sr := 0x0040#16, pc := 0x8000#16 }
      (fun t => t.lpc == 0x008001#22 && t.sr == 0x0040#16) &&
    runs 0x4E02#16 0xABCD#16 { start with sr := 0x0100#16, pc := 0x8000#16 }
      (fun t => t.lpc == 0x008001#22 && t.sr == 0x0100#16) &&
    runs 0x8E02#16 0xABCD#16 { start with sr := 0x0040#16, pc := 0x8000#16 }
      (fun t => t.lpc == 0x008001#22 && t.sr == 0x0040#16) &&
    runs 0x9E02#16 0xABCD#16 { start with sr := 0x0140#16, pc := 0x8000#16 }
      (fun t => t.lpc == 0x008001#22 && t.sr == 0x0140#16) &&
    runs 0xAE02#16 0xABCD#16 { start with pc := 0x8000#16 }
      (fun t => t.lpc == 0x008001#22 && t.sr == 0x0000#16) &&
    runs 0xBE02#16 0xABCD#16 { start with sr := 0x0100#16, pc := 0x8000#16 }
      (fun t => t.lpc == 0x008001#22 && t.sr == 0x0100#16) &&
    runs 0xCE02#16 0xABCD#16 { start with sr := 0x0200#16, pc := 0x8000#16 }
      (fun t => t.lpc == 0x008001#22 && t.sr == 0x0200#16) &&
    runs 0xDE02#16 0xABCD#16 { start with pc := 0x8000#16 }
      (fun t => t.lpc == 0x008001#22 && t.sr == 0x0000#16)) = true := by decide
theorem test_mode_words :
    (runs 0xF140#16 0xABCD#16 { start with fr := 0x0068#16 }
      (fun t => t.fr == 0x0008#16 && (t.sr &&& 0xFFC0#16) == 0x0000#16) &&
    runs 0xF141#16 0xABCD#16 { start with fr := 0x0048#16 }
      (fun t => t.fr == 0x0028#16 && (t.sr &&& 0xFFC0#16) == 0x0000#16) &&
    runs 0xF142#16 0xABCD#16 { start with fr := 0x0028#16 }
      (fun t => t.fr == 0x0048#16 && (t.sr &&& 0xFFC0#16) == 0x0000#16) &&
    runs 0xF143#16 0xABCD#16 start
      (fun t => t.fr == 0x0068#16 && (t.sr &&& 0xFFC0#16) == 0x0000#16) &&
    runs 0xF144#16 0xABCD#16 { start with fr := 0x0808#16 }
      (fun t => t.fr == 0x0008#16 && (t.sr &&& 0xFFC0#16) == 0x0000#16) &&
    runs 0xF145#16 0xABCD#16 start
      (fun t => t.fr == 0x0808#16 && (t.sr &&& 0xFFC0#16) == 0x0000#16) &&
    runs 0xF146#16 0xABCD#16 { start with fr := 0x1008#16 }
      (fun t => t.fr == 0x0008#16 && (t.sr &&& 0xFFC0#16) == 0x0000#16) &&
    runs 0xF147#16 0xABCD#16 start
      (fun t => t.fr == 0x1008#16 && (t.sr &&& 0xFFC0#16) == 0x0000#16) &&
    runs 0xF148#16 0xABCD#16 { start with fr := 0x0068#16 }
      (fun t => t.fr == 0x0048#16 && (t.sr &&& 0xFFC0#16) == 0x0000#16) &&
    runs 0xF149#16 0xABCD#16 start
      (fun t => t.fr == 0x0028#16 && (t.sr &&& 0xFFC0#16) == 0x0000#16) &&
    runs 0xF14A#16 0xABCD#16 { start with fr := 0x2008#16 }
      (fun t => t.fr == 0x0008#16 && (t.sr &&& 0xFFC0#16) == 0x0000#16) &&
    runs 0xF14B#16 0xABCD#16 start
      (fun t => t.fr == 0x2008#16 && (t.sr &&& 0xFFC0#16) == 0x0000#16) &&
    runs 0xF14C#16 0xABCD#16 { start with fr := 0x0068#16 }
      (fun t => t.fr == 0x0028#16 && (t.sr &&& 0xFFC0#16) == 0x0000#16) &&
    runs 0xF14D#16 0xABCD#16 { start with fr := 0x0018#16 }
      (fun t => t.fr == 0x0008#16 && (t.sr &&& 0xFFC0#16) == 0x0000#16) &&
    runs 0xF14E#16 0xABCD#16 start
      (fun t => t.fr == 0x0048#16 && (t.sr &&& 0xFFC0#16) == 0x0000#16) &&
    runs 0xF14F#16 0xABCD#16 start
      (fun t => t.fr == 0x0018#16 && (t.sr &&& 0xFFC0#16) == 0x0000#16) &&
    runs 0xF165#16 0xABCD#16 start
      (fun t => t.fr == 0x0008#16 && (t.sr &&& 0xFFC0#16) == 0x0000#16) &&
    runs 0xFF7D#16 0xABCD#16 start
      (fun t => t.fr == 0x0008#16 && (t.sr &&& 0xFFC0#16) == 0x0000#16)) = true := by decide

/-! ### Division steps, interrupts and reset -/

theorem test_divs_step :
    runs 0xF162#16 0#16 { start with r4 := 0xFFFF#16, r3 := 0x2E26#16, r2 := 0x0625#16 }
      (fun t => t.r4 == 0xFFFE#16 && t.r3 == 0x5C4D#16 && t.aq) = true := by decide
theorem test_divq_step :
    runs 0xF163#16 0#16 { start with r4 := 0x0006#16, r3 := 0x2E26#16, r2 := 0x0625#16 }
      (fun t => t.r4 == 0xF3C2#16 && t.r3 == 0x5C4C#16 && t.aq) = true := by decide
theorem test_muls_one_register_as_both_pointers :
    runs 0xF291#16 0#16
      { start with r1 := 0x0010#16, mem := memOf [(0x000010#22, 2#16), (0x000011#22, 3#16)] }
      (fun t => t.mr == 13#32 && t.r1 == 0x0012#16) = true := by decide
theorem test_break_entry :
    runs 0xF160#16 0#16
      { start with sp := 0x27FF#16, pc := 0x8000#16, sr := 0x0042#16, mem := memOf [(0x00FFF5#22, 0x9000#16)] }
      (fun t => t.pc == 0x9000#16 && t.sp == 0x27FD#16 && wordAt t 0x0027FF#22 == 0x8001#16 &&
        wordAt t 0x0027FE#22 == 0x0042#16 && t.inBrk && t.fr == 0x0008#16) = true := by decide
theorem test_reti_leaves_break_first :
    runs 0x9A98#16 0#16
      { start with sp := 0x27FC#16, inBrk := true, irqDepth := 1, fr := 0x0038#16,
                   mem := memOf [(0x0027FD#22, 0x0041#16), (0x0027FE#22, 0x8123#16)] }
      (fun t => t.lpc == 0x018123#22 && t.sp == 0x27FE#16 && !t.inBrk && t.irqDepth == 1 &&
        t.fr == 0x0038#16) = true := by decide
theorem test_reti_pops_fr_in_nest_mode :
    runs 0x9A98#16 0#16
      { start with sp := 0x27FC#16, irqDepth := 1, fr := 0x0032#16,
                   mem := memOf [(0x0027FD#22, 0x0038#16), (0x0027FE#22, 0x0040#16), (0x0027FF#22, 0x8123#16)] }
      (fun t => t.pc == 0x8123#16 && t.sr == 0x0040#16 && t.fr == 0x0038#16 && t.irqDepth == 0) = true := by decide

/-- The state after one step, if there is one, passes the test. -/
def after (s : State) (good : State → Bool) : Bool :=
  match step s with
  | .next t => good t
  | _ => false

theorem test_fiq_before_irq :
    after { start with sp := 0x27FF#16, pc := 0x8000#16, fr := 0x0068#16, irqIn := [⟨true, 0xFF#8⟩],
                       mem := memOf [(0x00FFF6#22, 0x9100#16)] }
      (fun t => t.pc == 0x9100#16 && t.inFiq && t.sp == 0x27FD#16 && wordAt t 0x0027FF#22 == 0x8000#16 &&
        t.irqIn == []) = true := by decide
theorem test_irq_lowest_number_nests :
    after { start with sp := 0x27FF#16, pc := 0x8000#16, fr := 0x0038#16, irqIn := [⟨false, 0xFC#8⟩],
                       mem := memOf [(0x00FFFA#22, 0x9200#16)] }
      (fun t => t.pc == 0x9200#16 && t.irqDepth == 1 && t.sp == 0x27FC#16 && t.pri == 2#4 &&
        wordAt t 0x0027FD#22 == 0x0038#16) = true := by decide
theorem test_irq_at_priority_waits :
    after { start with sp := 0x27FF#16, pc := 0x8000#16, fr := 0x0022#16, irqIn := [⟨false, 0xFC#8⟩],
                       mem := memOf [(0x008000#22, 0xF165#16)] }
      (fun t => t.lpc == 0x008001#22 && t.irqDepth == 0) = true := by decide
theorem test_reset_step :
    after { State.reset with sr := 0xFFFF#16, mem := memOf [(0x00FFF7#22, 0x8000#16)] }
      (fun t => t.lpc == 0x008000#22 && t.sr == 0xFFC0#16 && t.fr == 0x0008#16 && !t.resetPending) = true := by decide
theorem test_store_to_rom_faults :
    step ({ start with plat := { defaultPlatform with map := [⟨0x20, 1, .rom⟩] } }.placeWords 0xD5E0#16 0#16) =
      .fault (.romWrite 0x20) := rfl
theorem test_reserved_word_refused : step (start.placeWords 0x5302#16 0#16) = .refused (.reserved .noOperation) :=
  rfl

/-! ### Witnesses: states and operands that meet the hypotheses of each statement, one for each clause -/

/-- Something is answered: used to show a concrete next state exists. -/
theorem next_of {α : Type} {r : Res α} (h : (match r with | .next _ => true | _ => false) = true) :
    ∃ t, r = .next t := by
  cases r <;> simp_all

/-- All of memory is RAM in the state after reset and in every state that differs from it in no platform
parameter. -/
theorem ram {s : State} (h : s.plat = defaultPlatform) (a : Addr) : writable s a :=
  writable_of_no_map (by rw [h]; rfl) a

theorem witness_DecodeOfEncodeIsIdentity :
    (Instr.storeA16w .pc 0xFFFF#16).wellFormed = true ∧ (Instr.push .pc 7#3 .sp).wellFormed = true ∧
      (Instr.call 0x3FFFFF#22).wellFormed = true ∧ (Instr.jmp true 0x3F#6).wellFormed = true := by decide

theorem witness_DecodedInstructionIsWellFormed :
    decode 0x0F0D#16 0x2400#16 = .ok (.addIm16 .pc .bp 0x2400#16) ∧
      decode 0x0302#16 0x2400#16 = .ok (.addReg .r1 .r2) ∧ isTwoWord 0x0302#16 = false := ⟨rfl, rfl, rfl⟩

theorem witness_TwoWordPatterns :
    0x010F#16 &&& 0x01F8#16 = 0x0108#16 ∧ op0At 0x010F#16 ∈ [0, 1, 2, 3, 4, 6, 8, 9, 10, 11, 12] ∧
      0xCF17#16 &&& 0x01F8#16 = 0x0110#16 ∧ op0At 0xCF17#16 ∈ [0, 1, 2, 3, 4, 6, 8, 9, 10, 11, 12] ∧
      0xDF1F#16 &&& 0x01F8#16 = 0x0118#16 ∧ op0At 0xDF1F#16 ∈ [0, 1, 2, 3, 4, 6, 8, 10, 11, 12, 13] ∧
      0xFEBF#16 &&& 0xFFC0#16 = 0xFE80#16 ∧ 0xFE7F#16 &&& 0xF1C0#16 = 0xF040#16 := by decide

theorem witness_RejectedWordsAreTheReservedOnes :
    reservedWord 0x5302#16 = true ∧ reservedWord 0xD290#16 = true ∧ reservedWord 0x0302#16 = false ∧
      reservedWord 0x9A98#16 = false := by decide

theorem witness_IgnoredBitsDecodeAlike :
    0xFF65#16 &&& 0xF1C0#16 = 0xF140#16 ∧ 0xF07F#16 &&& 0xF1C0#16 = 0xF040#16 ∧
      0xF17D#16 &&& 0xF1E0#16 = 0xF160#16 ∧ (0xFC27#16 &&& 0xF1E0#16 = 0xF020#16 ∧ 0xFC27#16 &&& 0x0E00#16 ≠ 0x0E00#16) ∧
      0xFEFF#16 &&& 0xFFC0#16 = 0xFEC0#16 ∧ (op0At 0x9F0F#16 = 9 ∧ 0x9F0F#16 &&& 0x01F8#16 = 0x0108#16) ∧
      (op0At 0xDF1F#16 = 13 ∧ 0xDF1F#16 &&& 0x01F8#16 = 0x0118#16) ∧
      (op0At 0xCF17#16 = 12 ∧ 0xCF17#16 &&& 0x01F8#16 = 0x0110#16) := by decide

/-- A state with the words `ADD R1 = R2 + 0x1234` at the last address of the space. -/
def fetching : State :=
  ({ start with sr := 0x003F#16, pc := 0xFFFF#16 } : State).placeWords 0x030A#16 0x1234#16

theorem witness_StepRunsTheDecodedInstruction :
    fetching.resetPending = false ∧ accepted fetching.linesNow fetching = none ∧ readable fetching fetching.lpc ∧
      readable fetching (fetching.lpc + 1#22) ∧
      decode (wordAt fetching fetching.lpc) (wordAt fetching (fetching.lpc + 1#22)) =
        .ok (.addIm16 .r1 .r2 0x1234#16) ∧
      ∃ u, exec (.addIm16 .r1 .r2 0x1234#16) (fetching.nextSample.setLpc (fetching.lpc + 2#22)) = .next u := by
  refine ⟨rfl, by decide, (ram rfl _).readable, (ram rfl _).readable, by rfl, next_of (by decide)⟩

theorem witness_StepRunsTheDecodedInstruction_stops :
    let s : State := { start with plat := { defaultPlatform with map := [⟨0x20, 1, .device⟩] } }
    exec (.loadA6 .r1 0x20#6) s = .fault (.deviceAccess 0x20) ∧
      exec (.addIm6 .pc 0#6) s = .refused (.reserved .pcOperand) := ⟨rfl, rfl⟩

theorem witness_StepRefusesReservedWord :
    let s := start.placeWords 0xF166#16 0#16
    s.resetPending = false ∧ accepted s.linesNow s = none ∧ readable s s.lpc ∧ reservedWord (wordAt s s.lpc) = true :=
  ⟨rfl, by decide, (ram rfl _).readable, by decide⟩

/-- A state in which FIQ, and with FIQ disabled IRQ7, is accepted. -/
def requested (fr : Word) : State := { start with sp := 1#16, fr := fr, irqIn := [⟨true, 0x80#8⟩] }

theorem witness_StepTakesAcceptedInterrupt :
    (requested 0x0068#16).resetPending = false ∧
      accepted (requested 0x0068#16).linesNow (requested 0x0068#16) = some .fiq ∧
      (∃ u, enterInterrupt .fiq (requested 0x0068#16).nextSample = .next u) ∧
      accepted (requested 0x0038#16).linesNow (requested 0x0038#16) = some (.irq 7) ∧
      (∃ u, enterInterrupt (.irq 7) (requested 0x0038#16).nextSample = .next u) :=
  ⟨rfl, by decide, next_of (by decide), by decide, next_of (by decide)⟩

theorem witness_ResetStepLoadsVector :
    State.reset.resetPending = true ∧ readable State.reset State.reset.plat.vecReset := ⟨rfl, (ram rfl _).readable⟩

theorem witness_MachineInvariantKept :
    Inv State.reset ∧ (∃ t, step State.reset = .next t) ∧ Inv fetching ∧ (∃ t, step fetching = .next t) :=
  ⟨⟨rfl, rfl⟩, next_of (by decide), ⟨by decide, by decide⟩, next_of (by decide)⟩

theorem witness_StepKeepsPlatform : ∃ t, step (requested 0x0068#16) = .next t := next_of (by decide)

theorem witness_AdmittedInstructionCompletes :
    (Instr.mulsSs .r1 0#4 .r2).check = none ∧ (Instr.reti).check = none ∧ start.plat.map = [] := by decide

theorem witness_RefusedExactlyOnRejectedOperands :
    exec (.push .r1 0#3 .sp) start = .refused (.reserved .emptyList) ∧
      (Instr.push .r1 0#3 .sp).check = some .emptyList := ⟨rfl, rfl⟩

/-- A state in which word 0x20 is a hole, 0x21 a device and 0x22 read-only. -/
def mapped : State :=
  { start with plat := { defaultPlatform with map := [⟨0x20, 1, .absent⟩, ⟨0x21, 1, .device⟩, ⟨0x22, 1, .rom⟩] } }

theorem witness_FaultOnlyFromUnadmittedAccess :
    exec (.loadA6 .r1 0x20#6) mapped = .fault (.absentAddress 0x20) ∧
      exec (.loadA6 .r1 0x21#6) mapped = .fault (.deviceAccess 0x21) ∧
      exec (.storeA6 .r1 0x22#6) mapped = .fault (.romWrite 0x22) := ⟨rfl, rfl, rfl⟩

theorem witness_OnlyListedFlagsChange :
    (∃ t, exec (.xorReg .r1 .r2) start = .next t) ∧ 6 ∉ flagsListedFor (Instr.xorReg .r1 .r2).shape ∧
      7 ∉ flagsListedFor (Instr.xorReg .r1 .r2).shape ∧ writesSrWhole (Instr.xorReg .r1 .r2).shape = false ∧
      8 ∉ flagsListedFor Instr.nop.shape ∧ 9 ∉ flagsListedFor Instr.nop.shape :=
  ⟨next_of (by decide), by decide, by decide, by decide, by decide, by decide⟩

theorem witness_OnlyRetiClearsServicing :
    (∃ t, exec .retf start = .next t) ∧ Instr.retf ≠ .reti ∧ Instr.retf ≠ .brk ∧ ∃ t, exec .brk start = .next t :=
  ⟨next_of (by decide), by decide, by decide, next_of (by decide)⟩

theorem witness_ConditionsAfterCompare : Reg.sp ≠ .sr ∧ Reg.pc ≠ .sr := by decide

theorem witness_AluImmediate6 : Reg.sp ≠ .pc ∧ Reg.sr ≠ .pc := by decide

theorem witness_AluDirectAddress :
    (readable start (addrA6 0#6) ∧ readable start (addrA6 0x3F#6)) ∧
      readable start (addrA16 0#16) ∧ readable start (addrA16 0xFFFF#16) :=
  ⟨⟨(ram rfl _).readable, (ram rfl _).readable⟩, (ram rfl _).readable, (ram rfl _).readable⟩

theorem witness_ShifterBits : Reg.r1 ≠ .sr ∧ Reg.pc ≠ .sr := by decide

theorem witness_AluToMemory16 : writable start (addrA16 0#16) ∧ writable start (addrA16 0xFFFF#16) :=
  ⟨ram rfl _, ram rfl _⟩

theorem witness_AluIndirect :
    (indAllowed .sr true .keep .sr ∧ readable start (indAddr true .keep .sr start)) ∧
      (indAllowed .r1 true .postDec .sp ∧ readable start (indAddr true .postDec .sp start)) ∧
      (indAllowed .sr false .preInc .bp ∧ readable start (indAddr false .preInc .bp start)) ∧
      (indAllowed .pc true .postInc .r4 ∧ readable start (indAddr true .postInc .r4 start)) :=
  ⟨⟨.inl rfl, (ram rfl _).readable⟩, ⟨.inr (by decide), (ram rfl _).readable⟩,
    ⟨.inr (by decide), (ram rfl _).readable⟩, ⟨.inr (by decide), (ram rfl _).readable⟩⟩

theorem witness_AluDisplacement :
    Reg.sr ≠ .pc ∧ readable { start with bp := 0xFFFF#16 } (addrBp 1#6 { start with bp := 0xFFFF#16 }) :=
  ⟨by decide, (ram rfl _).readable⟩

theorem witness_StoreForms :
    (writable start (addrA6 0x3F#6) ∧ writable start (addrA16 0xFFFF#16) ∧ Reg.sr ≠ .pc ∧
        writable start (addrBp 0x3F#6 start)) ∧
      (indAllowed .sr true .keep .sr ∧ writable start (indAddr true .keep .sr start)) ∧
      (indAllowed .pc true .postDec .r4 ∧ writable start (indAddr true .postDec .r4 start)) ∧
      (indAllowed .sr false .preInc .bp ∧ writable start (indAddr false .preInc .bp start)) :=
  ⟨⟨ram rfl _, ram rfl _, by decide, ram rfl _⟩, ⟨.inl rfl, ram rfl _⟩, ⟨.inr (by decide), ram rfl _⟩,
    ⟨.inr (by decide), ram rfl _⟩⟩

theorem witness_ProductFitsUnlessFraction :
    let s : State := { start with r1 := 0x8000#16, r2 := 0xFFFF#16, fr := 0x1008#16 }
    Reg.r1 ≠ .pc ∧ Reg.sr ≠ .pc ∧ s.fra = true ∧ s.x .r1 = 0x8000#16 ∧ 2 ^ 31 ≤ (s.x .r2).toNat * (s.x .r2).toNat ∧
      start.fra = false := by decide

theorem witness_BitOpsOnRegister : Reg.sp ≠ .pc ∧ Reg.sr ≠ .pc := by decide

theorem witness_BitOpsOnMemory :
    Reg.sr ≠ .pc ∧ readable mapped (dataAddr false 0x22#16 mapped) ∧
      writable start (dataAddr true (start.x .sr) start) ∧ writable start (dataAddr false (start.x .sp) start) :=
  ⟨by decide, .inr (by decide), ram rfl _, ram rfl _⟩

theorem witness_Shift16Plain : Reg.sp ≠ .pc ∧ Reg.sr ≠ .pc := by decide

theorem witness_Shift16Rotate : Reg.bp ≠ .pc ∧ Reg.sr ≠ .pc := by decide

theorem witness_WideShiftFromTwoShifts : Reg.r1 ≠ .r3 ∧ Reg.r1 ≠ .r4 ∧ Reg.pc ≠ .r3 ∧ Reg.pc ≠ .r4 := by decide

theorem witness_MultiplyProduct : Reg.sr ≠ .pc ∧ Reg.r4 ≠ .pc ∧ start.plat.waitPm = 0 := by decide

/-- The state after reset on a chip whose `div_step`, `fir_move` and `muls_adjust` are not the spec's defaults. -/
def otherChip : State :=
  { start with plat := { defaultPlatform with divStep := .other 1, firMove := .other 2, mulsAdjust := .other 3 } }

theorem witness_InnerProduct :
    (Reg.r1 ∉ [.r3, .r4, .pc] ∧ Reg.sr ∉ [.r3, .r4, .pc]) ∧
      (∀ s ∈ [start, otherChip],
        (∀ i : Nat, i < levelCount 0#4 → readable s (bank0 (s.x .r1 + BitVec.ofNat 16 i)) ∧
          readable s (bank0 (s.x .sr + BitVec.ofNat 16 i))) ∧
        (s.fir = false ∧ 1 < levelCount 0#4 ∧ ¬1 < levelCount 1#4) ∧
        ∀ samples, ∀ w ∈ firWrites s.plat.firMove (s.x .r1) samples, writable s (bank0 w.1)) ∧
      (start.plat.firMove = .default ∧ start.plat.mulsAdjust = .default) ∧
      ({ start with fr := 0x0808#16 } : State).fir = true := by
  have allRam : ∀ s ∈ [start, otherChip], ∀ a, writable s a := by
    intro s hs a
    simp only [List.mem_cons, List.not_mem_nil, or_false] at hs
    rcases hs with rfl | rfl <;> exact writable_of_no_map rfl a
  refine ⟨by decide, fun s hs => ⟨fun i _ => ⟨(allRam s hs _).readable, (allRam s hs _).readable⟩, ?_,
    fun _ w _ => allRam s hs _⟩, ⟨rfl, rfl⟩, by decide⟩
  revert s
  decide

theorem witness_DivisionSteps : start.plat.divStep = .default ∧ otherChip.plat.divStep ≠ .default := by decide

theorem witness_SixteenDivqDivide :
    let s : State := { start with r2 := 0x7FFF#16, r3 := 0xFFFE#16, r4 := 0x0001#16 }
    s.plat.divStep = .default ∧ s.aq = false ∧ 0xFFFF < 2 ^ 31 ∧ s.mr = BitVec.ofNat 32 (2 * 0xFFFF) ∧
      0 < (s.x .r2).toNat ∧ (s.x .r2).toNat ≤ 0x7FFF ∧ 0xFFFF / (s.x .r2).toNat < 2 ^ 16 := by decide

theorem witness_ExpCountsRedundantSigns :
    0xF164#16 &&& 0xF1E7#16 = 0xF164#16 ∧ 0xFF7C#16 &&& 0xF1E7#16 = 0xF164#16 := by decide

theorem witness_NopOnlyAdvances :
    let s := start.placeWords 0xFF7D#16 0#16
    s.resetPending = false ∧ accepted s.linesNow s = none ∧ readable s s.lpc ∧
      wordAt s s.lpc &&& 0xF1E7#16 = 0xF165#16 := ⟨rfl, by decide, (ram rfl _).readable, by decide⟩

theorem witness_GotoMrJumps : 0xFEFF#16 &&& 0xFFC0#16 = 0xFEC0#16 := by decide

theorem witness_DsAccess :
    0xFE3F#16 &&& 0xFFC0#16 = 0xFE00#16 ∧
      (0xFC27#16 &&& 0xF1F8#16 = 0xF020#16 ∧ 0xFC27#16 &&& 0x0E00#16 ≠ 0x0E00#16) ∧
      (0xF02F#16 &&& 0xF1F8#16 = 0xF028#16 ∧ 0xF02F#16 &&& 0x0E00#16 ≠ 0x0E00#16) := by decide

theorem witness_FrAccess :
    0xFC37#16 &&& 0x0E00#16 ≠ 0x0E00#16 ∧ 0xFC37#16 &&& 0xF1F8#16 = 0xF030#16 ∧
      0xF038#16 &&& 0x0E00#16 ≠ 0x0E00#16 ∧ 0xF038#16 &&& 0xF1F8#16 = 0xF038#16 := by decide

theorem witness_ModeInstructions :
    0xFF40#16 &&& 0xF1FF#16 = 0xF140#16 ∧ 0xF14F#16 &&& 0xF1FF#16 = 0xF14F#16 := by decide

theorem witness_PushStoresList :
    (0 < (7#3).toNat ∧ (7#3).toNat ≤ Reg.pc.num + 1 ∧ (Reg.sp.num + (7#3).toNat ≤ Reg.pc.num ∨ Reg.pc.num < Reg.sp.num) ∧
      pushable start (start.x .sp) (7#3).toNat) ∧
      (0 < (1#3).toNat ∧ (1#3).toNat ≤ Reg.sp.num + 1 ∧
        (Reg.r1.num + (1#3).toNat ≤ Reg.sp.num ∨ Reg.sp.num < Reg.r1.num) ∧
        pushable start (start.x .r1) (1#3).toNat) :=
  ⟨⟨by decide, by decide, by decide, fun _ _ => ram rfl _⟩, ⟨by decide, by decide, by decide, fun _ _ => ram rfl _⟩⟩

theorem witness_PopLoadsList :
    (0 < (7#3).toNat ∧ Reg.sp.num + (7#3).toNat ≤ 7 ∧ (Reg.sp.num ≤ Reg.sp.num ∨ Reg.sp.num + (7#3).toNat < Reg.sp.num) ∧
      poppable start (start.x .sp) (7#3).toNat) ∧
      (0 < (1#3).toNat ∧ Reg.bp.num + (1#3).toNat ≤ 7 ∧
        (Reg.pc.num ≤ Reg.bp.num ∨ Reg.bp.num + (1#3).toNat < Reg.pc.num) ∧
        poppable start (start.x .pc) (1#3).toNat) :=
  ⟨⟨by decide, by decide, by decide, fun _ _ => (ram rfl _).readable⟩,
    ⟨by decide, by decide, by decide, fun _ _ => (ram rfl _).readable⟩⟩

theorem witness_PopUndoesPush :
    0 < (7#3).toNat ∧ (7#3).toNat ≤ Reg.pc.num ∧ (Reg.sp.num + (7#3).toNat ≤ Reg.pc.num ∨ Reg.pc.num < Reg.sp.num) ∧
      pushable start (start.x .sp) (7#3).toNat := ⟨by decide, by decide, by decide, fun _ _ => ram rfl _⟩

theorem witness_CallPushesFrame : pushable start start.sp 2 := fun _ _ => ram rfl _

/-- The state after a CALL from `start`. -/
def called : State := match exec (.call 0x3FFFFF#22) start with | .next u => u | _ => start

theorem witness_RetfReturns :
    poppable start start.sp 2 ∧
      exec (.call 0x3FFFFF#22) start = .next called ∧ FramePushed start called ∧ readable called (bank0 start.sp) ∧
      readable called (bank0 (start.sp - 1#16)) :=
  ⟨fun _ _ => (ram rfl _).readable, rfl, by constructor <;> decide, (ram (by decide) _).readable,
    (ram (by decide) _).readable⟩

theorem witness_BreakEntersHandler : pushable start start.sp 2 ∧ readable start 0x00FFF5#22 :=
  ⟨fun _ _ => ram rfl _, (ram rfl _).readable⟩

theorem witness_RetiReturns :
    let nested : State := { start with fr := 0x0010#16, irqDepth := 1 }
    (nested.ine = true ∧ leavesIrq nested ∧ poppable nested nested.sp 3) ∧
      (¬(start.ine = true ∧ leavesIrq start) ∧ poppable start start.sp 2) :=
  ⟨⟨by decide, ⟨rfl, rfl, by decide⟩, fun _ _ => (ram rfl _).readable⟩,
    ⟨fun h => absurd h.1 (by decide), fun _ _ => (ram rfl _).readable⟩⟩

theorem witness_InterruptEntry :
    let nested : State := { start with fr := 0x0010#16 }
    (pushable nested nested.sp (frameWords (.irq 7) nested) ∧ readable nested (vectorOf (.irq 7) nested) ∧
        IntSource.nests (.irq 7) nested = true) ∧
      (pushable start start.sp (frameWords .fiq start) ∧ readable start (vectorOf .fiq start) ∧
        IntSource.nests .fiq start = false) :=
  ⟨⟨fun _ _ => ram rfl _, (ram rfl _).readable, by decide⟩, ⟨fun _ _ => ram rfl _, (ram rfl _).readable, by decide⟩⟩

theorem witness_AcceptanceTest :
    FiqAdmitted ⟨true, 0#8⟩ { start with fr := 0x0048#16 } ∧
      IrqAdmitted { start with fr := 0x0028#16 } ∧ IrqRequested ⟨false, 0x80#8⟩ { start with fr := 0x0028#16 } 7 ∧
      ¬IrqRequested ⟨false, 0x80#8⟩ { start with fr := 0x0027#16 } 7 ∧
      ¬FiqAdmitted ⟨true, 0#8⟩ { start with fr := 0x0048#16, inBrk := true } := by
  refine ⟨⟨rfl, by decide, rfl, rfl⟩, ⟨by decide, rfl, rfl, .inl rfl⟩, ⟨by decide, by decide⟩, ?_, ?_⟩
  · exact fun h => absurd h.2 (by decide)
  · exact fun h => absurd h.2.2.2 (by decide)

/-- A state in nest mode, and the state after IRQ0 enters. -/
def nesting : State := { start with sp := 0x27FF#16, pc := 0x8000#16, fr := 0x0038#16 }

theorem witness_RetiUndoesEntry :
    NotBlocked (.irq 0) nesting ∧
      ∃ u, enterInterrupt (.irq 0) nesting = .next u ∧ SameService u u ∧ u.ine = nesting.ine ∧ FramePushed nesting u ∧
        IntSource.nests (.irq 0) nesting = true ∧ wordAt u (bank0 (nesting.sp - 2#16)) = nesting.frWord ∧
        ∀ i : Nat, i < frameWords (.irq 0) nesting → readable u (bank0 (nesting.sp - BitVec.ofNat 16 i)) :=
  ⟨⟨rfl, rfl⟩, _, rfl, ⟨rfl, rfl, rfl⟩, by decide, ⟨by decide, by decide⟩, by decide, by decide,
    fun _ _ => (ram rfl _).readable⟩

/-- The state after the entry of a source. -/
def entered (src : IntSource) (s : State) : State :=
  match enterInterrupt src s with
  | .next u => u
  | _ => s

theorem enterInterrupt_entered {src : IntSource} {s : State} (h : ∃ u, enterInterrupt src s = .next u) :
    enterInterrupt src s = .next (entered src s) := by
  obtain ⟨u, hu⟩ := h
  simp [entered, hu]

theorem witness_RetiUndoesEntry_two_words :
    let plain : State := { nesting with fr := 0x0028#16 }
    ∀ p ∈ [(IntSource.fiq, nesting), (.brk, nesting), (.irq 0, plain)], NotBlocked p.1 p.2 ∧
      enterInterrupt p.1 p.2 = .next (entered p.1 p.2) ∧ (entered p.1 p.2).ine = p.2.ine ∧
      FramePushed p.2 (entered p.1 p.2) ∧ p.1.nests p.2 = false ∧
      ∀ i : Nat, i < frameWords p.1 p.2 → readable (entered p.1 p.2) (bank0 (p.2.sp - BitVec.ofNat 16 i)) := by
  intro plain p hp
  simp only [List.mem_cons, List.not_mem_nil, or_false] at hp
  rcases hp with rfl | rfl | rfl <;>
    exact ⟨by first | exact rfl | exact ⟨rfl, rfl⟩, enterInterrupt_entered (next_of (by decide)), by decide,
      ⟨by decide, by decide⟩, by decide, fun _ _ => (ram (by decide) _).readable⟩

end Sys2Proof.Tests
end

section
/-! ## Which step is taken (`00_scope.md` rule R10) -/

namespace Sys2Proof.Machine

/-- With no reset pending, the source the acceptance test admits is entered. -/
theorem step_of_accepted {s : State} {src : IntSource} (hr : s.resetPending = false)
    (ha : accepted s.linesNow s = some src) : step s = runEntry src s.nextSample := by
  have hs : accepted s.linesNow s.nextSample = some src := ha
  simp [step, hr, hs]

/-- With no reset pending and no source admitted, one instruction runs. -/
theorem step_of_quiet {s : State} (hr : s.resetPending = false) (ha : accepted s.linesNow s = none) :
    step s = runInstr s.nextSample := by
  have hs : accepted s.linesNow s.nextSample = none := ha
  simp [step, hr, hs]

end Sys2Proof.Machine
end

section
/-! ## The length of an instruction (`30_encoding.md` rule R78): the decoder and `isTwoWord` read the same fields -/

namespace Sys2Proof

/-- The form an instruction is spelled by has a second word exactly when the instruction has one. -/
theorem word1_shape_of_toInstr {sh : Shape} {i : Instr} (h : sh.toInstr = some i) :
    i.shape.word1.isSome = sh.word1.isSome := by
  unfold Shape.toInstr at h
  split at h <;> cases h <;> rfl

theorem fieldRd_eq_pc (w : Word) : fieldRd w = .pc ↔ fieldRdBits w = 7#3 := by
  have hpc : fieldRd w = .pc ↔ Reg.ofBits (fieldRdBits w) = .pc := Iff.rfl
  rw [hpc]
  generalize fieldRdBits w = b
  revert b
  decide

/-- Outside group 1111 a two-word instruction has op1 = 100 and an operation that takes a second word. -/
theorem isTwoWord_of_op0_ne {w0 : Word} (h : fieldOp0 w0 ≠ 15#4) :
    isTwoWord w0 = true ↔ fieldOp1 w0 = 4#3 ∧ ∃ op, AluOp.ofBits (fieldOp0 w0) = some op ∧
      acceptsSecondWord op (fieldOpn w0) = true := by
  unfold isTwoWord
  rw [if_neg h]
  by_cases h4 : fieldOp1 w0 = 4#3
  · cases ho : AluOp.ofBits (fieldOp0 w0) <;> simp [h4]
  · simp [h4]

/-- In group 1111 the two-word instructions are CALL and GOTO. -/
theorem isTwoWord_of_op0_eq {w0 : Word} (h : fieldOp0 w0 = 15#4) :
    isTwoWord w0 = true ↔ fieldOp1 w0 = 1#3 ∨ (fieldRd w0 = .pc ∧ fieldOp1 w0 = 2#3) := by
  simp [isTwoWord, h, fieldRd_eq_pc]

/-! #### The form's second word is there when the first word says so -/

theorem isTwoWord_of_decodeAlu {op : AluOp} {w0 w1 : Word} {sh : Shape} (h15 : fieldOp0 w0 ≠ 15#4)
    (ho : AluOp.ofBits (fieldOp0 w0) = some op) (h : decodeAlu op w0 w1 = .ok sh) (hs : sh.toInstr.isSome = true) :
    isTwoWord w0 = true ↔ sh.word1.isSome = true := by
  rw [isTwoWord_of_op0_ne h15]
  simp only [ho, Option.some.injEq, exists_eq_left', acceptsSecondWord]
  unfold decodeAlu at h
  simp only at h
  split_ifs at h with h0 h1 h2 h3 h7 hreg him16 ha16 ha16w
  case pos => cases h; simp [h0, Shape.word1]
  case pos => cases h; simp [h1, Shape.word1]
  case pos => split at h <;> cases h <;> simp [h2, Shape.word1]
  case pos => cases h; simp [h3, Shape.word1]
  case pos => cases h; simp [h7, Shape.word1]
  case pos => cases h; simp [hreg, Shape.word1]
  case pos => cases h; cases op <;> simp_all [Shape.word1, Shape.toInstr]
  case pos => cases h; cases op <;> simp_all [Shape.word1, Shape.toInstr]
  case pos => cases h; cases op <;> simp_all [Shape.word1, Shape.toInstr]
  case neg =>
    split at h <;> cases h
    simp_all [Shape.word1]

theorem word1_of_decodeControl {w0 : Word} {sh : Shape} (h : decodeControl w0 = .ok sh) : sh.word1 = none := by
  unfold decodeControl at h
  simp only at h
  split_ifs at h <;> cases h <;> rfl

theorem isTwoWord_of_decode1111 {w0 w1 : Word} {sh : Shape} (h15 : fieldOp0 w0 = 15#4)
    (h : decode1111 w0 w1 = .ok sh) : isTwoWord w0 = true ↔ sh.word1.isSome = true := by
  rw [isTwoWord_of_op0_eq h15]
  by_cases h5 : fieldOp1 w0 = 5#3
  · have hc : decode1111 w0 w1 = decodeControl w0 := by simp [decode1111, h5]
    simp [word1_of_decodeControl (hc ▸ h), h5]
  · simp only [decode1111, h5, if_false] at h
    split_ifs at h <;> cases h <;> simp [*, Shape.word1]

theorem word1_of_decode1110 {w0 : Word} {sh : Shape} (h : decode1110 w0 = .ok sh) : sh.word1 = none := by
  unfold decode1110 at h
  simp only at h
  split_ifs at h <;> cases h <;> rfl

/-- The length of the form the decoder reads is the one its first word announces. -/
theorem isTwoWord_of_decodeShape {w0 w1 : Word} {sh : Shape} (h : decodeShape w0 w1 = .ok sh)
    (hs : sh.toInstr.isSome = true) : isTwoWord w0 = true ↔ sh.word1.isSome = true := by
  unfold decodeShape at h
  simp only at h
  split_ifs at h with hbranch h15 h14 hretf hreti
  case pos =>
    obtain ⟨hne, -, h1⟩ := hbranch
    split at h <;> cases h
    rw [isTwoWord_of_op0_ne hne]
    rcases h1 with h1 | h1 <;> simp [h1, Shape.word1]
  case pos => exact isTwoWord_of_decode1111 h15 h
  case pos =>
    rw [isTwoWord_of_op0_ne h15, word1_of_decode1110 h, h14]
    simp [AluOp.ofBits]
  case pos => cases h; subst hretf; decide
  case pos => cases h; subst hreti; decide
  case neg =>
    split at h
    · rename_i op ho
      exact isTwoWord_of_decodeAlu h15 ho h hs
    · cases h

/-! #### A form without a second word does not depend on it -/

theorem decodeAlu_congr {op : AluOp} {w0 w1 : Word} {sh : Shape} (h : decodeAlu op w0 w1 = .ok sh)
    (hn : sh.word1 = none) (w : Word) : decodeAlu op w0 w = .ok sh := by
  unfold decodeAlu at *
  simp only at *
  split_ifs at * with h0 h1 h2 h3 h7 hreg him16 ha16 ha16w
  case pos | pos | pos | pos | pos | pos => exact h
  case pos | pos | pos => cases h; cases hn
  case neg => exact h

theorem decode1111_congr {w0 w1 : Word} {sh : Shape} (h : decode1111 w0 w1 = .ok sh) (hn : sh.word1 = none)
    (w : Word) : decode1111 w0 w = .ok sh := by
  by_cases hcall : fieldOp1 w0 = 1#3
  · simp only [decode1111, hcall] at h
    cases h
    cases hn
  by_cases hgoto : fieldOp1 w0 = 2#3 ∧ fieldRd w0 = .pc
  · obtain ⟨h2, hpc⟩ := hgoto
    simp only [decode1111, h2, hpc] at h
    cases h
    cases hn
  · rw [← h]
    simp only [decode1111, hcall, if_false]
    split_ifs <;> tauto

theorem decodeShape_congr {w0 w1 : Word} {sh : Shape} (h : decodeShape w0 w1 = .ok sh) (hn : sh.word1 = none)
    (w : Word) : decodeShape w0 w = .ok sh := by
  unfold decodeShape at *
  simp only at *
  split_ifs at * with hbranch h15 h14 hretf hreti
  case pos => exact h
  case pos => exact decode1111_congr h hn w
  case pos => exact h
  case pos => exact h
  case pos => exact h
  case neg =>
    split at h
    · exact decodeAlu_congr h hn w
    · cases h

/-! #### Decoding -/

/-- The first word of a decoded instruction says how many words it has. -/
theorem isTwoWord_of_decode {w0 w1 : Word} {i : Instr} (h : decode w0 w1 = .ok i) :
    isTwoWord w0 = true ↔ i.words = 2 := by
  obtain ⟨sh, hsh, hi, -⟩ := (decode_ok_iff w0 w1 i).1 h
  rw [isTwoWord_of_decodeShape hsh (by simp [hi]), ← word1_shape_of_toInstr hi, Instr.words]
  cases i.shape.word1 <;> simp

/-- A one-word instruction is decoded whatever word follows it. -/
theorem decode_of_one_word {w0 w1 : Word} {i : Instr} (h : decode w0 w1 = .ok i) (h2 : isTwoWord w0 = false)
    (w : Word) : decode w0 w = .ok i := by
  obtain ⟨sh, hsh, hi, hc⟩ := (decode_ok_iff w0 w1 i).1 h
  have hn : sh.word1 = none := by
    have hiff := isTwoWord_of_decodeShape hsh (by simp [hi])
    simpa [h2] using hiff
  exact decode_of_shape (decodeShape_congr hsh hn w) hi hc

theorem words_cases (i : Instr) : i.words = 1 ∨ i.words = 2 := by
  unfold Instr.words
  split
  · exact .inr rfl
  · exact .inl rfl

end Sys2Proof
end

section
/-! ## Fetch and run -/

namespace Sys2Proof.Machine

/-- A fetch answers the instruction at LPC, and LPC then holds the address after its words. -/
theorem fetch_of_decode {s : State} {i : Instr} (h0 : readable s s.lpc)
    (h1 : i.words = 2 → readable s (s.lpc + 1#22))
    (hd : decode (wordAt s s.lpc) (wordAt s (s.lpc + 1#22)) = .ok i) :
    fetch s = .next (i, s.setLpc (s.lpc + BitVec.ofNat 22 i.words)) := by
  have hlen := isTwoWord_of_decode hd
  refine (fetch_next s _ i).2 ⟨h0, ?_⟩
  split
  case isTrue h2 =>
    have hw := hlen.1 h2
    refine ⟨h1 hw, hd, ?_⟩
    rw [hw, BitVec.add_assoc]
    rfl
  case isFalse h2 =>
    have hw : i.words = 1 := (words_cases i).resolve_right fun h => h2 (hlen.2 h)
    refine ⟨decode_of_one_word hd (by simpa using h2) _, ?_⟩
    rw [hw]

end Sys2Proof.Machine
end

section
/-! ## What no step changes: the platform, the request samples to come, and counters that only rise -/

namespace Sys2Proof.Machine

/-- The request samples, the pending reset, the platform and the cycles are as before, and no draw is undone. -/
def KeepsPlatform (s t : State) : Prop := SamePlatform s t ∧ s.draws ≤ t.draws

namespace KeepsPlatform

variable {s t u : State}

@[simp] theorem refl (s : State) : KeepsPlatform s s := ⟨⟨rfl, rfl, rfl, rfl⟩, Nat.le_refl _⟩

theorem trans (h : KeepsPlatform s t) (g : KeepsPlatform t u) : KeepsPlatform s u := by
  obtain ⟨⟨hi, hr, hp, hc⟩, hd⟩ := h
  obtain ⟨⟨gi, gr, gp, gc⟩, gd⟩ := g
  exact ⟨⟨gi.trans hi, gr.trans hr, gp.trans hp, gc.trans hc⟩, Nat.le_trans hd gd⟩

/-! #### Updates of the state -/

@[simp] theorem setX (r : Reg) (v : Word) : KeepsPlatform s (t.setX r v) ↔ KeepsPlatform s t := by
  simp [KeepsPlatform, SamePlatform]
@[simp] theorem setMr (v : BitVec 32) : KeepsPlatform s (t.setMr v) ↔ KeepsPlatform s t := by
  simp [State.setMr]
@[simp] theorem setFr (v : Word) : KeepsPlatform s (t.setFr v) ↔ KeepsPlatform s t := Iff.rfl
@[simp] theorem setAq (b : Bool) : KeepsPlatform s (t.setAq b) ↔ KeepsPlatform s t := Iff.rfl
@[simp] theorem setSb (v : BitVec 4) : KeepsPlatform s (t.setSb v) ↔ KeepsPlatform s t := Iff.rfl
@[simp] theorem setPri (v : BitVec 4) : KeepsPlatform s (t.setPri v) ↔ KeepsPlatform s t := Iff.rfl
@[simp] theorem writeFr (m v : Word) : KeepsPlatform s (t.writeFr m v) ↔ KeepsPlatform s t := Iff.rfl
@[simp] theorem writeSr (m v : Word) : KeepsPlatform s (t.writeSr m v) ↔ KeepsPlatform s t := Iff.rfl
@[simp] theorem setAluFlags (op : AluOp) (a b : Word) :
    KeepsPlatform s (t.setAluFlags op a b) ↔ KeepsPlatform s t := Iff.rfl
@[simp] theorem setDs (v : BitVec 6) : KeepsPlatform s (t.setDs v) ↔ KeepsPlatform s t := Iff.rfl
@[simp] theorem setCs (v : BitVec 6) : KeepsPlatform s (t.setCs v) ↔ KeepsPlatform s t := Iff.rfl
@[simp] theorem setLpc (a : Addr) : KeepsPlatform s (t.setLpc a) ↔ KeepsPlatform s t := Iff.rfl
@[simp] theorem stored (a : Addr) (v : Word) : KeepsPlatform s (t.stored a v) ↔ KeepsPlatform s t := Iff.rfl
@[simp] theorem framed : KeepsPlatform s t.framed ↔ KeepsPlatform s t := by simp [State.framed]
@[simp] theorem unframed : KeepsPlatform s t.unframed ↔ KeepsPlatform s t := Iff.rfl
@[simp] theorem beginService (src : IntSource) : KeepsPlatform s (t.beginService src) ↔ KeepsPlatform s t := by
  cases src <;> rfl
@[simp] theorem endService (l : ServiceLevel) : KeepsPlatform s (t.endService l) ↔ KeepsPlatform s t := by
  cases l <;> rfl

/-- A free value taken moves the draw counter up. -/
theorem drawSr (m : Word) (h : KeepsPlatform s t) : KeepsPlatform s (t.drawSr m) :=
  ⟨h.1, Nat.le_succ_of_le h.2⟩

/-! #### Shared operations -/

theorem writeBack (m f : Word) (rd : Reg) (r : Word) (s : State) : KeepsPlatform s (writeBack m f rd r s) := by
  unfold Machine.writeBack
  split
  · exact drawSr m (by simp)
  · simp

theorem aluFinish (op : AluOp) (rd : Reg) (a b : Word) (s : State) :
    KeepsPlatform s (aluFinish op rd a b s) := by
  unfold Machine.aluFinish
  split
  · exact writeBack _ _ _ _ _
  · simp

@[simp] theorem stepPtr (d : Bool) (δ : Addr) (rs : Reg) :
    KeepsPlatform s (stepPtr d δ rs t) ↔ KeepsPlatform s t := by
  cases d <;> simp [Machine.stepPtr]

@[simp] theorem preStep (d : Bool) (mark : PtrMark) (rs : Reg) :
    KeepsPlatform s (preStep d mark rs t) ↔ KeepsPlatform s t := by
  cases mark <;> simp [Machine.preStep]

@[simp] theorem postStep (d : Bool) (mark : PtrMark) (rs : Reg) :
    KeepsPlatform s (postStep d mark rs t) ↔ KeepsPlatform s t := by
  cases mark <;> simp [Machine.postStep]

theorem of_memWrite {a : Addr} {v : Word} (h : memWrite a v s = .next t) : KeepsPlatform s t := by
  obtain ⟨-, rfl⟩ := (memWrite_next a v s t).1 h
  simp

theorem of_pushEach {ptr : Reg} {rs : List Reg} (h : pushEach ptr rs s = .next t) : KeepsPlatform s t := by
  induction rs generalizing s with
  | nil => rw [(pushEach_nil_next ptr s t).1 h]; simp
  | cons r rs ih =>
    obtain ⟨-, hrest⟩ := (pushEach_cons_next ptr r rs s t).1 h
    exact trans (by simp) (ih hrest)

theorem of_popEach {ptr : Reg} {rs : List Reg} (h : popEach ptr rs s = .next t) : KeepsPlatform s t := by
  induction rs generalizing s with
  | nil => rw [(popEach_nil_next ptr s t).1 h]; simp
  | cons r rs ih =>
    obtain ⟨-, hrest⟩ := (popEach_cons_next ptr r rs s t).1 h
    exact trans (by simp) (ih hrest)

theorem of_callTo {target : Addr} (h : callTo target s = .next t) : KeepsPlatform s t := by
  obtain ⟨-, -, rfl⟩ := (callTo_next target s t).1 h
  simp

theorem of_popFrame (h : popFrame s = .next t) : KeepsPlatform s t := by
  obtain ⟨-, -, rfl⟩ := (popFrame_next s t).1 h
  simp

theorem of_pushNestFr {src : IntSource} (h : pushNestFr src s = .next t) : KeepsPlatform s t := by
  obtain ⟨-, rfl⟩ | ⟨n, -, -, -, rfl⟩ := (pushNestFr_next src s t).1 h <;> simp

theorem of_enterInterrupt {src : IntSource} (h : enterInterrupt src s = .next t) : KeepsPlatform s t := by
  obtain ⟨u, hu, v, hv, -, rfl⟩ := (enterInterrupt_next src s t).1 h
  obtain ⟨-, -, rfl⟩ := (pushFrame_next s u).1 hu
  have hframe : KeepsPlatform s s.framed := by simp
  have hservice : KeepsPlatform s (v.beginService src) := by simpa using hframe.trans (of_pushNestFr hv)
  exact drawSr maskNotCs hservice

theorem of_returnInterrupt (h : returnInterrupt s = .next t) : KeepsPlatform s t := by
  obtain ⟨-, -, u, hu, rfl⟩ | ⟨-, u, hu, rfl⟩ := (returnInterrupt_next s t).1 h
  · have hfr : KeepsPlatform s ((s.setX .sp (s.sp + 1#16)).setFr (wordAt s (bank0 (s.sp + 1#16)))) := by simp
    simpa using hfr.trans (of_popFrame hu)
  · simpa using of_popFrame hu

/-! #### Operand forms -/

theorem of_aluFrom {op : AluOp} {rd : Reg} {a : Word} {addr : Addr} (h : aluFrom op rd a addr s = .next t) :
    KeepsPlatform s t := by
  obtain ⟨-, rfl⟩ := (aluFrom_next op rd a addr s t).1 h
  exact aluFinish ..

theorem of_aluInd {op : AluOp} {rd : Reg} {d : Bool} {mark : PtrMark} {rs : Reg}
    (h : aluInd op rd d mark rs s = .next t) : KeepsPlatform s t := by
  obtain ⟨-, -, rfl⟩ := (aluInd_next op rd d mark rs s t).1 h
  have hpre : KeepsPlatform s (Machine.preStep d mark rs s) := by simp
  simpa using hpre.trans (aluFinish ..)

theorem of_storeInd {rd : Reg} {d : Bool} {mark : PtrMark} {rs : Reg} (h : storeInd rd d mark rs s = .next t) :
    KeepsPlatform s t := by
  obtain ⟨-, -, rfl⟩ := (storeInd_next rd d mark rs s t).1 h
  simp

theorem of_aluA16w {op : AluOp} {rd : Reg} {b addr : Word} (h : aluA16w op rd b addr s = .next t) :
    KeepsPlatform s t := by
  obtain ⟨-, -, rfl⟩ | ⟨-, rfl⟩ := (aluA16w_next op rd b addr s t).1 h <;> simp

theorem of_bitReg {b : BitOp} {rd : Reg} {k : BitVec 4} (h : bitReg b rd k s = .next t) : KeepsPlatform s t := by
  obtain ⟨-, rfl⟩ := (bitReg_next b rd k s t).1 h
  split
  · simp
  · exact writeBack ..

theorem of_bitMem {b : BitOp} {d : Bool} {rd : Reg} {k : BitVec 4} (h : bitMem b d rd k s = .next t) :
    KeepsPlatform s t := by
  obtain ⟨-, -, -, rfl⟩ := (bitMem_next b d rd k s t).1 h
  split <;> simp

theorem of_shiftPlain {k : LongShift} {rd rs : Reg} (h : shiftPlain k rd rs s = .next t) : KeepsPlatform s t := by
  obtain ⟨-, rfl⟩ := (shiftPlain_next k rd rs s t).1 h
  exact drawSr maskC (by simp)

theorem of_shiftOr {k : LongShift} {rd rs : Reg} (h : shiftOr k rd rs s = .next t) : KeepsPlatform s t := by
  obtain ⟨-, rfl⟩ := (shiftOr_next k rd rs s t).1 h
  exact drawSr maskC (by simp)

theorem of_shiftRotate {k : LongShift} {rd rs : Reg} (h : shiftRotate k rd rs s = .next t) :
    KeepsPlatform s t := by
  obtain ⟨-, rfl⟩ := (shiftRotate_next k rd rs s t).1 h
  exact writeBack ..

theorem of_multiply {k : MulKind} {rd rs : Reg} (h : multiply k rd rs s = .next t) : KeepsPlatform s t := by
  obtain ⟨-, rfl⟩ := (multiply_next k rd rs s t).1 h
  simp

theorem of_firMove {xd : Word} {samples : List Word} (h : firMove xd samples s = .next t) : KeepsPlatform s t := by
  rw [firMove_keeps xd samples s t h]
  exact refl s

theorem mulsFlag {rd rs : Reg} {overflow : Bool} (h : KeepsPlatform s t) :
    KeepsPlatform s (mulsFlag rd rs overflow t) := by
  unfold Machine.mulsFlag
  split
  · exact drawSr maskS h
  · simpa using h

theorem of_innerProduct {k : MulKind} {rd : Reg} {n : BitVec 4} {rs : Reg}
    (h : innerProduct k rd n rs s = .next t) : KeepsPlatform s t := by
  obtain ⟨-, data, -, u, hu, rfl⟩ := (innerProduct_next k rd n rs s t).1 h
  exact mulsFlag (by simpa [mulsAdjust] using of_firMove hu)

theorem of_divSign (h : divSign s = .next t) : KeepsPlatform s t := by
  obtain ⟨mr, aq, hdiv⟩ := divSign_next s
  cases hdiv.symm.trans h
  simp

theorem of_divQuotient (h : divQuotient s = .next t) : KeepsPlatform s t := by
  obtain ⟨mr, aq, hdiv⟩ := divQuotient_next s
  cases hdiv.symm.trans h
  simp

/-! #### Every instruction -/

theorem of_execShape {sh : Shape} (h : execShape sh s = .next t) : KeepsPlatform s t := by
  cases sh
  case branch c back imm =>
    rw [(branch_next c back imm s t).1 h]
    split <;> simp
  case retf => exact of_popFrame h
  case reti => exact of_returnInterrupt h
  case bpIm6 op rd imm =>
    simp only [execShape] at h
    split at h
    · exact of_memWrite ((guarded_next _ _ t).1 h).2
    · exact of_aluFrom ((guarded_next _ _ t).1 h).2
  case im6 op rd imm =>
    obtain ⟨-, rfl⟩ := (guarded_ok_next _ t _).1 h
    exact aluFinish ..
  case ind op rd d mark rs =>
    simp only [execShape] at h
    split at h
    · exact of_storeInd h
    · exact of_aluInd h
  case reg | im16 =>
    cases h
    exact aluFinish ..
  case a16 => exact of_aluFrom h
  case a16w op rd rs addr =>
    simp only [execShape] at h
    split at h
    · exact of_memWrite h
    · exact of_aluA16w h
  case shifted op k rd n rs =>
    cases h
    have hsb : KeepsPlatform s (s.setSb (shifter k (shiftCount n) (s.x rs) s.sb).2) := by simp
    exact hsb.trans (aluFinish ..)
  case a6 op rd addr =>
    simp only [execShape] at h
    split at h
    · exact of_memWrite h
    · exact of_aluFrom h
  case push rd n rs => exact of_pushEach ((pushList_next rd n rs s t).1 h).2
  case pop rd n rs => exact of_popEach ((popList_next rd n rs s t).1 h).2
  case bitRr | bitRo => exact of_bitReg h
  case bitMr | bitMo => exact of_bitMem h
  case shift16 k rd rs =>
    cases k
    case asr | lsl | lsr => exact of_shiftPlain h
    case asror | lslor | lsror => exact of_shiftOr h
    case rol | ror => exact of_shiftRotate h
  case mul => exact of_multiply h
  case muls => exact of_innerProduct h
  case call | callMr => exact of_callTo h
  case brk => exact of_enterInterrupt h
  case divs => exact of_divSign h
  case divq => exact of_divQuotient h
  case dsIm6 | movRsDs | movDsRs | movRsFr | movFrRs | goto | gotoMr | mode | exp | nop =>
    cases h
    simp

/-- No instruction changes the platform, the samples to come, the pending reset or the cycles, and none undoes a
draw. -/
theorem of_exec {i : Instr} (h : exec i s = .next t) : KeepsPlatform s t :=
  of_execShape ((exec_shape i s).symm.trans h)

/-- A fetch moves LPC only. -/
theorem of_fetch {i : Instr} (h : fetch s = .next (i, t)) : KeepsPlatform s t := by
  obtain ⟨-, hrest⟩ := (fetch_next s t i).1 h
  split at hrest
  · obtain ⟨-, -, rfl⟩ := hrest
    simp
  · obtain ⟨-, rfl⟩ := hrest
    simp

end KeepsPlatform

/-! ### Every step -/

/-- From a state `s` whose sample has been used to the end `t` of the step: the platform and the samples to come are
kept, no reset is pending, and the counters have not fallen. -/
def StepKeeps (s t : State) : Prop :=
  t.plat = s.plat ∧ t.irqIn = s.irqIn ∧ t.resetPending = false ∧ s.cycles ≤ t.cycles ∧ s.draws ≤ t.draws

theorem KeepsPlatform.stepKeeps {s t : State} (h : KeepsPlatform s t) (hr : s.resetPending = false) (n : Nat) :
    StepKeeps s (t.addCycles n) := by
  obtain ⟨⟨hi, hp, hplat, hc⟩, hd⟩ := h
  exact ⟨hplat, hi, hp.trans hr, hc ▸ Nat.le_add_right _ n, hd⟩

theorem stepKeeps_of_resetStep {s t : State} (h : resetStep s = .next t) : StepKeeps s t := by
  obtain ⟨-, rfl⟩ := (resetStep_next s t).1 h
  exact ⟨rfl, rfl, rfl, Nat.le_add_right _ _, Nat.le_succ _⟩

theorem stepKeeps_of_runEntry {src : IntSource} {s t : State} (hr : s.resetPending = false)
    (h : runEntry src s = .next t) : StepKeeps s t := by
  obtain ⟨u, hu, rfl⟩ := (runEntry_next src s t).1 h
  exact (KeepsPlatform.of_enterInterrupt hu).stepKeeps hr _

theorem stepKeeps_of_runInstr {s t : State} (hr : s.resetPending = false) (h : runInstr s = .next t) :
    StepKeeps s t := by
  obtain ⟨i, u, v, hfetch, hexec, rfl⟩ := (runInstr_next s t).1 h
  exact ((KeepsPlatform.of_fetch hfetch).trans (KeepsPlatform.of_exec hexec)).stepKeeps hr _

end Sys2Proof.Machine
end

section
/-! ## Division steps (`43_mul_div_exp.md` rules R196, R197) -/

namespace Sys2Proof.Machine

/-! ### MR and FR written -/

/-- A masked write of FR leaves the bits outside the mask. -/
theorem writeFr_keepsFrBut {bits : List Nat} {m : Word} (h : ∀ i : Fin 16, i.val ∉ bits → m.getLsbD i.val = false)
    (s : State) (v : Word) : KeepsFrBut bits s (s.writeFr m v) := by
  intro i hi
  have hm : m.getLsbD i = false := by
    rcases Nat.lt_or_ge i 16 with hlt | hge
    · exact h ⟨i, hlt⟩ hi
    · exact BitVec.getLsbD_of_ge _ _ hge
  simp [hm]

theorem setAq_keepsFrBut (s : State) (b : Bool) : KeepsFrBut [14] s (s.setAq b) :=
  writeFr_keepsFrBut (by decide) s _

@[simp] theorem aq_setAq (s : State) (b : Bool) : (s.setAq b).aq = b := by
  have hmask : maskAq.getLsbD 14 = true := by decide
  simp only [State.aq, State.setAq, State.writeFr_fr, getLsbD_mergeBits, getLsbD_flagBit, hmask, if_true,
    Bool.and_true]

@[simp] theorem x_setAq (s : State) (b : Bool) (r : Reg) : (s.setAq b).x r = s.x r := by
  rw [State.x, State.setAq_bnk, State.setAq, State.get_writeFr, State.x]

@[simp] theorem mr_setAq (s : State) (b : Bool) : (s.setAq b).mr = s.mr := by simp [State.mr]

theorem keepsRegs_setMr (s : State) (v : BitVec 32) : KeepsRegs [.r3, .r4] s (s.setMr v) :=
  ((keepsRegs_setX s .r4 _).trans (by simp) (keepsRegs_setX _ .r3 _)).mono (by simp)

theorem keepsRegs_writeFr (s : State) (m v : Word) : KeepsRegs [] s (s.writeFr m v) := fun p _ => by simp

theorem sameRest_setMr (s : State) (v : BitVec 32) : SameRest s (s.setMr v) :=
  (sameRest_setX s .r4 _).trans (sameRest_setX _ .r3 _)

theorem sameRest_writeFr (s : State) (m v : Word) : SameRest s (s.writeFr m v) :=
  ⟨⟨rfl, rfl, rfl⟩, rfl, rfl, rfl, rfl⟩

/-- A write of MR and AQ changes R3, R4 and AQ alone. -/
theorem setMr_setAq_frame (s : State) (v : BitVec 32) (b : Bool) :
    KeepsFrBut [14] s ((s.setMr v).setAq b) ∧ KeepsRegs [.r3, .r4] s ((s.setMr v).setAq b) ∧
      SameMem s ((s.setMr v).setAq b) ∧ SameRest s ((s.setMr v).setAq b) := by
  have hfr : KeepsFrBut [14] s ((s.setMr v).setAq b) := fun i hi => by
    rw [setAq_keepsFrBut (s.setMr v) b i hi, setMr_fr]
  have hregs : KeepsRegs [.r3, .r4] s ((s.setMr v).setAq b) :=
    ((keepsRegs_setMr s v).trans (by simp) (keepsRegs_writeFr _ _ _)).mono (by simp)
  exact ⟨hfr, hregs, sameMem_of_eq (setMr_mem s v), (sameRest_setMr s v).trans (sameRest_writeFr _ _ _)⟩

/-! ### The quotient bit shifted in -/

/-- The two halves of MR as the division steps write them are MR shifted left with one bit entering. -/
theorem halves_shifted (hi lo : Word) (b : Bool) :
    (((hi.extractLsb' 0 15 ++ BitVec.ofBool lo.msb : Word) ++
      (lo.extractLsb' 0 15 ++ BitVec.ofBool b : Word) : BitVec 32)) =
      (hi ++ lo : BitVec 32) <<< 1 ||| (BitVec.ofBool b).setWidth 32 := by
  apply BitVec.eq_of_getLsbD_eq
  intro i hi
  simp only [BitVec.getLsbD_append, BitVec.getLsbD_or, BitVec.getLsbD_shiftLeft, BitVec.getLsbD_setWidth,
    BitVec.getLsbD_extractLsb', BitVec.getLsbD_ofBool, BitVec.msb_eq_getLsbD_last]
  interval_cases i <;> simp

end Sys2Proof.Machine
end

section
/-! ## The inner product (`43_mul_div_exp.md` rules R190 to R195) -/

namespace Sys2Proof.Machine

/-! ### The sum -/

/-- The words of level `i` of two arrays. -/
def levelWords (s : State) (xd xs : Word) (i : Nat) : Word × Word :=
  (wordAt s (bank0 (xd + BitVec.ofNat 16 i)), wordAt s (bank0 (xs + BitVec.ofNat 16 i)))

/-- The two arrays read level by level, where the platform admits every word of them. -/
theorem readLevels_ok {xd xs : Word} {s : State} {l : Nat}
    (h : ∀ i, i < l → readable s (bank0 (xd + BitVec.ofNat 16 i)) ∧ readable s (bank0 (xs + BitVec.ofNat 16 i))) :
    readLevels xd xs s (List.range l) = .next ((List.range l).map (levelWords s xd xs)) :=
  (readLevels_next xd xs s _ _).2 ⟨fun i hi => h i (List.mem_range.1 hi), rfl⟩

theorem sumProducts_append_one (k : MulKind) (fraction : Bool) (ps : List (Word × Word)) (p : Word × Word) :
    sumProducts k fraction (ps ++ [p]) = sumProducts k fraction ps + exactProduct k fraction p.1 p.2 := by
  induction ps with
  | nil => simp [sumProducts, productOf_eq]
  | cons q ps ih => simp only [List.cons_append, sumProducts, ih, Int.add_assoc]

/-- The sum of the products of the words read is the spec's inner sum. -/
theorem sumProducts_levels (k : MulKind) (s : State) (xd xs : Word) (l : Nat) :
    sumProducts k s.fra ((List.range l).map (levelWords s xd xs)) = innerSum k s xd xs l := by
  induction l with
  | zero => rfl
  | succ l ih =>
    rw [List.range_succ, List.map_append, List.map_singleton, sumProducts_append_one, ih]
    rfl

/-- The test on bits 35 to 31, or 35 to 32, is that the sum does not fit MR. -/
theorem accOverflow_eq (k : MulKind) (acc : BitVec 36) : accOverflow k acc = sumOverflows k acc := by
  have hacc := acc.isLt
  have hhigh : (acc.extractLsb' 32 4).toNat = acc.toNat / 2 ^ 32 := by
    rw [BitVec.extractLsb'_toNat, Nat.shiftRight_eq_div_pow]
    omega
  have hsign : (acc.extractLsb' 31 5).toNat = acc.toNat / 2 ^ 31 := by
    rw [BitVec.extractLsb'_toNat, Nat.shiftRight_eq_div_pow]
    omega
  have hunsigned : accOverflow .uu acc = sumOverflows .uu acc := by
    rw [Bool.eq_iff_iff]
    simp only [accOverflow, sumOverflows, bne_iff_ne, ne_eq, ← BitVec.toNat_inj, hhigh, BitVec.toNat_ofNat,
      decide_eq_true_eq]
    omega
  have hsigned : accOverflow .ss acc = sumOverflows .ss acc := by
    rw [Bool.eq_iff_iff]
    simp only [accOverflow, sumOverflows, Bool.and_eq_true, bne_iff_ne, ne_eq, ← BitVec.toNat_inj, hsign,
      BitVec.toNat_ofNat, decide_eq_true_eq, BitVec.toInt_eq_toNat_cond]
    split <;> omega
  cases k
  case uu => exact hunsigned
  case us | ss => exact hsigned

/-! ### The FIR move -/

theorem firMove_of_moves {xd : Word} {samples : List Word} {s : State} (hfir : s.fir = false)
    (hlen : 1 < samples.length) (hw : ∀ w ∈ firWrites s.plat.firMove xd samples, writable s (bank0 w.1)) :
    ∃ u, firMove xd samples s = .next u ∧ WordsWritten (firWrites s.plat.firMove xd samples) s u := by
  have hwrite := (writeEach_next (firWrites s.plat.firMove xd samples) s _).2 ⟨hw, rfl⟩
  refine ⟨_, ?_, writeEach_written _ _ _ hwrite⟩
  rw [firMove_next, if_neg (by simp [hfir, hlen])]
  exact hwrite

theorem firMove_of_still {xd : Word} {samples : List Word} {s : State} (h : ¬(s.fir = false ∧ 1 < samples.length)) :
    firMove xd samples s = .next s := by
  rw [firMove_next, if_pos]
  by_cases hfir : s.fir = true
  · exact .inl hfir
  · exact .inr (by simpa [hfir] using h)

/-- The FIR move completes where the words it writes, if it writes any, are admitted: it writes them in order, or
changes nothing. -/
theorem firMove_ok {xd : Word} {samples : List Word} {s : State}
    (hw : s.fir = false ∧ 1 < samples.length →
      ∀ w ∈ firWrites s.plat.firMove xd samples, writable s (bank0 w.1)) :
    ∃ u, firMove xd samples s = .next u ∧
      (s.fir = false ∧ 1 < samples.length → WordsWritten (firWrites s.plat.firMove xd samples) s u) ∧
      (¬(s.fir = false ∧ 1 < samples.length) → SameMem s u) := by
  by_cases h : s.fir = false ∧ 1 < samples.length
  · obtain ⟨u, hu, hwritten⟩ := firMove_of_moves h.1 h.2 (hw h)
    exact ⟨u, hu, fun _ => hwritten, fun hn => absurd h hn⟩
  · exact ⟨s, firMove_of_still h, fun hm => absurd hm h, fun _ _ => rfl⟩

/-- The words written read in the memory alone. -/
theorem WordsWritten.of_mem_eq {ws : List (Word × Word)} {s t u : State} (h : WordsWritten ws s t)
    (hm : u.mem = t.mem) : WordsWritten ws s u := by
  have hword : ∀ a, wordAt u a = wordAt t a := fun a => by simp [wordAt, hm]
  have hbyte : ∀ a, byteAt u a = byteAt t a := fun a => by simp [byteAt, hm]
  obtain ⟨hlast, hrest⟩ := h
  exact ⟨fun e l off v he hn => (hword _).trans (hlast e l off v he hn),
    fun a ha => (hbyte a).trans (hrest a ha)⟩

theorem SameMem.of_mem_eq {s t u : State} (h : SameMem s t) (hm : u.mem = t.mem) : SameMem s u :=
  fun a => by rw [← h a, byteAt, byteAt, hm]

/-- The default FIR move of the samples of `l` levels. -/
theorem moveUp_range (xd : Word) (sample : Nat → Word) (l : Nat) :
    moveUp xd ((List.range l).map sample) =
      (List.range (l - 1)).reverse.map fun i => (xd + BitVec.ofNat 16 (i + 1), sample i) := by
  unfold moveUp
  rw [List.length_map, List.length_range]
  refine List.map_congr_left fun i hi => ?_
  have hlt : i < l := by
    rw [List.mem_reverse, List.mem_range] at hi
    omega
  simp [List.getD_eq_getElem?_getD, hlt]

/-! ### The accumulator, the pointers and S -/

/-- The state with the 36-bit sum in MR and SB. -/
def State.setAcc (s : State) (acc : BitVec 36) : State :=
  (s.setMr (acc.extractLsb' 0 32)).setSb (acc.extractLsb' 32 4)

@[simp] theorem setAcc_bnk (s : State) (acc : BitVec 36) : (s.setAcc acc).bnk = s.bnk := by simp [State.setAcc]
@[simp] theorem setAcc_mem (s : State) (acc : BitVec 36) : (s.setAcc acc).mem = s.mem := setMr_mem s _
@[simp] theorem setAcc_plat (s : State) (acc : BitVec 36) : (s.setAcc acc).plat = s.plat := setMr_plat s _

theorem setAcc_mr (s : State) (acc : BitVec 36) : (s.setAcc acc).mr = acc.extractLsb' 0 32 := by
  rw [State.setAcc, State.mr, State.x_setSb, State.x_setSb]
  exact mr_setMr s _

theorem setAcc_sb (s : State) (acc : BitVec 36) : (s.setAcc acc).sb = acc.extractLsb' 32 4 := setSb_sb _ _

theorem setAcc_keepsFrBut (s : State) (acc : BitVec 36) : KeepsFrBut [7, 8, 9, 10] s (s.setAcc acc) :=
  fun i hi => by rw [State.setAcc, setSb_fr (s.setMr _) _ i hi, setMr_fr]

theorem keepsRegs_setAcc (s : State) (acc : BitVec 36) : KeepsRegs [.r3, .r4] s (s.setAcc acc) :=
  ((keepsRegs_setMr s _).trans (by simp) (keepsRegs_writeFr _ _ _)).mono (by simp)

theorem sameRest_setAcc (s : State) (acc : BitVec 36) : SameRest s (s.setAcc acc) :=
  (sameRest_setMr s _).trans (sameRest_writeFr _ _ _)

section Pointers

variable (rd rs : Reg) (xd xs : Word) (n : Nat) (s : State)

@[simp] theorem mulsAdjust_fr : (mulsAdjust rd rs xd xs n s).fr = s.fr := by simp [mulsAdjust]
@[simp] theorem mulsAdjust_bnk : (mulsAdjust rd rs xd xs n s).bnk = s.bnk := by simp [mulsAdjust]
@[simp] theorem mulsAdjust_mem : (mulsAdjust rd rs xd xs n s).mem = s.mem := by simp [mulsAdjust]

/-- Both pointers are written, Rs last. -/
theorem mulsAdjust_x (q : Reg) :
    (mulsAdjust rd rs xd xs n s).x q =
      if q = rs then (adjustedPointers s.plat.mulsAdjust rd rs xd xs n).2
      else if q = rd then (adjustedPointers s.plat.mulsAdjust rd rs xd xs n).1 else s.x q := by
  simp [mulsAdjust]

theorem keepsRegs_mulsAdjust : KeepsRegs [rd, rs] s (mulsAdjust rd rs xd xs n s) :=
  ((keepsRegs_setX s rd _).trans (by simp) (keepsRegs_setX _ rs _)).mono (by simp)

theorem sameRest_mulsAdjust : SameRest s (mulsAdjust rd rs xd xs n s) :=
  (sameRest_setX s rd _).trans (sameRest_setX _ rs _)

end Pointers

/-- A masked write of SR with S as its mask leaves the other bits. -/
theorem agreesBut_mergeBits_maskS (v w : Word) : AgreesBut [7] (mergeBits maskS v w) w := by
  intro i hi
  have hm : maskS.getLsbD i = false := by
    rcases Nat.lt_or_ge i 16 with hlt | hge
    · have hall : ∀ j : Fin 16, j.val ∉ [7] → maskS.getLsbD j.val = false := by decide
      exact hall ⟨i, hlt⟩ hi
    · exact BitVec.getLsbD_of_ge _ _ hge
  simp [hm]

section Flag

variable (rd rs : Reg) (overflow : Bool) (s : State)

@[simp] theorem mulsFlag_fr : (mulsFlag rd rs overflow s).fr = s.fr := by unfold mulsFlag; split <;> simp
@[simp] theorem mulsFlag_bnk : (mulsFlag rd rs overflow s).bnk = s.bnk := by unfold mulsFlag; split <;> simp
@[simp] theorem mulsFlag_mem : (mulsFlag rd rs overflow s).mem = s.mem := by unfold mulsFlag; split <;> simp

theorem keepsRegs_mulsFlag : KeepsRegs [.sr] s (mulsFlag rd rs overflow s) := by
  unfold mulsFlag
  split
  · intro p hp
    have hsr : p ≠ .sr := fun e => hp (by simp [e, physOf])
    rw [State.get_drawSr, if_neg hsr]
  · exact keepsRegs_writeSr s _ _ []

theorem sameRest_mulsFlag : SameRest s (mulsFlag rd rs overflow s) := by
  unfold mulsFlag
  split
  · exact sameRest_drawSr s _
  · exact sameRest_writeSr s _ _

/-- Whether S is written or drawn, the other bits of SR are as before. -/
theorem mulsFlag_sr : AgreesBut [7] (mulsFlag rd rs overflow s).sr s.sr := by
  unfold mulsFlag
  split <;> exact agreesBut_mergeBits_maskS _ _

theorem mulsFlag_flagS (hd : rd ≠ .sr) (hs : rs ≠ .sr) : (mulsFlag rd rs overflow s).flagS = overflow := by
  have hmask : maskS.getLsbD 7 = true := by decide
  rw [mulsFlag, if_neg (by simp [hd, hs]), flagS_writeSr, if_pos hmask, getLsbD_flagBit, hmask, Bool.and_true]

end Flag

/-! ### MULS -/

/-- The state MULS ends in, from the state `u` after the FIR move. -/
def State.mulsDone (k : MulKind) (rd rs : Reg) (xd xs : Word) (l : Nat) (acc : BitVec 36) (u : State) : State :=
  mulsFlag rd rs (sumOverflows k acc) (mulsAdjust rd rs xd xs l (u.setAcc acc))

section Done

variable (k : MulKind) (rd rs : Reg) (xd xs : Word) (l : Nat) (acc : BitVec 36) (u : State)

@[simp] theorem mulsDone_mem : (u.mulsDone k rd rs xd xs l acc).mem = u.mem := by simp [State.mulsDone]

/-- A register other than SR holds after MULS what it holds after the pointers are stepped. -/
theorem mulsDone_x {q : Reg} (hq : q ≠ .sr) :
    (u.mulsDone k rd rs xd xs l acc).x q = (mulsAdjust rd rs xd xs l (u.setAcc acc)).x q :=
  (keepsRegs_mulsFlag rd rs _ _).x (mulsFlag_bnk _ _ _ _) q (by simpa using hq)

/-- SR holds after MULS, but for S, what it holds after the pointers are stepped. -/
theorem mulsDone_sr :
    AgreesBut [7] (u.mulsDone k rd rs xd xs l acc).sr ((mulsAdjust rd rs xd xs l (u.setAcc acc)).x .sr) := by
  rw [x_sr]
  exact mulsFlag_sr _ _ _ _

/-- The pointers leave MR alone. -/
theorem mulsDone_mr (hd : rd ∉ [Reg.r3, .r4, .pc]) (hs : rs ∉ [Reg.r3, .r4, .pc]) :
    (u.mulsDone k rd rs xd xs l acc).mr = acc.extractLsb' 0 32 := by
  simp only [List.mem_cons, List.not_mem_nil, or_false, not_or] at hd hs
  obtain ⟨hd3, hd4, -⟩ := hd
  obtain ⟨hs3, hs4, -⟩ := hs
  have h4 : (u.mulsDone k rd rs xd xs l acc).x .r4 = (u.setAcc acc).x .r4 := by
    rw [mulsDone_x _ _ _ _ _ _ _ _ (by decide), mulsAdjust_x, if_neg (Ne.symm hs4), if_neg (Ne.symm hd4)]
  have h3 : (u.mulsDone k rd rs xd xs l acc).x .r3 = (u.setAcc acc).x .r3 := by
    rw [mulsDone_x _ _ _ _ _ _ _ _ (by decide), mulsAdjust_x, if_neg (Ne.symm hs3), if_neg (Ne.symm hd3)]
  rw [← setAcc_mr u acc, State.mr, State.mr, h4, h3]

theorem mulsDone_fr : (u.mulsDone k rd rs xd xs l acc).fr = (u.setAcc acc).fr := by
  simp [State.mulsDone]

theorem mulsDone_sb : (u.mulsDone k rd rs xd xs l acc).sb = acc.extractLsb' 32 4 := by
  rw [State.sb, mulsDone_fr]
  exact setAcc_sb u acc

theorem mulsDone_keepsFrBut : KeepsFrBut [7, 8, 9, 10] u (u.mulsDone k rd rs xd xs l acc) := fun i hi => by
  rw [mulsDone_fr]
  exact setAcc_keepsFrBut u acc i hi

theorem keepsRegs_mulsDone : KeepsRegs [rd, rs, .r3, .r4, .sr] u (u.mulsDone k rd rs xd xs l acc) := by
  have hptr := (keepsRegs_setAcc u acc).trans (by simp) (keepsRegs_mulsAdjust rd rs xd xs l _)
  exact (hptr.trans (by simp) (keepsRegs_mulsFlag rd rs (sumOverflows k acc) _)).mono (by simp)

theorem sameRest_mulsDone : SameRest u (u.mulsDone k rd rs xd xs l acc) :=
  ((sameRest_setAcc u acc).trans (sameRest_mulsAdjust ..)).trans (sameRest_mulsFlag ..)

theorem pointersDone_mulsDone :
    PointersDone rd rs (adjustedPointers u.plat.mulsAdjust rd rs xd xs l) (sumOverflows k acc) u
      (u.mulsDone k rd rs xd xs l acc) := by
  have hsr := mulsDone_sr k rd rs xd xs l acc u
  have hx := fun (q : Reg) (hq : q ≠ .sr) => mulsDone_x k rd rs xd xs l acc u hq
  have hkept : (u.setAcc acc).x .sr = u.sr :=
    ((keepsRegs_setAcc u acc).x (setAcc_bnk u acc) Reg.sr (by decide)).trans (x_sr u)
  simp only [mulsAdjust_x, setAcc_plat, hkept] at hsr hx
  refine ⟨fun ⟨hdsr, hssr⟩ => ⟨mulsFlag_flagS _ _ _ _ hdsr hssr, ?_⟩, fun hne => ?_, ?_⟩
  · rwa [if_neg (Ne.symm hssr), if_neg (Ne.symm hdsr)] at hsr
  · split
    case isTrue h =>
      subst h
      rwa [if_neg hne, if_pos rfl] at hsr
    case isFalse h => rw [hx rd h, if_neg hne, if_pos rfl]
  · split
    case isTrue h =>
      subst h
      rwa [if_pos rfl] at hsr
    case isFalse h => rw [hx rs h, if_pos rfl]

end Done

theorem checkMuls_of_pointers {rd rs : Reg} (hd : rd ∉ [Reg.r3, .r4, .pc]) (hs : rs ∉ [Reg.r3, .r4, .pc]) :
    checkMuls rd rs = none := by
  revert hd hs
  cases rd <;> cases rs <;> decide

/-- Where both arrays can be read and the FIR move completes, MULS ends in `mulsDone`. -/
theorem innerProduct_of_firMove {k : MulKind} {rd rs : Reg} {n : BitVec 4} {s u : State}
    (hd : rd ∉ [Reg.r3, .r4, .pc]) (hs : rs ∉ [Reg.r3, .r4, .pc])
    (hread : ∀ i, i < levelCount n → readable s (bank0 (s.x rd + BitVec.ofNat 16 i)) ∧
      readable s (bank0 (s.x rs + BitVec.ofNat 16 i)))
    (hfir : firMove (s.x rd) ((List.range (levelCount n)).map fun i =>
      wordAt s (bank0 (s.x rd + BitVec.ofNat 16 i))) s = .next u) :
    innerProduct k rd n rs s = .next (u.mulsDone k rd rs (s.x rd) (s.x rs) (levelCount n)
      (BitVec.ofInt 36 (innerSum k s (s.x rd) (s.x rs) (levelCount n)))) := by
  rw [innerProduct_next, levels_eq]
  refine ⟨checkMuls_of_pointers hd hs, _, readLevels_ok hread, u, ?_, ?_⟩
  · rw [List.map_map]
    exact hfir
  · simp only [sumProducts_levels, accOverflow_eq]
    rfl

/-- The three kinds of MULS are one meaning. -/
theorem exec_muls {p : (Reg → BitVec 4 → Reg → Instr) × MulKind}
    (hp : p ∈ ([(.mulsUu, .uu), (.mulsUs, .us), (.mulsSs, .ss)] :
      List ((Reg → BitVec 4 → Reg → Instr) × MulKind))) (rd : Reg) (n : BitVec 4) (rs : Reg) (s : State) :
    exec (p.1 rd n rs) s = innerProduct p.2 rd n rs s := by
  simp only [List.mem_cons, List.not_mem_nil, or_false] at hp
  obtain rfl | rfl | rfl := hp <;> rfl

end Sys2Proof.Machine
end

section
/-! ## The statements of `00_scope.md` settled -/

namespace Sys2Proof.Settled

open Sys2Proof.Machine

/-- Settles O9: the step is the entry of the accepted source, and the entry's cycles are the number counted. -/
theorem stepTakesAcceptedInterrupt : Obligations.StepTakesAcceptedInterrupt := by
  intro s u src hr ha hu
  refine ⟨Config.unstatedCycles s.nextSample.draws, ?_⟩
  rw [step_of_accepted hr ha, runEntry_next]
  exact ⟨u, hu, rfl⟩

/-- Settles O7: the fetch answers the decoded instruction and the state past its words, and the step's outcome is
then that of `exec`, case by case. -/
theorem stepRunsTheDecodedInstruction : Obligations.StepRunsTheDecodedInstruction := by
  intro s i hr ha h0 h1 hd t
  have hf : fetch s.nextSample = .next (i, t) := fetch_of_decode (s := s.nextSample) h0 h1 hd
  have hstep : step s = andThen (exec i t) fun u => .next (u.addCycles (cyclesOf i.shape t)) := by
    rw [step_of_quiet hr ha, runInstr, hf, andThen_next_left]
  rw [hstep]
  refine ⟨fun u hu => ?_, fun f hf => ?_, fun q hq => ?_⟩
  · rw [hu, andThen_next_left]
  · exact (andThen_fault _ _ f).2 (.inl hf)
  · exact (andThen_refused _ _ q).2 (.inl hq)

/-- Settles O14: whichever of its three kinds a step is, it keeps what `StepKeeps` says from the state whose sample
has been used. -/
theorem stepKeepsPlatform : Obligations.StepKeepsPlatform := by
  intro s t h
  change StepKeeps s.nextSample t
  obtain ⟨-, hreset⟩ | ⟨hr, src, -, hentry⟩ | ⟨hr, -, hrun⟩ := (step_next s t).1 h
  · exact stepKeeps_of_resetStep hreset
  · exact stepKeeps_of_runEntry hr hentry
  · exact stepKeeps_of_runInstr hr hrun

/-- Settles O41: on every chip the frame of a write of MR and AQ, and on the default one the two halves as one
shift. -/
theorem divisionSteps : Obligations.DivisionSteps := by
  intro s changesMrAq sign r next
  constructor
  · obtain ⟨mr, aq, hdivs⟩ := divSign_next s
    refine ⟨(s.setMr mr).setAq aq, hdivs, fun hdefault => ?_, setMr_setAq_frame s mr aq⟩
    have heq := Host.Outcome.next.inj (hdivs.symm.trans (divSign_default s hdefault))
    rw [heq, mr_setAq, mr_setMr, aq_setAq, halves_shifted]
    exact ⟨rfl, rfl⟩
  · obtain ⟨mr, aq, hdivq⟩ := divQuotient_next s
    refine ⟨(s.setMr mr).setAq aq, hdivq, fun hdefault => ?_, setMr_setAq_frame s mr aq⟩
    have heq := Host.Outcome.next.inj (hdivq.symm.trans (divQuotient_default s hdefault))
    rw [heq, mr_setAq, mr_setMr, aq_setAq, halves_shifted]
    exact ⟨rfl, rfl⟩

/-- Settles O40: the FIR move changes memory alone, so that what `mulsDone` does from the state after it holds from
the state before it. -/
theorem innerProduct : Obligations.InnerProduct := by
  intro p hp rd rs n s hd hs l acc sample moved pointers moves hread hwrite
  have hlen : ((List.range l).map sample).length = l := by simp
  obtain ⟨u, hfir, hmoved, hstill⟩ :=
    firMove_ok (xd := s.x rd) (samples := (List.range l).map sample) (by rwa [hlen])
  rw [hlen] at hmoved hstill
  obtain ⟨m, rfl⟩ : ∃ m, u = { s with mem := m } := ⟨_, firMove_keeps _ _ s u hfir⟩
  have hexec := (exec_muls hp rd n rs s).trans (innerProduct_of_firMove hd hs hread hfir)
  have hmr := mulsDone_mr p.2 rd rs (s.x rd) (s.x rs) l acc { s with mem := m } hd hs
  have hsb := mulsDone_sb p.2 rd rs (s.x rd) (s.x rs) l acc { s with mem := m }
  have hfr := mulsDone_keepsFrBut p.2 rd rs (s.x rd) (s.x rs) l acc { s with mem := m }
  have hptr := pointersDone_mulsDone p.2 rd rs (s.x rd) (s.x rs) l acc { s with mem := m }
  have hmem := mulsDone_mem p.2 rd rs (s.x rd) (s.x rs) l acc { s with mem := m }
  have hregs := keepsRegs_mulsDone p.2 rd rs (s.x rd) (s.x rs) l acc { s with mem := m }
  have hrest := sameRest_mulsDone p.2 rd rs (s.x rd) (s.x rs) l acc { s with mem := m }
  refine ⟨⟨_, hexec, hmr, hsb, hfr, hptr, fun h => (hmoved h).of_mem_eq hmem, fun h => (hstill h).of_mem_eq hmem,
    hregs, hrest⟩, fun hdefault => ?_, fun hdefault => ?_⟩
  · simp only [moved, hdefault]
    exact moveUp_range (s.x rd) sample l
  · simp only [pointers, hdefault]
    rfl

end Sys2Proof.Settled
end

section
/-! ## The updates an instruction is made of: what each form may write of SR, FR and memory -/

namespace Sys2Proof.Machine

/-- A mask that selects, of the flags N, Z, S and C, only those listed. -/
def ListsFlags (flags : List Nat) (m : Word) : Prop := ∀ k ∈ [6, 7, 8, 9], k ∉ flags → m.getLsbD k = false

theorem listsFlags_aluMask (op : AluOp) : ListsFlags (listedFlags op) (aluMask op) :=
  fun k _ hk => aluMask_listed op k hk
theorem listsFlags_maskZ : ListsFlags [8] maskZ := by unfold ListsFlags; decide
theorem listsFlags_maskS : ListsFlags [7] maskS := by unfold ListsFlags; decide
theorem listsFlags_maskC : ListsFlags [6] maskC := by unfold ListsFlags; decide

/-- A write to LPC leaves DS and the flags. -/
theorem sr_setLpc_high (s : State) (a : Addr) {k : Nat} (hk : 6 ≤ k) :
    (s.setLpc a).sr.getLsbD k = s.sr.getLsbD k := by
  rw [State.setLpc_sr]
  erw [BitVec.getLsbD_append]
  rcases Nat.lt_or_ge k 16 with h | h
  · simp [show ¬k < 6 by omega, show k - 6 < 10 by omega, show 6 + (k - 6) = k by omega]
  · simp [show ¬k < 6 by omega, show ¬k - 6 < 10 by omega, BitVec.getLsbD_of_ge _ _ h]

/-- `t` comes from `s` by updates such as instructions make: SR is written whole only where `whole` says so and
otherwise by masks that list flags, by DS and by CS; no mask of a write to FR has bit 15. -/
inductive Updates (whole : Bool) (flags : List Nat) (s : State) : State → Prop
  | refl : Updates whole flags s s
  | setX {t : State} (r : Reg) (v : Word) :
    (r = .sr → whole = true) → Updates whole flags s t → Updates whole flags s (t.setX r v)
  | writeSr {t : State} (m v : Word) :
    ListsFlags flags m → Updates whole flags s t → Updates whole flags s (t.writeSr m v)
  | setDs {t : State} (v : BitVec 6) : Updates whole flags s t → Updates whole flags s (t.setDs v)
  | setLpc {t : State} (a : Addr) : Updates whole flags s t → Updates whole flags s (t.setLpc a)
  | writeFr {t : State} (m v : Word) :
    m.getLsbD 15 = false → Updates whole flags s t → Updates whole flags s (t.writeFr m v)
  | stored {t : State} (a : Addr) (v : Word) : Updates whole flags s t → Updates whole flags s (t.stored a v)
  | countDraw {t : State} : Updates whole flags s t → Updates whole flags s t.countDraw
  | beginService {t : State} (src : IntSource) :
    Updates whole flags s t → Updates whole flags s (t.beginService src)
  | endService {t : State} (l : ServiceLevel) : Updates whole flags s t → Updates whole flags s (t.endService l)

namespace Updates

variable {whole : Bool} {flags : List Nat} {s t u : State}

/-! #### Updates made of others -/

theorem setFr (v : Word) (h : Updates whole flags s t) : Updates whole flags s (t.setFr v) :=
  h.writeFr maskFr v (by decide)

theorem setAq (b : Bool) (h : Updates whole flags s t) : Updates whole flags s (t.setAq b) :=
  h.writeFr maskAq _ (by decide)

theorem setSb (v : BitVec 4) (h : Updates whole flags s t) : Updates whole flags s (t.setSb v) :=
  h.writeFr maskSb _ (by decide)

theorem setPri (v : BitVec 4) (h : Updates whole flags s t) : Updates whole flags s (t.setPri v) :=
  h.writeFr maskPri _ (by decide)

theorem setMr (v : BitVec 32) (h : Updates whole flags s t) : Updates whole flags s (t.setMr v) :=
  (h.setX .r4 _ nofun).setX .r3 _ nofun

theorem drawSr {m : Word} (hm : ListsFlags flags m) (h : Updates whole flags s t) :
    Updates whole flags s (t.drawSr m) :=
  (h.writeSr m _ hm).countDraw

/-- Free values may take the place of all of SR where SR is written whole. -/
theorem drawSr_whole (m : Word) (h : Updates true flags s t) : Updates true flags s (t.drawSr m) :=
  (h.setX .sr (mergeBits m t.drawn t.sr) fun _ => rfl).countDraw

theorem framed (h : Updates whole flags s t) : Updates whole flags s t.framed :=
  (((h.stored _ _).setX .sp _ nofun).stored _ _).setX .sp _ nofun

theorem unframed (h : Updates true flags s t) : Updates true flags s t.unframed :=
  ((h.setX .sp _ nofun).setX .sr _ fun _ => rfl).setX .pc _ nofun

theorem writeBack {m : Word} (f : Word) {rd : Reg} (r : Word) (hm : ListsFlags flags m)
    (hrd : rd = .sr → whole = true) (h : Updates whole flags s t) :
    Updates whole flags s (writeBack m f rd r t) := by
  unfold Machine.writeBack
  split
  next e => exact (h.setX .sr r fun _ => hrd e).drawSr hm
  next => exact (h.writeSr m f hm).setX rd r hrd

theorem setAluFlags {op : AluOp} (a b : Word) (hop : ListsFlags flags (aluMask op))
    (h : Updates whole flags s t) : Updates whole flags s (t.setAluFlags op a b) :=
  h.writeSr _ _ hop

theorem aluFinish {op : AluOp} {rd : Reg} (a b : Word) (hop : ListsFlags flags (aluMask op))
    (hrd : rd = .sr → whole = true) (h : Updates whole flags s t) :
    Updates whole flags s (aluFinish op rd a b t) := by
  unfold Machine.aluFinish
  split
  next => exact h.writeBack _ _ hop hrd
  next => exact h.setAluFlags a b hop

theorem stepPtr (d : Bool) (δ : Addr) {rs : Reg} (hrs : rs = .sr → whole = true) (h : Updates whole flags s t) :
    Updates whole flags s (stepPtr d δ rs t) := by
  unfold Machine.stepPtr
  split
  next => exact (h.setDs _).setX rs _ hrs
  next => exact h.setX rs _ hrs

theorem preStep (d : Bool) (mark : PtrMark) {rs : Reg} (hrs : rs = .sr → whole = true)
    (h : Updates whole flags s t) : Updates whole flags s (preStep d mark rs t) := by
  cases mark
  case preInc => exact h.stepPtr d _ hrs
  all_goals exact h

theorem postStep (d : Bool) (mark : PtrMark) {rs : Reg} (hrs : rs = .sr → whole = true)
    (h : Updates whole flags s t) : Updates whole flags s (postStep d mark rs t) := by
  cases mark
  case postInc | postDec => exact h.stepPtr d _ hrs
  all_goals exact h

/-! #### Shared operations -/

theorem of_memWrite {a : Addr} {v : Word} (h : memWrite a v s = .next t) : Updates whole flags s t := by
  obtain ⟨-, rfl⟩ := (memWrite_next a v s t).1 h
  exact refl.stored a v

theorem of_pushEach {ptr : Reg} {rs : List Reg} (hptr : ptr = .sr → whole = true) (h : Updates whole flags s t)
    (hu : pushEach ptr rs t = .next u) : Updates whole flags s u := by
  induction rs generalizing t with
  | nil => exact (pushEach_nil_next ptr t u).1 hu ▸ h
  | cons r rs ih =>
    obtain ⟨-, hrest⟩ := (pushEach_cons_next ptr r rs t u).1 hu
    exact ih ((h.stored _ _).setX ptr _ hptr) hrest

theorem of_popEach {ptr : Reg} {rs : List Reg} (h : Updates true flags s t) (hu : popEach ptr rs t = .next u) :
    Updates true flags s u := by
  induction rs generalizing t with
  | nil => exact (popEach_nil_next ptr t u).1 hu ▸ h
  | cons r rs ih =>
    obtain ⟨-, hrest⟩ := (popEach_cons_next ptr r rs t u).1 hu
    exact ih ((h.setX ptr _ fun _ => rfl).setX r _ fun _ => rfl) hrest

theorem of_popFrame (h : Updates true flags s t) (hu : popFrame t = .next u) : Updates true flags s u := by
  obtain ⟨-, -, rfl⟩ := (popFrame_next t u).1 hu
  exact h.unframed

theorem of_callTo {target : Addr} (h : callTo target s = .next t) : Updates whole flags s t := by
  obtain ⟨-, -, rfl⟩ := (callTo_next target s t).1 h
  exact refl.framed.setLpc target

theorem of_pushNestFr {src : IntSource} (h : Updates whole flags s t) (hu : pushNestFr src t = .next u) :
    Updates whole flags s u := by
  obtain ⟨-, rfl⟩ | ⟨n, -, -, -, rfl⟩ := (pushNestFr_next src t u).1 hu
  · exact h
  · exact ((h.stored _ _).setX .sp _ nofun).setPri _

theorem of_enterInterrupt {src : IntSource} (h : enterInterrupt src s = .next t) : Updates true flags s t := by
  obtain ⟨u, hu, v, hv, -, rfl⟩ := (enterInterrupt_next src s t).1 h
  obtain ⟨-, -, rfl⟩ := (pushFrame_next s u).1 hu
  have hservice : Updates true flags s (v.beginService src) := (refl.framed.of_pushNestFr hv).beginService src
  exact ((hservice.setX .pc _ nofun).setX .sr _ fun _ => rfl).drawSr_whole maskNotCs

theorem of_returnInterrupt (h : returnInterrupt s = .next t) : Updates true flags s t := by
  obtain ⟨-, -, u, hu, rfl⟩ | ⟨-, u, hu, rfl⟩ := (returnInterrupt_next s t).1 h
  · exact (((refl.setX .sp _ nofun).setFr _).of_popFrame hu).endService _
  · exact (refl.of_popFrame hu).endService _

/-! #### Operand forms -/

section Alu

variable {op : AluOp} {rd rs : Reg} (hop : ListsFlags flags (aluMask op)) (hrd : rd = .sr → whole = true)

include hop hrd in
theorem of_aluFrom {a : Word} {addr : Addr} (h : Updates whole flags s t)
    (hu : aluFrom op rd a addr t = .next u) : Updates whole flags s u := by
  obtain ⟨-, rfl⟩ := (aluFrom_next op rd a addr t u).1 hu
  exact h.aluFinish _ _ hop hrd

include hop hrd in
theorem of_aluInd {d : Bool} {mark : PtrMark} (hrs : rs = .sr → whole = true)
    (h : aluInd op rd d mark rs s = .next t) : Updates whole flags s t := by
  obtain ⟨-, -, rfl⟩ := (aluInd_next op rd d mark rs s t).1 h
  exact ((refl.preStep d mark hrs).aluFinish _ _ hop hrd).postStep d mark hrs

theorem of_storeInd {d : Bool} {mark : PtrMark} (hrs : rs = .sr → whole = true)
    (h : storeInd rd d mark rs s = .next t) : Updates whole flags s t := by
  obtain ⟨-, -, rfl⟩ := (storeInd_next rd d mark rs s t).1 h
  exact ((refl.preStep d mark hrs).stored _ _).postStep d mark hrs

include hop in
theorem of_aluA16w {b addr : Word} (h : aluA16w op rd b addr s = .next t) : Updates whole flags s t := by
  obtain ⟨-, -, rfl⟩ | ⟨-, rfl⟩ := (aluA16w_next op rd b addr s t).1 h
  · exact (refl.stored _ _).setAluFlags _ _ hop
  · exact refl.setAluFlags _ _ hop

end Alu

theorem of_bitReg {b : BitOp} {rd : Reg} {k : BitVec 4} (hrd : rd = .sr → whole = true)
    (h : bitReg b rd k s = .next t) : Updates whole [8] s t := by
  obtain ⟨-, rfl⟩ := (bitReg_next b rd k s t).1 h
  split
  next => exact refl.writeSr _ _ listsFlags_maskZ
  next => exact refl.writeBack _ _ listsFlags_maskZ hrd

theorem of_bitMem {b : BitOp} {d : Bool} {rd : Reg} {k : BitVec 4} (h : bitMem b d rd k s = .next t) :
    Updates whole [8] s t := by
  obtain ⟨-, -, -, rfl⟩ := (bitMem_next b d rd k s t).1 h
  split
  next => exact refl.writeSr _ _ listsFlags_maskZ
  next => exact (refl.stored _ _).writeSr _ _ listsFlags_maskZ

theorem of_shift16 {k : LongShift} {rd rs : Reg} (hrd : rd = .sr → whole = true)
    (h : execShape (.shift16 k rd rs) s = .next t) : Updates whole [6] s t := by
  cases k
  case asr | lsl | lsr =>
    obtain ⟨-, rfl⟩ := (shiftPlain_next _ rd rs s t).1 h
    exact (refl.setX rd _ hrd).drawSr listsFlags_maskC
  case asror | lslor | lsror =>
    obtain ⟨-, rfl⟩ := (shiftOr_next _ rd rs s t).1 h
    exact (refl.setMr _).drawSr listsFlags_maskC
  case rol | ror =>
    obtain ⟨-, rfl⟩ := (shiftRotate_next _ rd rs s t).1 h
    exact refl.writeBack _ _ listsFlags_maskC hrd

theorem foldl_stored (ws : List (Word × Word)) (h : Updates whole flags s t) :
    Updates whole flags s (ws.foldl (fun u w => u.stored (bank0 w.1) w.2) t) := by
  induction ws generalizing t with
  | nil => exact h
  | cons w ws ih => exact ih (h.stored _ _)

theorem of_firMove {xd : Word} {samples : List Word} (h : firMove xd samples s = .next t) :
    Updates whole flags s t := by
  rw [firMove_next] at h
  split at h
  next => exact h ▸ refl
  next =>
    obtain ⟨-, rfl⟩ := (writeEach_next _ s t).1 h
    exact refl.foldl_stored _

section Pointers

variable {rd rs : Reg} (hrd : rd = .sr → whole = true) (hrs : rs = .sr → whole = true)

include hrd hrs in
theorem mulsAdjust (xd xs : Word) (n : Nat) (h : Updates whole flags s t) :
    Updates whole flags s (mulsAdjust rd rs xd xs n t) :=
  (h.setX rd _ hrd).setX rs _ hrs

theorem mulsFlag (overflow : Bool) (h : Updates whole [7] s t) :
    Updates whole [7] s (mulsFlag rd rs overflow t) := by
  unfold Machine.mulsFlag
  split
  next => exact h.drawSr listsFlags_maskS
  next => exact h.writeSr _ _ listsFlags_maskS

include hrd hrs in
theorem of_innerProduct {k : MulKind} {n : BitVec 4} (h : innerProduct k rd n rs s = .next t) :
    Updates whole [7] s t := by
  obtain ⟨-, data, -, u, hu, rfl⟩ := (innerProduct_next k rd n rs s t).1 h
  exact ((((of_firMove hu).setMr _).setSb _).mulsAdjust hrd hrs _ _ _).mulsFlag _

end Pointers

/-! #### Every instruction -/

/-- What a form does is made of updates, of the flags its line lists and of SR whole where `writesSrWhole` says so. -/
theorem of_execShape {sh : Shape} (h : execShape sh s = .next t) :
    Updates (writesSrWhole sh) (flagsListedFor sh) s t := by
  cases sh
  case branch c back imm =>
    rw [(branch_next c back imm s t).1 h]
    split
    next => exact refl.setLpc _
    next => exact refl
  case retf => exact refl.of_popFrame h
  case reti => exact of_returnInterrupt h
  case bpIm6 op rd imm =>
    simp only [execShape] at h
    split at h
    next => exact of_memWrite ((guarded_next _ _ t).1 h).2
    next => exact refl.of_aluFrom (listsFlags_aluMask op) (by simp [writesSrWhole]) ((guarded_next _ _ t).1 h).2
  case im6 op rd imm =>
    obtain ⟨-, rfl⟩ := (guarded_ok_next _ t _).1 h
    exact refl.aluFinish _ _ (listsFlags_aluMask op) (by simp [writesSrWhole])
  case ind op rd d mark rs =>
    have hrs : rs = .sr → writesSrWhole (.ind op rd d mark rs) = true := by simp +contextual [writesSrWhole]
    simp only [execShape] at h
    split at h
    next => exact of_storeInd hrs h
    next => exact of_aluInd (listsFlags_aluMask op) (by simp +contextual [writesSrWhole]) hrs h
  case reg op rd rs | im16 op rd rs imm =>
    cases h
    exact refl.aluFinish _ _ (listsFlags_aluMask op) (by simp [writesSrWhole])
  case a16 op rd rs addr => exact refl.of_aluFrom (listsFlags_aluMask op) (by simp [writesSrWhole]) h
  case a16w op rd rs addr =>
    simp only [execShape] at h
    split at h
    next => exact of_memWrite h
    next => exact of_aluA16w (listsFlags_aluMask op) h
  case shifted op k rd n rs =>
    cases h
    exact (refl.setSb _).aluFinish _ _ (listsFlags_aluMask op) (by simp [writesSrWhole])
  case a6 op rd addr =>
    simp only [execShape] at h
    split at h
    next => exact of_memWrite h
    next => exact refl.of_aluFrom (listsFlags_aluMask op) (by simp [writesSrWhole]) h
  case push rd n rs => exact refl.of_pushEach (by simp [writesSrWhole]) ((pushList_next rd n rs s t).1 h).2
  case pop rd n rs => exact refl.of_popEach ((popList_next rd n rs s t).1 h).2
  case bitRr | bitRo => exact of_bitReg (by simp [writesSrWhole]) h
  case bitMr | bitMo => exact of_bitMem h
  case shift16 => exact of_shift16 (by simp [writesSrWhole]) h
  case mul k rd rs =>
    obtain ⟨-, rfl⟩ := (multiply_next k rd rs s t).1 h
    exact refl.setMr _
  case muls => exact of_innerProduct (by simp +contextual [writesSrWhole]) (by simp +contextual [writesSrWhole]) h
  case movRsDs rs | movRsFr rs =>
    cases h
    exact refl.setX rs _ (by simp [writesSrWhole])
  case dsIm6 | movDsRs =>
    cases h
    exact refl.setDs _
  case movFrRs =>
    cases h
    exact refl.setFr _
  case goto | gotoMr =>
    cases h
    exact refl.setLpc _
  case mode m =>
    cases h
    exact refl.writeFr _ _ (by cases m <;> decide)
  case call | callMr => exact of_callTo h
  case brk => exact of_enterInterrupt h
  case divs =>
    obtain ⟨mr, aq, hdiv⟩ := divSign_next s
    cases hdiv.symm.trans h
    exact (refl.setMr mr).setAq aq
  case divq =>
    obtain ⟨mr, aq, hdiv⟩ := divQuotient_next s
    cases hdiv.symm.trans h
    exact (refl.setMr mr).setAq aq
  case exp =>
    cases h
    exact refl.setX .r2 _ nofun
  case nop =>
    cases h
    exact refl

theorem of_exec {i : Instr} (h : exec i s = .next t) :
    Updates (writesSrWhole i.shape) (flagsListedFor i.shape) s t :=
  of_execShape ((exec_shape i s).symm.trans h)

/-- A fetch moves LPC only. -/
theorem of_fetch {i : Instr} (h : fetch s = .next (i, t)) : Updates whole flags s t := by
  obtain ⟨-, hrest⟩ := (fetch_next s t i).1 h
  split at hrest
  · obtain ⟨-, -, rfl⟩ := hrest
    exact refl.setLpc _
  · obtain ⟨-, rfl⟩ := hrest
    exact refl.setLpc _

/-! #### What the updates keep -/

/-- Memory stays canonical and FR[15] zero: a store keeps the one, and no write to FR has bit 15 in its mask. -/
theorem inv (h : Updates whole flags s t) (hs : Inv s) : Inv t := by
  induction h with
  | refl => exact hs
  | setX r v _ _ ih => exact ⟨by simpa using ih.1, by simpa using ih.2⟩
  | writeFr m v hm _ ih =>
    exact ⟨ih.1, by rw [State.writeFr_fr, getLsbD_mergeBits, hm, if_neg Bool.false_ne_true, ih.2]⟩
  | stored a v _ ih => exact ⟨Memory.wf_setWord _ a v ih.1, ih.2⟩
  | writeSr _ _ _ _ ih | setDs _ _ ih | setLpc _ _ ih | countDraw _ ih => exact ih
  | beginService src _ ih => cases src <;> exact ih
  | endService l _ ih => cases l <;> exact ih

/-- A flag that is not listed stays as it is where SR is not written whole. -/
theorem flag (h : Updates false flags s t) {k : Nat} (hk : k ∈ [6, 7, 8, 9]) (hn : k ∉ flags) :
    t.sr.getLsbD k = s.sr.getLsbD k := by
  have hrange : 6 ≤ k ∧ k < 10 := by simp only [List.mem_cons, List.not_mem_nil, or_false] at hk; omega
  induction h with
  | refl => rfl
  | setX r v hr _ ih => rw [sr_setX _ r v fun e => Bool.false_ne_true (hr e), ih]
  | writeSr m v hm _ ih => rw [State.writeSr_sr, getLsbD_mergeBits, hm k hk hn, if_neg Bool.false_ne_true, ih]
  | setDs v _ ih => rw [low_setDs _ v k hrange.2, ih]
  | setLpc a _ ih => rw [sr_setLpc_high _ a hrange.1, ih]
  | writeFr _ _ _ _ ih | stored _ _ _ ih | countDraw _ ih => exact ih
  | beginService src _ ih => cases src <;> exact ih
  | endService l _ ih => cases l <;> exact ih

end Updates

/-! ### Every step keeps the invariant -/

theorem inv_of_resetStep {s t : State} (h : resetStep s = .next t) (hs : Inv s) : Inv t := by
  obtain ⟨-, rfl⟩ := (resetStep_next s t).1 h
  exact hs

theorem inv_of_runEntry {src : IntSource} {s t : State} (h : runEntry src s = .next t) (hs : Inv s) : Inv t := by
  obtain ⟨u, hu, rfl⟩ := (runEntry_next src s t).1 h
  exact (Updates.of_enterInterrupt (flags := []) hu).inv hs

theorem inv_of_runInstr {s t : State} (h : runInstr s = .next t) (hs : Inv s) : Inv t := by
  obtain ⟨i, u, v, hfetch, hexec, rfl⟩ := (runInstr_next s t).1 h
  have hu : Inv u := (Updates.of_fetch (whole := false) (flags := []) hfetch).inv hs
  exact (Updates.of_exec hexec).inv hu

end Sys2Proof.Machine
end

section
/-! ## The bank not in force: every operation treats alike two states that differ in it alone -/

namespace Sys2Proof.Machine

/-! ### Sequencing and memory, as equations -/

theorem andThen_assoc {α β γ : Type} (r : Res α) (k : α → Res β) (l : β → Res γ) :
    andThen (andThen r k) l = andThen r fun a => andThen (k a) l := by cases r <;> rfl

theorem memRead_congr {s t : State} (hm : t.mem = s.mem) (hp : t.plat = s.plat) (a : Addr) :
    memRead a t = memRead a s := by
  unfold memRead
  rw [kindAt_congr hp, hm]

theorem popAt_eq (ptr : Reg) (s : State) :
    popAt ptr s = andThen (memRead (bank0 (s.x ptr + 1#16)) s) fun w => .next (w, s.setX ptr (s.x ptr + 1#16)) := by
  simp only [popAt, State.x_setX, if_true]
  rw [memRead_congr (State.setX_mem s ptr _) (State.setX_plat s ptr _)]

theorem popEach_cons (ptr r : Reg) (rs : List Reg) (s : State) :
    popEach ptr (r :: rs) s = andThen (memRead (bank0 (s.x ptr + 1#16)) s) fun w =>
      popEach ptr rs ((s.setX ptr (s.x ptr + 1#16)).setX r w) := by
  simp only [popEach, popAt_eq, andThen_assoc, andThen_next_left]

theorem popFrame_eq (s : State) :
    popFrame s = andThen (memRead (bank0 (s.sp + 1#16)) s) fun v =>
      andThen (memRead (bank0 (s.sp + 1#16 + 1#16)) s) fun w =>
      .next { s with sp := s.sp + 1#16 + 1#16, sr := v, pc := w } := by
  simp only [popFrame, pop, popAt_eq, andThen_assoc, andThen_next_left, x_sp, setX_sp]
  rfl

namespace State

/-! ### A bank replaced: what is read and what is written around it -/

section Replaced

variable (s : State) (b : Bool) (v : Fin 4 → Word)

@[simp] theorem setBank_sp : (s.setBank b v).sp = s.sp := by cases b <;> rfl
@[simp] theorem setBank_sr : (s.setBank b v).sr = s.sr := by cases b <;> rfl
@[simp] theorem setBank_pc : (s.setBank b v).pc = s.pc := by cases b <;> rfl
@[simp] theorem setBank_fr : (s.setBank b v).fr = s.fr := by cases b <;> rfl
@[simp] theorem setBank_mem : (s.setBank b v).mem = s.mem := by cases b <;> rfl
@[simp] theorem setBank_plat : (s.setBank b v).plat = s.plat := by cases b <;> rfl
@[simp] theorem setBank_inBrk : (s.setBank b v).inBrk = s.inBrk := by cases b <;> rfl
@[simp] theorem setBank_inFiq : (s.setBank b v).inFiq = s.inFiq := by cases b <;> rfl
@[simp] theorem setBank_irqDepth : (s.setBank b v).irqDepth = s.irqDepth := by cases b <;> rfl

@[simp] theorem setBank_bnk : (s.setBank b v).bnk = s.bnk := by simp [bnk]
@[simp] theorem setBank_aq : (s.setBank b v).aq = s.aq := by simp [aq]
@[simp] theorem setBank_fra : (s.setBank b v).fra = s.fra := by simp [fra]
@[simp] theorem setBank_fir : (s.setBank b v).fir = s.fir := by simp [fir]
@[simp] theorem setBank_sb : (s.setBank b v).sb = s.sb := by simp [sb]
@[simp] theorem setBank_ine : (s.setBank b v).ine = s.ine := by simp [ine]
@[simp] theorem setBank_frWord : (s.setBank b v).frWord = s.frWord := by simp [frWord]
@[simp] theorem setBank_flagC : (s.setBank b v).flagC = s.flagC := by simp [flagC]
@[simp] theorem setBank_ds : (s.setBank b v).ds = s.ds := by simp [ds]
@[simp] theorem setBank_lpc : (s.setBank b v).lpc = s.lpc := by simp [lpc, cs]

@[simp] theorem writeSr_setBank (m w : Word) : (s.setBank b v).writeSr m w = (s.writeSr m w).setBank b v := by
  cases b <;> rfl
@[simp] theorem writeFr_setBank (m w : Word) : (s.setBank b v).writeFr m w = (s.writeFr m w).setBank b v := by
  cases b <;> rfl
@[simp] theorem setFr_setBank (w : Word) : (s.setBank b v).setFr w = (s.setFr w).setBank b v :=
  writeFr_setBank s b v _ _
@[simp] theorem setAq_setBank (q : Bool) : (s.setBank b v).setAq q = (s.setAq q).setBank b v :=
  writeFr_setBank s b v _ _
@[simp] theorem setSb_setBank (w : BitVec 4) : (s.setBank b v).setSb w = (s.setSb w).setBank b v :=
  writeFr_setBank s b v _ _
@[simp] theorem setDs_setBank (w : BitVec 6) : (s.setBank b v).setDs w = (s.setDs w).setBank b v := by
  cases b <;> rfl
@[simp] theorem setLpc_setBank (a : Addr) : (s.setBank b v).setLpc a = (s.setLpc a).setBank b v := by
  cases b <;> rfl
@[simp] theorem drawSr_setBank (m : Word) : (s.setBank b v).drawSr m = (s.drawSr m).setBank b v := by
  cases b <;> rfl
@[simp] theorem stored_setBank (a : Addr) (w : Word) :
    (s.setBank b v).stored a w = (s.stored a w).setBank b v := by cases b <;> rfl
@[simp] theorem setAluFlags_setBank (op : AluOp) (x y : Word) :
    (s.setBank b v).setAluFlags op x y = (s.setAluFlags op x y).setBank b v := by simp [setAluFlags]
@[simp] theorem beginService_setBank (src : IntSource) :
    (s.setBank b v).beginService src = (s.beginService src).setBank b v := by cases b <;> cases src <;> rfl
@[simp] theorem endService_setBank (l : ServiceLevel) :
    (s.setBank b v).endService l = (s.endService l).setBank b v := by cases b <;> cases l <;> rfl

/-- A register number names no register of the other bank. -/
theorem get_setBank_other (r : Reg) : (s.setBank b v).get (physOf (!b) r) = s.get (physOf (!b) r) := by
  cases b <;> cases r <;> rfl

theorem set_setBank_other (r : Reg) (w : Word) :
    (s.setBank b v).set (physOf (!b) r) w = (s.set (physOf (!b) r) w).setBank b v := by
  cases b <;> cases r <;> rfl

end Replaced

/-! ### The bank replaced is not in force -/

section Hidden

variable {s : State} {b : Bool} {v : Fin 4 → Word} (hb : s.bnk = !b)

include hb

theorem x_setBank (r : Reg) : (s.setBank b v).x r = s.x r := by
  rw [x, setBank_bnk, hb, get_setBank_other, x, hb]

theorem setX_setBank (r : Reg) (w : Word) : (s.setBank b v).setX r w = (s.setX r w).setBank b v := by
  rw [setX, setBank_bnk, hb, set_setBank_other, setX, hb]

theorem mr_setBank : (s.setBank b v).mr = s.mr := by simp only [mr, x_setBank hb]

theorem setMr_setBank (w : BitVec 32) : (s.setBank b v).setMr w = (s.setMr w).setBank b v := by
  rw [setMr, setX_setBank hb, setX_setBank (by simp [hb]), setMr]

theorem mrTarget_setBank : mrTarget (s.setBank b v) = mrTarget s := by simp only [mrTarget, x_setBank hb]

theorem writeBack_setBank (m f : Word) (rd : Reg) (r : Word) :
    writeBack m f rd r (s.setBank b v) = (writeBack m f rd r s).setBank b v := by
  unfold writeBack
  split
  · rw [setX_setBank hb, drawSr_setBank]
  · rw [writeSr_setBank, setX_setBank (by simp [hb])]

theorem aluFinish_setBank (op : AluOp) (rd : Reg) (x y : Word) :
    aluFinish op rd x y (s.setBank b v) = (aluFinish op rd x y s).setBank b v := by
  unfold aluFinish
  split
  · rw [writeBack_setBank hb, setBank_flagC]
  · exact setAluFlags_setBank s b v op x y

theorem stepPtr_setBank (d : Bool) (δ : Addr) (rs : Reg) :
    stepPtr d δ rs (s.setBank b v) = (stepPtr d δ rs s).setBank b v := by
  simp only [stepPtr, x_setBank hb, setBank_ds, setDs_setBank, setX_setBank hb,
    setX_setBank (s := s.setDs _) (by simpa using hb)]
  split <;> rfl

theorem preStep_setBank (d : Bool) (mark : PtrMark) (rs : Reg) :
    preStep d mark rs (s.setBank b v) = (preStep d mark rs s).setBank b v := by
  cases mark
  case preInc => exact stepPtr_setBank hb d _ rs
  all_goals rfl

theorem postStep_setBank (d : Bool) (mark : PtrMark) (rs : Reg) :
    postStep d mark rs (s.setBank b v) = (postStep d mark rs s).setBank b v := by
  cases mark
  case postInc | postDec => exact stepPtr_setBank hb d _ rs
  all_goals rfl

theorem mulsAdjust_setBank (rd rs : Reg) (xd xs : Word) (n : Nat) :
    mulsAdjust rd rs xd xs n (s.setBank b v) = (mulsAdjust rd rs xd xs n s).setBank b v := by
  simp only [mulsAdjust, setBank_plat]
  rw [setX_setBank hb, setX_setBank (by simp [hb])]

end Hidden

theorem mulsFlag_setBank (s : State) (b : Bool) (v : Fin 4 → Word) (rd rs : Reg) (overflow : Bool) :
    mulsFlag rd rs overflow (s.setBank b v) = (mulsFlag rd rs overflow s).setBank b v := by
  unfold mulsFlag
  split <;> simp

@[simp] theorem dataAddr_setBank (s : State) (b : Bool) (v : Fin 4 → Word) (d : Bool) (w : Word) :
    dataAddr d w (s.setBank b v) = dataAddr d w s := by simp [dataAddr]

theorem condHolds_setBank (s : State) (b : Bool) (v : Fin 4 → Word) (c : Cond) :
    condHolds c (s.setBank b v) = condHolds c s := by
  cases b <;> cases c <;> rfl

theorem serviceLevel_setBank (s : State) (b : Bool) (v : Fin 4 → Word) :
    serviceLevel (s.setBank b v) = serviceLevel s := by simp [serviceLevel]

theorem popsFr_setBank (s : State) (b : Bool) (v : Fin 4 → Word) : popsFr (s.setBank b v) = popsFr s := by
  simp [popsFr, serviceLevel_setBank]

theorem aluFinish_bnk (op : AluOp) (rd : Reg) (x y : Word) (s : State) : (aluFinish op rd x y s).bnk = s.bnk := by
  simp only [bnk, (aluFinish_only op rd x y s).1]

end State

@[simp] theorem memRead_setBank (s : State) (b : Bool) (v : Fin 4 → Word) (a : Addr) :
    memRead a (s.setBank b v) = memRead a s := memRead_congr (by simp) (by simp) a

theorem readLevels_setBank (s : State) (b : Bool) (v : Fin 4 → Word) (xd xs : Word) (l : List Nat) :
    readLevels xd xs (s.setBank b v) l = readLevels xd xs s l := by
  induction l with
  | nil => rfl
  | cons i is ih => simp only [readLevels, memRead_setBank, ih]

/-! ### Outcomes that differ in one bank alone -/

/-- The second outcome is the first with bank `b` of its next state replaced: the same fault or refusal, if any. -/
def BankApart (b : Bool) (v : Fin 4 → Word) (r r' : Res State) : Prop := r' = mapNext (fun t => t.setBank b v) r

namespace BankApart

variable {b : Bool} {v : Fin 4 → Word} {s t t' : State} {r r' : Res State} {k k' : State → Res State}

theorem next (h : t' = t.setBank b v) : BankApart b v (.next t) (.next t') := by rw [h]; rfl

theorem andThen (h : BankApart b v r r') (hk : ∀ t, r = .next t → BankApart b v (k t) (k' (t.setBank b v))) :
    BankApart b v (andThen r k) (andThen r' k') := by
  rw [h]
  cases r
  case next t => exact hk t rfl
  all_goals rfl

theorem andThen_same {α : Type} (r : Res α) {k k' : α → Res State} (hk : ∀ a, BankApart b v (k a) (k' a)) :
    BankApart b v (Machine.andThen r k) (Machine.andThen r k') := by
  cases r
  case next a => exact hk a
  all_goals rfl

theorem guarded (c : Option Reserved) (h : BankApart b v r r') :
    BankApart b v (guarded c r) (guarded c r') := by
  cases c
  · exact h
  · rfl

theorem memWrite (a : Addr) (w : Word) (s : State) :
    BankApart b v (memWrite a w s) (memWrite a w (s.setBank b v)) := by
  have hkind : kindAt (s.setBank b v) a = kindAt s a := kindAt_congr (by simp) a
  unfold Machine.memWrite
  rw [hkind]
  cases kindAt s a
  case ram => exact next (s.stored_setBank b v a w)
  all_goals rfl

/-! #### The stack -/

theorem pushAt (hb : s.bnk = !b) (ptr : Reg) (w : Word) :
    BankApart b v (pushAt ptr w s) (pushAt ptr w (s.setBank b v)) := by
  unfold Machine.pushAt
  rw [State.x_setBank hb]
  refine (memWrite _ w s).andThen fun t ht => next ?_
  obtain ⟨-, rfl⟩ := (memWrite_next _ w s t).1 ht
  exact State.setX_setBank (s := s.stored _ w) hb ptr _

theorem pushEach (hb : s.bnk = !b) (ptr : Reg) (rs : List Reg) :
    BankApart b v (pushEach ptr rs s) (pushEach ptr rs (s.setBank b v)) := by
  induction rs generalizing s with
  | nil => rfl
  | cons r rs ih =>
    simp only [Machine.pushEach, State.x_setBank hb]
    refine (pushAt hb ptr _).andThen fun t ht => ih ?_
    obtain ⟨-, rfl⟩ := (pushAt_next ptr _ s t).1 ht
    simpa using hb

theorem popEach (hb : s.bnk = !b) (ptr : Reg) (rs : List Reg) :
    BankApart b v (popEach ptr rs s) (popEach ptr rs (s.setBank b v)) := by
  induction rs generalizing s with
  | nil => rfl
  | cons r rs ih =>
    simp only [popEach_cons, memRead_setBank, State.x_setBank hb, State.setX_setBank hb]
    refine andThen_same _ fun w => ?_
    rw [State.setX_setBank (by simpa using hb)]
    exact ih (by simpa using hb)

/-- SP, SR and PC are in no bank: the return frame is popped alike whichever bank is in force. -/
theorem popFrame (s : State) : BankApart b v (popFrame s) (popFrame (s.setBank b v)) := by
  simp only [popFrame_eq, memRead_setBank, State.setBank_sp]
  exact andThen_same _ fun x => andThen_same _ fun w => next (by cases b <;> rfl)

theorem pushFrame (hb : s.bnk = !b) : BankApart b v (pushFrame s) (pushFrame (s.setBank b v)) := by
  simp only [Machine.pushFrame, push, State.setBank_pc]
  refine (pushAt hb .sp _).andThen fun t ht => ?_
  obtain ⟨-, rfl⟩ := (pushAt_next .sp _ s t).1 ht
  rw [State.setBank_sr]
  exact pushAt (by simpa using hb) .sp _

theorem callTo (hb : s.bnk = !b) (target : Addr) :
    BankApart b v (callTo target s) (callTo target (s.setBank b v)) :=
  (pushFrame hb).andThen fun t _ => next (t.setLpc_setBank b v target)

/-! #### BREAK and RETI -/

theorem enterBreak (hb : s.bnk = !b) :
    BankApart b v (enterInterrupt .brk s) (enterInterrupt .brk (s.setBank b v)) := by
  refine (pushFrame hb).andThen fun t _ => ?_
  simp only [pushNestFr, andThen_next_left, State.beginService_setBank, memRead_setBank]
  exact andThen_same _ fun w => next (by cases b <;> rfl)

theorem returnInterrupt (hb : s.bnk = !b) :
    BankApart b v (returnInterrupt s) (returnInterrupt (s.setBank b v)) := by
  have hfr : BankApart b v
      (if popsFr s then Machine.andThen (pop s) fun (w, t) => .next (t.setFr w) else .next s)
      (if popsFr (s.setBank b v) then Machine.andThen (pop (s.setBank b v)) fun (w, t) => .next (t.setFr w)
        else .next (s.setBank b v)) := by
    rw [State.popsFr_setBank]
    split
    · simp only [pop, popAt_eq, andThen_assoc, andThen_next_left, memRead_setBank, State.x_setBank hb,
        State.setX_setBank hb, State.setFr_setBank]
      exact andThen_same _ fun w => next rfl
    · exact next rfl
  unfold Machine.returnInterrupt
  rw [State.serviceLevel_setBank]
  exact hfr.andThen fun t _ => (popFrame t).andThen fun u _ => next (u.endService_setBank b v _)

/-! #### Operand forms -/

theorem aluFrom (hb : s.bnk = !b) (op : AluOp) (rd : Reg) (x : Word) (addr : Addr) :
    BankApart b v (aluFrom op rd x addr s) (aluFrom op rd x addr (s.setBank b v)) := by
  simp only [Machine.aluFrom, memRead_setBank]
  exact andThen_same _ fun y => next (State.aluFinish_setBank hb op rd x y)

theorem aluInd (hb : s.bnk = !b) (op : AluOp) (rd : Reg) (d : Bool) (mark : PtrMark) (rs : Reg) :
    BankApart b v (aluInd op rd d mark rs s) (aluInd op rd d mark rs (s.setBank b v)) := by
  have hpre : (preStep d mark rs s).bnk = !b := by rw [preStep_eq]; split <;> simpa using hb
  refine guarded _ ?_
  simp only [State.preStep_setBank hb, State.dataAddr_setBank, State.x_setBank hpre]
  refine (aluFrom hpre op rd _ _).andThen fun t ht => next (State.postStep_setBank ?_ d mark rs)
  obtain ⟨-, rfl⟩ := (aluFrom_next op rd _ _ _ t).1 ht
  rwa [State.aluFinish_bnk]

theorem storeInd (hb : s.bnk = !b) (rd : Reg) (d : Bool) (mark : PtrMark) (rs : Reg) :
    BankApart b v (storeInd rd d mark rs s) (storeInd rd d mark rs (s.setBank b v)) := by
  have hpre : (preStep d mark rs s).bnk = !b := by rw [preStep_eq]; split <;> simpa using hb
  refine guarded _ ?_
  simp only [State.preStep_setBank hb, State.dataAddr_setBank, State.x_setBank hpre]
  refine (memWrite _ _ _).andThen fun t ht => next (State.postStep_setBank ?_ d mark rs)
  obtain ⟨-, rfl⟩ := (memWrite_next _ _ _ t).1 ht
  exact hpre

theorem aluA16w (hb : s.bnk = !b) (op : AluOp) (rd : Reg) (y addr : Word) :
    BankApart b v (aluA16w op rd y addr s) (aluA16w op rd y addr (s.setBank b v)) := by
  simp only [Machine.aluA16w, State.x_setBank hb, State.setBank_flagC]
  split
  · exact (memWrite _ _ s).andThen fun t _ => next (t.setAluFlags_setBank b v op _ y)
  · exact next (s.setAluFlags_setBank b v op _ y)

theorem bitReg (hb : s.bnk = !b) (o : BitOp) (rd : Reg) (k : BitVec 4) :
    BankApart b v (bitReg o rd k s) (bitReg o rd k (s.setBank b v)) := by
  refine guarded _ (next ?_)
  rw [State.x_setBank hb]
  cases o
  case tstb => exact s.writeSr_setBank b v _ _
  all_goals exact State.writeBack_setBank hb _ _ rd _

theorem bitMem (hb : s.bnk = !b) (o : BitOp) (d : Bool) (rd : Reg) (k : BitVec 4) :
    BankApart b v (bitMem o d rd k s) (bitMem o d rd k (s.setBank b v)) := by
  refine guarded _ ?_
  simp only [State.x_setBank hb, State.dataAddr_setBank, memRead_setBank]
  refine andThen_same _ fun old => ?_
  cases o
  case tstb => exact next (s.writeSr_setBank b v _ _)
  all_goals exact (memWrite _ _ s).andThen fun t _ => next (t.writeSr_setBank b v _ _)

theorem shift16 (hb : s.bnk = !b) (k : LongShift) (rd rs : Reg) :
    BankApart b v (execShape (.shift16 k rd rs) s) (execShape (.shift16 k rd rs) (s.setBank b v)) := by
  cases k
  case asr | lsl | lsr =>
    refine guarded _ (next ?_)
    rw [State.x_setBank hb, State.x_setBank hb, State.setX_setBank hb, State.drawSr_setBank]
  case asror | lslor | lsror =>
    refine guarded _ (next ?_)
    simp only [State.x_setBank hb, State.setMr_setBank hb, State.drawSr_setBank]
  case rol | ror =>
    refine guarded _ (next ?_)
    simp only [State.x_setBank hb, State.setBank_flagC, State.writeBack_setBank hb]

theorem writeEach (ws : List (Word × Word)) (s : State) :
    BankApart b v (writeEach ws s) (writeEach ws (s.setBank b v)) := by
  induction ws generalizing s with
  | nil => rfl
  | cons w ws ih => exact (memWrite _ _ s).andThen fun t _ => ih t

theorem firMove (xd : Word) (samples : List Word) (s : State) :
    BankApart b v (firMove xd samples s) (firMove xd samples (s.setBank b v)) := by
  simp only [Machine.firMove, State.setBank_fir, State.setBank_plat]
  split
  · exact next rfl
  · exact writeEach _ s

theorem innerProduct (hb : s.bnk = !b) (k : MulKind) (rd : Reg) (n : BitVec 4) (rs : Reg) :
    BankApart b v (innerProduct k rd n rs s) (innerProduct k rd n rs (s.setBank b v)) := by
  refine guarded _ ?_
  simp only [State.x_setBank hb, readLevels_setBank, State.setBank_fra]
  refine andThen_same _ fun data => (firMove _ _ s).andThen fun t ht => next ?_
  have hbt : t.bnk = !b := by rw [firMove_keeps _ _ s t ht]; exact hb
  rw [State.setMr_setBank hbt, State.setSb_setBank, State.mulsAdjust_setBank (by simpa using hbt),
    State.mulsFlag_setBank]

theorem divSign (hb : s.bnk = !b) : BankApart b v (divSign s) (divSign (s.setBank b v)) := by
  refine next ?_
  simp only [State.setBank_plat, State.x_setBank hb, State.mr_setBank hb, State.setBank_aq, State.setMr_setBank hb,
    State.setAq_setBank]

theorem divQuotient (hb : s.bnk = !b) : BankApart b v (divQuotient s) (divQuotient (s.setBank b v)) := by
  refine next ?_
  simp only [State.setBank_plat, State.x_setBank hb, State.mr_setBank hb, State.setBank_aq, State.setMr_setBank hb,
    State.setAq_setBank]

/-! #### Every instruction -/

theorem execShape (hb : s.bnk = !b) (sh : Shape) :
    BankApart b v (execShape sh s) (execShape sh (s.setBank b v)) := by
  cases sh
  case branch c back imm =>
    refine next ?_
    rw [State.condHolds_setBank, branchTarget, State.setBank_lpc, State.setLpc_setBank]
    split <;> rfl
  case retf => exact popFrame s
  case reti => exact returnInterrupt hb
  case bpIm6 op rd imm =>
    have haddr : addrBp imm (s.setBank b v) = addrBp imm s := by simp only [addrBp, State.x_setBank hb]
    simp only [Machine.execShape, storeBpIm6, aluBpIm6, haddr, State.x_setBank hb]
    split
    · exact guarded _ (memWrite _ _ s)
    · exact guarded _ (aluFrom hb op rd _ _)
  case im6 op rd imm =>
    refine guarded _ (next ?_)
    rw [State.x_setBank hb, State.aluFinish_setBank hb]
  case ind op rd d mark rs =>
    simp only [Machine.execShape]
    split
    · exact storeInd hb rd d mark rs
    · exact aluInd hb op rd d mark rs
  case reg op rd rs =>
    refine next ?_
    rw [State.x_setBank hb, State.x_setBank hb, State.aluFinish_setBank hb]
  case im16 op rd rs imm =>
    refine next ?_
    rw [State.x_setBank hb, State.aluFinish_setBank hb]
  case a16 op rd rs addr =>
    simp only [Machine.execShape, aluA16, State.x_setBank hb]
    exact aluFrom hb op rd _ _
  case a16w op rd rs addr =>
    simp only [Machine.execShape, storeA16w, State.x_setBank hb]
    split
    · exact memWrite _ _ s
    · exact aluA16w hb op rd _ addr
  case shifted op k rd n rs =>
    refine next ?_
    simp only [State.x_setBank hb, State.setBank_sb, State.setSb_setBank]
    exact State.aluFinish_setBank (by simpa using hb) op rd _ _
  case a6 op rd addr =>
    simp only [Machine.execShape, storeA6, aluA6, State.x_setBank hb]
    split
    · exact memWrite _ _ s
    · exact aluFrom hb op rd _ _
  case push rd n rs => exact guarded _ (pushEach hb rs _)
  case pop rd n rs => exact guarded _ (popEach hb rs _)
  case bitRr o rd rs =>
    simp only [Machine.execShape, State.x_setBank hb]
    exact bitReg hb o rd _
  case bitRo o rd k => exact bitReg hb o rd k
  case bitMr o d rd rs =>
    simp only [Machine.execShape, State.x_setBank hb]
    exact bitMem hb o d rd _
  case bitMo o d rd k => exact bitMem hb o d rd k
  case shift16 k rd rs => exact shift16 hb k rd rs
  case mul k rd rs =>
    refine guarded _ (next ?_)
    rw [State.x_setBank hb, State.x_setBank hb, State.setBank_fra, State.setMr_setBank hb]
  case muls k rd n rs => exact innerProduct hb k rd n rs
  case dsIm6 imm => exact next (s.setDs_setBank b v imm)
  case movRsDs rs =>
    refine next ?_
    rw [State.setBank_ds, State.setX_setBank hb]
  case movDsRs rs =>
    refine next ?_
    rw [State.x_setBank hb, State.setDs_setBank]
  case movRsFr rs =>
    refine next ?_
    rw [State.setBank_frWord, State.setX_setBank hb]
  case movFrRs rs =>
    refine next ?_
    rw [State.x_setBank hb, State.setFr_setBank]
  case call addr => exact callTo hb addr
  case goto addr => exact next (s.setLpc_setBank b v addr)
  case gotoMr =>
    refine next ?_
    rw [State.mrTarget_setBank hb, State.setLpc_setBank]
  case mode m => exact next (s.writeFr_setBank b v _ _)
  case brk => exact enterBreak hb
  case callMr =>
    simp only [Machine.execShape, State.mrTarget_setBank hb]
    exact callTo hb _
  case divs => exact divSign hb
  case divq => exact divQuotient hb
  case exp =>
    refine next ?_
    rw [State.x_setBank hb, State.setX_setBank hb]
  case nop => exact next rfl

end BankApart

end Sys2Proof.Machine
end

section
/-! ## The statements of `10_state.md` settled -/

namespace Sys2Proof.Settled

open Sys2Proof.Machine

/-- Settles O12: a step is made of updates, each of which keeps the invariant. -/
theorem machineInvariantKept : Obligations.MachineInvariantKept := by
  intro s t hs h
  obtain ⟨-, hreset⟩ | ⟨-, src, -, hentry⟩ | ⟨-, -, hrun⟩ := (step_next s t).1 h
  · exact inv_of_resetStep hreset hs
  · exact inv_of_runEntry hentry hs
  · exact inv_of_runInstr hrun hs

/-- Settles O18: the updates of an instruction write the flags only through masks that R30 lists, or SR whole. -/
theorem onlyListedFlagsChange : Obligations.OnlyListedFlagsChange := by
  intro i s t k h hk hlisted hwhole
  have hupdates := Updates.of_exec h
  rw [hwhole] at hupdates
  exact hupdates.flag hk hlisted

/-- Settles O13: nothing is listed in memory after reset, and FR is 0x0008. -/
theorem invariantAtReset : Obligations.InvariantAtReset := ⟨reset_mem_wf, by decide⟩

/-- Settles O11: FR after reset is 0x0008, so that each of its fields is as stated, and PC is read from the vector
of the reset platform. -/
theorem resetLeavesStatedValues : Obligations.ResetLeavesStatedValues := by
  have hfr : State.reset.fr = 0x0008#16 := rfl
  refine ⟨?_, ?_, ?_, ?_, ?_, ?_, ?_, ?_, ?_, ?_, rfl, rfl, rfl, rfl, rfl⟩
  all_goals
    simp only [State.aq, State.bnk, State.fra, State.fir, State.sb, State.fiqOn, State.irqOn, State.ine, State.pri,
      State.frWord, hfr]
    decide

/-- Settles O19: no operation reads or writes the bank that `x` and `setX` are not redirected to; FR, through which
an instruction changes banks, is written after the last access to a banked register. -/
theorem hiddenBankIsInvisible : Obligations.HiddenBankIsInvisible := by
  intro i s v
  have hhidden : s.bnk = !(!s.bnk) := (Bool.not_not s.bnk).symm
  rw [exec_shape, exec_shape]
  exact BankApart.execShape hhidden i.shape

end Sys2Proof.Settled
end

section
/-! ## Faults (`20_memory.md` rule R69): they come from memory accesses, on the platform the instruction began on -/

namespace Sys2Proof.Machine

/-- The fault names an address of the platform's map together with the kind that is not admitted there. -/
def NamesUnadmitted (s : State) (f : Fault) : Prop :=
  ∃ a : Addr, (f = .absentAddress a.toNat ∧ kindAt s a = .absent) ∨
    (f = .deviceAccess a.toNat ∧ kindAt s a = .device) ∨ (f = .romWrite a.toNat ∧ kindAt s a = .rom)

theorem namesUnadmitted_congr {s t : State} (h : t.plat = s.plat) (f : Fault) :
    NamesUnadmitted t f ↔ NamesUnadmitted s f := by simp only [NamesUnadmitted, kindAt_congr h]

/-- If the outcome is a fault, then one that names an access the platform of `s` does not admit. -/
def FaultsUnadmitted {α : Type} (s : State) (r : Res α) : Prop := ∀ f, r = .fault f → NamesUnadmitted s f

theorem KeepsPlatform.plat_eq {s t : State} (h : KeepsPlatform s t) : t.plat = s.plat := by
  obtain ⟨⟨-, -, hplat, -⟩, -⟩ := h
  exact hplat

theorem KeepsPlatform.of_pushAt {ptr : Reg} {v : Word} {s t : State} (h : pushAt ptr v s = .next t) :
    KeepsPlatform s t := by
  obtain ⟨-, rfl⟩ := (pushAt_next ptr v s t).1 h
  simp

theorem KeepsPlatform.of_pushFrame {s t : State} (h : pushFrame s = .next t) : KeepsPlatform s t := by
  obtain ⟨-, -, rfl⟩ := (pushFrame_next s t).1 h
  simp

namespace FaultsUnadmitted

variable {α β : Type} {s t : State} {r : Res α} {k : α → Res β}

/-! #### Sequencing -/

theorem next (a : α) : FaultsUnadmitted s (.next a : Res α) := nofun

theorem guarded (c : Option Reserved) (h : FaultsUnadmitted s r) : FaultsUnadmitted s (guarded c r) :=
  fun f hf => h f ((guarded_fault c r f).1 hf).2

theorem andThen (h : FaultsUnadmitted s r) (hk : ∀ a, FaultsUnadmitted s (k a)) :
    FaultsUnadmitted s (andThen r k) := by
  intro f hf
  obtain hr | ⟨a, -, hka⟩ := (andThen_fault r k f).1 hf
  · exact h f hr
  · exact hk a f hka

theorem of_plat_eq (hp : t.plat = s.plat) (h : FaultsUnadmitted t r) : FaultsUnadmitted s r :=
  fun f hf => (namesUnadmitted_congr hp f).1 (h f hf)

/-- What follows an operation that keeps the platform may be judged by the platform of the state it starts from. -/
theorem andThen_kept {r : Res State} {k : State → Res β} (h : FaultsUnadmitted s r)
    (hkept : ∀ t, r = .next t → KeepsPlatform s t) (hk : ∀ t, FaultsUnadmitted t (k t)) :
    FaultsUnadmitted s (Machine.andThen r k) := by
  intro f hf
  obtain hr | ⟨t, ht, hkt⟩ := (andThen_fault r k f).1 hf
  · exact h f hr
  · exact of_plat_eq (hkept t ht).plat_eq (hk t) f hkt

/-! #### Memory and the stack -/

theorem memRead (a : Addr) (s : State) : FaultsUnadmitted s (memRead a s) := by
  intro f hf
  obtain habsent | hdevice := memRead_fault hf
  · exact ⟨a, .inl habsent⟩
  · exact ⟨a, .inr (.inl hdevice)⟩

theorem memWrite (a : Addr) (v : Word) (s : State) : FaultsUnadmitted s (memWrite a v s) :=
  fun _ hf => ⟨a, memWrite_fault hf⟩

theorem pushAt (ptr : Reg) (v : Word) (s : State) : FaultsUnadmitted s (pushAt ptr v s) :=
  (memWrite _ v s).andThen fun _ => next _

theorem pushEach (ptr : Reg) (rs : List Reg) (s : State) : FaultsUnadmitted s (pushEach ptr rs s) := by
  induction rs generalizing s with
  | nil => exact next s
  | cons r rs ih => exact (pushAt ptr _ s).andThen_kept (fun _ => KeepsPlatform.of_pushAt) ih

theorem popEach (ptr : Reg) (rs : List Reg) (s : State) : FaultsUnadmitted s (popEach ptr rs s) := by
  induction rs generalizing s with
  | nil => exact next s
  | cons r rs ih =>
    rw [popEach_cons]
    exact (memRead _ s).andThen fun w => (ih _).of_plat_eq (by simp)

theorem pushFrame (s : State) : FaultsUnadmitted s (pushFrame s) :=
  (pushAt .sp s.pc s).andThen_kept (fun _ => KeepsPlatform.of_pushAt) fun t => pushAt .sp s.sr t

theorem popFrame (s : State) : FaultsUnadmitted s (popFrame s) := by
  rw [popFrame_eq]
  exact (memRead _ s).andThen fun _ => (memRead _ s).andThen fun _ => next _

theorem callTo (target : Addr) (s : State) : FaultsUnadmitted s (callTo target s) :=
  (pushFrame s).andThen fun _ => next _

/-! #### Interrupt entry and return -/

theorem pushNestFr (src : IntSource) (s : State) : FaultsUnadmitted s (pushNestFr src s) := by
  cases src with
  | brk | fiq => exact next s
  | irq n =>
    simp only [Machine.pushNestFr]
    split
    · exact (pushAt .sp s.frWord s).andThen fun _ => next _
    · exact next s

theorem enterInterrupt (src : IntSource) (s : State) : FaultsUnadmitted s (enterInterrupt src s) := by
  refine (pushFrame s).andThen_kept (fun _ => KeepsPlatform.of_pushFrame) fun t => ?_
  refine (pushNestFr src t).andThen_kept (fun _ => KeepsPlatform.of_pushNestFr) fun u => ?_
  have hservice : KeepsPlatform u (u.beginService src) := by simp
  exact ((memRead _ _).of_plat_eq hservice.plat_eq).andThen fun _ => next _

theorem returnInterrupt (s : State) : FaultsUnadmitted s (returnInterrupt s) := by
  have hreturn (t : State) :
      FaultsUnadmitted t (Machine.andThen (Machine.popFrame t) fun u => .next (u.endService (serviceLevel s))) :=
    (popFrame t).andThen fun _ => next _
  simp only [Machine.returnInterrupt]
  split
  · have hfr (w : Word) : KeepsPlatform s ((s.setX .sp (s.x .sp + 1#16)).setFr w) := by simp
    simp only [pop, popAt_eq, andThen_assoc, andThen_next_left]
    exact (memRead _ s).andThen fun w => (hreturn _).of_plat_eq (hfr w).plat_eq
  · exact hreturn s

/-! #### Operand forms -/

theorem aluFrom (op : AluOp) (rd : Reg) (x : Word) (addr : Addr) (s : State) :
    FaultsUnadmitted s (aluFrom op rd x addr s) := (memRead addr s).andThen fun _ => next _

theorem aluInd (op : AluOp) (rd : Reg) (d : Bool) (mark : PtrMark) (rs : Reg) (s : State) :
    FaultsUnadmitted s (aluInd op rd d mark rs s) := by
  have hpre : KeepsPlatform s (preStep d mark rs s) := by simp
  exact guarded _ (((aluFrom op rd _ _ _).of_plat_eq hpre.plat_eq).andThen fun _ => next _)

theorem storeInd (rd : Reg) (d : Bool) (mark : PtrMark) (rs : Reg) (s : State) :
    FaultsUnadmitted s (storeInd rd d mark rs s) := by
  have hpre : KeepsPlatform s (preStep d mark rs s) := by simp
  exact guarded _ (((memWrite _ _ _).of_plat_eq hpre.plat_eq).andThen fun _ => next _)

theorem aluA16w (op : AluOp) (rd : Reg) (y addr : Word) (s : State) :
    FaultsUnadmitted s (aluA16w op rd y addr s) := by
  simp only [Machine.aluA16w]
  split
  · exact (memWrite _ _ s).andThen fun _ => next _
  · exact next _

theorem bitReg (o : BitOp) (rd : Reg) (k : BitVec 4) (s : State) : FaultsUnadmitted s (bitReg o rd k s) :=
  guarded _ (next _)

theorem bitMem (o : BitOp) (d : Bool) (rd : Reg) (k : BitVec 4) (s : State) :
    FaultsUnadmitted s (bitMem o d rd k s) := by
  refine guarded _ ((memRead _ s).andThen fun old => ?_)
  cases o
  case tstb => exact next _
  case setb | clrb | invb => exact (memWrite _ _ s).andThen fun _ => next _

theorem shift16 (k : LongShift) (rd rs : Reg) (s : State) :
    FaultsUnadmitted s (execShape (.shift16 k rd rs) s) := by
  cases k <;> exact guarded _ (next _)

/-! #### MULS -/

theorem readLevels (xd xs : Word) (s : State) (l : List Nat) : FaultsUnadmitted s (readLevels xd xs s l) := by
  induction l with
  | nil => exact next []
  | cons i is ih =>
    exact (memRead _ s).andThen fun _ => (memRead _ s).andThen fun _ => ih.andThen fun _ => next _

theorem writeEach (ws : List (Word × Word)) (s : State) : FaultsUnadmitted s (writeEach ws s) := by
  induction ws generalizing s with
  | nil => exact next s
  | cons w ws ih => exact (memWrite _ w.2 s).andThen_kept (fun _ => KeepsPlatform.of_memWrite) ih

theorem firMove (xd : Word) (samples : List Word) (s : State) : FaultsUnadmitted s (firMove xd samples s) := by
  unfold Machine.firMove
  split
  · exact next s
  · exact writeEach _ s

theorem innerProduct (k : MulKind) (rd : Reg) (n : BitVec 4) (rs : Reg) (s : State) :
    FaultsUnadmitted s (innerProduct k rd n rs s) :=
  guarded _ ((readLevels _ _ s _).andThen fun _ => (firMove _ _ s).andThen fun _ => next _)

/-! #### Every instruction -/

theorem execShape (sh : Shape) (s : State) : FaultsUnadmitted s (execShape sh s) := by
  cases sh
  case retf => exact popFrame s
  case reti => exact returnInterrupt s
  case brk => exact enterInterrupt .brk s
  case call | callMr => exact callTo _ s
  case push rd n rs => exact guarded _ (pushEach rs _ s)
  case pop rd n rs => exact guarded _ (popEach rs _ s)
  case bpIm6 op rd imm =>
    simp only [Machine.execShape]
    split
    · exact guarded _ (memWrite _ _ s)
    · exact guarded _ (aluFrom op rd _ _ s)
  case ind op rd d mark rs =>
    simp only [Machine.execShape]
    split
    · exact storeInd rd d mark rs s
    · exact aluInd op rd d mark rs s
  case a6 op rd addr =>
    simp only [Machine.execShape]
    split
    · exact memWrite _ _ s
    · exact aluFrom op rd _ _ s
  case a16 op rd rs addr => exact aluFrom op rd _ _ s
  case a16w op rd rs addr =>
    simp only [Machine.execShape]
    split
    · exact memWrite _ _ s
    · exact aluA16w op rd _ addr s
  case bitRr | bitRo => exact bitReg _ _ _ s
  case bitMr | bitMo => exact bitMem _ _ _ _ s
  case shift16 k rd rs => exact shift16 k rd rs s
  case muls k rd n rs => exact innerProduct k rd n rs s
  case im6 | mul => exact guarded _ (next _)
  case branch | reg | im16 | shifted | dsIm6 | movRsDs | movDsRs | movRsFr | movFrRs | goto | gotoMr | mode | divs
      | divq | exp | nop => exact next _

end FaultsUnadmitted

end Sys2Proof.Machine
end

section
/-! ## The statements of `20_memory.md` settled -/

namespace Sys2Proof.Settled

open Sys2Proof.Machine

/-- Settles O17: an instruction faults only where one of its memory accesses does, and no update before that access
changes the platform's map. -/
theorem faultOnlyFromUnadmittedAccess : Obligations.FaultOnlyFromUnadmittedAccess := by
  intro i s f hf
  rw [exec_shape] at hf
  exact FaultsUnadmitted.execShape i.shape s f hf

end Sys2Proof.Settled
end

section
/-! ## The fields of a first word (`30_encoding.md` rule R76): a word is its five fields, every other field is a part
of them, and each form's word spells its own fields -/

namespace Sys2Proof

/-- The number in bits 2:0. -/
def fieldRsBits (w : Word) : BitVec 3 := w.extractLsb' 0 3

theorem fieldRd_eq (w : Word) : fieldRd w = Reg.ofBits (fieldRdBits w) := rfl
theorem fieldRs_eq (w : Word) : fieldRs w = Reg.ofBits (fieldRsBits w) := rfl

/-! #### The five fields -/

section Packed

variable (op0 : BitVec 4) (rd op1 opn rs : BitVec 3)

@[simp] theorem fieldOp0_packFields : fieldOp0 (packFields op0 rd op1 opn rs) = op0 := by
  unfold fieldOp0 packFields
  iterate 4 rw [BitVec.extractLsb'_append_eq_of_le (by decide)]
  exact BitVec.extractLsb'_eq_self

@[simp] theorem fieldRdBits_packFields : fieldRdBits (packFields op0 rd op1 opn rs) = rd := by
  unfold fieldRdBits packFields
  iterate 3 rw [BitVec.extractLsb'_append_eq_of_le (by decide)]
  exact BitVec.extractLsb'_append_eq_right

@[simp] theorem fieldOp1_packFields : fieldOp1 (packFields op0 rd op1 opn rs) = op1 := by
  unfold fieldOp1 packFields
  iterate 2 rw [BitVec.extractLsb'_append_eq_of_le (by decide)]
  exact BitVec.extractLsb'_append_eq_right

@[simp] theorem fieldOpn_packFields : fieldOpn (packFields op0 rd op1 opn rs) = opn := by
  unfold fieldOpn packFields
  rw [BitVec.extractLsb'_append_eq_of_le (by decide)]
  exact BitVec.extractLsb'_append_eq_right

@[simp] theorem fieldRsBits_packFields : fieldRsBits (packFields op0 rd op1 opn rs) = rs :=
  BitVec.extractLsb'_append_eq_right

end Packed

theorem packFields_fields (w : Word) :
    packFields (fieldOp0 w) (fieldRdBits w) (fieldOp1 w) (fieldOpn w) (fieldRsBits w) = w := by
  unfold packFields fieldOp0 fieldRdBits fieldOp1 fieldOpn fieldRsBits
  iterate 4 rw [BitVec.extractLsb'_append_extractLsb'_eq_extractLsb' (by decide)]
  exact BitVec.extractLsb'_eq_self

/-- Two words are equal when their five fields are. -/
theorem eq_iff_fields (v w : Word) :
    v = w ↔ fieldOp0 v = fieldOp0 w ∧ fieldRdBits v = fieldRdBits w ∧ fieldOp1 v = fieldOp1 w ∧
      fieldOpn v = fieldOpn w ∧ fieldRsBits v = fieldRsBits w := by
  constructor
  · rintro rfl
    exact ⟨rfl, rfl, rfl, rfl, rfl⟩
  · rintro ⟨hop0, hrd, hop1, hopn, hrs⟩
    rw [← packFields_fields v, ← packFields_fields w, hop0, hrd, hop1, hopn, hrs]

/-! #### The other fields -/

theorem extractLsb'_of_extractLsb' {a b m n k : Nat} (x : BitVec k) (h : b + m ≤ n) :
    (x.extractLsb' a n).extractLsb' b m = x.extractLsb' (a + b) m := by
  apply BitVec.eq_of_getLsbD_eq
  intro i hi
  have hlt : b + i < n := by omega
  simp [hi, hlt, Nat.add_assoc]

section Parts

variable (w : Word)

theorem fieldImm6_eq : fieldImm6 w = fieldOpn w ++ fieldRsBits w := by
  unfold fieldOpn fieldRsBits
  rw [BitVec.extractLsb'_append_extractLsb'_eq_extractLsb' (by decide)]
  rfl

theorem fieldOffset_eq : fieldOffset w = (fieldOpn w).extractLsb' 0 1 ++ fieldRsBits w := by
  unfold fieldOpn fieldRsBits
  rw [extractLsb'_of_extractLsb' w (by decide), BitVec.extractLsb'_append_extractLsb'_eq_extractLsb' (by decide)]
  rfl

theorem fieldN2_eq : fieldN2 w = (fieldOpn w).extractLsb' 0 2 := by
  unfold fieldOpn
  rw [extractLsb'_of_extractLsb' w (by decide)]
  rfl

theorem fieldMark_eq : fieldMark w = PtrMark.ofBits ((fieldOpn w).extractLsb' 0 2) := by
  unfold fieldOpn
  rw [extractLsb'_of_extractLsb' w (by decide)]
  rfl

theorem fieldBitOp_eq : fieldBitOp w = BitOp.ofBits ((fieldOpn w).extractLsb' 1 2) := by
  unfold fieldOpn
  rw [extractLsb'_of_extractLsb' w (by decide)]
  rfl

theorem fieldN4_eq : fieldN4 w = (fieldOp1 w).extractLsb' 0 1 ++ fieldOpn w := by
  unfold fieldOp1 fieldOpn
  rw [extractLsb'_of_extractLsb' w (by decide), BitVec.extractLsb'_append_extractLsb'_eq_extractLsb' (by decide)]
  rfl

theorem fieldSft_eq : fieldSft w = (fieldOp1 w).extractLsb' 0 2 ++ (fieldOpn w).extractLsb' 2 1 := by
  unfold fieldOp1 fieldOpn
  rw [extractLsb'_of_extractLsb' w (by decide), extractLsb'_of_extractLsb' w (by decide),
    BitVec.extractLsb'_append_extractLsb'_eq_extractLsb' (by decide)]
  rfl

theorem fieldLongShift_eq :
    fieldLongShift w = LongShift.ofBits ((fieldOp1 w).extractLsb' 0 1 ++ (fieldOpn w).extractLsb' 1 2) := by
  unfold fieldOp1 fieldOpn
  rw [extractLsb'_of_extractLsb' w (by decide), extractLsb'_of_extractLsb' w (by decide),
    BitVec.extractLsb'_append_extractLsb'_eq_extractLsb' (by decide)]
  rfl

theorem getElem_three : w[3] = (fieldOpn w)[0] := by simp [fieldOpn]
theorem getElem_four : w[4] = (fieldOpn w)[1] := by simp [fieldOpn]
theorem getElem_five : w[5] = (fieldOpn w)[2] := by simp [fieldOpn]
theorem getElem_six : w[6] = (fieldOp1 w)[0] := by simp [fieldOp1]

end Parts

/-! #### The first words of the forms

A form whose word is not written with `packFields` puts fields of other widths side by side; regrouped, they are the
five fields. -/

theorem append_halves {n m : Nat} (x : BitVec (n + m)) : x = x.extractLsb' m n ++ x.extractLsb' 0 m :=
  BitVec.extractLsb'_append_extractLsb'.symm

/-- A 6-bit field is opn and the number in bits 2:0. -/
theorem packImm6_eq (op0 : BitVec 4) (rd op1 : BitVec 3) (imm : BitVec 6) :
    packImm6 op0 rd op1 imm = packFields op0 rd op1 (imm.extractLsb' 3 3) (imm.extractLsb' 0 3) := by
  conv_lhs => rw [append_halves (n := 3) (m := 3) imm]
  exact (BitVec.append_assoc (x₁ := op0 ++ rd ++ op1) (x₂ := imm.extractLsb' 3 3)
    (x₃ := imm.extractLsb' 0 3)).symm

/-! Below op0 and Rd, fields of the widths the names say lie across op1 and opn. -/

theorem regroup_two_one (x : BitVec 7) (y : BitVec 2) (z : BitVec 1) : (x ++ y ++ z : BitVec 10) = x ++ (y ++ z) :=
  BitVec.append_assoc

theorem regroup_two_four (x : BitVec 7) (y : BitVec 2) (n : BitVec 4) :
    (x ++ y ++ n : BitVec 13) = x ++ (y ++ n.extractLsb' 3 1) ++ n.extractLsb' 0 3 := by
  conv_lhs => rw [append_halves (n := 1) (m := 3) n]
  rw [← regroup_two_one]
  exact (BitVec.append_assoc (x₁ := x ++ y) (x₂ := n.extractLsb' 3 1) (x₃ := n.extractLsb' 0 3)).symm

theorem regroup_two_three_one (x : BitVec 7) (y : BitVec 2) (k : BitVec 3) (z : BitVec 1) :
    (x ++ y ++ k ++ z : BitVec 13) = x ++ (y ++ k.extractLsb' 2 1) ++ (k.extractLsb' 0 2 ++ z) := by
  have hk : (x ++ y ++ k : BitVec 12) = x ++ y ++ k.extractLsb' 2 1 ++ k.extractLsb' 0 2 := by
    conv_lhs => rw [append_halves (n := 1) (m := 2) k]
    exact (BitVec.append_assoc (x₁ := x ++ y) (x₂ := k.extractLsb' 2 1) (x₃ := k.extractLsb' 0 2)).symm
  rw [hk, ← regroup_two_one]
  exact BitVec.append_assoc (x₁ := x ++ y ++ k.extractLsb' 2 1) (x₂ := k.extractLsb' 0 2) (x₃ := z)

theorem regroup_one_three_two (x : BitVec 7) (y : BitVec 1) (k : BitVec 3) (n : BitVec 2) :
    (x ++ y ++ k ++ n : BitVec 13) = x ++ (y ++ k.extractLsb' 1 2) ++ (k.extractLsb' 0 1 ++ n) := by
  have hk : (x ++ y ++ k : BitVec 11) = x ++ y ++ k.extractLsb' 1 2 ++ k.extractLsb' 0 1 := by
    conv_lhs => rw [append_halves (n := 2) (m := 1) k]
    exact (BitVec.append_assoc (x₁ := x ++ y) (x₂ := k.extractLsb' 1 2) (x₃ := k.extractLsb' 0 1)).symm
  have hop1 : (x ++ y ++ k.extractLsb' 1 2 : BitVec 10) = x ++ (y ++ k.extractLsb' 1 2) := BitVec.append_assoc
  rw [hk, ← hop1]
  exact BitVec.append_assoc (x₁ := x ++ y ++ k.extractLsb' 1 2) (x₂ := k.extractLsb' 0 1) (x₃ := n)

namespace Shape

theorem word0_branch (c : Cond) (back : Bool) (imm : BitVec 6) :
    (branch c back imm).word0 = packImm6 c.bits 7#3 (0#2 ++ bit1 back) imm :=
  congrArg (fun t : BitVec 10 => (t ++ imm : Word)) (regroup_two_one (c.bits ++ 7#3) 0#2 (bit1 back))

theorem word0_ind (op : AluOp) (rd : Reg) (d : Bool) (mark : PtrMark) (rs : Reg) :
    (ind op rd d mark rs).word0 = packFields op.bits rd.bits 3#3 (bit1 d ++ mark.bits) rs.bits :=
  congrArg (fun t : BitVec 13 => (t ++ rs.bits : Word)) (BitVec.append_assoc (x₁ := op.bits ++ rd.bits ++ 3#3))

theorem word0_shifted (op : AluOp) (k : ShiftKind) (rd : Reg) (n : BitVec 2) (rs : Reg) :
    (shifted op k rd n rs).word0 =
      packFields op.bits rd.bits (1#1 ++ k.bits.extractLsb' 1 2) (k.bits.extractLsb' 0 1 ++ n) rs.bits :=
  congrArg (fun t : BitVec 13 => (t ++ rs.bits : Word)) (regroup_one_three_two (op.bits ++ rd.bits) 1#1 k.bits n)

theorem word0_bitRr (b : BitOp) (rd rs : Reg) :
    (bitRr b rd rs).word0 = packFields 14#4 rd.bits 0#3 (b.bits ++ 0#1) rs.bits :=
  congrArg (fun t : BitVec 13 => (t ++ rs.bits : Word)) (BitVec.append_assoc (x₁ := 14#4 ++ rd.bits ++ 0#3))

theorem word0_bitRo (b : BitOp) (rd : Reg) (k : BitVec 4) :
    (bitRo b rd k).word0 = packImm6 14#4 rd.bits 1#3 (b.bits ++ k) :=
  BitVec.append_assoc (x₁ := 14#4 ++ rd.bits ++ 1#3)

theorem word0_bitMr (b : BitOp) (d : Bool) (rd rs : Reg) :
    (bitMr b d rd rs).word0 = packFields 14#4 rd.bits (2#2 ++ bit1 d) (b.bits ++ 0#1) rs.bits := by
  unfold packFields
  rw [← regroup_two_one (14#4 ++ rd.bits) 2#2 (bit1 d)]
  exact congrArg (fun t : BitVec 13 => (t ++ rs.bits : Word))
    (BitVec.append_assoc (x₁ := 14#4 ++ rd.bits ++ 2#2 ++ bit1 d))

theorem word0_bitMo (b : BitOp) (d : Bool) (rd : Reg) (k : BitVec 4) :
    (bitMo b d rd k).word0 = packImm6 14#4 rd.bits (3#2 ++ bit1 d) (b.bits ++ k) := by
  unfold packImm6
  rw [← regroup_two_one (14#4 ++ rd.bits) 3#2 (bit1 d)]
  exact BitVec.append_assoc (x₁ := 14#4 ++ rd.bits ++ 3#2 ++ bit1 d)

theorem word0_shift16 (k : LongShift) (rd rs : Reg) :
    (shift16 k rd rs).word0 =
      packFields 14#4 rd.bits (2#2 ++ k.bits.extractLsb' 2 1) (k.bits.extractLsb' 0 2 ++ 1#1) rs.bits :=
  congrArg (fun t : BitVec 13 => (t ++ rs.bits : Word)) (regroup_two_three_one (14#4 ++ rd.bits) 2#2 k.bits 1#1)

theorem word0_muls (k : MulKind) (rd : Reg) (n : BitVec 4) (rs : Reg) :
    (muls k rd n rs).word0 =
      packFields (if k = .uu then 14#4 else 15#4) rd.bits ((if k = .ss then 3#2 else 1#2) ++ n.extractLsb' 3 1)
        (n.extractLsb' 0 3) rs.bits := by
  cases k
  case uu =>
    exact congrArg (fun t : BitVec 13 => (t ++ rs.bits : Word)) (regroup_two_four (14#4 ++ rd.bits) 1#2 n)
  case us =>
    exact congrArg (fun t : BitVec 13 => (t ++ rs.bits : Word)) (regroup_two_four (15#4 ++ rd.bits) 1#2 n)
  case ss =>
    exact congrArg (fun t : BitVec 13 => (t ++ rs.bits : Word)) (regroup_two_four (15#4 ++ rd.bits) 3#2 n)

end Shape

end Sys2Proof
end

section
/-! ## The groups of the decoder (`30_encoding.md` rule R79) -/

namespace Sys2Proof

section Groups

variable {w0 w1 : Word}

/-- Rd = PC with op1 = 000 or 001: the branches (rule R79 line 1). -/
def InBranchPattern (w0 : Word) : Prop := fieldRd w0 = .pc ∧ (fieldOp1 w0 = 0#3 ∨ fieldOp1 w0 = 1#3)

theorem decodeShape_of_op0_eq_15 (h : fieldOp0 w0 = 15#4) : decodeShape w0 w1 = decode1111 w0 w1 := by
  simp [decodeShape, h]

theorem decodeShape_of_op0_eq_14 (h : fieldOp0 w0 = 14#4) (hb : ¬InBranchPattern w0) :
    decodeShape w0 w1 = decode1110 w0 := by
  unfold decodeShape
  rw [if_neg fun hbr => hb hbr.2, if_neg (by simp [h]), if_pos h]

theorem AluOp.ofBits_lt {b : BitVec 4} {op : AluOp} (h : AluOp.ofBits b = some op) : b < 14#4 := by
  have hall : ∀ b : BitVec 4, (AluOp.ofBits b).isSome = true → b < 14#4 := by decide
  exact hall b (by simp [h])

/-- Outside the branch pattern, and but for the words of RETF and RETI, an ALU operation is one of the ALU group. -/
theorem decodeShape_of_aluOp {op : AluOp} (ho : AluOp.ofBits (fieldOp0 w0) = some op) (hb : ¬InBranchPattern w0)
    (hretf : w0 ≠ 0x9A90#16) (hreti : w0 ≠ 0x9A98#16) : decodeShape w0 w1 = decodeAlu op w0 w1 := by
  have hlt := AluOp.ofBits_lt ho
  have h15 : fieldOp0 w0 ≠ 15#4 := by rintro h; simp [h] at hlt
  have h14 : fieldOp0 w0 ≠ 14#4 := by rintro h; simp [h] at hlt
  unfold decodeShape
  simp only [if_neg h15, if_neg h14, if_neg hretf, if_neg hreti, ho]
  rw [if_neg fun hbr => hb hbr.2]

/-- RETF and RETI are words with op1 = 010. -/
theorem ne_return_of_op1 (h : fieldOp1 w0 ≠ 2#3) : w0 ≠ 0x9A90#16 ∧ w0 ≠ 0x9A98#16 := by
  constructor <;> rintro rfl <;> exact h (by decide)

/-- RETF and RETI are words with op0 = 1001. -/
theorem ne_return_of_op0 (h : fieldOp0 w0 ≠ 9#4) : w0 ≠ 0x9A90#16 ∧ w0 ≠ 0x9A98#16 := by
  constructor <;> rintro rfl <;> exact h (by decide)

end Groups

end Sys2Proof
end

section
/-! ## Decoding what the encoder writes -/

namespace Sys2Proof

@[simp] theorem Cond.bits_ne (c : Cond) : c.bits ≠ 15#4 := by cases c <;> decide

@[simp] theorem fieldRd_packFields (op0 : BitVec 4) (rd op1 opn rs : BitVec 3) :
    fieldRd (packFields op0 rd op1 opn rs) = Reg.ofBits rd := by simp [fieldRd_eq]
@[simp] theorem fieldRs_packFields (op0 : BitVec 4) (rd op1 opn rs : BitVec 3) :
    fieldRs (packFields op0 rd op1 opn rs) = Reg.ofBits rs := by simp [fieldRs_eq]
@[simp] theorem fieldImm6_packFields (op0 : BitVec 4) (rd op1 opn rs : BitVec 3) :
    fieldImm6 (packFields op0 rd op1 opn rs) = opn ++ rs := by simp [fieldImm6_eq]

@[simp] theorem Reg.ofBits_zero : Reg.ofBits 0#3 = .sp := rfl
@[simp] theorem Reg.ofBits_seven : Reg.ofBits 7#3 = .pc := rfl

/-! #### Parts of the regrouped fields -/

@[simp] theorem imm6_of_halves (x : BitVec 6) : x.extractLsb' 3 3 ++ x.extractLsb' 0 3 = x :=
  (append_halves (n := 3) (m := 3) x).symm

@[simp] theorem addr_of_halves (a : Addr) : (a.extractLsb' 16 6 ++ a.extractLsb' 0 16 : Addr) = a :=
  (append_halves (n := 6) (m := 16) a).symm

/-- D and the @ field are the bits of opn. -/
theorem opn_of_ind (d : Bool) (mark : PtrMark) :
    (bit1 d ++ mark.bits)[2] = d ∧ PtrMark.ofBits ((bit1 d ++ mark.bits).extractLsb' 0 2) = mark := by
  cases d <;> cases mark <;> decide

/-- SFT_OP and n lie across op1 and opn, clear of the forms with op1 = 100 and opn up to 011. -/
theorem op1_opn_of_shifted (k : ShiftKind) (n : BitVec 2) :
    let op1 : BitVec 3 := 1#1 ++ k.bits.extractLsb' 1 2
    let opn : BitVec 3 := k.bits.extractLsb' 0 1 ++ n
    op1 ∉ [0#3, 1#3, 2#3, 3#3, 7#3] ∧ (op1 = 4#3 → opn ∉ [0#3, 1#3, 2#3, 3#3]) ∧
      op1.extractLsb' 0 2 ++ opn.extractLsb' 2 1 = k.bits ∧ opn.extractLsb' 0 2 = n := by
  revert n
  cases k <;> decide

/-- BIT_OP in opn above a 0: a bit operation whose bit number is in a register. -/
theorem opn_of_bitReg (b : BitOp) :
    (b.bits ++ 0#1)[0] = false ∧ BitOp.ofBits ((b.bits ++ 0#1).extractLsb' 1 2) = b := by
  cases b <;> decide

/-- BIT_OP and the offset are the bits of the 6-bit field. -/
theorem imm6_of_bitOffset (b : BitOp) (k : BitVec 4) :
    let imm : BitVec 6 := b.bits ++ k
    BitOp.ofBits ((imm.extractLsb' 3 3).extractLsb' 1 2) = b ∧
      (imm.extractLsb' 3 3).extractLsb' 0 1 ++ imm.extractLsb' 0 3 = k := by
  revert k
  cases b <;> decide

/-- LSFT_OP lies across op1 and opn. -/
theorem op1_opn_of_shift16 (k : LongShift) :
    let op1 : BitVec 3 := 2#2 ++ k.bits.extractLsb' 2 1
    let opn : BitVec 3 := k.bits.extractLsb' 0 2 ++ 1#1
    (op1 = 4#3 ∨ op1 = 5#3) ∧ opn[0] = true ∧
      LongShift.ofBits (op1.extractLsb' 0 1 ++ opn.extractLsb' 1 2) = k := by
  cases k <;> decide

/-- The level count of MULS lies across op1 and opn. -/
theorem op1_of_muls (h : BitVec 2) (n : BitVec 4) :
    let op1 : BitVec 3 := h ++ n.extractLsb' 3 1
    (h = 1#2 → op1 = 2#3 ∨ op1 = 3#3) ∧ (h = 3#2 → op1 = 6#3 ∨ op1 = 7#3) ∧
      op1.extractLsb' 0 1 ++ n.extractLsb' 0 3 = n := by
  revert h n
  decide

/-! #### The ALU group -/

section Alu

variable {w0 w1 : Word} {op : AluOp}

theorem decodeShape_of_rd_ne_pc (ho : AluOp.ofBits (fieldOp0 w0) = some op) (hrd : fieldRd w0 ≠ .pc)
    (h2 : fieldOp1 w0 ≠ 2#3) : decodeShape w0 w1 = decodeAlu op w0 w1 :=
  decodeShape_of_aluOp ho (fun h => hrd h.1) (ne_return_of_op1 h2).1 (ne_return_of_op1 h2).2

theorem decodeShape_of_op1 (ho : AluOp.ofBits (fieldOp0 w0) = some op)
    (h : fieldOp1 w0 ∉ [0#3, 1#3, 2#3]) : decodeShape w0 w1 = decodeAlu op w0 w1 := by
  simp only [List.mem_cons, List.not_mem_nil, or_false, not_or] at h
  obtain ⟨h0, h1, h2⟩ := h
  have hb : ¬InBranchPattern w0 := fun hb => hb.2.elim h0 h1
  exact decodeShape_of_aluOp ho hb (ne_return_of_op1 h2).1 (ne_return_of_op1 h2).2

end Alu

/-! #### Forms told apart by one bit of op1 or of the 6-bit field -/

section Across

variable {w0 w1 : Word}

theorem decode1110_shift16 (hrd : fieldRd w0 ≠ .pc) (hop1 : fieldOp1 w0 = 4#3 ∨ fieldOp1 w0 = 5#3)
    (h3 : w0[3] = true) : decode1110 w0 = .ok (.shift16 (fieldLongShift w0) (fieldRd w0) (fieldRs w0)) := by
  rcases hop1 with hop1 | hop1 <;> simp [decode1110, hrd, hop1, h3]

theorem decode1110_muls (hrd : fieldRd w0 ≠ .pc) (hop1 : fieldOp1 w0 = 2#3 ∨ fieldOp1 w0 = 3#3) :
    decode1110 w0 = .ok (.muls .uu (fieldRd w0) (fieldN4 w0) (fieldRs w0)) := by
  rcases hop1 with hop1 | hop1 <;> simp [decode1110, hrd, hop1]

theorem decode1111_muls_us (hrd : fieldRd w0 ≠ .pc) (hop1 : fieldOp1 w0 = 2#3 ∨ fieldOp1 w0 = 3#3) :
    decode1111 w0 w1 = .ok (.muls .us (fieldRd w0) (fieldN4 w0) (fieldRs w0)) := by
  rcases hop1 with hop1 | hop1 <;> simp [decode1111, hrd, hop1]

theorem decode1111_muls_ss (hrd : fieldRd w0 ≠ .pc) (hop1 : fieldOp1 w0 = 6#3 ∨ fieldOp1 w0 = 7#3) :
    decode1111 w0 w1 = .ok (.muls .ss (fieldRd w0) (fieldN4 w0) (fieldRs w0)) := by
  rcases hop1 with hop1 | hop1 <;> simp [decode1111, hrd, hop1]

end Across

/-! #### The checks that keep a form apart from the others -/

theorem checkDest_none {rd : Reg} : checkDest rd = none ↔ rd ≠ .pc := by simp [checkDest, reservedIf]

theorem checkMul_none {rd rs : Reg} : checkMul rd rs = none ↔ rd ≠ .pc ∧ rs ≠ .pc := by
  simp [checkMul, reservedIf]

theorem checkMuls_none {rd rs : Reg} :
    checkMuls rd rs = none ↔ rd ∉ [Reg.r3, .r4, .pc] ∧ rs ∉ [Reg.r3, .r4, .pc] := by
  cases rd <;> cases rs <;> decide

/-- The words of RETF and RETI are those of two POPs: the first is left out, and the second's list passes R7. -/
theorem word0_pop_ne_return {rd : Reg} {n : BitVec 3} {rs : Reg} (hc : checkPop rd n rs = none)
    (hp : Shape.pop rd n rs ≠ .pop .bp 2#3 .sp) :
    (Shape.pop rd n rs).word0 ≠ 0x9A90#16 ∧ (Shape.pop rd n rs).word0 ≠ 0x9A98#16 := by
  have hpop (m : BitVec 3) (h : (Shape.pop rd n rs).word0 = (Shape.pop .bp m .sp).word0) :
      Shape.pop rd n rs = .pop .bp m .sp := by
    obtain ⟨-, hrd, -, hn, hrs⟩ := (eq_iff_fields _ _).1 h
    simp only [Shape.word0, fieldRdBits_packFields, fieldOpn_packFields, fieldRsBits_packFields, Reg.bits_inj]
      at hrd hn hrs
    rw [hrd, hn, hrs]
  refine ⟨fun h => hp (hpop 2#3 h), fun h => ?_⟩
  obtain ⟨rfl, rfl, rfl⟩ := Shape.pop.inj (hpop 3#3 h)
  exact absurd hc (by decide)

/-! #### Every form -/

theorem decodeShape_branch (c : Cond) (back : Bool) (imm : BitVec 6) (w : Word) :
    decodeShape (Shape.branch c back imm).word0 w = .ok (.branch c back imm) := by
  rw [Shape.word0_branch, packImm6_eq]
  cases back <;> simp [decodeShape, bit1, getElem_six]

theorem decodeShape_shifted (op : AluOp) (k : ShiftKind) (rd : Reg) (n : BitVec 2) (rs : Reg) (w : Word) :
    decodeShape (Shape.shifted op k rd n rs).word0 w = .ok (.shifted op k rd n rs) := by
  obtain ⟨hop1, hopn, hk, hn⟩ := op1_opn_of_shifted k n
  simp only [List.mem_cons, List.not_mem_nil, or_false, not_or] at hop1 hopn
  obtain ⟨h0, h1, h2, h3, h7⟩ := hop1
  rw [Shape.word0_shifted, decodeShape_of_op1 (op := op) (by simp) (by simp [h0, h1, h2])]
  simp only [decodeAlu, fieldOp1_packFields, fieldOpn_packFields, fieldSft_eq, fieldN2_eq, hk, hn, h0, h1, h2, h3,
    h7, ShiftKind.ofBits_bits]
  by_cases h4 : 1#1 ++ k.bits.extractLsb' 1 2 = 4#3
  · obtain ⟨hn0, hn1, hn2, hn3⟩ := hopn h4
    simp [h4, hn0, hn1, hn2, hn3]
  · simp [h4]

theorem decodeShape_muls {k : MulKind} {rd rs : Reg} {n : BitVec 4} (hrd : rd ≠ .pc) (w : Word) :
    decodeShape (Shape.muls k rd n rs).word0 w = .ok (.muls k rd n rs) := by
  rw [Shape.word0_muls]
  cases k
  case uu =>
    obtain ⟨hop1, -, hn⟩ := op1_of_muls 1#2 n
    rw [decodeShape_of_op0_eq_14 (by simp) (by simp [InBranchPattern, hrd]),
      decode1110_muls (by simpa using hrd) (by simpa using hop1 rfl)]
    simp [fieldN4_eq, hn]
  case us =>
    obtain ⟨hop1, -, hn⟩ := op1_of_muls 1#2 n
    rw [decodeShape_of_op0_eq_15 (by simp), decode1111_muls_us (by simpa using hrd) (by simpa using hop1 rfl)]
    simp [fieldN4_eq, hn]
  case ss =>
    obtain ⟨-, hop1, hn⟩ := op1_of_muls 3#2 n
    rw [decodeShape_of_op0_eq_15 (by simp), decode1111_muls_ss (by simpa using hrd) (by simpa using hop1 rfl)]
    simp [fieldN4_eq, hn]

/-- A form whose operands pass the check is read back from its words; RETF's word is the one that another form
spells too. -/
theorem decodeShape_word0 (sh : Shape) (hc : sh.check = none) (hp : sh ≠ .pop .bp 2#3 .sp) (w : Word) :
    decodeShape sh.word0 (sh.word1.getD w) = .ok sh := by
  cases sh
  case branch c back imm => exact decodeShape_branch c back imm w
  case retf | reti => rfl
  case bpIm6 op rd imm | im6 op rd imm =>
    have hrd := checkDest_none.1 hc
    simp only [Shape.word0, packImm6_eq]
    rw [decodeShape_of_rd_ne_pc (op := op) (by simp) (by simpa using hrd) (by simp)]
    simp [decodeAlu]
  case ind op rd d mark rs =>
    obtain ⟨hd, hmark⟩ := opn_of_ind d mark
    rw [Shape.word0_ind, decodeShape_of_op1 (op := op) (by simp) (by simp)]
    simp [decodeAlu, fieldMark_eq, getElem_five, hd, hmark]
  case reg op rd rs | im16 op rd rs imm | a16 op rd rs addr | a16w op rd rs addr =>
    simp only [Shape.word0]
    rw [decodeShape_of_op1 (op := op) (by simp) (by simp)]
    simp [decodeAlu, Shape.word1]
  case shifted op k rd n rs => exact decodeShape_shifted op k rd n rs w
  case a6 op rd addr =>
    simp only [Shape.word0, packImm6_eq]
    rw [decodeShape_of_op1 (op := op) (by simp) (by simp)]
    simp [decodeAlu]
  case push rd n rs =>
    obtain ⟨hretf, hreti⟩ := ne_return_of_op0 (w0 := (Shape.push rd n rs).word0) (by simp [Shape.word0])
    rw [decodeShape_of_aluOp (op := .store) (by simp [Shape.word0, AluOp.ofBits])
      (by simp [InBranchPattern, Shape.word0]) hretf hreti]
    simp [decodeAlu, Shape.word0]
  case pop rd n rs =>
    obtain ⟨hretf, hreti⟩ := word0_pop_ne_return hc hp
    rw [decodeShape_of_aluOp (op := .load) (by simp [Shape.word0, AluOp.ofBits])
      (by simp [InBranchPattern, Shape.word0]) hretf hreti]
    simp [decodeAlu, Shape.word0]
  case bitRr b rd rs =>
    have hrd := checkDest_none.1 hc
    obtain ⟨hreg, hb⟩ := opn_of_bitReg b
    rw [Shape.word0_bitRr, decodeShape_of_op0_eq_14 (by simp) (by simp [InBranchPattern, hrd])]
    simp [decode1110, fieldBitOp_eq, getElem_three, hrd, hreg, hb]
  case bitRo b rd k =>
    have hrd := checkDest_none.1 hc
    obtain ⟨hb, hk⟩ := imm6_of_bitOffset b k
    rw [Shape.word0_bitRo, packImm6_eq, decodeShape_of_op0_eq_14 (by simp) (by simp [InBranchPattern, hrd])]
    simp [decode1110, fieldBitOp_eq, fieldOffset_eq, hrd, hb, hk]
  case bitMr b d rd rs =>
    have hrd := checkDest_none.1 hc
    obtain ⟨hreg, hb⟩ := opn_of_bitReg b
    rw [Shape.word0_bitMr, decodeShape_of_op0_eq_14 (by simp) (by simp [InBranchPattern, hrd])]
    cases d <;> simp [decode1110, fieldBitOp_eq, getElem_three, getElem_six, hrd, hreg, hb, bit1]
  case bitMo b d rd k =>
    have hrd := checkDest_none.1 hc
    obtain ⟨hb, hk⟩ := imm6_of_bitOffset b k
    rw [Shape.word0_bitMo, packImm6_eq, decodeShape_of_op0_eq_14 (by simp) (by simp [InBranchPattern, hrd])]
    cases d <;> simp [decode1110, fieldBitOp_eq, fieldOffset_eq, getElem_six, hrd, hb, hk, bit1]
  case shift16 k rd rs =>
    have hrd : rd ≠ .pc := by rintro rfl; simp [Shape.check, checkShift16] at hc
    obtain ⟨hop1, hopn, hk⟩ := op1_opn_of_shift16 k
    rw [Shape.word0_shift16, decodeShape_of_op0_eq_14 (by simp) (by simp [InBranchPattern, hrd]),
      decode1110_shift16 (by simpa using hrd) (by simpa using hop1) (by simpa [getElem_three] using hopn)]
    simp [fieldLongShift_eq, hk]
  case mul k rd rs =>
    obtain ⟨hrd, -⟩ := checkMul_none.1 hc
    simp only [Shape.word0]
    cases k
    case uu =>
      rw [decodeShape_of_op0_eq_14 (by simp) (by simp [InBranchPattern, hrd])]
      simp [decode1110, getElem_three, hrd]
    case us | ss =>
      rw [decodeShape_of_op0_eq_15 (by simp)]
      simp [decode1111, hrd]
  case muls k rd n rs =>
    obtain ⟨hrd, -⟩ := checkMuls_none.1 hc
    exact decodeShape_muls (fun h => hrd (by simp [h])) w
  case dsIm6 imm =>
    simp only [Shape.word0, packImm6_eq]
    rw [decodeShape_of_op0_eq_15 (by simp)]
    simp [decode1111]
  case movRsDs rs | movDsRs rs | movRsFr rs | movFrRs rs =>
    simp only [Shape.word0]
    rw [decodeShape_of_op0_eq_15 (by simp)]
    simp [decode1111]
  case call addr | goto addr =>
    simp only [Shape.word0, packImm6_eq]
    rw [decodeShape_of_op0_eq_15 (by simp)]
    simp [decode1111, Shape.word1]
  case gotoMr => rfl
  case mode m => cases m <;> rfl
  case brk | callMr | divs | divq | exp | nop => rfl

/-! #### Every instruction -/

theorem toInstr_shape (i : Instr) : i.shape.toInstr = some i := by cases i <;> rfl

theorem wellFormed_iff (i : Instr) : i.wellFormed = true ↔ i.check = none ∧ i.shape ≠ .pop .bp 2#3 .sp := by
  have hpop : i.shape = .pop .bp 2#3 .sp ↔ i = .pop .bp 2#3 .sp := by
    constructor
    · intro h
      have hi := toInstr_shape i
      rw [h] at hi
      exact (Option.some.inj hi).symm
    · rintro rfl
      rfl
  have hspelling : i.isRetfSpelling = true ↔ i = .pop .bp 2#3 .sp := by
    unfold Instr.isRetfSpelling
    split <;> simp_all
  rw [Ne, hpop, ← hspelling]
  simp [Instr.wellFormed]

theorem decode_word0 {i : Instr} (h : i.wellFormed = true) (w : Word) :
    decode i.shape.word0 (i.shape.word1.getD w) = .ok i := by
  obtain ⟨hc, hp⟩ := (wellFormed_iff i).1 h
  exact decode_of_shape (decodeShape_word0 i.shape hc hp w) (toInstr_shape i) hc

/-- The fetch reads the second word of the list where there is one, else 0. -/
theorem decodeWords_cons (w0 : Word) (ws : List Word) : decodeWords (w0 :: ws) = decode w0 (ws.headD 0#16) := by
  cases ws <;> rfl

end Sys2Proof
end

section
/-! ## Words under a mask, field by field -/

namespace Sys2Proof

section Masked

variable (w m : Word)

@[simp] theorem fieldOp0_and : fieldOp0 (w &&& m) = fieldOp0 w &&& fieldOp0 m := BitVec.extractLsb'_and
@[simp] theorem fieldRdBits_and : fieldRdBits (w &&& m) = fieldRdBits w &&& fieldRdBits m := BitVec.extractLsb'_and
@[simp] theorem fieldOp1_and : fieldOp1 (w &&& m) = fieldOp1 w &&& fieldOp1 m := BitVec.extractLsb'_and
@[simp] theorem fieldOpn_and : fieldOpn (w &&& m) = fieldOpn w &&& fieldOpn m := BitVec.extractLsb'_and
@[simp] theorem fieldRsBits_and : fieldRsBits (w &&& m) = fieldRsBits w &&& fieldRsBits m := BitVec.extractLsb'_and

end Masked

theorem and_fifteen (b : BitVec 4) : b &&& 15#4 = b := BitVec.and_allOnes
theorem and_seven (b : BitVec 3) : b &&& 7#3 = b := BitVec.and_allOnes

/-- The word under a mask has a value when each field has. -/
theorem and_packFields_eq (w : Word) (a a' : BitVec 4) (b c d e b' c' d' e' : BitVec 3) :
    w &&& packFields a b c d e = packFields a' b' c' d' e' ↔
      fieldOp0 w &&& a = a' ∧ fieldRdBits w &&& b = b' ∧ fieldOp1 w &&& c = c' ∧ fieldOpn w &&& d = d' ∧
        fieldRsBits w &&& e = e' := by
  rw [eq_iff_fields]
  simp

/-! #### The masks of the statements -/

section Patterns

variable (w : Word)

theorem opn_pattern_iff (opn : BitVec 3) :
    w &&& 0x01F8#16 = packFields 0#4 0#3 4#3 opn 0#3 ↔ fieldOp1 w = 4#3 ∧ fieldOpn w = opn :=
  (and_packFields_eq w 0#4 0#4 0#3 7#3 7#3 0#3 0#3 4#3 opn 0#3).trans (by simp [and_seven])

theorem goto_pattern_iff (op1 : BitVec 3) :
    w &&& 0xFFC0#16 = packFields 15#4 7#3 op1 0#3 0#3 ↔
      fieldOp0 w = 15#4 ∧ fieldRdBits w = 7#3 ∧ fieldOp1 w = op1 :=
  (and_packFields_eq w 15#4 15#4 7#3 7#3 0#3 0#3 7#3 op1 0#3 0#3).trans (by simp [and_seven, and_fifteen])

theorem op1_pattern_iff (op1 : BitVec 3) :
    w &&& 0xF1C0#16 = packFields 15#4 0#3 op1 0#3 0#3 ↔ fieldOp0 w = 15#4 ∧ fieldOp1 w = op1 :=
  (and_packFields_eq w 15#4 15#4 0#3 7#3 0#3 0#3 0#3 op1 0#3 0#3).trans (by simp [and_seven, and_fifteen])

theorem control_pattern_iff (op1 opn : BitVec 3) :
    w &&& 0xF1E0#16 = packFields 15#4 0#3 op1 opn 0#3 ↔
      fieldOp0 w = 15#4 ∧ fieldOp1 w = op1 ∧ fieldOpn w &&& 4#3 = opn :=
  (and_packFields_eq w 15#4 15#4 0#3 7#3 4#3 0#3 0#3 op1 opn 0#3).trans (by simp [and_seven, and_fifteen])

theorem rd_pattern_iff : w &&& 0x0E00#16 = 0x0E00#16 ↔ fieldRdBits w = 7#3 :=
  (and_packFields_eq w 0#4 0#4 7#3 0#3 0#3 0#3 7#3 0#3 0#3 0#3).trans (by simp [and_seven])

end Patterns

end Sys2Proof
end

section
/-! ## What a form read by the decoder says of the instruction -/

namespace Sys2Proof

theorem word1_of_toInstr {sh : Shape} {i : Instr} (h : sh.toInstr = some i) : i.shape.word1 = sh.word1 := by
  unfold Shape.toInstr at h
  split at h <;> cases h <;> rfl

theorem check_of_toInstr {sh : Shape} {i : Instr} (h : sh.toInstr = some i) : i.check = sh.check := by
  unfold Shape.toInstr at h
  split at h <;> cases h <;> rfl

/-- The forms the matrix of rule R104 does not list. -/
def Shape.unlisted : Shape → Bool
  | .im6 op _ _ | .reg op _ _ | .im16 op _ _ _ | .a16 op _ _ _ | .shifted op _ _ _ _ => op == .store
  | .a16w op _ _ _ => op == .load
  | _ => false

theorem Shape.toInstr_isNone (sh : Shape) : sh.toInstr.isNone = sh.unlisted := by
  cases sh
  case bpIm6 op _ _ | im6 op _ _ | ind op _ _ _ _ | reg op _ _ | im16 op _ _ _ | a16 op _ _ _ | a16w op _ _ _
      | a6 op _ _ => cases op <;> rfl
  case shifted op k _ _ _ => cases op <;> cases k <;> rfl
  case branch c _ _ => cases c <;> rfl
  case bitRr b _ _ | bitRo b _ _ | bitMr b _ _ _ | bitMo b _ _ _ => cases b <;> rfl
  case shift16 k _ _ | mul k _ _ | muls k _ _ _ | mode k => cases k <;> rfl
  all_goals rfl

/-- A listed form whose operands pass the check is decoded, with the form's second word. -/
theorem decode_of_listed {w0 w1 : Word} {sh : Shape} (h : decodeShape w0 w1 = .ok sh) (hl : sh.unlisted = false)
    (hc : sh.check = none) : ∃ i, decode w0 w1 = .ok i ∧ i.shape.word1 = sh.word1 := by
  rw [← Shape.toInstr_isNone, Option.isNone_eq_false_iff, Option.isSome_iff_exists] at hl
  obtain ⟨i, hi⟩ := hl
  exact ⟨i, decode_of_shape h hi ((check_of_toInstr hi).trans hc), word1_of_toInstr hi⟩

/-! #### RETF's word is not read as the POP that it also spells (`30_encoding.md` rule R88) -/

theorem decode1110_ne_pop (w0 : Word) (rd : Reg) (n : BitVec 3) (rs : Reg) :
    decode1110 w0 ≠ .ok (.pop rd n rs) := by
  intro h
  simp only [decode1110] at h
  split_ifs at h <;> cases h

theorem decodeControl_ne_pop (w0 : Word) (rd : Reg) (n : BitVec 3) (rs : Reg) :
    decodeControl w0 ≠ .ok (.pop rd n rs) := by
  intro h
  simp only [decodeControl] at h
  split_ifs at h <;> cases h

theorem decode1111_ne_pop (w0 w1 : Word) (rd : Reg) (n : BitVec 3) (rs : Reg) :
    decode1111 w0 w1 ≠ .ok (.pop rd n rs) := by
  intro h
  by_cases h5 : fieldOp1 w0 = 5#3
  · simp only [decode1111, h5] at h
    exact decodeControl_ne_pop w0 rd n rs h
  · simp only [decode1111, h5, if_false] at h
    split_ifs at h <;> cases h

theorem decodeAlu_pop {op : AluOp} {w0 w1 : Word} {rd : Reg} {n : BitVec 3} {rs : Reg}
    (h : decodeAlu op w0 w1 = .ok (.pop rd n rs)) :
    op = .load ∧ fieldRd w0 = rd ∧ fieldOp1 w0 = 2#3 ∧ fieldOpn w0 = n ∧ fieldRs w0 = rs := by
  by_cases h2 : fieldOp1 w0 = 2#3
  · simp only [decodeAlu, h2] at h
    cases op <;> cases h
    exact ⟨rfl, rfl, h2, rfl, rfl⟩
  · simp only [decodeAlu, h2, if_false] at h
    split_ifs at h
    case neg => split at h <;> cases h
    all_goals cases h

theorem Reg.bits_ofBits (b : BitVec 3) : (Reg.ofBits b).bits = b := by
  revert b
  decide

theorem AluOp.bits_of_ofBits {b : BitVec 4} {op : AluOp} (h : AluOp.ofBits b = some op) : op.bits = b := by
  have hall : ∀ b : BitVec 4, ∀ op ∈ AluOp.ofBits b, op.bits = b := by decide
  exact hall b op h

theorem decodeShape_ne_retf_spelling (w0 w1 : Word) : decodeShape w0 w1 ≠ .ok (.pop .bp 2#3 .sp) := by
  intro h
  simp only [decodeShape] at h
  split_ifs at h with hbranch h15 h14 hretf hreti
  case pos => split at h <;> cases h
  case pos => exact decode1111_ne_pop w0 w1 _ _ _ h
  case pos => exact decode1110_ne_pop w0 _ _ _ h
  case pos | pos => cases h
  case neg =>
    split at h
    · rename_i op ho
      obtain ⟨rfl, hrd, hop1, hopn, hrs⟩ := decodeAlu_pop h
      refine hretf ((eq_iff_fields _ _).2 ⟨(AluOp.bits_of_ofBits ho).symm, ?_, hop1, hopn, ?_⟩)
      · rw [← Reg.bits_ofBits (fieldRdBits w0), ← fieldRd_eq, hrd]; rfl
      · rw [← Reg.bits_ofBits (fieldRsBits w0), ← fieldRs_eq, hrs]; rfl
    · cases h

theorem shape_eq_pop {sh : Shape} {i : Instr} {rd rs : Reg} {n : BitVec 3} (h : sh.toInstr = some i)
    (hpop : i.shape = .pop rd n rs) : sh = .pop rd n rs := by
  unfold Shape.toInstr at h
  split at h <;> cases h <;> cases hpop
  rfl

theorem wellFormed_of_decode {w0 w1 : Word} {i : Instr} (h : decode w0 w1 = .ok i) : i.wellFormed = true := by
  obtain ⟨sh, hsh, hi, hc⟩ := (decode_ok_iff w0 w1 i).1 h
  refine (wellFormed_iff i).2 ⟨hc, fun hpop => decodeShape_ne_retf_spelling w0 w1 ?_⟩
  rw [hsh, shape_eq_pop hi hpop]

end Sys2Proof
end

section
/-! ## The first words of two-word instructions (`30_encoding.md` rules R78, R104) -/

namespace Sys2Proof

open Machine

/-! #### The numbers of a word are those of its fields -/

theorem bitsAt_eq (w : Word) (lo n : Nat) : bitsAt w lo n = (w.extractLsb' lo n).toNat := by
  rw [BitVec.extractLsb'_toNat, Nat.shiftRight_eq_div_pow]
  rfl

theorem op0At_eq (w : Word) : op0At w = (fieldOp0 w).toNat := bitsAt_eq w 12 4
theorem op1At_eq (w : Word) : op1At w = (fieldOp1 w).toNat := bitsAt_eq w 6 3
theorem opnAt_eq (w : Word) : opnAt w = (fieldOpn w).toNat := bitsAt_eq w 3 3

theorem fieldOp0_of_op0At {w : Word} {b : BitVec 4} (h : op0At w = b.toNat) : fieldOp0 w = b := by
  rw [op0At_eq] at h
  exact BitVec.eq_of_toNat_eq h

/-! #### The operations with a second word -/

/-- The ALU_OPs that list the IM16 form and the `[A16]` form with W = 0 (rule R104). -/
def readsSecondWord : List Nat := [0, 1, 2, 3, 4, 6, 8, 9, 10, 11, 12]

/-- The ALU_OPs that list the `[A16]` form with W = 1 (rule R104). -/
def writesSecondWord : List Nat := [0, 1, 2, 3, 4, 6, 8, 10, 11, 12, 13]

theorem exists_acceptsSecondWord (b : BitVec 4) (opn : BitVec 3) :
    (∃ op, AluOp.ofBits b = some op ∧ acceptsSecondWord op opn = true) ↔
      (opn = 1#3 ∨ opn = 2#3) ∧ b.toNat ∈ readsSecondWord ∨ opn = 3#3 ∧ b.toNat ∈ writesSecondWord := by
  have hany : (∃ op, AluOp.ofBits b = some op ∧ acceptsSecondWord op opn = true) ↔
      (AluOp.ofBits b).any (acceptsSecondWord · opn) = true := by
    cases AluOp.ofBits b <;> simp
  rw [hany]
  revert b opn
  decide

theorem not_mem_secondWord_of_op0_eq_15 {w : Word} (h : fieldOp0 w = 15#4) :
    op0At w ∉ readsSecondWord ∧ op0At w ∉ writesSecondWord := by
  rw [op0At_eq, h]
  decide

/-- The patterns of rule R78 in the fields of the word. -/
theorem isTwoWord_iff (w : Word) :
    isTwoWord w = true ↔
      (fieldOp1 w = 4#3 ∧ fieldOpn w = 1#3) ∧ op0At w ∈ readsSecondWord ∨
      (fieldOp1 w = 4#3 ∧ fieldOpn w = 2#3) ∧ op0At w ∈ readsSecondWord ∨
      (fieldOp1 w = 4#3 ∧ fieldOpn w = 3#3) ∧ op0At w ∈ writesSecondWord ∨
      (fieldOp0 w = 15#4 ∧ fieldRdBits w = 7#3 ∧ fieldOp1 w = 2#3) ∨
      (fieldOp0 w = 15#4 ∧ fieldOp1 w = 1#3) := by
  by_cases h15 : fieldOp0 w = 15#4
  · obtain ⟨hr, hw⟩ := not_mem_secondWord_of_op0_eq_15 h15
    rw [isTwoWord_of_op0_eq h15, fieldRd_eq_pc]
    tauto
  · rw [isTwoWord_of_op0_ne h15, exists_acceptsSecondWord, op0At_eq]
    tauto

/-! #### What they decode to -/

section Decoded

variable {w0 : Word} (w1 : Word)

theorem decode_goto (h15 : fieldOp0 w0 = 15#4) (hrd : fieldRdBits w0 = 7#3) (h2 : fieldOp1 w0 = 2#3) :
    decode w0 w1 = .ok (.goto (fieldImm6 w0 ++ w1)) := by
  have hsh : decodeShape w0 w1 = .ok (.goto (fieldImm6 w0 ++ w1)) := by
    simp [decodeShape_of_op0_eq_15 h15, decode1111, h2, fieldRd_eq, hrd]
  exact decode_of_shape hsh rfl rfl

theorem decode_call (h15 : fieldOp0 w0 = 15#4) (h1 : fieldOp1 w0 = 1#3) :
    decode w0 w1 = .ok (.call (fieldImm6 w0 ++ w1)) := by
  have hsh : decodeShape w0 w1 = .ok (.call (fieldImm6 w0 ++ w1)) := by
    simp [decodeShape_of_op0_eq_15 h15, decode1111, h1]
  exact decode_of_shape hsh rfl rfl

variable {op : AluOp} (ho : AluOp.ofBits (fieldOp0 w0) = some op)
include ho

theorem decodeShape_im16 (h4 : fieldOp1 w0 = 4#3) (hn : fieldOpn w0 = 1#3) :
    decodeShape w0 w1 = .ok (.im16 op (fieldRd w0) (fieldRs w0) w1) := by
  rw [decodeShape_of_op1 ho (by simp [h4])]
  simp [decodeAlu, h4, hn]

theorem decodeShape_a16 (h4 : fieldOp1 w0 = 4#3) (hn : fieldOpn w0 = 2#3) :
    decodeShape w0 w1 = .ok (.a16 op (fieldRd w0) (fieldRs w0) w1) := by
  rw [decodeShape_of_op1 ho (by simp [h4])]
  simp [decodeAlu, h4, hn]

theorem decodeShape_a16w (h4 : fieldOp1 w0 = 4#3) (hn : fieldOpn w0 = 3#3) :
    decodeShape w0 w1 = .ok (.a16w op (fieldRd w0) (fieldRs w0) w1) := by
  rw [decodeShape_of_op1 ho (by simp [h4])]
  simp [decodeAlu, h4, hn]

end Decoded

/-- The IM16 and `[A16]` forms of an operation that lists them. -/
theorem decode_secondWord {w0 : Word} (w1 : Word) (h4 : fieldOp1 w0 = 4#3)
    (h : (fieldOpn w0 = 1#3 ∨ fieldOpn w0 = 2#3) ∧ op0At w0 ∈ readsSecondWord ∨
      fieldOpn w0 = 3#3 ∧ op0At w0 ∈ writesSecondWord) :
    ∃ i, decode w0 w1 = .ok i ∧ i.shape.word1 = some w1 := by
  rw [op0At_eq] at h
  obtain ⟨op, ho, ha⟩ := (exists_acceptsSecondWord _ _).2 h
  obtain ⟨hn | hn, -⟩ | ⟨hn, -⟩ := h
  case inl.inl =>
    refine decode_of_listed (decodeShape_im16 w1 ho h4 hn) ?_ rfl
    simpa [acceptsSecondWord, hn, Shape.unlisted] using ha
  case inl.inr =>
    refine decode_of_listed (decodeShape_a16 w1 ho h4 hn) ?_ rfl
    simpa [acceptsSecondWord, hn, Shape.unlisted] using ha
  case inr =>
    refine decode_of_listed (decodeShape_a16w w1 ho h4 hn) ?_ rfl
    simpa [acceptsSecondWord, hn, Shape.unlisted] using ha

theorem decode_of_isTwoWord {w0 : Word} (w1 : Word) (h : isTwoWord w0 = true) : ∃ i, decode w0 w1 = .ok i := by
  rw [isTwoWord_iff] at h
  obtain ⟨⟨h4, hn⟩, hm⟩ | ⟨⟨h4, hn⟩, hm⟩ | ⟨⟨h4, hn⟩, hm⟩ | ⟨h15, hrd, h2⟩ | ⟨h15, h1⟩ := h
  · exact (decode_secondWord w1 h4 (.inl ⟨.inl hn, hm⟩)).imp fun _ hi => hi.1
  · exact (decode_secondWord w1 h4 (.inl ⟨.inr hn, hm⟩)).imp fun _ hi => hi.1
  · exact (decode_secondWord w1 h4 (.inr ⟨hn, hm⟩)).imp fun _ hi => hi.1
  · exact ⟨_, decode_goto w1 h15 hrd h2⟩
  · exact ⟨_, decode_call w1 h15 h1⟩

end Sys2Proof
end

section
/-! ## Ignored bits (`30_encoding.md` rules R94, R95): the decoder's branch reads none of the bits cleared -/

namespace Sys2Proof

open Machine

/-- Two words agree in op0, op1 and opn: they are read as the same form. -/
def SameForm (v w : Word) : Prop := fieldOp0 v = fieldOp0 w ∧ fieldOp1 v = fieldOp1 w ∧ fieldOpn v = fieldOpn w

section Cleared

variable (w : Word)

theorem clear_rd :
    SameForm (w &&& 0xF1FF#16) w ∧ fieldRdBits (w &&& 0xF1FF#16) = 0#3 ∧
      fieldRsBits (w &&& 0xF1FF#16) = fieldRsBits w :=
  ⟨⟨(fieldOp0_and w _).trans (and_fifteen _), (fieldOp1_and w _).trans (and_seven _),
    (fieldOpn_and w _).trans (and_seven _)⟩, (fieldRdBits_and w _).trans BitVec.and_zero,
    (fieldRsBits_and w _).trans (and_seven _)⟩

theorem clear_rs :
    SameForm (w &&& 0xFFF8#16) w ∧ fieldRdBits (w &&& 0xFFF8#16) = fieldRdBits w :=
  ⟨⟨(fieldOp0_and w _).trans (and_fifteen _), (fieldOp1_and w _).trans (and_seven _),
    (fieldOpn_and w _).trans (and_seven _)⟩, (fieldRdBits_and w _).trans (and_seven _)⟩

/-- The mask of BREAK to NOP leaves bit 5 of bits 5:3. -/
theorem clear_rd_opn :
    fieldOp0 (w &&& 0xF1E7#16) = fieldOp0 w ∧ fieldOp1 (w &&& 0xF1E7#16) = fieldOp1 w ∧
      fieldOpn (w &&& 0xF1E7#16) = fieldOpn w &&& 4#3 ∧ fieldRsBits (w &&& 0xF1E7#16) = fieldRsBits w :=
  ⟨(fieldOp0_and w _).trans (and_fifteen _), (fieldOp1_and w _).trans (and_seven _), fieldOpn_and w _,
    (fieldRsBits_and w _).trans (and_seven _)⟩

end Cleared

section Alike

variable {v w : Word} (w1 : Word)

theorem decode_congr (h : decodeShape w w1 = decodeShape v w1) : decode w w1 = decode v w1 := by
  unfold decode
  rw [h]

/-- Forms that differ in an unused register field spell the same instruction. -/
theorem decode_eq_of_toInstr {sh th : Shape} (h : decodeShape w w1 = .ok sh) (h' : decodeShape v w1 = .ok th)
    (hi : sh.toInstr = th.toInstr) : decode w w1 = decode v w1 := by
  unfold decode
  simp only [h, h', hi]

theorem fieldImm6_congr (hn : fieldOpn v = fieldOpn w) (hs : fieldRsBits v = fieldRsBits w) :
    fieldImm6 v = fieldImm6 w := by rw [fieldImm6_eq, fieldImm6_eq, hn, hs]

/-! #### The 1111 group -/

theorem decode_control (h15 : fieldOp0 w = 15#4) (h5 : fieldOp1 w = 5#3) : decodeShape w w1 = decodeControl w := by
  rw [decodeShape_of_op0_eq_15 h15]
  simp [decode1111, h5]

theorem decodeControl_congr (hn : fieldOpn v = fieldOpn w) (hs : fieldRsBits v = fieldRsBits w) :
    decodeControl v = decodeControl w := by
  have h5 : v.getLsbD 5 = w.getLsbD 5 := by simp [getElem_five, hn]
  have h4 : v.getLsbD 4 = w.getLsbD 4 := by simp [getElem_four, hn]
  have hoff : fieldOffset v = fieldOffset w := by rw [fieldOffset_eq, fieldOffset_eq, hn, hs]
  have hf : v.extractLsb' 0 3 = w.extractLsb' 0 3 := hs
  simp only [decodeControl, h5, h4, hoff, hf]

/-- BREAK to NOP are told apart by bits 2:0 alone. -/
theorem decodeControl_congr_of_bit5 (hv : fieldOpn v = 4#3) (hw : fieldOpn w &&& 4#3 = 4#3)
    (hs : fieldRsBits v = fieldRsBits w) : decodeControl v = decodeControl w := by
  have hall : ∀ b : BitVec 3, b &&& 4#3 = 4#3 → b[2] = true := by decide
  have hv5 : v[5] = true := by simp [getElem_five, hv]
  have hw5 : w[5] = true := by simpa [getElem_five] using hall _ hw
  have hf : v.extractLsb' 0 3 = w.extractLsb' 0 3 := hs
  simp [decodeControl, hv5, hw5, hf]

/-- DS and FR access read bits 5:3 and Rs. -/
theorem decode1111_access_congr (hform : SameForm v w) (hrs : fieldRsBits v = fieldRsBits w)
    (hv : fieldRdBits v ≠ 7#3) (hw : fieldRdBits w ≠ 7#3) (h0 : fieldOp1 w = 0#3)
    (hn : fieldOpn w &&& 4#3 = 4#3) : decode1111 v w1 = decode1111 w w1 := by
  obtain ⟨-, hop1, hopn⟩ := hform
  have hall : ∀ b : BitVec 3, b &&& 4#3 = 4#3 → b ≠ 1#3 := by decide
  simp only [decode1111, fieldRd_eq_pc, fieldRs_eq, hop1, hopn, hrs, hv, hw, h0, hall _ hn, if_true, if_false]

theorem decode_gotoMr (h15 : fieldOp0 w = 15#4) (hrd : fieldRdBits w = 7#3) (h3 : fieldOp1 w = 3#3) :
    decode w w1 = .ok .gotoMr := by
  have hsh : decodeShape w w1 = .ok .gotoMr := by
    simp [decodeShape_of_op0_eq_15 h15, decode1111, h3, fieldRd_eq, hrd]
  exact decode_of_shape hsh rfl rfl

/-! #### The forms with a second word -/

variable {op : AluOp} (ho : AluOp.ofBits (fieldOp0 w) = some op) (hform : SameForm v w) (h4 : fieldOp1 w = 4#3)
include ho hform h4

theorem decode_im16_congr (hn : fieldOpn w = 1#3)
    (hi : (Shape.im16 op (fieldRd w) (fieldRs w) w1).toInstr = (Shape.im16 op (fieldRd v) (fieldRs v) w1).toInstr) :
    decode w w1 = decode v w1 := by
  obtain ⟨hop0, hop1, hopn⟩ := hform
  exact decode_eq_of_toInstr w1 (decodeShape_im16 w1 ho h4 hn)
    (decodeShape_im16 w1 (hop0 ▸ ho) (hop1.trans h4) (hopn.trans hn)) hi

theorem decode_a16_congr (hn : fieldOpn w = 2#3)
    (hi : (Shape.a16 op (fieldRd w) (fieldRs w) w1).toInstr = (Shape.a16 op (fieldRd v) (fieldRs v) w1).toInstr) :
    decode w w1 = decode v w1 := by
  obtain ⟨hop0, hop1, hopn⟩ := hform
  exact decode_eq_of_toInstr w1 (decodeShape_a16 w1 ho h4 hn)
    (decodeShape_a16 w1 (hop0 ▸ ho) (hop1.trans h4) (hopn.trans hn)) hi

theorem decode_a16w_congr (hn : fieldOpn w = 3#3)
    (hi : (Shape.a16w op (fieldRd w) (fieldRs w) w1).toInstr = (Shape.a16w op (fieldRd v) (fieldRs v) w1).toInstr) :
    decode w w1 = decode v w1 := by
  obtain ⟨hop0, hop1, hopn⟩ := hform
  exact decode_eq_of_toInstr w1 (decodeShape_a16w w1 ho h4 hn)
    (decodeShape_a16w w1 (hop0 ▸ ho) (hop1.trans h4) (hopn.trans hn)) hi

end Alike

section Unused

variable {w : Word} (w1 : Word)

/-- The IM16 and `[A16]` forms of NEG and LOAD do not use Rs (`41_alu.md` rules R135, R144). -/
theorem decode_clear_rs_of_read {op : AluOp} (ho : AluOp.ofBits (fieldOp0 w) = some op)
    (hop : op = .neg ∨ op = .load)
    (h : fieldOp1 w = 4#3 ∧ fieldOpn w = 1#3 ∨ fieldOp1 w = 4#3 ∧ fieldOpn w = 2#3) :
    decode w w1 = decode (w &&& 0xFFF8#16) w1 := by
  obtain ⟨hform, hrd⟩ := clear_rs w
  have hreg : fieldRd (w &&& 0xFFF8#16) = fieldRd w := congrArg Reg.ofBits hrd
  obtain ⟨h4, hn⟩ | ⟨h4, hn⟩ := h
  · refine decode_im16_congr w1 ho hform h4 hn ?_
    rcases hop with rfl | rfl <;> simp only [Shape.toInstr, hreg]
  · refine decode_a16_congr w1 ho hform h4 hn ?_
    rcases hop with rfl | rfl <;> simp only [Shape.toInstr, hreg]

/-- The `[A16]` form with W = 1 of NEG and STORE does not use Rs (`41_alu.md` rule R145). -/
theorem decode_clear_rs_of_write {op : AluOp} (ho : AluOp.ofBits (fieldOp0 w) = some op)
    (hop : op = .neg ∨ op = .store) (h4 : fieldOp1 w = 4#3) (hn : fieldOpn w = 3#3) :
    decode w w1 = decode (w &&& 0xFFF8#16) w1 := by
  obtain ⟨hform, hrd⟩ := clear_rs w
  have hreg : fieldRd (w &&& 0xFFF8#16) = fieldRd w := congrArg Reg.ofBits hrd
  refine decode_a16w_congr w1 ho hform h4 hn ?_
  rcases hop with rfl | rfl <;> simp only [Shape.toInstr, hreg]

/-- The IM16 and `[A16]` forms of CMP and TEST do not use Rd (`41_alu.md` rules R135, R144). -/
theorem decode_clear_rd {op : AluOp} (ho : AluOp.ofBits (fieldOp0 w) = some op) (hop : op = .cmp ∨ op = .test)
    (h : fieldOp1 w = 4#3 ∧ fieldOpn w = 1#3 ∨ fieldOp1 w = 4#3 ∧ fieldOpn w = 2#3) :
    decode w w1 = decode (w &&& 0xF1FF#16) w1 := by
  obtain ⟨hform, -, hrs⟩ := clear_rd w
  have hreg : fieldRs (w &&& 0xF1FF#16) = fieldRs w := congrArg Reg.ofBits hrs
  obtain ⟨h4, hn⟩ | ⟨h4, hn⟩ := h
  · refine decode_im16_congr w1 ho hform h4 hn ?_
    rcases hop with rfl | rfl <;> simp only [Shape.toInstr, hreg]
  · refine decode_a16_congr w1 ho hform h4 hn ?_
    rcases hop with rfl | rfl <;> simp only [Shape.toInstr, hreg]

end Unused

theorem aluOp_of_op0At {w : Word} (op : AluOp) (h : op0At w = op.bits.toNat) :
    AluOp.ofBits (fieldOp0 w) = some op := by
  rw [fieldOp0_of_op0At h, AluOp.ofBits_bits]

end Sys2Proof
end

section
/-! ## Reserved words (`30_encoding.md` rule R97): the numbers of a word, the operand checks and the decoder's
branches -/

namespace Sys2Proof

open Machine

/-! #### A register or a field by its number -/

theorem Reg.num_ofBits (b : BitVec 3) : (Reg.ofBits b).num = b.toNat := by
  revert b
  decide

theorem Reg.eq_iff_num (r q : Reg) : r = q ↔ r.num = q.num := by
  constructor
  · exact congrArg _
  · cases r <;> cases q <;> decide

section Numbers

variable (w : Word)

@[simp] theorem num_fieldRd : (fieldRd w).num = rdAt w := by rw [fieldRd_eq, Reg.num_ofBits, rdAt, bitsAt_eq]; rfl
@[simp] theorem num_fieldRs : (fieldRs w).num = rsAt w := by rw [fieldRs_eq, Reg.num_ofBits, rsAt, bitsAt_eq]; rfl

theorem fieldRd_eq_iff (r : Reg) : fieldRd w = r ↔ rdAt w = r.num := by rw [Reg.eq_iff_num, num_fieldRd]
theorem fieldOp0_eq_iff (b : BitVec 4) : fieldOp0 w = b ↔ op0At w = b.toNat := by rw [op0At_eq, BitVec.toNat_inj]
theorem fieldOp1_eq_iff (b : BitVec 3) : fieldOp1 w = b ↔ op1At w = b.toNat := by rw [op1At_eq, BitVec.toNat_inj]
theorem fieldOpn_eq_iff (b : BitVec 3) : fieldOpn w = b ↔ opnAt w = b.toNat := by rw [opnAt_eq, BitVec.toNat_inj]

/-! The parts of opn and rs that the classes name. -/

theorem bitsAt_three_one : bitsAt w 3 1 = opnAt w % 2 := by simp only [opnAt, bitsAt]; omega
theorem bitsAt_four_two : bitsAt w 4 2 = opnAt w / 2 := by simp only [opnAt, bitsAt]; omega
theorem bitsAt_five_one : bitsAt w 5 1 = opnAt w / 4 := by simp only [opnAt, bitsAt]; omega
theorem bitsAt_one_two : bitsAt w 1 2 = rsAt w / 2 := by simp only [rsAt, bitsAt]; omega

theorem fields_lt : op0At w < 16 ∧ rdAt w < 8 ∧ op1At w < 8 ∧ opnAt w < 8 ∧ rsAt w < 8 := by
  simp only [op0At, rdAt, op1At, opnAt, rsAt, bitsAt]; omega

theorem getLsbD_eq_false_iff (i : Nat) : w.getLsbD i = false ↔ bitsAt w i 1 = 0 := by
  rw [← BitVec.testBit_toNat, Nat.testBit_eq_decide_div_mod_eq, decide_eq_false_iff_not, bitsAt]
  omega

theorem getLsbD_eq_true_iff (i : Nat) : w.getLsbD i = true ↔ bitsAt w i 1 = 1 := by
  rw [← BitVec.testBit_toNat, Nat.testBit_eq_decide_div_mod_eq, decide_eq_true_eq, bitsAt, pow_one]

theorem fieldMark_eq_keep : fieldMark w = .keep ↔ bitsAt w 3 2 = 0 := by
  have hall : ∀ b : BitVec 2, PtrMark.ofBits b = .keep ↔ b.toNat = 0 := by decide
  rw [bitsAt_eq]
  exact hall _

theorem longShift_number (b : BitVec 3) (k : LongShift) : LongShift.ofBits b = k ↔ b.toNat = k.bits.toNat := by
  revert b
  cases k <;> decide

theorem fieldLongShift_eq_iff (k : LongShift) : fieldLongShift w = k ↔ bitsAt w 4 3 = k.bits.toNat := by
  rw [bitsAt_eq]
  exact longShift_number _ k

end Numbers

/-! #### When the operand checks refuse -/

section Checks

variable (rd rs : Reg)

@[simp] theorem isSome_reservedIf (b : Bool) (why : Reserved) : (reservedIf b why).isSome = b := by cases b <;> rfl

@[simp] theorem isSome_checkDest : (checkDest rd).isSome = true ↔ rd.num = 7 := by
  simp [checkDest, Reg.eq_iff_num, Reg.num]

@[simp] theorem isSome_checkInd (d : Bool) (mark : PtrMark) :
    (checkInd rd d mark rs).isSome = true ↔
      mark ≠ .keep ∧ (rd.num = rs.num ∨ rs.num = 6 ∨ rs.num = 7 ∨ (rd.num = 6 ∧ d = true)) := by
  simp [checkInd, Reg.eq_iff_num, Reg.num, or_assoc]

@[simp] theorem isSome_checkPush (n : BitVec 3) :
    (checkPush rd n rs).isSome = true ↔
      n.toNat = 0 ∨ rd.num + 1 < n.toNat ∨ (rd.num + 1 ≤ rs.num + n.toNat ∧ rs.num ≤ rd.num) := by
  unfold checkPush
  split_ifs <;> simp <;> omega

@[simp] theorem isSome_checkPop (n : BitVec 3) :
    (checkPop rd n rs).isSome = true ↔
      n.toNat = 0 ∨ 7 < rd.num + n.toNat ∨ (rd.num + 1 ≤ rs.num ∧ rs.num ≤ rd.num + n.toNat) := by
  unfold checkPop
  split_ifs <;> simp <;> omega

@[simp] theorem isSome_checkShift16 (k : LongShift) :
    (checkShift16 k rd).isSome = true ↔
      rd.num = 7 ∨ ((k = .asror ∨ k = .lsror) ∧ rd.num ≠ 4) ∨ (k = .lslor ∧ rd.num ≠ 3) := by
  cases k <;> cases rd <;> decide

@[simp] theorem isSome_checkMul : (checkMul rd rs).isSome = true ↔ rd.num = 7 ∨ rs.num = 7 := by
  simp [checkMul, Reg.eq_iff_num, Reg.num]

@[simp] theorem isSome_checkMuls :
    (checkMuls rd rs).isSome = true ↔
      (rd.num = 7 ∨ rs.num = 7) ∨ rd.num = 3 ∨ rd.num = 4 ∨ rs.num = 3 ∨ rs.num = 4 := by
  cases rd <;> cases rs <;> decide

end Checks

/-! #### What is rejected after the form is read -/

/-- The matrix does not list the form's operation, or its operands fail the check. -/
def Shape.rejected (sh : Shape) : Bool := sh.unlisted || sh.check.isSome

/-- The decoder answers an error: no form is read, or one that is rejected. -/
def rejects : Except Reserved Shape → Bool
  | .error _ => true
  | .ok sh => sh.rejected

@[simp] theorem rejects_error (why : Reserved) : rejects (.error why) = true := rfl
@[simp] theorem rejects_ok (sh : Shape) : rejects (.ok sh) = (sh.unlisted || sh.check.isSome) := rfl

theorem decode_error_iff (w0 w1 : Word) :
    (∃ why, decode w0 w1 = .error why) ↔ rejects (decodeShape w0 w1) = true := by
  unfold decode
  cases decodeShape w0 w1 with
  | error why => simp [rejects]
  | ok sh =>
    simp only [rejects, Shape.rejected, ← Shape.toInstr_isNone]
    cases hi : sh.toInstr with
    | none => simp
    | some i =>
      simp only [check_of_toInstr hi]
      cases sh.check <;> simp

end Sys2Proof
end

section
/-! ## The decoder rejects the reserved words (`30_encoding.md` rules R97, R98), group by group -/

namespace Sys2Proof

open Machine

/-! #### The fields a branch of the decoder asks for, as numbers -/

section Asked

variable (w : Word)

theorem rd_eq_pc_iff : fieldRd w = .pc ↔ rdAt w = 7 := fieldRd_eq_iff w .pc

theorem inBranchPattern_iff : InBranchPattern w ↔ rdAt w = 7 ∧ op1At w < 2 := by
  simp only [InBranchPattern, rd_eq_pc_iff, fieldOp1_eq_iff, BitVec.toNat_ofNat, Nat.reducePow, Nat.reduceMod]
  omega

end Asked

section Groups

variable {w0 : Word} (w1 : Word)

/-! #### The 1110 group (rule R90) -/

theorem reservedWord_of_op0_eq_14 (h14 : op0At w0 = 14) :
    reservedWord w0 = (reserved1110 w0 || reservedPc w0 || refusedShift w0 || refusedMuls w0) := by
  simp [reservedWord, reservedAlu, inAluGroup, reservedStack, reserved1111, refusedIndirect, refusedStack, h14]

theorem rejects_decode1110 (h14 : op0At w0 = 14) (hb : ¬InBranchPattern w0) :
    rejects (decode1110 w0) = true ↔ reservedWord w0 = true := by
  rw [inBranchPattern_iff] at hb
  rw [reservedWord_of_op0_eq_14 h14]
  simp only [decode1110, rd_eq_pc_iff, fieldOp1_eq_iff, fieldOpn_eq_iff, BitVec.toNat_ofNat, Nat.reducePow,
    Nat.reduceMod, getLsbD_eq_false_iff, reserved1110, reservedPc, refusedShift, refusedMuls, isMulWord, isMulsWord,
    h14, bitsAt_three_one, bitsAt_four_two]
  split_ifs with hpc h0 heven h1 hop1 hop1 hop1 heven
  case pos =>
    have h2 : 2 ≤ op1At w0 := by omega
    simp [hpc, h2]
  case pos =>
    have hodd : opnAt w0 ≠ 1 := by omega
    simp [Shape.unlisted, Shape.check, hpc, h0, heven, hodd]
  case pos => simp [Shape.unlisted, Shape.check, hpc, h0, h1]
  case neg =>
    have hopn : opnAt w0 % 2 = 1 ∧ 1 < opnAt w0 := by omega
    simp [hpc, h0, hopn]
  case pos => simp [Shape.unlisted, Shape.check, hpc, hop1]
  case pos =>
    rcases hop1 with hop1 | hop1 <;> simp [Shape.unlisted, Shape.check, hpc, hop1, or_assoc]
  case pos =>
    rcases hop1 with hop1 | hop1 <;> simp [Shape.unlisted, Shape.check, hpc, hop1, heven]
  case neg =>
    have hodd : opnAt w0 % 2 = 1 := by omega
    rcases hop1 with hop1 | hop1 <;>
      simp [Shape.unlisted, Shape.check, fieldLongShift_eq_iff, LongShift.bits, hpc, hop1, hodd]
  case neg =>
    have h67 : op1At w0 ≠ 0 ∧ op1At w0 ≠ 2 ∧ op1At w0 ≠ 3 ∧ op1At w0 ≠ 4 ∧ op1At w0 ≠ 5 := by omega
    simp [Shape.unlisted, Shape.check, hpc, h67]

/-! #### The 1111 group (rules R91, R92) -/

theorem reservedWord_of_op0_eq_15 (h15 : op0At w0 = 15) :
    reservedWord w0 = (reserved1111 w0 || reservedPc w0 || refusedMuls w0) := by
  simp [reservedWord, reservedAlu, inAluGroup, reservedStack, reserved1110, refusedIndirect, refusedStack,
    refusedShift, h15]

theorem rejects_decodeControl :
    rejects (decodeControl w0) = true ↔ bitsAt w0 4 2 = 1 ∨ bitsAt w0 5 1 = 1 ∧ bitsAt w0 1 2 = 3 := by
  have hrs (b : BitVec 3) : w0.extractLsb' 0 3 = b ↔ rsAt w0 = b.toNat := by
    rw [← BitVec.toNat_inj, ← bitsAt_eq, rsAt]
  have h4 : bitsAt w0 4 1 = opnAt w0 / 2 % 2 := by simp only [opnAt, bitsAt]; omega
  obtain ⟨-, -, -, hn, hs⟩ := fields_lt w0
  simp only [decodeControl, getLsbD_eq_false_iff, hrs, bitsAt_four_two, bitsAt_five_one, bitsAt_one_two, h4,
    BitVec.toNat_ofNat, Nat.reducePow, Nat.reduceMod]
  split_ifs <;> simp [Shape.unlisted, Shape.check] <;> omega

theorem rejects_decode1111 (h15 : op0At w0 = 15) :
    rejects (decode1111 w0 w1) = true ↔ reservedWord w0 = true := by
  rw [reservedWord_of_op0_eq_15 h15]
  obtain ⟨-, -, hlt, hn, -⟩ := fields_lt w0
  by_cases h5 : fieldOp1 w0 = 5#3
  · have hc : decode1111 w0 w1 = decodeControl w0 := by simp [decode1111, h5]
    rw [hc, rejects_decodeControl]
    rw [fieldOp1_eq_iff] at h5
    simp [reserved1111, reservedPc, refusedMuls, isMulWord, isMulsWord, h15, h5]
  simp only [decode1111, h5, if_false]
  simp only [rd_eq_pc_iff, fieldOp1_eq_iff, fieldOpn_eq_iff, BitVec.toNat_ofNat, Nat.reducePow, Nat.reduceMod, ne_eq,
    reserved1111, reservedPc, refusedMuls, isMulWord, isMulsWord, h15] at h5 ⊢
  split_ifs with h0 hpc h1 hopn hopn hopn hopn h1 h2 hpc h3 hpc h4 hmul hpc
  case pos | pos | pos | pos | pos | pos => simp [Shape.unlisted, Shape.check, *]
  case neg =>
    have hres : (opnAt w0 = 0 ∨ opnAt w0 = 2) ∨ opnAt w0 = 3 := by omega
    simp [hpc, h0, hres]
  case pos | pos => simp [Shape.unlisted, Shape.check, *]
  case neg => simp [Shape.unlisted, Shape.check, h2, hpc, or_assoc]
  case pos => simp [Shape.unlisted, Shape.check, *]
  case neg => simp [Shape.unlisted, Shape.check, h3, hpc, or_assoc]
  case pos => simp [Shape.unlisted, Shape.check, h4, hmul]
  case neg =>
    have hres : ¬opnAt w0 = 1 ∨ rdAt w0 = 7 := by omega
    simp [h4, hres]
  case pos =>
    have h67 : 6 ≤ op1At w0 := by omega
    simp [hpc, h67]
  case neg =>
    have h67 : 6 ≤ op1At w0 := by omega
    simp [Shape.unlisted, Shape.check, *, or_assoc]

/-! #### The ALU group (rules R79, R80) -/

theorem inAluGroup_iff : inAluGroup w0 = true ↔ op0At w0 < 14 ∧ ¬InBranchPattern w0 := by
  rw [inBranchPattern_iff]
  simp [inAluGroup, imp_iff_not_or]

theorem reservedWord_of_inAluGroup (h : inAluGroup w0 = true) :
    reservedWord w0 = (reservedAlu w0 || reservedStack w0 || refusedIndirect w0 || refusedStack w0) := by
  obtain ⟨hlt, -⟩ := inAluGroup_iff.1 h
  have hne : (op0At w0 == 14) = false ∧ (op0At w0 == 15) = false := by
    rw [beq_eq_false_iff_ne, beq_eq_false_iff_ne]
    omega
  simp [reservedWord, reserved1110, reserved1111, reservedPc, isMulWord, isMulsWord, refusedShift, refusedMuls, hne]

/-- A word of the ALU group with op1 = 100 to 110 and none of the forms with opn below 100 has an SFT_OP that names a
shift. -/
theorem exists_shiftKind (hop1 : fieldOp1 w0 ∈ [4#3, 5#3, 6#3])
    (hopn : fieldOp1 w0 = 4#3 → fieldOpn w0 ∉ [0#3, 1#3, 2#3, 3#3]) :
    ∃ k, ShiftKind.ofBits (fieldSft w0) = some k := by
  have hall : ∀ op1 opn : BitVec 3, op1 ∈ [4#3, 5#3, 6#3] → (op1 = 4#3 → opn ∉ [0#3, 1#3, 2#3, 3#3]) →
      (ShiftKind.ofBits (op1.extractLsb' 0 2 ++ opn.extractLsb' 2 1)).isSome = true := by decide
  rw [fieldSft_eq]
  exact Option.isSome_iff_exists.1 (hall _ _ hop1 hopn)

/-- LOAD, STORE and the two numbers that are no operation. -/
theorem op0At_of_aluOp {op : AluOp} (ho : AluOp.ofBits (fieldOp0 w0) = some op) :
    (op = .load ↔ op0At w0 = 9) ∧ (op = .store ↔ op0At w0 = 13) ∧
      op0At w0 < 14 ∧ op0At w0 ≠ 5 ∧ op0At w0 ≠ 7 := by
  rw [op0At_eq, ← AluOp.bits_of_ofBits ho]
  cases op <;> decide

theorem rejects_decodeAlu {op : AluOp} (ho : AluOp.ofBits (fieldOp0 w0) = some op) (hb : ¬InBranchPattern w0)
    (hreti : w0 ≠ 0x9A98#16) : rejects (decodeAlu op w0 w1) = true ↔ reservedWord w0 = true := by
  obtain ⟨hload, hstore, hlisted⟩ := op0At_of_aluOp ho
  have halu := inAluGroup_iff.2 ⟨hlisted.1, hb⟩
  obtain ⟨-, -, hlt, hnlt, -⟩ := fields_lt w0
  rw [reservedWord_of_inAluGroup halu]
  rw [inBranchPattern_iff] at hb
  simp only [decodeAlu, fieldOp1_eq_iff, fieldOpn_eq_iff, BitVec.toNat_ofNat, Nat.reducePow, Nat.reduceMod,
    reservedAlu, reservedStack, refusedIndirect, refusedStack, halu]
  split_ifs with h0 h1 h2 h3 h7 hn hn1 hn2 hn3
  case pos =>
    have hrd : rdAt w0 ≠ 7 := by omega
    simp [Shape.unlisted, Shape.check, h0, hrd, hlisted]
  case pos =>
    have hrd : rdAt w0 ≠ 7 := by omega
    simp [Shape.unlisted, Shape.check, h1, hrd, hlisted, hstore]
  case pos =>
    by_cases hs : op = .store
    · have h13 := hstore.1 hs
      subst hs
      simp [Shape.unlisted, Shape.check, h2, h13, ← opnAt_eq, or_assoc]
    by_cases hl : op = .load
    · have h9 := hload.1 hl
      subst hl
      simp [Shape.unlisted, Shape.check, h2, h9, hreti, ← opnAt_eq, or_assoc]
    have h13 := mt hstore.2 hs
    have h9 := mt hload.2 hl
    cases op
    case store => exact absurd rfl hs
    case load => exact absurd rfl hl
    all_goals simp [h2, h13, h9]
  case pos =>
    have hd : w0[5] = true ↔ bitsAt w0 5 1 = 1 := getLsbD_eq_true_iff w0 5
    simp [Shape.unlisted, Shape.check, h3, hlisted, fieldMark_eq_keep, hd, or_assoc]
  case pos => simp [Shape.unlisted, Shape.check, h7, hlisted]
  case pos => simp [Shape.unlisted, Shape.check, hn, hlisted, hstore]
  case pos => simp [Shape.unlisted, Shape.check, hn1, hlisted, hstore]
  case pos => simp [Shape.unlisted, Shape.check, hn2, hlisted, hstore]
  case pos => simp [Shape.unlisted, Shape.check, hn3, hlisted, hload]
  case neg =>
    have hshift : op1At w0 = 4 ∧ opnAt w0 ≠ 3 ∨ op1At w0 = 5 ∨ op1At w0 = 6 := by omega
    obtain ⟨k, hk⟩ : ∃ k, ShiftKind.ofBits (fieldSft w0) = some k := by
      apply exists_shiftKind <;> simp [fieldOp1_eq_iff, fieldOpn_eq_iff] <;> omega
    rcases hshift with ⟨h4, hne⟩ | h5 | h6 <;> simp [Shape.unlisted, Shape.check, *]

/-! #### Every word -/

theorem op0At_of_not_aluOp (h : AluOp.ofBits (fieldOp0 w0) = none) (hlt : op0At w0 < 14) :
    op0At w0 = 5 ∨ op0At w0 = 7 := by
  have hall : ∀ b : BitVec 4, AluOp.ofBits b = none → b.toNat < 14 → b.toNat = 5 ∨ b.toNat = 7 := by decide
  rw [op0At_eq] at hlt ⊢
  exact hall _ h hlt

theorem exists_cond (h : fieldOp0 w0 ≠ 15#4) : ∃ c, Cond.ofBits (fieldOp0 w0) = some c := by
  have hall : ∀ b : BitVec 4, b ≠ 15#4 → (Cond.ofBits b).isSome = true := by decide
  exact Option.isSome_iff_exists.1 (hall _ h)

theorem reservedWord_of_inBranchPattern (hb : InBranchPattern w0) :
    reservedWord w0 = false := by
  rw [inBranchPattern_iff] at hb
  obtain ⟨hrd, hlt⟩ := hb
  have hop1 : op1At w0 = 0 ∨ op1At w0 = 1 := by omega
  rcases hop1 with hop1 | hop1 <;>
    simp [reservedWord, reservedAlu, inAluGroup, reservedStack, reserved1110, reserved1111, reservedPc, isMulWord,
      isMulsWord, refusedIndirect, refusedStack, refusedShift, refusedMuls, hrd, hop1]

theorem rejects_decodeShape (w0 w1 : Word) :
    rejects (decodeShape w0 w1) = true ↔ reservedWord w0 = true := by
  simp only [decodeShape]
  split_ifs with hbranch h15 h14 hretf hreti
  case pos =>
    obtain ⟨h15, hb⟩ := hbranch
    obtain ⟨c, hc⟩ := exists_cond h15
    simp [hc, reservedWord_of_inBranchPattern hb, Shape.unlisted, Shape.check]
  case pos => exact rejects_decode1111 w1 ((fieldOp0_eq_iff w0 _).1 h15)
  case pos => exact rejects_decode1110 ((fieldOp0_eq_iff w0 _).1 h14) fun hb => hbranch ⟨h15, hb⟩
  case pos | pos =>
    subst w0
    decide
  case neg =>
    have hb : ¬InBranchPattern w0 := fun hb => hbranch ⟨h15, hb⟩
    have hlt : op0At w0 < 14 := by
      obtain ⟨h16, -⟩ := fields_lt w0
      have hne15 : op0At w0 ≠ 15 := fun h => h15 ((fieldOp0_eq_iff w0 _).2 h)
      have hne14 : op0At w0 ≠ 14 := fun h => h14 ((fieldOp0_eq_iff w0 _).2 h)
      omega
    split
    · rename_i op ho
      exact rejects_decodeAlu w1 ho hb hreti
    · rename_i ho
      rcases op0At_of_not_aluOp ho hlt with h5 | h7 <;>
        simp [reservedWord, reservedAlu, inAluGroup_iff.2 ⟨hlt, hb⟩, *]

end Groups

end Sys2Proof
end

section
/-! ## Refusals: they come from the operand checks alone -/

namespace Sys2Proof.Machine

/-- The outcome is no refusal. -/
def NotRefused {α : Type} (r : Res α) : Prop := ∀ q, r ≠ .refused q

namespace NotRefused

variable {α β : Type} {r : Res α} {k : α → Res β}

/-! #### Sequencing -/

theorem next (a : α) : NotRefused (.next a : Res α) := nofun

theorem andThen (h : NotRefused r) (hk : ∀ a, NotRefused (k a)) : NotRefused (andThen r k) := by
  intro q hq
  obtain hr | ⟨a, -, hka⟩ := (andThen_refused r k q).1 hq
  · exact h q hr
  · exact hk a q hka

/-- Under a check, such an outcome is refused exactly for the check's reason. -/
theorem guarded_refused_iff (c : Option Reserved) (h : NotRefused r) (q : Refusal) :
    guarded c r = .refused q ↔ ∃ why, c = some why ∧ q = .reserved why := by
  rw [guarded_refused]
  exact or_iff_left fun hr => h q hr.2

/-- A form that no check restricts. -/
theorem unchecked_iff (h : NotRefused r) (q : Refusal) :
    r = .refused q ↔ ∃ why, (none : Option Reserved) = some why ∧ q = .reserved why :=
  guarded_refused_iff none h q

/-! #### Memory and the stack -/

theorem memRead (a : Addr) (s : State) : NotRefused (memRead a s) := memRead_refused a s

theorem memWrite (a : Addr) (v : Word) (s : State) : NotRefused (memWrite a v s) := memWrite_refused a v s

theorem pushAt (ptr : Reg) (v : Word) (s : State) : NotRefused (pushAt ptr v s) :=
  (memWrite _ v s).andThen fun _ => next _

theorem popAt (ptr : Reg) (s : State) : NotRefused (popAt ptr s) := (memRead _ _).andThen fun _ => next _

theorem pushEach (ptr : Reg) (rs : List Reg) (s : State) : NotRefused (pushEach ptr rs s) := by
  induction rs generalizing s with
  | nil => exact next s
  | cons r rs ih => exact (pushAt ptr _ s).andThen ih

theorem popEach (ptr : Reg) (rs : List Reg) (s : State) : NotRefused (popEach ptr rs s) := by
  induction rs generalizing s with
  | nil => exact next s
  | cons r rs ih => exact (popAt ptr s).andThen fun _ => ih _

theorem pushFrame (s : State) : NotRefused (pushFrame s) := (pushAt .sp s.pc s).andThen fun _ => pushAt .sp _ _

theorem popFrame (s : State) : NotRefused (popFrame s) :=
  (popAt .sp s).andThen fun _ => (popAt .sp _).andThen fun _ => next _

theorem callTo (target : Addr) (s : State) : NotRefused (callTo target s) := (pushFrame s).andThen fun _ => next _

/-! #### Interrupt entry and return -/

theorem pushNestFr (src : IntSource) (s : State) : NotRefused (pushNestFr src s) := by
  cases src with
  | brk | fiq => exact next s
  | irq n =>
    simp only [Machine.pushNestFr]
    split
    · exact (pushAt .sp s.frWord s).andThen fun _ => next _
    · exact next s

theorem enterInterrupt (src : IntSource) (s : State) : NotRefused (enterInterrupt src s) :=
  (pushFrame s).andThen fun _ => (pushNestFr src _).andThen fun _ => (memRead _ _).andThen fun _ => next _

theorem returnInterrupt (s : State) : NotRefused (returnInterrupt s) := by
  refine NotRefused.andThen ?_ fun t => (popFrame t).andThen fun _ => next _
  split
  · exact (popAt .sp s).andThen fun _ => next _
  · exact next s

/-! #### Operand forms, without their checks -/

theorem aluFrom (op : AluOp) (rd : Reg) (x : Word) (addr : Addr) (s : State) :
    NotRefused (aluFrom op rd x addr s) := (memRead addr s).andThen fun _ => next _

theorem aluA16w (op : AluOp) (rd : Reg) (y addr : Word) (s : State) : NotRefused (aluA16w op rd y addr s) := by
  simp only [Machine.aluA16w]
  split
  · exact (memWrite _ _ s).andThen fun _ => next _
  · exact next _

theorem readLevels (xd xs : Word) (s : State) (l : List Nat) : NotRefused (readLevels xd xs s l) := by
  induction l with
  | nil => exact next []
  | cons i is ih => exact (memRead _ s).andThen fun _ => (memRead _ s).andThen fun _ => ih.andThen fun _ => next _

theorem writeEach (ws : List (Word × Word)) (s : State) : NotRefused (writeEach ws s) := by
  induction ws generalizing s with
  | nil => exact next s
  | cons w ws ih => exact (memWrite _ w.2 s).andThen ih

theorem firMove (xd : Word) (samples : List Word) (s : State) : NotRefused (firMove xd samples s) := by
  unfold Machine.firMove
  split
  · exact next s
  · exact writeEach _ s

/-! #### Every form -/

section Forms

variable (s : State) (q : Refusal)

theorem aluInd_refused (op : AluOp) (rd : Reg) (d : Bool) (mark : PtrMark) (rs : Reg) :
    aluInd op rd d mark rs s = .refused q ↔ ∃ why, checkInd rd d mark rs = some why ∧ q = .reserved why :=
  guarded_refused_iff _ ((aluFrom op rd _ _ _).andThen fun _ => next _) q

theorem storeInd_refused (rd : Reg) (d : Bool) (mark : PtrMark) (rs : Reg) :
    storeInd rd d mark rs s = .refused q ↔ ∃ why, checkInd rd d mark rs = some why ∧ q = .reserved why :=
  guarded_refused_iff _ ((memWrite _ _ _).andThen fun _ => next _) q

theorem bitMem_refused (b : BitOp) (d : Bool) (rd : Reg) (k : BitVec 4) :
    bitMem b d rd k s = .refused q ↔ ∃ why, checkDest rd = some why ∧ q = .reserved why := by
  refine guarded_refused_iff _ ((memRead _ s).andThen fun old => ?_) q
  cases b
  case tstb => exact next _
  case setb | clrb | invb => exact (memWrite _ _ s).andThen fun _ => next _

theorem shift16_refused (k : LongShift) (rd rs : Reg) :
    execShape (.shift16 k rd rs) s = .refused q ↔ ∃ why, checkShift16 k rd = some why ∧ q = .reserved why := by
  cases k <;> exact guarded_refused_iff _ (next _) q

theorem innerProduct_refused (k : MulKind) (rd : Reg) (n : BitVec 4) (rs : Reg) :
    innerProduct k rd n rs s = .refused q ↔ ∃ why, checkMuls rd rs = some why ∧ q = .reserved why :=
  guarded_refused_iff _ ((readLevels _ _ s _).andThen fun _ => (firMove _ _ s).andThen fun _ => next _) q

theorem execShape_refused (sh : Shape) :
    execShape sh s = .refused q ↔ ∃ why, sh.check = some why ∧ q = .reserved why := by
  cases sh
  case retf => exact unchecked_iff (popFrame s) q
  case reti => exact unchecked_iff (returnInterrupt s) q
  case brk => exact unchecked_iff (enterInterrupt .brk s) q
  case call | callMr => exact unchecked_iff (callTo _ s) q
  case push rd n rs => exact guarded_refused_iff _ (pushEach rs _ s) q
  case pop rd n rs => exact guarded_refused_iff _ (popEach rs _ s) q
  case bpIm6 op rd imm =>
    simp only [execShape]
    split
    · exact guarded_refused_iff _ (memWrite _ _ s) q
    · exact guarded_refused_iff _ (aluFrom op rd _ _ s) q
  case ind op rd d mark rs =>
    simp only [execShape]
    split
    · exact storeInd_refused s q rd d mark rs
    · exact aluInd_refused s q op rd d mark rs
  case a6 op rd addr =>
    simp only [execShape]
    split
    · exact unchecked_iff (memWrite _ _ s) q
    · exact unchecked_iff (aluFrom op rd _ _ s) q
  case a16 op rd rs addr => exact unchecked_iff (aluFrom op rd _ _ s) q
  case a16w op rd rs addr =>
    simp only [execShape]
    split
    · exact unchecked_iff (memWrite _ _ s) q
    · exact unchecked_iff (aluA16w op rd _ addr s) q
  case bitMr | bitMo => exact bitMem_refused s q _ _ _ _
  case shift16 k rd rs => exact shift16_refused s q k rd rs
  case muls k rd n rs => exact innerProduct_refused s q k rd n rs
  case im6 | mul | bitRr | bitRo => exact guarded_refused_iff _ (next _) q
  case branch | reg | im16 | shifted | dsIm6 | movRsDs | movDsRs | movRsFr | movFrRs | goto | gotoMr | mode | divs
      | divq | exp | nop => exact unchecked_iff (next _) q

end Forms

end NotRefused

end Sys2Proof.Machine
end

section
/-! ## Fetching a reserved word (`30_encoding.md` rule R98) -/

namespace Sys2Proof.Machine

/-- A reserved word starts no two-word instruction, so that nothing after it is fetched. -/
theorem isTwoWord_of_reservedWord {w0 : Word} (h : reservedWord w0 = true) : isTwoWord w0 = false := by
  rw [Bool.eq_false_iff]
  intro h2
  obtain ⟨i, hi⟩ := decode_of_isTwoWord 0#16 h2
  obtain ⟨why, hwhy⟩ := (decode_error_iff w0 0#16).2 ((rejects_decodeShape w0 0#16).2 h)
  rw [hi] at hwhy
  cases hwhy

theorem fetch_of_reservedWord {s : State} (h0 : readable s s.lpc) (h : reservedWord (wordAt s s.lpc) = true) :
    ∃ why, fetch s = .refused (.reserved why) := by
  obtain ⟨why, hwhy⟩ := (decode_error_iff _ 0#16).2 ((rejects_decodeShape _ 0#16).2 h)
  have hfirst : fetchWord s = .next (wordAt s s.lpc, s.setLpc (s.lpc + 1#22)) :=
    (fetchWord_next s _ _).2 ⟨h0, rfl, rfl⟩
  refine ⟨why, ?_⟩
  simp [fetch, hfirst, fetchSecond, isTwoWord_of_reservedWord h, hwhy]

end Sys2Proof.Machine
end

section
/-! ## The statements of `30_encoding.md` settled -/

namespace Sys2Proof.Settled

open Sys2Proof.Machine

/-- Settles O1: each form's words have the fields its decoder's branch asks for and reads, and no other branch of the
decoder takes them. -/
theorem decodeOfEncodeIsIdentity : Obligations.DecodeOfEncodeIsIdentity := by
  intro i rest h
  have hsecond : ∃ w, (i.shape.word1.toList ++ rest).headD 0#16 = i.shape.word1.getD w :=
    ⟨rest.headD 0#16, by cases i.shape.word1 <;> rfl⟩
  obtain ⟨w, hw⟩ := hsecond
  rw [encode, List.cons_append, decodeWords_cons, hw]
  exact decode_word0 h w

/-- Settles O2: the operands have passed the check, the one POP that is not well formed has RETF's word, and the first
word announces the length. -/
theorem decodedInstructionIsWellFormed : Obligations.DecodedInstructionIsWellFormed := by
  intro w0 w1 i h
  exact ⟨wellFormed_of_decode h, (isTwoWord_of_decode h).symm, fun hn => decode_of_one_word h hn⟩

/-- Settles O3: each pattern fixes fields of the word, and these are the fields that `isTwoWord` and the decoder ask
for. -/
theorem twoWordPatterns : Obligations.TwoWordPatterns := by
  intro w0 w1 op0 arith im16 a16 a16w goto call
  have him16 : im16 ↔ (fieldOp1 w0 = 4#3 ∧ fieldOpn w0 = 1#3) ∧ op0At w0 ∈ readsSecondWord :=
    and_congr_left' (opn_pattern_iff w0 1#3)
  have ha16 : a16 ↔ (fieldOp1 w0 = 4#3 ∧ fieldOpn w0 = 2#3) ∧ op0At w0 ∈ readsSecondWord :=
    and_congr_left' (opn_pattern_iff w0 2#3)
  have ha16w : a16w ↔ (fieldOp1 w0 = 4#3 ∧ fieldOpn w0 = 3#3) ∧ op0At w0 ∈ writesSecondWord :=
    and_congr_left' (opn_pattern_iff w0 3#3)
  have hgoto : goto ↔ fieldOp0 w0 = 15#4 ∧ fieldRdBits w0 = 7#3 ∧ fieldOp1 w0 = 2#3 := goto_pattern_iff w0 2#3
  have hcall : call ↔ fieldOp0 w0 = 15#4 ∧ fieldOp1 w0 = 1#3 := op1_pattern_iff w0 1#3
  rw [him16, ha16, ha16w, hgoto, hcall]
  refine ⟨isTwoWord_iff w0, fun ⟨h15, hrd, h2⟩ => decode_goto w1 h15 hrd h2,
    fun ⟨h15, h1⟩ => decode_call w1 h15 h1, ?_⟩
  rintro (⟨⟨h4, hn⟩, hm⟩ | ⟨⟨h4, hn⟩, hm⟩ | ⟨⟨h4, hn⟩, hm⟩)
  · exact decode_secondWord w1 h4 (.inl ⟨.inl hn, hm⟩)
  · exact decode_secondWord w1 h4 (.inl ⟨.inr hn, hm⟩)
  · exact decode_secondWord w1 h4 (.inr ⟨hn, hm⟩)

/-- Settles O5: each clause's pattern leads the decoder to a branch that reads none of the bits cleared, or to a form
whose instruction drops the register field. -/
theorem ignoredBitsDecodeAlike : Obligations.IgnoredBitsDecodeAlike := by
  intro w0 w1 form op0
  have hreads : form = 0x0108#16 ∨ form = 0x0110#16 →
      fieldOp1 w0 = 4#3 ∧ fieldOpn w0 = 1#3 ∨ fieldOp1 w0 = 4#3 ∧ fieldOpn w0 = 2#3 :=
    Or.imp (opn_pattern_iff w0 1#3).1 (opn_pattern_iff w0 2#3).1
  obtain ⟨⟨hop0, hop1, hopn⟩, hrd, hrs⟩ := clear_rd w0
  refine ⟨?_, ?_, ?_, ?_, ?_, ?_, ?_⟩
  · rintro (h | h)
    · obtain ⟨h15, h1⟩ := (op1_pattern_iff w0 1#3).1 h
      rw [decode_call w1 h15 h1, decode_call w1 (hop0.trans h15) (hop1.trans h1), fieldImm6_congr hopn hrs]
    · obtain ⟨h15, h5⟩ := (op1_pattern_iff w0 5#3).1 h
      refine decode_congr w1 ?_
      rw [decode_control w1 h15 h5, decode_control w1 (hop0.trans h15) (hop1.trans h5), decodeControl_congr hopn hrs]
  · intro h
    obtain ⟨h15, h5, hbit⟩ := (control_pattern_iff w0 5#3 4#3).1 h
    obtain ⟨hop0, hop1, hopn, hrs⟩ := clear_rd_opn w0
    refine decode_congr w1 ?_
    rw [decode_control w1 h15 h5, decode_control w1 (hop0.trans h15) (hop1.trans h5),
      decodeControl_congr_of_bit5 (hopn.trans hbit) hbit hrs]
  · intro h hne
    obtain ⟨h15, h0, hbit⟩ := (control_pattern_iff w0 0#3 4#3).1 h
    have hrd0 : fieldRdBits (w0 &&& 0xF1FF#16) ≠ 7#3 := by rw [hrd]; decide
    refine decode_congr w1 ?_
    rw [decodeShape_of_op0_eq_15 h15, decodeShape_of_op0_eq_15 (hop0.trans h15),
      decode1111_access_congr w1 ⟨hop0, hop1, hopn⟩ hrs hrd0 (fun h7 => hne ((rd_pattern_iff w0).2 h7)) h0 hbit]
  · intro h
    obtain ⟨h15, h7, h3⟩ := (goto_pattern_iff w0 3#3).1 h
    exact decode_gotoMr w1 h15 h7 h3
  · rintro (h | h) hform
    · exact decode_clear_rs_of_read w1 (aluOp_of_op0At .neg h) (.inl rfl) (hreads hform)
    · exact decode_clear_rs_of_read w1 (aluOp_of_op0At .load h) (.inr rfl) (hreads hform)
  · rintro hop hform
    obtain ⟨h4, hn⟩ := (opn_pattern_iff w0 3#3).1 hform
    obtain h | h := hop
    · exact decode_clear_rs_of_write w1 (aluOp_of_op0At .neg h) (.inl rfl) h4 hn
    · exact decode_clear_rs_of_write w1 (aluOp_of_op0At .store h) (.inr rfl) h4 hn
  · rintro (h | h) hform
    · exact decode_clear_rd w1 (aluOp_of_op0At .cmp h) (.inl rfl) (hreads hform)
    · exact decode_clear_rd w1 (aluOp_of_op0At .test h) (.inr rfl) (hreads hform)

/-- Settles O4: branch by branch, the form the decoder reads is rejected exactly when the classes with that branch's
fields name the word. -/
theorem rejectedWordsAreTheReservedOnes : Obligations.RejectedWordsAreTheReservedOnes := by
  intro w0 w1
  rw [decode_error_iff, rejects_decodeShape]

/-- Settles O16: a meaning is its operand check, if it has one, before operations none of which refuses. -/
theorem refusedExactlyOnRejectedOperands : Obligations.RefusedExactlyOnRejectedOperands := by
  intro i s q
  rw [exec_shape]
  exact NotRefused.execShape_refused s q i.shape

/-- Settles O6: each word is evaluated by the decoder. -/
theorem manualWordsDecode : Obligations.ManualWordsDecode := by
  unfold Obligations.ManualWordsDecode
  refine ⟨?_, ?_, ?_, ?_, ?_, ?_, ?_, ?_, ?_, ?_, ?_, ?_, ?_, ?_, ?_, ?_, ?_, ?_, ?_, ?_, ?_, ?_⟩ <;> rfl

/-- Settles O8: the step is the fetch of the word, which the decoder rejects without looking further. -/
theorem stepRefusesReservedWord : Obligations.StepRefusesReservedWord := by
  intro s hr ha h0 h
  obtain ⟨why, hwhy⟩ := fetch_of_reservedWord (s := s.nextSample) h0 h
  refine ⟨why, ?_⟩
  rw [step_of_quiet hr ha, runInstr, hwhy]
  rfl

end Sys2Proof.Settled
end

section
/-! ## Mode instructions (`40_operation_mode.md` rules R110 to R116): one form, one masked write of FR -/

namespace Sys2Proof.Machine

/-! ### The form -/

/-- Each bit the mask leaves out of a mode word is ignored (rule R94, decision D14), so what is left to decode is the
canonical word. -/
theorem decode_modeWord {i : Instr} {m : ModeOp} (hi : i.shape = .mode m) {w0 : Word}
    (h : w0 &&& 0xF1FF#16 = (Shape.mode m).word0) (w1 : Word) : decode w0 w1 = .ok i := by
  have hgroup : w0 &&& 0xF1C0#16 = 0xF140#16 :=
    calc w0 &&& 0xF1C0#16 = w0 &&& 0xF1FF#16 &&& 0xF1C0#16 := (BitVec.and_assoc w0 0xF1FF#16 0xF1C0#16).symm
      _ = (Shape.mode m).word0 &&& 0xF1C0#16 := by rw [h]
      _ = 0xF140#16 := by cases m <;> decide
  have hwf : i.wellFormed = true := (wellFormed_iff i).2 ⟨by rw [Instr.check, hi]; rfl, by simp [hi]⟩
  have hcanonical : decode (Shape.mode m).word0 w1 = .ok i := by
    have hd := decode_word0 hwf w1
    rwa [hi] at hd
  obtain ⟨hclear, -⟩ := Settled.ignoredBitsDecodeAlike w0 w1
  rw [hclear (.inr hgroup), h, hcanonical]

theorem exec_mode {i : Instr} {m : ModeOp} (hi : i.shape = .mode m) (s : State) :
    exec i s = .next (s.writeFr (modeBits m).1 (modeBits m).2) := by
  rw [exec_shape, hi]
  rfl

theorem cyclesOf_mode (m : ModeOp) (s : State) : cyclesOf (.mode m) s = 2 + s.plat.waitPm := by
  simp [cyclesOf, waits]

/-! ### A row of the table of mode words -/

/-- A word, an instruction and the bits of FR it writes are those of a mode operation: the bits listed are those of
its mask, with the values it holds for them. -/
@[reducible] def IsModeRow (m : ModeOp) (row : Word × Instr × List (Nat × Bool)) : Prop :=
  row.1 = (Shape.mode m).word0 ∧ row.2.1.shape = .mode m ∧
    (∀ b ∈ row.2.2, (modeBits m).1.getLsbD b.1 = true ∧ (modeBits m).2.getLsbD b.1 = b.2) ∧
    ∀ i : Fin 16, i.val ∉ row.2.2.map Prod.fst → (modeBits m).1.getLsbD i.val = false

/-- A bit under the mask takes the value written. -/
theorem getLsbD_fr_writeFr {m : Word} {i : Nat} (h : m.getLsbD i = true) (s : State) (v : Word) :
    (s.writeFr m v).fr.getLsbD i = v.getLsbD i := by
  rw [State.writeFr_fr, getLsbD_mergeBits, if_pos h]

/-- The masked write of a mode operation gives the row's bits their values and keeps all else. -/
theorem writeFr_of_isModeRow {m : ModeOp} {row : Word × Instr × List (Nat × Bool)} (h : IsModeRow m row) (s : State) :
    let t := s.writeFr (modeBits m).1 (modeBits m).2
    (∀ b ∈ row.2.2, t.fr.getLsbD b.1 = b.2) ∧ KeepsFrBut (row.2.2.map Prod.fst) s t ∧ KeepsRegs [] s t ∧
      SameMem s t ∧ SameRest s t := by
  obtain ⟨-, -, hbits, hmask⟩ := h
  have hset : ∀ b ∈ row.2.2, (s.writeFr (modeBits m).1 (modeBits m).2).fr.getLsbD b.1 = b.2 := fun b hb => by
    obtain ⟨hin, hval⟩ := hbits b hb
    rw [getLsbD_fr_writeFr hin, hval]
  exact ⟨hset, writeFr_keepsFrBut hmask s _, keepsRegs_writeFr s _ _, sameMem_of_eq (s.writeFr_mem _ _),
    sameRest_writeFr s _ _⟩

end Sys2Proof.Machine
end

section
/-! ## The statement of `40_operation_mode.md` settled -/

namespace Sys2Proof.Settled

open Sys2Proof.Machine

/-- Settles O49: each row of the table is the row of the mode operation that its word's low four bits number, and a
mode operation is one masked write of FR. -/
theorem modeInstructions : Obligations.ModeInstructions := by
  intro row hrow
  have hmode : IsModeRow (ModeOp.ofBits (fieldOffset row.1)) row := by
    revert row
    decide
  have ⟨hword, hshape, _⟩ := hmode
  refine ⟨fun w0 w1 h => decode_modeWord hshape (h.trans hword) w1, fun s => ⟨?_, _, exec_mode hshape s, ?_⟩⟩
  · rw [hshape, cyclesOf_mode]
  · exact writeFr_of_isModeRow hmode s

end Sys2Proof.Settled
end

section
/-! ## ALU forms (`41_alu.md` rules R134 to R147): the meaning of a form is the end of an ALU instruction -/

namespace Sys2Proof.Machine

/-! ### Operands an operation does not have -/

/-- The destination of an operation that may have none: the register number is unused by CMP and TEST. -/
def namedDest (op : AluOp) (rd : Reg) : Reg := if op = .cmp ∨ op = .test then .sp else rd

/-- The first operand of an operation that may have one operand only: the register number is unused by NEG and
LOAD. -/
def namedFirst (op : AluOp) (rs : Reg) : Reg := if op = .neg ∨ op = .load then .sp else rs

/-- What CMP and TEST do depends on no destination, and what NEG and LOAD do on no first operand. -/
theorem aluDone_named {op : AluOp} {rd rs : Reg} {b : Word} {also : List Reg} {ds : BitVec 6} {s t : State} :
    AluDone op (namedDest op rd) (s.x (namedFirst op rs)) b also ds s t ↔
      AluDone op rd (s.x rs) b also ds s t := by
  have hfirst : AluDone op (namedDest op rd) (s.x (namedFirst op rs)) b also ds s t ↔
      AluDone op (namedDest op rd) (s.x rs) b also ds s t := by
    unfold namedFirst
    split
    next h => obtain rfl | rfl := h <;> exact Iff.rfl
    next => exact Iff.rfl
  rw [hfirst, namedDest]
  split
  next h => simp only [AluDone, if_pos h]
  next => exact Iff.rfl

/-! ### The forms that step no pointer -/

section Forms

variable {i : Instr} {op : AluOp} {rd rs : Reg} {s : State}

theorem exec_of_im6 {imm : BitVec 6} (hi : i.shape = .im6 op rd imm) (hrd : rd ≠ .pc) :
    exec i s = .next (aluFinish op rd (s.x rd) (imm.setWidth 16) s) := by
  rw [exec_shape, hi]
  exact (guarded_next _ _ _).2 ⟨checkDest_none.2 hrd, rfl⟩

theorem exec_of_im16 {imm : Word} (hi : i.shape = .im16 op rd rs imm) :
    exec i s = .next (aluFinish op rd (s.x rs) imm s) := by
  rw [exec_shape, hi]
  rfl

theorem exec_of_reg (hi : i.shape = .reg op rd rs) :
    exec i s = .next (aluFinish op rd (s.x rd) (s.x rs) s) := by
  rw [exec_shape, hi]
  rfl

theorem exec_of_shifted {k : ShiftKind} {n : BitVec 2} (hi : i.shape = .shifted op k rd n rs) :
    exec i s = .next (aluFinish op rd (s.x rd) (shiftedOperand k (n.toNat + 1) (s.x rs) s.sb)
      (s.setSb (shiftedOut k (n.toNat + 1) (s.x rs) s.sb))) := by
  rw [exec_shape, hi]
  simp only [execShape, aluShifted, shifter_eq]

theorem exec_of_a6 {addr : BitVec 6} (hi : i.shape = .a6 op rd addr) (hop : op ≠ .store)
    (hread : readable s (addrA6 addr)) :
    exec i s = .next (aluFinish op rd (s.x rd) (wordAt s (addrA6 addr)) s) := by
  rw [exec_shape, hi, execShape, if_neg hop]
  exact (aluFrom_next _ _ _ _ _ _).2 ⟨hread, rfl⟩

theorem exec_of_a16 {addr : Word} (hi : i.shape = .a16 op rd rs addr) (hread : readable s (addrA16 addr)) :
    exec i s = .next (aluFinish op rd (s.x rs) (wordAt s (addrA16 addr)) s) := by
  rw [exec_shape, hi]
  exact (aluFrom_next _ _ _ _ _ _).2 ⟨hread, rfl⟩

theorem exec_of_bpIm6 {imm : BitVec 6} (hi : i.shape = .bpIm6 op rd imm) (hop : op ≠ .store) (hrd : rd ≠ .pc)
    (hread : readable s (addrBp imm s)) :
    exec i s = .next (aluFinish op rd (s.x rd) (wordAt s (addrBp imm s)) s) := by
  rw [exec_shape, hi, execShape, if_neg hop]
  exact (guarded_next _ _ _).2 ⟨checkDest_none.2 hrd, (aluFrom_next _ _ _ _ _ _).2 ⟨hread, rfl⟩⟩

/-- An instruction that is the end of an ALU instruction completes, and changes registers only. -/
theorem completes_of_aluFinish {a b : Word} (hop : op ≠ .store) (hexec : exec i s = .next (aluFinish op rd a b s)) :
    ∃ t, exec i s = .next t ∧ AluDone op rd a b [] s.ds s t ∧ OnlyRegisters s t :=
  ⟨_, hexec, aluFinish_done op rd a b s hop, aluFinish_only op rd a b s⟩

/-- The same where the form's word leaves unused the register numbers the operation has no operand for. -/
theorem completes_of_aluFinish_named {b : Word} (hop : op ≠ .store)
    (hexec : exec i s = .next (aluFinish op (namedDest op rd) (s.x (namedFirst op rs)) b s)) :
    ∃ t, exec i s = .next t ∧ AluDone op rd (s.x rs) b [] s.ds s t ∧ OnlyRegisters s t := by
  obtain ⟨t, ht, hdone, honly⟩ := completes_of_aluFinish hop hexec
  exact ⟨t, ht, aluDone_named.1 hdone, honly⟩

end Forms

end Sys2Proof.Machine
end

section
/-! ## ALU operations between other updates: what is done before and after the end of an ALU instruction -/

namespace Sys2Proof.Machine

theorem bnk_congr {s t : State} (h : t.fr = s.fr) : t.bnk = s.bnk := by rw [State.bnk, h, State.bnk]

theorem OnlyRegisters.trans {s t u : State} (h : OnlyRegisters s t) (g : OnlyRegisters t u) : OnlyRegisters s u := by
  obtain ⟨hfr, hmem, hrest⟩ := h
  obtain ⟨gfr, gmem, grest⟩ := g
  exact ⟨gfr.trans hfr, fun a => (gmem a).trans (hmem a), hrest.trans grest⟩

theorem aluFinish_bnk (op : AluOp) (rd : Reg) (a b : Word) (s : State) : (aluFinish op rd a b s).bnk = s.bnk :=
  bnk_congr (aluFinish_only op rd a b s).1

namespace AluDone

variable {op : AluOp} {rd : Reg} {a b : Word} {also extra : List Reg} {ds ds' : BitVec 6} {s t u : State}

/-- Whatever the operation, only its destination, SR and the pointers change. -/
theorem keepsRegs (h : AluDone op rd a b also ds s t) : KeepsRegs (rd :: .sr :: also) s t := by
  unfold AluDone at h
  split_ifs at h
  · obtain ⟨-, -, -, hregs⟩ := h
    exact hregs.mono (by grind)
  · obtain ⟨-, hregs⟩ := h
    exact hregs.mono (by grind)
  · obtain ⟨-, -, -, -, hregs⟩ := h
    exact hregs

/-- DS is as stated unless SR is written as the destination. -/
theorem ds_eq (h : AluDone op rd a b also ds s t) (hrd : rd ≠ .sr) : t.ds = ds := by
  unfold AluDone at h
  rw [if_neg hrd] at h
  split_ifs at h
  · obtain ⟨-, hds, -⟩ := h
    exact hds
  · obtain ⟨-, -, hds, -⟩ := h
    exact hds

/-- The operation after a step from `s` to `t` that writes some registers and, of SR, DS alone. -/
theorem after (hb : t.bnk = s.bnk) (hlow : ∀ i, i < 10 → t.sr.getLsbD i = s.sr.getLsbD i)
    (hk : KeepsRegs (.sr :: extra) s t) (h : AluDone op rd a b also ds t u) :
    AluDone op rd a b (extra ++ also) ds s u := by
  obtain ⟨⟨-, -, -, hc⟩, hcs⟩ := low_sr_fields hlow
  unfold AluDone at *
  rw [hc, hcs] at h
  split_ifs at h ⊢
  · obtain ⟨hflags, hds, hcs, hregs⟩ := h
    exact ⟨hflags.pre hlow, hds, hcs, (hk.trans hb hregs).mono (by grind)⟩
  · obtain ⟨hbits, hregs⟩ := h
    exact ⟨hbits, (hk.trans hb hregs).mono (by grind)⟩
  · obtain ⟨hres, hflags, hds, hcs, hregs⟩ := h
    exact ⟨hres, hflags.pre hlow, hds, hcs, (hk.trans hb hregs).mono (by grind)⟩

/-- The operation before a step from `t` to `u` that writes some registers other than the destination and, of SR, DS
alone; with SR as the destination, nothing of it. -/
theorem before (hbs : t.bnk = s.bnk) (hbt : u.bnk = t.bnk) (hlow : ∀ i, i < 10 → u.sr.getLsbD i = t.sr.getLsbD i)
    (hk : KeepsRegs (.sr :: extra) t u) (hrd : rd ∉ extra) (hsr : rd = .sr → KeepsRegs extra t u)
    (hds : t.ds = ds → u.ds = ds') (h : AluDone op rd a b also ds s t) :
    AluDone op rd a b (also ++ extra) ds' s u := by
  obtain ⟨-, hcsu⟩ := low_sr_fields hlow
  unfold AluDone at *
  split_ifs at h ⊢ with hcmp hdest
  · obtain ⟨hflags, ht, hcs, hregs⟩ := h
    exact ⟨hflags.post hlow, hds ht, hcsu.trans hcs, (hregs.trans hbs hk).mono (by grind)⟩
  · obtain ⟨hbits, hregs⟩ := h
    have hu : u.sr = t.sr := by
      rw [← x_sr, ← x_sr]
      exact (hsr hdest).x hbt .sr (hdest ▸ hrd)
    exact ⟨hu ▸ hbits, (hregs.trans hbs hk).mono (by grind)⟩
  · obtain ⟨hres, hflags, ht, hcs, hregs⟩ := h
    have hu : u.x rd = t.x rd := hk.x hbt rd (by simp [hdest, hrd])
    exact ⟨hu.trans hres, hflags.post hlow, hds ht, hcsu.trans hcs, (hregs.trans hbs hk).mono (by grind)⟩

end AluDone

/-! ### A write of SB before the operation (rule R142) -/

theorem aluDone_setSb {op : AluOp} (hop : op ≠ .store) (rd : Reg) (a b : Word) (v : BitVec 4) (s : State) :
    AluDone op rd a b [] s.ds s (aluFinish op rd a b (s.setSb v)) :=
  (aluFinish_done op rd a b (s.setSb v) hop).after (extra := []) (State.setSb_bnk s v) (fun _ _ => rfl)
    ((keepsRegs_writeFr s _ _).mono (by simp))

/-- A shifted operation completes: SB is written, then the operation runs on the shifted operand. -/
theorem completes_of_shifted {i : Instr} {op : AluOp} {k : ShiftKind} {rd rs : Reg} {n : BitVec 2} (hop : op ≠ .store)
    (hi : i.shape = .shifted op k rd n rs) (s : State) :
    ∃ t, exec i s = .next t ∧
      AluDone op rd (s.x rd) (shiftedOperand k (n.toNat + 1) (s.x rs) s.sb) [] s.ds s t ∧
      t.sb = shiftedOut k (n.toNat + 1) (s.x rs) s.sb ∧ KeepsFrBut [7, 8, 9, 10] s t ∧ SameMem s t ∧
      SameRest s t := by
  refine ⟨_, exec_of_shifted hi, aluDone_setSb hop _ _ _ _ _, ?_⟩
  obtain ⟨hfr, hmem, hrest⟩ := aluFinish_only op rd (s.x rd) (shiftedOperand k (n.toNat + 1) (s.x rs) s.sb)
    (s.setSb (shiftedOut k (n.toNat + 1) (s.x rs) s.sb))
  refine ⟨?_, fun j hj => ?_, hmem, (sameRest_writeFr s _ _).trans hrest⟩
  · rw [State.sb, hfr]
    exact setSb_sb s _
  · rw [hfr]
    exact setSb_fr s _ j hj

end Sys2Proof.Machine
end

section
/-! ## Pointers around an access (`20_memory.md` rules R63, R64) -/

namespace Sys2Proof.Machine

section Step

variable {d : Bool} {δ : Addr} {mark : PtrMark} {rd rs : Reg} {s t : State}

theorem onlyRegisters_stepPtr : OnlyRegisters s (stepPtr d δ rs s) :=
  ⟨stepPtr_fr d δ rs s, sameMem_of_eq (stepPtr_mem d δ rs s), sameRest_stepPtr d δ rs s⟩

/-- A register other than the pointer reads as before a step; SR does only where DS is not stepped. -/
theorem stepPtr_x (hrd : rd ≠ rs) (hrs : rs ≠ .sr) (hsr : ¬(rd = .sr ∧ d = true)) :
    (stepPtr d δ rs s).x rd = s.x rd := by
  obtain ⟨-, -, -, hk, hkeep⟩ := stepPtr_spec d δ rs s fun _ => hrs
  by_cases hd : d = true
  · have : rd ≠ .sr := fun e => hsr ⟨e, hd⟩
    exact hk.x (stepPtr_bnk d δ rs s) rd (by simp [this, hrd])
  · exact (hkeep (by simpa using hd)).x (stepPtr_bnk d δ rs s) rd (by simp [hrd])

/-- The stepped pointer depends on the pointer register and, with "D:", on DS. -/
theorem pointerAt_low_congr (hx : t.x rs = s.x rs) (hds : d = true → t.ds = s.ds) :
    (pointerAt d δ rs t).extractLsb' 0 16 = (pointerAt d δ rs s).extractLsb' 0 16 := by
  unfold pointerAt mkAddr
  cases d
  · simp only [Bool.false_eq_true, if_false, hx]
    rw [State.extractLsb'_append_low, State.extractLsb'_append_low]
  · rw [hx, hds rfl]

theorem pointerAt_congr (hx : t.x rs = s.x rs) (hds : t.ds = s.ds) : pointerAt d δ rs t = pointerAt d δ rs s := by
  unfold pointerAt
  rw [hx, hds]

/-- The two steps around an access, with nothing between them. -/
theorem postStep_preStep (d : Bool) (mark : PtrMark) (rs : Reg) (s : State) :
    postStep d mark rs (preStep d mark rs s) = if mark = .keep then s else stepPtr d (stepInAll mark) rs s := by
  cases mark <;> rfl

end Step

/-! ### Before or after an ALU operation -/

section Around

variable {op : AluOp} {d : Bool} {mark : PtrMark} {rd rs : Reg} {s : State}
  (hrd : rd ≠ rs) (hrs : rs ≠ .sr) (hsr : ¬(rd = .sr ∧ d = true))

include hrd hrs in
/-- The operation leaves the pointer register alone. -/
theorem aluFinish_pointer (hop : op ≠ .store) (a b : Word) : (aluFinish op rd a b s).x rs = s.x rs :=
  (aluFinish_done op rd a b s hop).keepsRegs.x (aluFinish_bnk op rd a b s) rs (by simp [hrd.symm, hrs])

include hrd hrs in
/-- An operation on the state a pointer step leaves. -/
theorem aluDone_of_preStep (hop : op ≠ .store) (δ : Addr) (a b : Word) :
    let t := aluFinish op rd a b (stepPtr d δ rs s)
    AluDone op rd a b [rs] ((pointerAt d δ rs s).extractLsb' 16 6) s t ∧
      t.x rs = (pointerAt d δ rs s).extractLsb' 0 16 := by
  obtain ⟨hptr, hds, hlow, hk, -⟩ := stepPtr_spec d δ rs s fun _ => hrs
  have hdone := (aluFinish_done op rd a b (stepPtr d δ rs s) hop).after (stepPtr_bnk d δ rs s)
    (fun i hi => hlow i hi hrs) hk
  rw [hds hrs] at hdone
  exact ⟨hdone, (aluFinish_pointer hrd hrs hop a b).trans hptr⟩

include hrd hrs hsr in
/-- A pointer step on the state an operation leaves. -/
theorem aluDone_of_postStep (hop : op ≠ .store) (δ : Addr) (a b : Word) :
    let t := stepPtr d δ rs (aluFinish op rd a b s)
    AluDone op rd a b [rs] ((pointerAt d δ rs s).extractLsb' 16 6) s t ∧
      t.x rs = (pointerAt d δ rs s).extractLsb' 0 16 := by
  have hdone := aluFinish_done op rd a b s hop
  have hx : (aluFinish op rd a b s).x rs = s.x rs := aluFinish_pointer hrd hrs hop a b
  obtain ⟨hptr, hds, hlow, hk, hkeep⟩ := stepPtr_spec d δ rs (aluFinish op rd a b s) fun _ => hrs
  have hd : rd = .sr → d = false := fun e => by simpa [e] using hsr
  refine ⟨hdone.before (aluFinish_bnk op rd a b s) (stepPtr_bnk d δ rs _) (fun i hi => hlow i hi hrs) hk
    (by simp [hrd]) (fun e => hkeep (hd e)) (fun e => ?_), hptr.trans ?_⟩
  · rw [hds hrs, pointerAt_congr hx e]
  · exact pointerAt_low_congr hx fun e => hdone.ds_eq fun hsrd => hsr ⟨hsrd, e⟩

end Around

/-! ### The indirect forms (rules R146, R150) -/

theorem preStep_mem (d : Bool) (mark : PtrMark) (rs : Reg) (s : State) : (preStep d mark rs s).mem = s.mem := by
  rw [preStep_eq]
  split <;> simp

theorem preStep_plat (d : Bool) (mark : PtrMark) (rs : Reg) (s : State) : (preStep d mark rs s).plat = s.plat := by
  rw [preStep_eq]
  split <;> simp

section Indirect

variable {i : Instr} {op : AluOp} {d : Bool} {mark : PtrMark} {rd rs : Reg} {s : State}
  (hallowed : indAllowed rd d mark rs)

include hallowed in
theorem preStep_address :
    dataAddr d ((preStep d mark rs s).x rs) (preStep d mark rs s) = indAddr d mark rs s := by
  refine dataAddr_preStep d mark rs s fun hm => ?_
  obtain rfl | ⟨-, hrs, -, -⟩ := hallowed
  · cases hm
  · exact hrs

include hallowed in
/-- The register operated on or stored is not the one stepped. -/
theorem preStep_x : (preStep d mark rs s).x rd = s.x rd := by
  rw [preStep_eq]
  split
  next hm =>
    obtain rfl | ⟨hrd, hrs, -, hsr⟩ := hallowed
    · cases hm
    · exact stepPtr_x hrd hrs hsr
  next => rfl

include hallowed in
theorem exec_of_ind (hi : i.shape = .ind op rd d mark rs) (hop : op ≠ .store)
    (hread : readable s (indAddr d mark rs s)) :
    exec i s = .next (postStep d mark rs
      (aluFinish op rd (s.x rd) (wordAt s (indAddr d mark rs s)) (preStep d mark rs s))) := by
  rw [exec_shape, hi, execShape, if_neg hop]
  refine (aluInd_next op rd d mark rs s _).2 ⟨(checkInd_allowed rd d mark rs).2 hallowed, ?_⟩
  have hword : ∀ a, wordAt (preStep d mark rs s) a = wordAt s a := fun a => by rw [wordAt, preStep_mem, wordAt]
  simp only [preStep_address hallowed, preStep_x hallowed, hword]
  exact ⟨(readable_congr (preStep_plat d mark rs s) _).2 hread, trivial⟩

theorem indDs_keep (d : Bool) (rs : Reg) (s : State) : indDs d .keep rs s = s.ds := by
  rw [indDs, stepInAll, pointerAt_zero]
  exact State.extractLsb'_append_high s.ds _

include hallowed in
/-- The operation of an indirect form, with the pointer stepped before it, after it or not at all. -/
theorem aluDone_indirect (hop : op ≠ .store) (a b : Word) :
    let t := postStep d mark rs (aluFinish op rd a b (preStep d mark rs s))
    AluDone op rd a b (indAlso mark rs) (indDs d mark rs s) s t ∧
      (mark ≠ .keep → t.x rs = indPointer d mark rs s) := by
  by_cases hkeep : mark = .keep
  · subst hkeep
    rw [indDs_keep]
    exact ⟨aluFinish_done op rd a b s hop, fun h => absurd rfl h⟩
  · obtain ⟨hrd, hrs, -, hsr⟩ := hallowed.resolve_left hkeep
    cases mark with
    | keep => exact absurd rfl hkeep
    | preInc => exact (aluDone_of_preStep hrd hrs hop _ a b).imp_right fun h _ => h
    | postInc | postDec => exact (aluDone_of_postStep hrd hrs hsr hop _ a b).imp_right fun h _ => h

end Indirect

theorem onlyRegisters_preStep (d : Bool) (mark : PtrMark) (rs : Reg) (s : State) :
    OnlyRegisters s (preStep d mark rs s) := by
  cases mark with
  | preInc => exact onlyRegisters_stepPtr
  | keep | postInc | postDec => exact ⟨rfl, fun _ => rfl, SameRest.refl s⟩

theorem onlyRegisters_postStep (d : Bool) (mark : PtrMark) (rs : Reg) (s : State) :
    OnlyRegisters s (postStep d mark rs s) := by
  cases mark with
  | postInc | postDec => exact onlyRegisters_stepPtr
  | keep | preInc => exact ⟨rfl, fun _ => rfl, SameRest.refl s⟩

end Sys2Proof.Machine
end

section
/-! ## Results that go to memory (`41_alu.md` rules R133, R145) -/

namespace Sys2Proof.Machine

/-! ### `[A16] = Rd op Rs` -/

/-- The flags are written, and the result is stored where the operation has one. -/
theorem aluA16w_completes {op : AluOp} {rd : Reg} {b addr : Word} {s : State} (hop : op ≠ .store)
    (hw : ¬(op = .cmp ∨ op = .test) → writable s (addrA16 addr)) :
    ∃ t, aluA16w op rd b addr s = .next t ∧ FlagsAfter op (s.x rd) b s t ∧ KeepsSegments s t ∧
      KeepsRegs [.sr] s t ∧ t.fr = s.fr ∧ SameRest s t ∧ (op = .cmp ∨ op = .test → SameMem s t) ∧
      (¬(op = .cmp ∨ op = .test) →
        wordAt t (addrA16 addr) = opResult op (s.x rd) b s.flagC ∧ SameMemBut [addrA16 addr] s t) := by
  by_cases hcmp : op = .cmp ∨ op = .test
  · have hnone : writesResult op = false := by simpa [hcmp] using writesResult_iff op hop
    exact ⟨_, (aluA16w_next op rd b addr s _).2 (.inr ⟨hnone, rfl⟩), setAluFlags_flags op _ b s,
      setAluFlags_segments op _ b s, keepsRegs_writeSr s _ _ [], rfl, sameRest_writeSr s _ _,
      fun _ => fun _ => rfl, fun h => absurd hcmp h⟩
  · have hstores : writesResult op = true := (writesResult_iff op hop).2 hcmp
    refine ⟨_, (aluA16w_next op rd b addr s _).2 (.inl ⟨hstores, hw hcmp, rfl⟩), ?_⟩
    rw [aluResult_eq]
    generalize hv : opResult op (s.x rd) b s.flagC = v
    have hregs : KeepsRegs [.sr] s ((s.stored (addrA16 addr) v).setAluFlags op (s.x rd) b) :=
      (keepsRegs_stored s (addrA16 addr) v).trans rfl (keepsRegs_writeSr _ _ _ [])
    have hword : wordAt (s.stored (addrA16 addr) v) (addrA16 addr) = v := by rw [wordAt_stored, if_pos rfl]
    exact ⟨(setAluFlags_flags op _ b _).pre fun _ _ => rfl, setAluFlags_segments op _ b _, hregs, rfl,
      (sameRest_stored s (addrA16 addr) v).trans (sameRest_writeSr _ _ _), fun h => absurd h hcmp,
      fun _ => ⟨hword, sameMemBut_stored s _ v⟩⟩

/-! ### STORE without a pointer step -/

/-- A store that only writes a word changes that word alone. -/
theorem completes_of_stored {r : Res State} {s : State} {a : Addr} {v : Word} (h : r = .next (s.stored a v)) :
    ∃ t, r = .next t ∧ wordAt t a = v ∧ SameMemBut [a] s t ∧ KeepsRegs [] s t ∧ t.fr = s.fr ∧ SameRest s t :=
  ⟨_, h, (wordAt_stored s a a v).trans (if_pos rfl), sameMemBut_stored s a v, keepsRegs_stored s a v, rfl,
    sameRest_stored s a v⟩

theorem exec_storeBpIm6 {rd : Reg} {imm : BitVec 6} {s : State} (hrd : rd ≠ .pc)
    (hw : writable s (addrBp imm s)) :
    exec (.storeBpIm6 rd imm) s = .next (s.stored (addrBp imm s) (s.x rd)) :=
  (guarded_next _ _ _).2 ⟨checkDest_none.2 hrd, memWrite_ok _ hw⟩

/-! ### STORE through a pointer -/

theorem setX_stored (s : State) (a : Addr) (v : Word) (r : Reg) (w : Word) :
    (s.stored a v).setX r w = (s.setX r w).stored a v := by
  unfold State.setX
  rw [State.stored_bnk]
  cases physOf s.bnk r <;> rfl

/-- A pointer step and a store do not depend on each other. -/
theorem stepPtr_stored (d : Bool) (δ : Addr) (rs : Reg) (s : State) (a : Addr) (v : Word) :
    stepPtr d δ rs (s.stored a v) = (stepPtr d δ rs s).stored a v := by
  unfold stepPtr
  rw [State.stored_x]
  split
  · exact setX_stored (s.setDs _) a v rs _
  · exact setX_stored s a v rs _

theorem postStep_stored (d : Bool) (mark : PtrMark) (rs : Reg) (s : State) (a : Addr) (v : Word) :
    postStep d mark rs (s.stored a v) = (postStep d mark rs s).stored a v := by
  cases mark with
  | postInc | postDec => exact stepPtr_stored d _ rs s a v
  | keep | preInc => rfl

section StoreInd

variable {d : Bool} {mark : PtrMark} {rd rs : Reg} {s : State} (hallowed : indAllowed rd d mark rs)

include hallowed in
/-- The store of an indirect form, on the state whose pointer has made both its steps. -/
theorem exec_storeInd (hw : writable s (indAddr d mark rs s)) :
    exec (.storeInd rd d mark rs) s =
      .next ((postStep d mark rs (preStep d mark rs s)).stored (indAddr d mark rs s) (s.x rd)) := by
  refine (storeInd_next rd d mark rs s _).2 ⟨(checkInd_allowed rd d mark rs).2 hallowed, ?_⟩
  simp only [preStep_address hallowed, preStep_x hallowed, postStep_stored]
  exact ⟨(writable_congr (preStep_plat d mark rs s) _).2 hw, trivial⟩

include hallowed in
/-- The two steps of the pointer move it as its mark says, write the pointer register alone and, with "D:", DS. -/
theorem pointer_stepped :
    let t := postStep d mark rs (preStep d mark rs s)
    (mark ≠ .keep → t.x rs = indPointer d mark rs s ∧ t.ds = indDs d mark rs s) ∧
      (d = false ∨ mark = .keep → KeepsRegs (indAlso mark rs) s t) ∧ KeepsRegs (.sr :: indAlso mark rs) s t ∧
      t.cs = s.cs ∧ KeepsFlags s t := by
  rw [postStep_preStep]
  by_cases hkeep : mark = .keep
  · rw [if_pos hkeep]
    exact ⟨fun h => absurd hkeep h, fun _ _ _ => rfl, fun _ _ => rfl, rfl, rfl, rfl, rfl, rfl⟩
  · obtain ⟨-, hrs, -, -⟩ := hallowed.resolve_left hkeep
    obtain ⟨hptr, hds, hlow, hregs, hreg⟩ := stepPtr_spec d (stepInAll mark) rs s fun _ => hrs
    obtain ⟨hflags, hcs⟩ := low_sr_fields fun j hj => hlow j hj hrs
    rw [if_neg hkeep, indAlso, if_neg hkeep]
    exact ⟨fun _ => ⟨hptr, hds hrs⟩, fun h => hreg (h.resolve_right hkeep), hregs, hcs, hflags⟩

end StoreInd

end Sys2Proof.Machine
end

section
/-! ## The shifter bit by bit (`41_alu.md` rules R137 to R141) -/

namespace Sys2Proof.Machine

/-- A shifted LOAD leaves the shifted operand in Rd and the bits shifted out in SB. -/
theorem loadShifted_leaves {i : Instr} {k : ShiftKind} {rd rs : Reg} {field : BitVec 2}
    (hi : i.shape = .shifted .load k rd field rs) (s : State) :
    ∃ t, exec i s = .next t ∧ (rd ≠ .sr → t.x rd = shiftedOperand k (field.toNat + 1) (s.x rs) s.sb) ∧
      t.sb = shiftedOut k (field.toNat + 1) (s.x rs) s.sb := by
  obtain ⟨t, ht, hdone, hsb, -⟩ := completes_of_shifted (by decide) hi s
  refine ⟨t, ht, fun hrd => ?_, hsb⟩
  rw [AluDone, if_neg (by decide), if_neg hrd] at hdone
  obtain ⟨hx, -⟩ := hdone
  exact hx

section Bits

variable {n k : Nat} (v : Word) (sb : BitVec 4)

/-- The word and the buffer as right shifts see them. -/
theorem getLsbD_above_buffer (j : Nat) :
    (v ++ sb : BitVec 20).getLsbD j = if j < 4 then sb.getLsbD j else v.getLsbD (j - 4) := by
  exact BitVec.getLsbD_append

/-- The word and the buffer as left shifts see them. -/
theorem getLsbD_below_buffer (j : Nat) :
    (sb ++ v : BitVec 20).getLsbD j = if j < 16 then v.getLsbD j else sb.getLsbD (j - 16) := by
  exact BitVec.getLsbD_append

theorem getLsbD_asr (hk : k < 16) :
    (shiftedOperand .asr n v sb).getLsbD k = if k + n < 16 then v.getLsbD (k + n) else v.getLsbD 15 := by
  have hin : ¬16 ≤ k := by omega
  simp only [shiftedOperand, BitVec.getLsbD_sshiftRight, hin, decide_false, Bool.not_false, Bool.true_and,
    BitVec.msb_eq_getLsbD_last, Nat.add_comm n k]

theorem getLsbD_lsl (hk : k < 16) :
    (shiftedOperand .lsl n v sb).getLsbD k = if n ≤ k then v.getLsbD (k - n) else false := by
  simp only [shiftedOperand, BitVec.getLsbD_shiftLeft]
  grind

theorem getLsbD_lsr : (shiftedOperand .lsr n v sb).getLsbD k = if k + n < 16 then v.getLsbD (k + n) else false := by
  simp only [shiftedOperand, BitVec.getLsbD_ushiftRight, Nat.add_comm n k]
  split
  next => rfl
  next h => exact BitVec.getLsbD_of_ge _ _ (Nat.not_lt.1 h)

theorem getLsbD_rol (hn : n ≤ 4) (hk : k < 16) :
    (shiftedOperand .rol n v sb).getLsbD k = if n ≤ k then v.getLsbD (k - n) else sb.getLsbD (4 + k - n) := by
  have hmod : n % 20 = n := Nat.mod_eq_of_lt (by omega)
  simp only [shiftedOperand, BitVec.getLsbD_extractLsb', BitVec.getLsbD_rotateLeft, getLsbD_below_buffer, hmod]
  grind

theorem getLsbD_ror (hn : n ≤ 4) (hk : k < 16) :
    (shiftedOperand .ror n v sb).getLsbD k =
      if k + n < 16 then v.getLsbD (k + n) else sb.getLsbD (k + n - 16) := by
  have hmod : n % 20 = n := Nat.mod_eq_of_lt (by omega)
  simp only [shiftedOperand, BitVec.getLsbD_extractLsb', BitVec.getLsbD_rotateRight, getLsbD_above_buffer, hmod]
  grind

/-- What a right shift leaves in the buffer. -/
theorem getLsbD_shiftedOut_right {kind : ShiftKind} (hkind : kind ∈ [ShiftKind.asr, .lsr, .ror]) (hk : k < 4) :
    (shiftedOut kind n v sb).getLsbD k = if k + n < 4 then sb.getLsbD (k + n) else v.getLsbD (k + n - 4) := by
  have hout : shiftedOut kind n v sb = ((v ++ sb : BitVec 20) >>> n).extractLsb' 0 4 := by
    fin_cases hkind <;> rfl
  simp only [hout, BitVec.getLsbD_extractLsb', BitVec.getLsbD_ushiftRight, getLsbD_above_buffer, hk, decide_true,
    Bool.true_and, Nat.zero_add, Nat.add_comm n k]

/-- What a left shift leaves in the buffer. -/
theorem getLsbD_shiftedOut_left {kind : ShiftKind} (hkind : kind ∈ [ShiftKind.lsl, .rol]) (hn : n ≤ 4) (hk : k < 4) :
    (shiftedOut kind n v sb).getLsbD k = if n ≤ k then sb.getLsbD (k - n) else v.getLsbD (16 + k - n) := by
  have hout : shiftedOut kind n v sb = ((sb ++ v : BitVec 20) <<< n).extractLsb' 16 4 := by
    fin_cases hkind <;> rfl
  simp only [hout, BitVec.getLsbD_extractLsb', BitVec.getLsbD_shiftLeft, getLsbD_below_buffer]
  grind

end Bits

end Sys2Proof.Machine
end

section
/-! ## The statements of `41_alu.md` settled -/

namespace Sys2Proof.Settled

open Sys2Proof.Machine

/-- Settles O25: each row's instructions are the shifted forms of its operation, one for each kind of shift. -/
theorem aluShifted : Obligations.AluShifted := by
  intro p hp q hq rd n rs s
  have hrow : p.2 ≠ .store ∧ ∀ q ∈ p.1.zip [ShiftKind.asr, .lsl, .lsr, .rol, .ror], ∀ rd n rs,
      (q.1 rd n rs).shape = .shifted p.2 q.2 rd n rs := by
    clear hq
    fin_cases hp <;> refine ⟨nofun, fun q hq rd n rs => ?_⟩ <;> fin_cases hq <;> rfl
  obtain ⟨hop, hshape⟩ := hrow
  exact completes_of_shifted hop (hshape q hq rd n rs) s

/-- Settles O22: each row is the IM6 form of its operation, which is the end of an ALU instruction on Rd and IM6. -/
theorem aluImmediate6 : Obligations.AluImmediate6 := by
  intro p hp rd imm s hrd
  have hrow : p.2 ≠ .store ∧ (p.1 rd imm).shape = .im6 p.2 rd imm := by
    fin_cases hp <;> exact ⟨nofun, rfl⟩
  obtain ⟨hop, hshape⟩ := hrow
  exact completes_of_aluFinish hop (exec_of_im6 hshape hrd)

/-- Settles O23: each row is the IM16 form of its operation, with 0 for a register number the operation does not use. -/
theorem aluImmediate16 : Obligations.AluImmediate16 := by
  intro p hp rd rs imm s
  have hrow : p.2 ≠ .store ∧ (p.1 rd rs imm).shape = .im16 p.2 (namedDest p.2 rd) (namedFirst p.2 rs) imm := by
    fin_cases hp <;> exact ⟨nofun, rfl⟩
  obtain ⟨hop, hshape⟩ := hrow
  exact completes_of_aluFinish_named hop (exec_of_im16 hshape)

/-- Settles O24: each row is the register form of its operation, which is the end of an ALU instruction on Rd and
Rs. -/
theorem aluRegister : Obligations.AluRegister := by
  intro p hp rd rs s
  have hrow : p.2 ≠ .store ∧ (p.1 rd rs).shape = .reg p.2 rd rs := by
    fin_cases hp <;> exact ⟨nofun, rfl⟩
  obtain ⟨hop, hshape⟩ := hrow
  exact completes_of_aluFinish hop (exec_of_reg hshape)

/-- Settles O26: each row is the [A6] or the [A16] form of its operation, whose read answers the addressed word. -/
theorem aluDirectAddress : Obligations.AluDirectAddress := by
  constructor
  · intro p hp rd addr s hread
    have hrow : p.2 ≠ .store ∧ (p.1 rd addr).shape = .a6 p.2 rd addr := by
      fin_cases hp <;> exact ⟨nofun, rfl⟩
    obtain ⟨hop, hshape⟩ := hrow
    exact completes_of_aluFinish hop (exec_of_a6 hshape hop hread)
  · intro p hp rd rs addr s hread
    have hrow : p.2 ≠ .store ∧
        (p.1 rd rs addr).shape = .a16 p.2 (namedDest p.2 rd) (namedFirst p.2 rs) addr := by
      fin_cases hp <;> exact ⟨nofun, rfl⟩
    obtain ⟨hop, hshape⟩ := hrow
    exact completes_of_aluFinish_named hop (exec_of_a16 hshape hread)

/-- Settles O30: each row is the [BP+IM6] form of its operation, whose read answers the addressed word. -/
theorem aluDisplacement : Obligations.AluDisplacement := by
  intro p hp rd imm s hrd hread
  have hrow : p.2 ≠ .store ∧ (p.1 rd imm).shape = .bpIm6 p.2 rd imm := by
    fin_cases hp <;> exact ⟨nofun, rfl⟩
  obtain ⟨hop, hshape⟩ := hrow
  obtain ⟨t, ht, hdone, honly⟩ := completes_of_aluFinish hop (exec_of_bpIm6 hshape hop hrd hread)
  exact ⟨t, ht, hdone, honly, by rw [addrBp, x_bp]⟩

/-- Settles O29: the pointer steps are updates before or after the operation, which leaves the pointer alone. -/
theorem aluIndirect : Obligations.AluIndirect := by
  intro p hp rd d mark rs s hallowed hread
  have hrow : p.2 ≠ .store ∧ (p.1 rd d mark rs).shape = .ind p.2 rd d mark rs := by
    fin_cases hp <;> exact ⟨nofun, rfl⟩
  obtain ⟨hop, hshape⟩ := hrow
  obtain ⟨hdone, hptr⟩ := aluDone_indirect (s := s) hallowed hop (s.x rd) (wordAt s (indAddr d mark rs s))
  have honly := ((onlyRegisters_preStep d mark rs s).trans (aluFinish_only p.2 rd (s.x rd)
    (wordAt s (indAddr d mark rs s)) _)).trans (onlyRegisters_postStep d mark rs _)
  exact ⟨_, exec_of_ind hallowed hshape hop hread, hdone, hptr, honly⟩

/-- Settles O28: the second operand of NEG is Rd, and a row that stores writes its word before the flags. -/
theorem aluToMemory16 : Obligations.AluToMemory16 := by
  intro p hp rd rs addr s b stores hw
  have hrow : p.2 ≠ .store ∧ exec (p.1 rd rs addr) s = aluA16w p.2 rd b addr s := by
    fin_cases hp <;> exact ⟨nofun, rfl⟩
  obtain ⟨hop, hexec⟩ := hrow
  rw [hexec]
  simpa only [stores, not_not] using aluA16w_completes hop hw

/-- Settles O31: a store and a pointer step do not depend on each other. -/
theorem storeForms : Obligations.StoreForms := by
  constructor
  · intro rd s stored
    exact ⟨fun addr hw => completes_of_stored (memWrite_ok _ hw),
      fun addr hw => completes_of_stored (memWrite_ok _ hw),
      fun imm hrd hw => completes_of_stored (exec_storeBpIm6 hrd hw)⟩
  · intro rd d mark rs s hallowed hw
    obtain ⟨hmoved, hreg, hregs, hcs, hflags⟩ := pointer_stepped (s := s) hallowed
    obtain ⟨hfr, hmem, hrest⟩ := (onlyRegisters_preStep d mark rs s).trans (onlyRegisters_postStep d mark rs _)
    refine ⟨_, exec_storeInd hallowed hw, (wordAt_stored _ _ _ _).trans (if_pos rfl), ?_, ?_, ?_, ?_, hcs, hflags,
      hfr, hrest.trans (sameRest_stored _ _ _)⟩
    · exact fun a ha => (sameMemBut_stored _ _ _ a ha).trans (hmem a)
    · rw [State.stored_x]
      exact hmoved
    · exact fun h p hp => (State.stored_get _ _ _ p).trans (hreg h p hp)
    · exact fun p hp => (State.stored_get _ _ _ p).trans (hregs p hp)

/-- Settles O27: a shifted LOAD shows the operand and the buffer, whose bits follow from those of shifts, rotations
and the 20-bit words `{Rs, SB}` and `{SB, Rs}`. -/
theorem shifterBits : Obligations.ShifterBits := by
  intro rd rs field s n v leaves right left outRight outLeft
  have hn : n ≤ 4 := by
    have := field.isLt
    omega
  have hleaves : ∀ {i : Instr} {kind : ShiftKind} {operand buffer : Nat → Bool},
      i.shape = .shifted .load kind rd field rs →
      (∀ k, k < 16 → (shiftedOperand kind n v s.sb).getLsbD k = operand k) →
      (∀ k, k < 4 → (shiftedOut kind n v s.sb).getLsbD k = buffer k) → leaves i operand buffer := by
    intro i kind operand buffer hi hoperand hbuffer
    obtain ⟨t, ht, hx, hsb⟩ := loadShifted_leaves hi s
    exact ⟨t, ht, fun hrd k hk => (hx hrd ▸ hoperand k hk), fun k hk => (hsb ▸ hbuffer k hk)⟩
  exact ⟨hleaves rfl (fun k hk => getLsbD_asr v s.sb hk) (fun k hk => getLsbD_shiftedOut_right v s.sb (by simp) hk),
    hleaves rfl (fun k hk => getLsbD_lsl v s.sb hk) (fun k hk => getLsbD_shiftedOut_left v s.sb (by simp) hn hk),
    hleaves rfl (fun k _ => getLsbD_lsr v s.sb) (fun k hk => getLsbD_shiftedOut_right v s.sb (by simp) hk),
    hleaves rfl (fun k hk => getLsbD_rol v s.sb hn hk)
      (fun k hk => getLsbD_shiftedOut_left v s.sb (by simp) hn hk),
    hleaves rfl (fun k hk => getLsbD_ror v s.sb hn hk)
      (fun k hk => getLsbD_shiftedOut_right v s.sb (by simp) hk)⟩

end Sys2Proof.Settled
end

section
/-! ## Masked writes of SR and of a register: what they change and what they leave alone -/

namespace Sys2Proof.Machine

/-! ### Words that agree but for some bits -/

/-- A masked write leaves the bits outside the mask. -/
theorem agreesBut_mergeBits {bits : List Nat} {m : Word} (h : ∀ i : Fin 16, i.val ∉ bits → m.getLsbD i.val = false)
    (v w : Word) : AgreesBut bits (mergeBits m v w) w := by
  intro i hi
  have hm : m.getLsbD i = false := by
    rcases Nat.lt_or_ge i 16 with hlt | hge
    · exact h ⟨i, hlt⟩ hi
    · exact BitVec.getLsbD_of_ge _ _ hge
  simp [hm]

theorem agreesBut_mergeBits_maskC (v w : Word) : AgreesBut [6] (mergeBits maskC v w) w :=
  agreesBut_mergeBits (by decide) v w

theorem agreesBut_mergeBits_maskZ (v w : Word) : AgreesBut [8] (mergeBits maskZ v w) w :=
  agreesBut_mergeBits (by decide) v w

/-- A field that holds none of the excepted bits reads alike. -/
theorem AgreesBut.extractLsb'_eq {bits : List Nat} {v w : Word} (h : AgreesBut bits v w) {start len : Nat}
    (hfield : ∀ i < len, start + i ∉ bits) : v.extractLsb' start len = w.extractLsb' start len := by
  refine BitVec.eq_of_getLsbD_eq fun i hi => ?_
  rw [BitVec.getLsbD_extractLsb', BitVec.getLsbD_extractLsb', h _ (hfield i hi)]

/-- The low five bits of a word, as a number. -/
theorem AgreesBut.mod_32_eq {bits : List Nat} {v w : Word} (h : AgreesBut bits v w)
    (hfield : ∀ i < 5, 0 + i ∉ bits) : v.toNat % 32 = w.toNat % 32 := by
  rw [← longCount_eq, ← longCount_eq, longCount, longCount, h.extractLsb'_eq hfield]

/-! ### Frames of the single writes -/

theorem onlyRegisters_setX (s : State) (r : Reg) (v : Word) : OnlyRegisters s (s.setX r v) :=
  ⟨State.setX_fr s r v, sameMem_of_eq (State.setX_mem s r v), sameRest_setX s r v⟩

theorem onlyRegisters_writeSr (s : State) (m v : Word) : OnlyRegisters s (s.writeSr m v) :=
  ⟨rfl, sameMem_of_eq rfl, sameRest_writeSr s m v⟩

theorem onlyRegisters_drawSr (s : State) (m : Word) : OnlyRegisters s (s.drawSr m) :=
  ⟨rfl, sameMem_of_eq rfl, sameRest_drawSr s m⟩

theorem onlyRegisters_setMr (s : State) (v : BitVec 32) : OnlyRegisters s (s.setMr v) :=
  ⟨setMr_fr s v, sameMem_of_eq (setMr_mem s v), sameRest_setMr s v⟩

theorem keepsRegs_drawSr (s : State) (m : Word) : KeepsRegs [.sr] s (s.drawSr m) := by
  intro p hp
  have hsr : p ≠ .sr := fun e => hp (by simp [e, physOf])
  rw [State.get_drawSr, if_neg hsr]

/-- A draw of bits of SR leaves every other register. -/
theorem x_drawSr (s : State) (m : Word) {r : Reg} (hr : r ≠ .sr) : (s.drawSr m).x r = s.x r :=
  (keepsRegs_drawSr s m).x (State.drawSr_bnk s m) r (by simpa using hr)

theorem sr_setMr (s : State) (v : BitVec 32) : (s.setMr v).sr = s.sr := by
  rw [← x_sr, ← x_sr]
  exact (keepsRegs_setMr s v).x (setMr_bnk s v) .sr (by decide)

/-! ### A result written back with its flags -/

section WriteBack

variable (m flags : Word) {rd : Reg} (r : Word) (s : State)

theorem writeBack_of_ne_sr (hrd : rd ≠ .sr) : writeBack m flags rd r s = (s.writeSr m flags).setX rd r :=
  if_neg hrd

theorem writeBack_x (hrd : rd ≠ .sr) : (writeBack m flags rd r s).x rd = r := by
  rw [writeBack_of_ne_sr m flags r s hrd, State.x_setX, if_pos rfl]

theorem writeBack_sr (hrd : rd ≠ .sr) : (writeBack m flags rd r s).sr = mergeBits m flags s.sr := by
  rw [writeBack_of_ne_sr m flags r s hrd, sr_setX _ _ _ hrd, State.writeSr_sr]

/-- With SR as the destination, the bits under the mask are drawn and the others are the result's. -/
theorem writeBack_sr_of_sr : (writeBack m flags .sr r s).sr = mergeBits m s.drawn r := rfl

variable (rd)

theorem onlyRegisters_writeBack : OnlyRegisters s (writeBack m flags rd r s) := by
  unfold writeBack
  split
  next => exact (onlyRegisters_setX s .sr r).trans (onlyRegisters_drawSr _ m)
  next => exact (onlyRegisters_writeSr s m flags).trans (onlyRegisters_setX _ rd r)

theorem keepsRegs_writeBack : KeepsRegs [rd, .sr] s (writeBack m flags rd r s) := by
  unfold writeBack
  split
  next => exact ((keepsRegs_setX s .sr r).trans (by simp) (keepsRegs_drawSr _ m)).mono (by simp)
  next =>
    exact ((keepsRegs_writeSr s m flags []).trans (State.writeSr_bnk s m flags) (keepsRegs_setX _ rd r)).mono
      (by simp)

end WriteBack

end Sys2Proof.Machine
end

section
/-! ## Bit operations (`42_bit_shift.md` rules R160 to R170) -/

namespace Sys2Proof.Machine

/-- The new word of a bit operation differs from the old one in bit `k` alone. -/
theorem bitChanged_bitResult (b : BitOp) (k : BitVec 4) (old : Word) :
    BitChanged b k.toNat old (bitResult b old k) := by
  intro i hi
  have hone : (1#16 <<< k.toNat).getLsbD i = decide (i = k.toNat) := by
    rw [← BitVec.twoPow_eq, BitVec.getLsbD_twoPow]
    grind
  cases b with
  | tstb => exact (ite_self _).symm
  | setb =>
    simp only [bitResult, bitAfter, BitVec.getLsbD_or, hone]
    grind
  | clrb =>
    simp only [bitResult, bitAfter, BitVec.getLsbD_and, BitVec.getLsbD_not, hone, hi]
    grind
  | invb =>
    simp only [bitResult, bitAfter, BitVec.getLsbD_xor, hone]
    grind

/-- A write of Z alone leaves the flags as a bit operation does. -/
theorem bitFlags_of_sr {s t : State} {old : Word} {k : BitVec 4} (h : t.sr = mergeBits maskZ (bitZ old k) s.sr) :
    BitFlags k.toNat old s t := by
  have hmask : maskZ.getLsbD 8 = true := by decide
  have hz : t.flagZ = !old.getLsbD k.toNat := by
    rw [State.flagZ, h, getLsbD_mergeBits, if_pos hmask, bitZ, getLsbD_flagBit, hmask, Bool.and_true]
  have hkept : AgreesBut [8] t.sr s.sr := h ▸ agreesBut_mergeBits_maskZ _ _
  exact ⟨hz, hkept 9 (by decide), hkept 7 (by decide), hkept 6 (by decide),
    hkept.extractLsb'_eq (by decide), hkept.extractLsb'_eq (by decide)⟩

/-- A bit operation that writes its register. -/
theorem bitRegDone_writeBack {b : BitOp} (hb : b ≠ .tstb) (rd : Reg) (k : BitVec 4) (s : State) :
    BitRegDone b rd k.toNat s (writeBack maskZ (bitZ (s.x rd) k) rd (bitResult b (s.x rd) k) s) := by
  have hregs := keepsRegs_writeBack maskZ (bitZ (s.x rd) k) rd (bitResult b (s.x rd) k) s
  rw [BitRegDone, if_neg hb]
  split
  case isTrue hrd =>
    subst hrd
    refine ⟨fun i hi hz => ?_, hregs.mono (by simp)⟩
    rw [writeBack_sr_of_sr, agreesBut_mergeBits_maskZ _ _ i (by simpa using hz), x_sr]
    exact bitChanged_bitResult b k s.sr i hi
  case isFalse hrd =>
    refine ⟨?_, bitFlags_of_sr (writeBack_sr _ _ _ s hrd), hregs⟩
    rw [writeBack_x _ _ _ s hrd]
    exact bitChanged_bitResult b k (s.x rd)

/-- A bit operation on a register other than PC completes. -/
theorem bitReg_completes (b : BitOp) {rd : Reg} (hrd : rd ≠ .pc) (k : BitVec 4) (s : State) :
    ∃ t, bitReg b rd k s = .next t ∧ BitRegDone b rd k.toNat s t ∧ OnlyRegisters s t := by
  refine ⟨_, (bitReg_next b rd k s _).2 ⟨hrd, rfl⟩, ?_⟩
  split
  case isTrue hb =>
    rw [BitRegDone, if_pos hb]
    exact ⟨⟨bitFlags_of_sr rfl, keepsRegs_writeSr s _ _ []⟩, onlyRegisters_writeSr s _ _⟩
  case isFalse hb => exact ⟨bitRegDone_writeBack hb rd k s, onlyRegisters_writeBack _ _ rd _ s⟩

/-- A bit operation on an admitted word of memory completes. -/
theorem bitMem_completes (b : BitOp) (d : Bool) {rd : Reg} (hrd : rd ≠ .pc) (k : BitVec 4) {s : State}
    (hread : b = .tstb → readable s (dataAddr d (s.x rd) s)) (hwrite : b ≠ .tstb → writable s (dataAddr d (s.x rd) s)) :
    ∃ t, bitMem b d rd k s = .next t ∧ BitMemDone b (dataAddr d (s.x rd) s) k.toNat s t ∧ t.fr = s.fr ∧
      SameRest s t := by
  have hreadable : readable s (dataAddr d (s.x rd) s) := by
    by_cases hb : b = .tstb
    · exact hread hb
    · exact (hwrite hb).readable
  refine ⟨_, (bitMem_next b d rd k s _).2 ⟨hrd, hreadable, hwrite, rfl⟩, ?_⟩
  generalize dataAddr d (s.x rd) s = a
  unfold BitMemDone
  split
  case isTrue hb =>
    obtain ⟨hfr, hmem, hrest⟩ := onlyRegisters_writeSr s maskZ (bitZ (wordAt s a) k)
    exact ⟨⟨bitFlags_of_sr rfl, keepsRegs_writeSr s _ _ [], hmem⟩, hfr, hrest⟩
  case isFalse hb =>
    have hregs := (keepsRegs_stored s a (bitResult b (wordAt s a) k)).trans rfl
      (keepsRegs_writeSr _ maskZ (bitZ (wordAt s a) k) [])
    have hword : wordAt ((s.stored a (bitResult b (wordAt s a) k)).writeSr maskZ (bitZ (wordAt s a) k)) a =
        bitResult b (wordAt s a) k := (wordAt_stored s a a _).trans (if_pos rfl)
    refine ⟨⟨bitFlags_of_sr rfl, hregs, ?_, sameMemBut_stored s a _⟩, rfl,
      (sameRest_stored s a _).trans (sameRest_writeSr _ _ _)⟩
    rw [hword]
    exact bitChanged_bitResult b k (wordAt s a)

end Sys2Proof.Machine
end

section
/-! ## 16-bit shifts (`42_bit_shift.md` rules R171 to R181) -/

namespace Sys2Proof.Machine

/-! ### Shifts of one register -/

/-- ASR, LSL and LSR complete: the result is written and C is drawn. -/
theorem shiftPlain_completes {k : LongShift} {rd : Reg} (hcheck : checkShift16 k rd = none) (rs : Reg) (s : State) :
    ∃ t, shiftPlain k rd rs s = .next t ∧
      ShiftDone rd (longShiftResult k (s.x rd) ((s.x rs).toNat % 32)) s t ∧ OnlyRegisters s t := by
  refine ⟨_, (shiftPlain_next k rd rs s _).2 ⟨hcheck, rfl⟩, ?_,
    (onlyRegisters_setX s rd _).trans (onlyRegisters_drawSr _ _)⟩
  rw [longCount_eq]
  generalize longShiftResult k (s.x rd) ((s.x rs).toNat % 32) = r
  have hregs := (keepsRegs_setX s rd r).trans (State.setX_bnk s rd r) (keepsRegs_drawSr _ maskC)
  have hsr : AgreesBut [6] ((s.setX rd r).drawSr maskC).sr (s.setX rd r).sr := agreesBut_mergeBits_maskC _ _
  unfold ShiftDone
  split
  case isTrue hrd =>
    subst hrd
    exact ⟨hsr, hregs.mono (by simp)⟩
  case isFalse hrd =>
    rw [x_drawSr _ _ hrd, State.x_setX, if_pos rfl]
    rw [sr_setX s rd r hrd] at hsr
    exact ⟨rfl, hsr, hregs⟩

theorem rotateThroughC_rol (c : Bool) (v : Word) {n : Nat} (hn : n < 17) :
    rotateThroughC .rol c v n = (BitVec.ofBool c ++ v).rotateLeft n := by
  rw [BitVec.rotateLeft_def, Nat.mod_eq_of_lt hn]
  rfl

theorem rotateThroughC_ror (c : Bool) (v : Word) {n : Nat} (hn : n < 17) :
    rotateThroughC .ror c v n = (BitVec.ofBool c ++ v).rotateRight n := by
  rw [BitVec.rotateRight_def, Nat.mod_eq_of_lt hn]
  rfl

/-- ROL and ROR complete: the low 16 of the 17 bits are written back, with the highest as C. -/
theorem shiftRotate_completes {k : LongShift} {rd rs : Reg} {s : State} {out : BitVec 17}
    (hcheck : checkShift16 k rd = none)
    (hout : rotateThroughC k s.flagC (s.x rd) ((s.x rs).toNat % 16) = out) :
    ∃ t, shiftRotate k rd rs s = .next t ∧ ShiftDone rd (out.setWidth 16) s t ∧ (rd ≠ .sr → t.flagC = out.msb) ∧
      OnlyRegisters s t := by
  refine ⟨writeBack maskC (flagBit out.msb maskC) rd (out.setWidth 16) s, ?_, ?_, fun hrd => ?_,
    onlyRegisters_writeBack _ _ rd _ s⟩
  · rw [shiftRotate_next, bitNumber_toNat, hout]
    exact ⟨hcheck, rfl⟩
  · have hregs := keepsRegs_writeBack maskC (flagBit out.msb maskC) rd (out.setWidth 16) s
    unfold ShiftDone
    split
    case isTrue hrd =>
      subst hrd
      exact ⟨agreesBut_mergeBits_maskC _ _, hregs.mono (by simp)⟩
    case isFalse hrd =>
      rw [writeBack_x _ _ _ s hrd, writeBack_sr _ _ _ s hrd]
      exact ⟨rfl, agreesBut_mergeBits_maskC _ _, hregs⟩
  · have hmask : maskC.getLsbD 6 = true := by decide
    rw [State.flagC, writeBack_sr _ _ _ s hrd, getLsbD_mergeBits, if_pos hmask, getLsbD_flagBit, hmask,
      Bool.and_true]

/-! ### Shifts into MR -/

/-- MR written and C drawn. -/
theorem setMr_drawSr_done (s : State) (hi lo : Word) :
    let t := (s.setMr (hi ++ lo)).drawSr maskC
    t.x .r4 = hi ∧ t.x .r3 = lo ∧ AgreesBut [6] t.sr s.sr ∧ KeepsRegs [.r3, .r4, .sr] s t ∧ OnlyRegisters s t := by
  intro t
  have hregs := (keepsRegs_setMr s (hi ++ lo)).trans (setMr_bnk s _) (keepsRegs_drawSr _ maskC)
  have hsr : AgreesBut [6] t.sr (s.setMr (hi ++ lo)).sr := agreesBut_mergeBits_maskC _ _
  rw [sr_setMr] at hsr
  refine ⟨?_, ?_, hsr, hregs, (onlyRegisters_setMr s _).trans (onlyRegisters_drawSr _ _)⟩
  · rw [x_drawSr _ _ (by decide), State.setMr, State.x_setX, if_neg (by decide), State.x_setX, if_pos rfl]
    exact State.extractLsb'_append_high hi lo
  · rw [x_drawSr _ _ (by decide), State.setMr, State.x_setX, if_pos rfl]
    exact State.extractLsb'_append_low hi lo

/-- ASROR and LSROR complete: the high half stays in R4, the low half is ORed into R3. -/
theorem shiftOr_right_completes {k : LongShift} (hk : k ≠ .lslor) (hcheck : checkShift16 k .r4 = none) (rs : Reg)
    (s : State) :
    let wide := orShiftWide k (s.x .r4) ((s.x rs).toNat % 32)
    ∃ t, shiftOr k .r4 rs s = .next t ∧ t.x .r4 = wide.extractLsb' 16 16 ∧
      t.x .r3 = s.x .r3 ||| wide.extractLsb' 0 16 ∧ AgreesBut [6] t.sr s.sr ∧ KeepsRegs [.r3, .r4, .sr] s t ∧
      OnlyRegisters s t := by
  intro wide
  refine ⟨_, (shiftOr_next k .r4 rs s _).2 ⟨hcheck, ?_⟩, setMr_drawSr_done s _ _⟩
  simp only [if_neg hk, longCount_eq]
  rfl

/-- LSLOR completes: the low half stays in R3, the high half is ORed into R4. -/
theorem shiftOr_left_completes (rs : Reg) (s : State) :
    let wide := (0#16 ++ s.x .r3 : BitVec 32) <<< ((s.x rs).toNat % 32)
    ∃ t, shiftOr .lslor .r3 rs s = .next t ∧ t.x .r4 = s.x .r4 ||| wide.extractLsb' 16 16 ∧
      t.x .r3 = wide.extractLsb' 0 16 ∧ AgreesBut [6] t.sr s.sr ∧ KeepsRegs [.r3, .r4, .sr] s t ∧
      OnlyRegisters s t := by
  intro wide
  have hwide : orShiftWide .lslor (s.x .r3) ((s.x rs).toNat % 32) = wide :=
    congrArg (· <<< _) (BitVec.setWidth_eq_append (by decide))
  refine ⟨_, (shiftOr_next .lslor .r3 rs s _).2 ⟨rfl, ?_⟩, setMr_drawSr_done s _ _⟩
  simp only [if_true, longCount_eq, hwide]

end Sys2Proof.Machine
end

section
/-! ## Two shifts in sequence (`42_bit_shift.md` rule R180) -/

namespace Sys2Proof.Machine

/-- After a shift of one register that register holds the result, and every other register but SR and the count of a
second shift are as before. -/
theorem ShiftDone.reads {rd : Reg} {r : Word} {s t : State} (hrd : rd ≠ .sr) (h : ShiftDone rd r s t)
    (honly : OnlyRegisters s t) :
    t.x rd = r ∧ (∀ q, q ≠ rd → q ≠ .sr → t.x q = s.x q) ∧
      ∀ q, q ≠ rd → (t.x q).toNat % 32 = (s.x q).toNat % 32 := by
  rw [ShiftDone, if_neg hrd] at h
  obtain ⟨hx, hsr, hregs⟩ := h
  obtain ⟨hfr, -, -⟩ := honly
  have hkept : ∀ q, q ≠ rd → q ≠ .sr → t.x q = s.x q := fun q hq hqsr =>
    hregs.x (bnk_congr hfr) q (by simp [hq, hqsr])
  refine ⟨hx, hkept, fun q hq => ?_⟩
  by_cases hqsr : q = .sr
  · rw [hqsr, x_sr, x_sr]
    exact hsr.mod_32_eq (by decide)
  · rw [hkept q hq hqsr]

/-- LSR of R3, then ASROR or LSROR of R4. -/
theorem lsr_then_shiftOr {k : LongShift} (hk : k ≠ .lslor) (hcheck : checkShift16 k .r4 = none) {rs : Reg}
    (hrs : rs ≠ .r3) (s : State) :
    let n := (s.x rs).toNat % 32
    let wide := orShiftWide k (s.x .r4) n
    ∃ u t, shiftPlain .lsr .r3 rs s = .next u ∧ shiftOr k .r4 rs u = .next t ∧
      t.mr = wide.extractLsb' 16 16 ++ (s.x .r3 >>> n ||| wide.extractLsb' 0 16) := by
  intro n wide
  obtain ⟨u, hu, hshift, honly⟩ := shiftPlain_completes (k := .lsr) (rd := .r3) rfl rs s
  obtain ⟨h3, hkept, hcount⟩ := hshift.reads (by decide) honly
  obtain ⟨t, ht, ht4, ht3, -⟩ := shiftOr_right_completes hk hcheck rs u
  refine ⟨u, t, hu, ht, ?_⟩
  rw [State.mr, ht4, ht3, h3, hcount rs hrs, hkept .r4 (by decide) (by decide)]
  rfl

/-- LSL of R4, then LSLOR of R3. -/
theorem lsl_then_shiftOr {rs : Reg} (hrs : rs ≠ .r4) (s : State) :
    let n := (s.x rs).toNat % 32
    let wide := (0#16 ++ s.x .r3 : BitVec 32) <<< n
    ∃ u t, shiftPlain .lsl .r4 rs s = .next u ∧ shiftOr .lslor .r3 rs u = .next t ∧
      t.mr = (s.x .r4 <<< n ||| wide.extractLsb' 16 16) ++ wide.extractLsb' 0 16 := by
  intro n wide
  obtain ⟨u, hu, hshift, honly⟩ := shiftPlain_completes (k := .lsl) (rd := .r4) rfl rs s
  obtain ⟨h4, hkept, hcount⟩ := hshift.reads (by decide) honly
  obtain ⟨t, ht, ht4, ht3, -⟩ := shiftOr_left_completes rs u
  refine ⟨u, t, hu, ht, ?_⟩
  rw [State.mr, ht4, ht3, h4, hcount rs hrs, hkept .r3 (by decide) (by decide)]
  rfl

/-! ### Right and left shifts of MR from its halves -/

section Halves

variable (hi lo : Word) (n : Nat)

/-- A right shift of MR: the low half shifted, with what the high half shifts into it. -/
theorem halves_sshiftRight :
    (((hi ++ 0#16 : BitVec 32).sshiftRight n).extractLsb' 16 16 ++
      (lo >>> n ||| ((hi ++ 0#16 : BitVec 32).sshiftRight n).extractLsb' 0 16) : BitVec 32) =
      (hi ++ lo : BitVec 32).sshiftRight n := by
  refine BitVec.eq_of_getLsbD_eq fun i hlt => ?_
  simp only [BitVec.getLsbD_append, BitVec.getLsbD_or, BitVec.getLsbD_extractLsb', BitVec.getLsbD_sshiftRight,
    BitVec.getLsbD_ushiftRight, BitVec.msb_append]
  grind

theorem halves_ushiftRight :
    (((hi ++ 0#16 : BitVec 32) >>> n).extractLsb' 16 16 ++
      (lo >>> n ||| ((hi ++ 0#16 : BitVec 32) >>> n).extractLsb' 0 16) : BitVec 32) =
      (hi ++ lo : BitVec 32) >>> n := by
  refine BitVec.eq_of_getLsbD_eq fun i hlt => ?_
  simp only [BitVec.getLsbD_append, BitVec.getLsbD_or, BitVec.getLsbD_extractLsb', BitVec.getLsbD_ushiftRight]
  grind

/-- A left shift of MR: the high half shifted, with what the low half shifts into it. -/
theorem halves_shiftLeft :
    ((hi <<< n ||| ((0#16 ++ lo : BitVec 32) <<< n).extractLsb' 16 16) ++
      ((0#16 ++ lo : BitVec 32) <<< n).extractLsb' 0 16 : BitVec 32) = (hi ++ lo : BitVec 32) <<< n := by
  refine BitVec.eq_of_getLsbD_eq fun i hlt => ?_
  simp only [BitVec.getLsbD_append, BitVec.getLsbD_or, BitVec.getLsbD_extractLsb', BitVec.getLsbD_shiftLeft]
  grind

end Halves

end Sys2Proof.Machine
end

section
/-! ## The statements of `42_bit_shift.md` settled -/

namespace Sys2Proof.Settled

open Sys2Proof.Machine

/-- Settles O33: both forms of a row are the register form of its operation, whose bit number is Rs[3:0] or the
offset. -/
theorem bitOpsOnRegister : Obligations.BitOpsOnRegister := by
  intro p hp rd rs k s hrd
  have hrow : exec (p.1 rd rs) s = bitReg p.2.2 rd (bitNumber (s.x rs)) s ∧
      exec (p.2.1 rd k) s = bitReg p.2.2 rd k s := by
    fin_cases hp <;> exact ⟨rfl, rfl⟩
  obtain ⟨hreg, hoffset⟩ := hrow
  rw [hreg, hoffset, ← bitNumber_toNat]
  exact ⟨bitReg_completes p.2.2 hrd _ s, bitReg_completes p.2.2 hrd k s⟩

/-- Settles O34: both forms of a row are the memory form of its operation. -/
theorem bitOpsOnMemory : Obligations.BitOpsOnMemory := by
  intro p hp d rd rs k s hrd hread hwrite
  have hrow : exec (p.1 d rd rs) s = bitMem p.2.2 d rd (bitNumber (s.x rs)) s ∧
      exec (p.2.1 d rd k) s = bitMem p.2.2 d rd k s := by
    fin_cases hp <;> exact ⟨rfl, rfl⟩
  obtain ⟨hreg, hoffset⟩ := hrow
  rw [hreg, hoffset, ← bitNumber_toNat]
  exact ⟨bitMem_completes p.2.2 d hrd _ hread hwrite, bitMem_completes p.2.2 d hrd k hread hwrite⟩

/-- Settles O35: each row is a shift that writes its result and draws C. -/
theorem shift16Plain : Obligations.Shift16Plain := by
  intro p hp rd rs s hrd
  have hrow : ∃ k, exec (p.1 rd rs) s = shiftPlain k rd rs s ∧ checkShift16 k rd = none ∧
      p.2 = longShiftResult k := by
    fin_cases hp
    · exact ⟨.asr, rfl, if_neg hrd, rfl⟩
    · exact ⟨.lsl, rfl, if_neg hrd, rfl⟩
    · exact ⟨.lsr, rfl, if_neg hrd, rfl⟩
  obtain ⟨k, hexec, hcheck, hresult⟩ := hrow
  rw [hexec, hresult]
  exact shiftPlain_completes hcheck rs s

/-- Settles O36: a count below 17 rotates the 17 bits as the two shifts joined do. -/
theorem shift16Rotate : Obligations.Shift16Rotate := by
  intro p hp rd rs s hrd out
  have hn : (s.x rs).toNat % 16 < 17 := by omega
  have hrow : ∃ k, exec (p.1 rd rs) s = shiftRotate k rd rs s ∧ checkShift16 k rd = none ∧
      rotateThroughC k s.flagC (s.x rd) ((s.x rs).toNat % 16) = out := by
    fin_cases hp
    · exact ⟨.rol, rfl, if_neg hrd, rotateThroughC_rol _ _ hn⟩
    · exact ⟨.ror, rfl, if_neg hrd, rotateThroughC_ror _ _ hn⟩
  obtain ⟨k, hexec, hcheck, hout⟩ := hrow
  rw [hexec]
  exact shiftRotate_completes hcheck hout

/-- Settles O37: the two right shifts are of `{R4, 0000}`, the left shift of `{0000, R3}`. -/
theorem shift16IntoMr : Obligations.Shift16IntoMr := by
  intro rs s n high low done
  exact ⟨shiftOr_right_completes (k := .asror) (by decide) rfl rs s,
    shiftOr_right_completes (k := .lsror) (by decide) rfl rs s, shiftOr_left_completes rs s⟩

/-- Settles O38: the first shift leaves the other half and the count as they were, and the second joins the halves
of the double word shifted. -/
theorem wideShiftFromTwoShifts : Obligations.WideShiftFromTwoShifts := by
  intro rs s hrs3 hrs4 n both
  obtain ⟨ua, ta, hua, hta, hasr⟩ := lsr_then_shiftOr (k := .asror) (by decide) rfl hrs3 s
  obtain ⟨ul, tl, hul, htl, hlsr⟩ := lsr_then_shiftOr (k := .lsror) (by decide) rfl hrs3 s
  obtain ⟨uu, tu, huu, htu, hlsl⟩ := lsl_then_shiftOr hrs4 s
  exact ⟨⟨ua, ta, hua, hta, hasr.trans (halves_sshiftRight _ _ n)⟩,
    ⟨ul, tl, hul, htl, hlsr.trans (halves_ushiftRight _ _ n)⟩,
    ⟨uu, tu, huu, htu, hlsl.trans (halves_shiftLeft _ _ n)⟩⟩

end Sys2Proof.Settled
end

section
/-! ## MUL (`43_mul_div_exp.md` rules R185 to R189): one meaning for three kinds -/

namespace Sys2Proof.Machine

/-! ### The words of MR -/

/-- R4 and R3 are the halves of MR (rule R27). -/
theorem halves_of_mr (s : State) : s.x .r4 = s.mr.extractLsb' 16 16 ∧ s.x .r3 = s.mr.extractLsb' 0 16 :=
  ⟨(State.extractLsb'_append_high _ _).symm, (State.extractLsb'_append_low _ _).symm⟩

theorem toNat_ofInt_32 (v : Int) : ((BitVec.ofInt 32 v).toNat : Int) = v % 2 ^ 32 := by
  rw [BitVec.toNat_ofInt]
  omega

/-! ### The range of a product -/

/-- An unsigned product is at most 65535 * 65535. -/
theorem toNat_mul_toNat_lt (a b : Word) : a.toNat * b.toNat < 2 ^ 32 :=
  calc a.toNat * b.toNat ≤ (2 ^ 16 - 1) * (2 ^ 16 - 1) :=
        Nat.mul_le_mul (Nat.le_sub_one_of_lt a.isLt) (Nat.le_sub_one_of_lt b.isLt)
    _ < 2 ^ 32 := by decide

/-- The unsigned product fits MR read unsigned. -/
theorem toNat_ofInt_product (a b : Word) :
    ((BitVec.ofInt 32 (rdValue .uu a * rsValue .uu b)).toNat : Int) = rdValue .uu a * rsValue .uu b := by
  have hfits := toNat_mul_toNat_lt a b
  have hproduct : rdValue .uu a * rsValue .uu b = (a.toNat * b.toNat : Nat) := (Int.natCast_mul _ _).symm
  rw [toNat_ofInt_32, hproduct, Int.emod_eq_of_lt (Int.natCast_nonneg _) (mod_cast hfits)]

theorem natAbs_toInt_le (v : Word) : v.toInt.natAbs ≤ 2 ^ 15 := by
  have hlow := v.le_toInt
  have hhigh := v.toInt_lt
  omega

theorem natAbs_rdValue_lt (k : MulKind) (v : Word) : (rdValue k v).natAbs < 2 ^ 16 := by
  have hunsigned := v.isLt
  have hsigned := natAbs_toInt_le v
  cases k <;> simp only [rdValue] <;> omega

/-- A product with a signed operand is at most 65535 * 32768 in magnitude. -/
theorem natAbs_product_lt {k : MulKind} (hk : k ≠ .uu) (a b : Word) :
    (rdValue k a * rsValue k b).natAbs < 2 ^ 31 := by
  have hsigned : rsValue k b = b.toInt := by
    cases k with
    | uu => exact absurd rfl hk
    | us => rfl
    | ss => rfl
  rw [Int.natAbs_mul, hsigned]
  calc (rdValue k a).natAbs * b.toInt.natAbs ≤ (2 ^ 16 - 1) * 2 ^ 15 :=
        Nat.mul_le_mul (Nat.le_sub_one_of_lt (natAbs_rdValue_lt k a)) (natAbs_toInt_le b)
    _ < 2 ^ 31 := by decide

/-- A product with a signed operand fits MR read signed. -/
theorem toInt_ofInt_product {k : MulKind} (hk : k ≠ .uu) (a b : Word) :
    (BitVec.ofInt 32 (rdValue k a * rsValue k b)).toInt = rdValue k a * rsValue k b := by
  have hfits := natAbs_product_lt hk a b
  rw [BitVec.toInt_ofInt, Int.bmod_eq_of_le (by omega) (by omega)]

/-! ### Completion -/

/-- The cycles of an instruction of one word that reads no data. -/
theorem waits_oneFetch (base : Nat) (s : State) : waits base 1 0 s = base + s.plat.waitPm := by
  rw [waits, Nat.one_mul, Nat.zero_mul, Nat.add_zero]

/-- Where neither operand is PC, MUL writes MR with the exact product. -/
theorem multiply_completes (k : MulKind) {rd rs : Reg} (hrd : rd ≠ .pc) (hrs : rs ≠ .pc) (s : State) :
    multiply k rd rs s = .next (s.setMr (BitVec.ofInt 32 (exactProduct k s.fra (s.x rd) (s.x rs)))) := by
  rw [multiply, checkMul_none.2 ⟨hrd, hrs⟩, productOf_eq]
  rfl

theorem exactProduct_of_fra (k : MulKind) {fraction : Bool} (h : fraction = true) (a b : Word) :
    exactProduct k fraction a b = 2 * (rdValue k a * rsValue k b) := by
  rw [exactProduct, if_pos h, Int.mul_comm]

theorem exactProduct_of_not_fra (k : MulKind) {fraction : Bool} (h : fraction = false) (a b : Word) :
    exactProduct k fraction a b = rdValue k a * rsValue k b := by
  rw [exactProduct, h, if_neg Bool.false_ne_true, Int.mul_one]

/-- What MUL leaves in R4 and R3: a reading of MR under which the product survives its 32 bits gives the product
without fraction mode, and in fraction mode MR holds twice the product modulo 2^32 (rule R186). -/
theorem multiply_leaves (k : MulKind) {rd rs : Reg} (hrd : rd ≠ .pc) (hrs : rs ≠ .pc) (s : State)
    {reads : BitVec 32 → Int} (hreads : let product := rdValue k (s.x rd) * rsValue k (s.x rs)
      reads (BitVec.ofInt 32 product) = product) :
    let product := rdValue k (s.x rd) * rsValue k (s.x rs)
    ∃ (t : State) (mr : BitVec 32), multiply k rd rs s = .next t ∧ t.x .r4 = mr.extractLsb' 16 16 ∧
      t.x .r3 = mr.extractLsb' 0 16 ∧ (s.fra = false → reads mr = product) ∧
      (s.fra = true → (mr.toNat : Int) = (2 * product) % 2 ^ 32) := by
  refine ⟨_, _, multiply_completes k hrd hrs s, (halves_of_mr _).1, (halves_of_mr _).2, fun h => ?_, fun h => ?_⟩
  · rw [mr_setMr, exactProduct_of_not_fra k h, hreads]
  · rw [mr_setMr, exactProduct_of_fra k h, toNat_ofInt_32]

/-- In fraction mode MR ends as twice the product, its bits above 31 dropped. -/
theorem multiply_fraction (k : MulKind) {rd rs : Reg} (hrd : rd ≠ .pc) (hrs : rs ≠ .pc) {s : State}
    (hfra : s.fra = true) :
    ∃ t, multiply k rd rs s = .next t ∧ t.mr = BitVec.ofInt 32 (2 * (rdValue k (s.x rd) * rsValue k (s.x rs))) := by
  refine ⟨_, multiply_completes k hrd hrs s, ?_⟩
  rw [mr_setMr, exactProduct_of_fra k hfra]

end Sys2Proof.Machine
end

section
/-! ## A division by DIVQ steps (`43_mul_div_exp.md` rules R197 to R199) -/

namespace Sys2Proof.Machine

/-! ### What a division step leaves alone -/

/-- Nothing but R3, R4 and FR.AQ changed. -/
def DivFrame (s t : State) : Prop :=
  KeepsFrBut [14] s t ∧ KeepsRegs [.r3, .r4] s t ∧ SameMem s t ∧ SameRest s t

namespace DivFrame

variable {s t u : State}

theorem refl (s : State) : DivFrame s s := ⟨fun _ _ => rfl, fun _ _ => rfl, fun _ => rfl, .refl s⟩

theorem bnk (h : DivFrame s t) : t.bnk = s.bnk := by
  obtain ⟨hfr, -⟩ := h
  exact hfr 13 (by decide)

theorem trans (h : DivFrame s t) (g : DivFrame t u) : DivFrame s u := by
  have hb := h.bnk
  obtain ⟨hfr, hregs, hmem, hrest⟩ := h
  obtain ⟨gfr, gregs, gmem, grest⟩ := g
  exact ⟨fun i hi => (gfr i hi).trans (hfr i hi), (hregs.trans hb gregs).mono (by simp),
    fun a => (gmem a).trans (hmem a), hrest.trans grest⟩

theorem divisor (h : DivFrame s t) : t.x .r2 = s.x .r2 := by
  have hb := h.bnk
  obtain ⟨-, hregs, -⟩ := h
  exact hregs.x hb .r2 (by decide)

theorem rule (h : DivFrame s t) : t.plat.divStep = s.plat.divStep := by
  obtain ⟨-, -, -, -, -, -, hplat, -⟩ := h
  rw [hplat]

end DivFrame

/-! ### One step -/

/-- A word that holds an integer in its signed range has that integer's sign. -/
theorem msb_ofInt {v : Int} (hlow : -2 ^ 15 ≤ v) (hhigh : v < 2 ^ 15) :
    (BitVec.ofInt 16 v).msb = decide (v < 0) := by
  rw [BitVec.msb_eq_toInt, BitVec.toInt_ofInt, Int.bmod_eq_of_le (by omega) (by omega)]

/-- The halves of an integer's 32 bits, written as a high part and a low word. -/
theorem append_ofInt {a : Int} {w : Nat} (hw : w < 2 ^ 16) :
    (BitVec.ofInt 16 a ++ BitVec.ofNat 16 w : BitVec 32) = BitVec.ofInt 32 (2 ^ 16 * a + w) := by
  apply BitVec.eq_of_toNat_eq
  rw [BitVec.toNat_append, ← Nat.shiftLeft_add_eq_or_of_lt (BitVec.isLt _), Nat.shiftLeft_eq]
  simp only [BitVec.toNat_ofInt, BitVec.toNat_ofNat]
  omega

theorem append_inj {a b c d : Word} (h : (a ++ b : BitVec 32) = c ++ d) : a = c ∧ b = d := by
  have hhigh := congrArg (BitVec.extractLsb' 16 16) h
  have hlow := congrArg (BitVec.extractLsb' 0 16) h
  rw [State.extractLsb'_append_high, State.extractLsb'_append_high] at hhigh
  rw [State.extractLsb'_append_low, State.extractLsb'_append_low] at hlow
  exact ⟨hhigh, hlow⟩

/-- Shifted left by one with a bit entering, an integer is doubled and the bit added. -/
theorem shiftLeft_one_or (v : Int) (b : Bool) :
    BitVec.ofInt 32 v <<< 1 ||| (BitVec.ofBool b).setWidth 32 = BitVec.ofInt 32 (2 * v + b.toNat) := by
  have hdisjoint : BitVec.ofInt 32 v <<< 1 &&& (BitVec.ofBool b).setWidth 32 = 0#32 := by
    refine BitVec.eq_of_getLsbD_eq fun i _ => ?_
    cases i <;> simp
  have hbit : b.toNat < 2 := Bool.toNat_lt b
  rw [← BitVec.add_eq_or_of_and_eq_zero _ _ hdisjoint]
  apply BitVec.eq_of_toNat_eq
  rw [BitVec.toNat_add, BitVec.toNat_shiftLeft, Nat.shiftLeft_eq, BitVec.toNat_setWidth, BitVec.toNat_ofBool]
  simp only [BitVec.toNat_ofInt]
  omega

/-- By how much the remainder in MR falls short of the true one: a trial subtraction that came out negative, which AQ
records, is not undone. -/
def shortfall (aq : Bool) (d : Nat) : Nat := if aq then d else 0

theorem shortfall_true (d : Nat) : shortfall true d = d := rfl

theorem shortfall_false (d : Nat) : shortfall false d = 0 := rfl

/-- The idea of the non-restoring step: once the shortfall is doubled with the remainder, adding the divisor gives what
subtracting it from the true one would. -/
theorem addSub_divisor (p : Int) (aq : Bool) (d : Word) :
    (if aq = true then BitVec.ofInt 16 (p - 2 * shortfall aq d.toNat) + d
      else BitVec.ofInt 16 (p - 2 * shortfall aq d.toNat) - d) = BitVec.ofInt 16 (p - d.toNat) := by
  apply BitVec.eq_of_toNat_eq
  cases aq with
  | false =>
    rw [if_neg Bool.false_ne_true, shortfall_false, BitVec.toNat_sub, BitVec.toNat_ofInt, BitVec.toNat_ofInt]
    omega
  | true =>
    rw [if_pos rfl, shortfall_true, BitVec.toNat_add, BitVec.toNat_ofInt, BitVec.toNat_ofInt]
    omega

/-- One DIVQ on a chip with the default rule, from MR holding `p`, less twice the shortfall, above a word `w`: the step
tries `p - d`, and both AQ and the quotient bit that enters say whether it is negative. -/
theorem divq_step {s : State} {p w : Nat} (hrule : s.plat.divStep = .default) (hd : (s.x .r2).toNat ≤ 0x7FFF)
    (hp : p < 2 * (s.x .r2).toNat) (hw : w < 2 ^ 16)
    (hmr : s.mr = BitVec.ofInt 32 (2 ^ 16 * (p - 2 * shortfall s.aq (s.x .r2).toNat) + w)) :
    ∃ t, exec .divq s = .next t ∧ t.aq = decide (p < (s.x .r2).toNat) ∧
      t.mr = BitVec.ofInt 32 (2 * (2 ^ 16 * (p - (s.x .r2).toNat) + w) + (!t.aq).toNat) ∧ DivFrame s t := by
  obtain ⟨t, hexec, hdefault, hframe⟩ := (Settled.divisionSteps s).2
  obtain ⟨htmr, htaq⟩ := hdefault hrule
  rw [← append_ofInt hw] at hmr
  obtain ⟨h4, h3⟩ := append_inj hmr
  have hpos : (s.x .r2).msb = false := by rw [BitVec.msb_eq_toNat, decide_eq_false_iff_not]; omega
  rw [h4, addSub_divisor] at htmr htaq
  rw [hpos, Bool.xor_false, msb_ofInt (by omega) (by omega)] at htaq
  rw [hpos, Bool.xor_false, msb_ofInt (by omega) (by omega), h3, append_ofInt hw, shiftLeft_one_or, ← htaq] at htmr
  refine ⟨t, hexec, ?_, htmr, hframe⟩
  rw [htaq, decide_eq_decide]
  omega

/-! ### A row of steps -/

/-- Where a division by `d` stands when `m` steps are done and `n` are to come: the bits of the dividend used so far
leave the remainder `rem` and gave the quotient bits `quot`, and the bits `low` are to come.  MR holds all three, the
remainder less its shortfall. -/
structure DivAt (n m d rem low quot : Nat) (s : State) : Prop where
  rule : s.plat.divStep = .default
  divisor : (s.x .r2).toNat = d
  divisor_le : d ≤ 0x7FFF
  rem_lt : rem < d
  low_lt : low < 2 ^ n
  quot_lt : quot < 2 ^ m
  mr : s.mr = BitVec.ofInt 32 (2 ^ 17 * (rem - shortfall s.aq d) + 2 ^ (m + 1) * low + quot)

/-- The bits to come and the quotient bits fill one word once the next bit is brought down. -/
theorem waiting_lt {n m low quot : Nat} (hn : n + 1 + m = 16) (hlow : low < 2 ^ n) (hquot : quot < 2 ^ m) :
    2 ^ (m + 1) * low + quot < 2 ^ 16 :=
  calc 2 ^ (m + 1) * low + quot < 2 ^ (m + 1) * low + 2 ^ (m + 1) :=
        Nat.add_lt_add_left (hquot.trans (Nat.pow_lt_pow_right (by decide) (Nat.lt_succ_self m))) _
    _ = 2 ^ (m + 1) * (low + 1) := (Nat.mul_succ _ _).symm
    _ ≤ 2 ^ (m + 1) * 2 ^ n := Nat.mul_le_mul_left _ hlow
    _ = 2 ^ 16 := by rw [← Nat.pow_add, ← hn]; congr 1; omega

/-- The next bit to come is bit 16 above the other bits to come. -/
theorem waiting_split {n m : Nat} (hn : n + 1 + m = 16) (low : Nat) :
    2 ^ (m + 1) * low = 2 ^ 16 * (low / 2 ^ n) + 2 ^ (m + 1) * (low % 2 ^ n) := by
  have hpow : 2 ^ 16 = 2 ^ (m + 1) * 2 ^ n := by rw [← Nat.pow_add, ← hn]; congr 1; omega
  rw [hpow, Nat.mul_assoc, ← Nat.mul_add, Nat.div_add_mod]

/-- What a trial subtraction says of a division whose quotient is 0 or 1: the difference is the remainder, short of
the divisor when it is negative, and the quotient is 1 when it is not. -/
theorem trial_subtraction {p d : Nat} (hp : p < 2 * d) :
    (p : Int) - d = (p % d : Nat) - shortfall (decide (p < d)) d ∧
      p / d = (!decide (p < d)).toNat := by
  by_cases hneg : p < d
  · rw [Nat.mod_eq_of_lt hneg, Nat.div_eq_of_lt hneg, decide_eq_true hneg]
    exact ⟨rfl, rfl⟩
  · have hmod : p % d = p - d := by rw [Nat.mod_eq_sub_mod (by omega), Nat.mod_eq_of_lt (by omega)]
    rw [hmod, Nat.div_eq_of_lt_le (k := 1) (by omega) (by omega), decide_eq_false hneg, shortfall_false]
    exact ⟨by omega, rfl⟩

/-- A step brings down the next bit of the dividend and divides once. -/
theorem DivAt.step {n m d rem low quot : Nat} {s : State} (hn : n + 1 + m = 16)
    (h : DivAt (n + 1) m d rem low quot s) :
    let p := 2 * rem + low / 2 ^ n
    ∃ t, exec .divq s = .next t ∧ DivAt n (m + 1) d (p % d) (low % 2 ^ n) (2 * quot + p / d) t ∧ DivFrame s t := by
  intro p
  obtain ⟨hrule, rfl, hle, hrem, hlow, hquot, hmr⟩ := h
  have hbit : low / 2 ^ n < 2 := Nat.div_lt_of_lt_mul (by rwa [← Nat.pow_succ])
  have hp : p < 2 * (s.x .r2).toNat := by omega
  have hlow' : low % 2 ^ n < 2 ^ n := Nat.mod_lt _ (Nat.two_pow_pos n)
  have hbefore : (2 ^ 17 * (rem - shortfall s.aq (s.x .r2).toNat) + 2 ^ (m + 1) * low + quot : Int) =
      2 ^ 16 * (p - 2 * shortfall s.aq (s.x .r2).toNat) + (2 ^ (m + 1) * (low % 2 ^ n) + quot : Nat) := by
    have hsplit : (2 ^ (m + 1) * low : Int) = 2 ^ 16 * (low / 2 ^ n : Nat) + 2 ^ (m + 1) * (low % 2 ^ n : Nat) :=
      mod_cast waiting_split hn low
    rw [hsplit]
    push_cast [p]
    ring
  obtain ⟨t, hexec, haq, htmr, hframe⟩ :=
    divq_step hrule hle hp (waiting_lt hn hlow' hquot) (hmr.trans (congrArg (BitVec.ofInt 32) hbefore))
  obtain ⟨htrial, hone⟩ := trial_subtraction hp
  rw [← haq] at htrial hone
  refine ⟨t, hexec, ⟨hframe.rule.trans hrule, congrArg BitVec.toNat hframe.divisor, hle, Nat.mod_lt _ (by omega),
    hlow', ?_, ?_⟩, hframe⟩
  · have hbound := Bool.toNat_lt (!t.aq)
    rw [hone, Nat.pow_succ]
    omega
  · rw [htmr, htrial, hone]
    congr 1
    push_cast
    ring

/-- One bit of long division: the quotient of the bits brought down, then that of the rest. -/
theorem long_division {d : Nat} (hd : 0 < d) (n rem low quot : Nat) :
    let p := 2 * rem + low / 2 ^ n
    (2 * quot + p / d) * 2 ^ n + (p % d * 2 ^ n + low % 2 ^ n) / d =
      quot * 2 ^ (n + 1) + (rem * 2 ^ (n + 1) + low) / d := by
  intro p
  have hsplit : rem * 2 ^ (n + 1) + low = p % d * 2 ^ n + low % 2 ^ n + d * (p / d * 2 ^ n) :=
    calc rem * 2 ^ (n + 1) + low = rem * 2 ^ (n + 1) + (2 ^ n * (low / 2 ^ n) + low % 2 ^ n) := by
          rw [Nat.div_add_mod]
      _ = p * 2 ^ n + low % 2 ^ n := by ring
      _ = (d * (p / d) + p % d) * 2 ^ n + low % 2 ^ n := by rw [Nat.div_add_mod]
      _ = p % d * 2 ^ n + low % 2 ^ n + d * (p / d * 2 ^ n) := by ring
  rw [hsplit, Nat.add_mul_div_left _ _ hd]
  ring

/-- With no step to come, R3 holds the quotient bits. -/
theorem DivAt.quotient {d rem low quot : Nat} {s : State} (h : DivAt 0 16 d rem low quot s) :
    (s.x .r3).toNat = quot ∧ (rem * 2 ^ 0 + low) / d = 0 := by
  obtain ⟨-, -, -, hrem, hlow, hquot, hmr⟩ := h
  obtain rfl : low = 0 := by omega
  refine ⟨?_, Nat.div_eq_of_lt (by omega)⟩
  rw [(halves_of_mr s).2, hmr, BitVec.extractLsb'_toNat, Nat.shiftRight_zero]
  have hword := toNat_ofInt_32 (2 ^ 17 * (rem - shortfall s.aq d) + 2 ^ (16 + 1) * (0 : Nat) + quot)
  omega

/-- The steps to come divide what the remainder and the bits to come spell. -/
theorem DivAt.divides {n m d rem low quot : Nat} {s : State} (hn : n + m = 16) (h : DivAt n m d rem low quot s) :
    ∃ t, execTimes .divq n s = .next t ∧ (t.x .r3).toNat = quot * 2 ^ n + (rem * 2 ^ n + low) / d ∧ DivFrame s t := by
  induction n generalizing m rem low quot s with
  | zero =>
    obtain rfl : m = 16 := by omega
    obtain ⟨hquot, hzero⟩ := h.quotient
    refine ⟨s, rfl, ?_, .refl s⟩
    rw [hzero, hquot]
    omega
  | succ n ih =>
    have hd : 0 < d := Nat.zero_lt_of_lt h.rem_lt
    obtain ⟨t, hexec, hat, hframe⟩ := h.step hn
    obtain ⟨u, hrun, hquot, hrest⟩ := ih (by omega) hat
    refine ⟨u, ?_, hquot.trans (long_division hd n rem low quot), hframe.trans hrest⟩
    rw [execTimes, hexec, andThen_next_left]
    exact hrun

/-- Before the first step the remainder is the high half of the dividend, and its low half is to come. -/
theorem DivAt.start {s : State} {dividend : Nat} (hrule : s.plat.divStep = .default) (haq : s.aq = false)
    (hmr : s.mr = BitVec.ofNat 32 (2 * dividend)) (hle : (s.x .r2).toNat ≤ 0x7FFF)
    (hfits : dividend < (s.x .r2).toNat * 2 ^ 16) :
    DivAt 16 0 (s.x .r2).toNat (dividend / 2 ^ 16) (dividend % 2 ^ 16) 0 s := by
  refine ⟨hrule, rfl, hle, Nat.div_lt_of_lt_mul (by omega), Nat.mod_lt _ (by decide), by decide, ?_⟩
  rw [hmr, haq, shortfall_false, ← BitVec.ofInt_natCast]
  congr 1
  omega

end Sys2Proof.Machine
end

section
/-! ## EXP and NOP (`43_mul_div_exp.md` rules R200, R201): words of one pattern, and a step at NOP -/

namespace Sys2Proof.Machine

/-- In the control group of EXP and NOP the bits outside the mask 0xF1E7 are ignored (rule R94, decision D14), so what is
left to decode is the canonical word. -/
theorem decode_controlWord {i : Instr} (hi : i.wellFormed = true) (hone : i.shape.word1 = none) {w0 : Word}
    (hgroup : i.shape.word0 &&& 0xF1E0#16 = 0xF160#16) (h : w0 &&& 0xF1E7#16 = i.shape.word0) (w1 : Word) :
    decode w0 w1 = .ok i ∧ isTwoWord w0 = false := by
  have hpattern : w0 &&& 0xF1E0#16 = 0xF160#16 :=
    calc
      w0 &&& 0xF1E0#16 = w0 &&& 0xF1E7#16 &&& 0xF1E0#16 := (BitVec.and_assoc w0 0xF1E7#16 0xF1E0#16).symm
      _ = 0xF160#16 := by rw [h, hgroup]
  obtain ⟨-, hclear, -⟩ := Settled.ignoredBitsDecodeAlike w0 w1
  have hcanonical : decode i.shape.word0 w1 = .ok i := by
    have hd := decode_word0 hi w1
    rwa [hone] at hd
  have hdecode : decode w0 w1 = .ok i := by rw [hclear hpattern, h, hcanonical]
  refine ⟨hdecode, Bool.eq_false_iff.2 fun h2 => ?_⟩
  rw [isTwoWord_of_decode hdecode, Instr.words, hone] at h2
  exact absurd h2 (by decide)

theorem decode_expWord {w0 : Word} (h : w0 &&& 0xF1E7#16 = 0xF164#16) (w1 : Word) :
    decode w0 w1 = .ok .exp ∧ isTwoWord w0 = false :=
  decode_controlWord (i := .exp) (by decide) rfl (by decide) h w1

theorem decode_nopWord {w0 : Word} (h : w0 &&& 0xF1E7#16 = 0xF165#16) (w1 : Word) :
    decode w0 w1 = .ok .nop ∧ isTwoWord w0 = false :=
  decode_controlWord (i := .nop) (by decide) rfl (by decide) h w1

/-- EXP's count, at most 15, as R2 holds it. -/
theorem toNat_signRun (v : Word) : (BitVec.ofNat 16 (signRun v 15)).toNat = signRun v 15 := by
  have hle := (signRun_spec v 15).1
  rw [BitVec.toNat_ofNat, Nat.mod_eq_of_lt (by omega)]

theorem exec_exp (s : State) : exec .exp s = .next (s.setX .r2 (BitVec.ofNat 16 (signRun (s.x .r4) 15))) := rfl

theorem exec_nop (s : State) : exec .nop s = .next s := rfl

end Sys2Proof.Machine
end

section
/-! ## The statements of `43_mul_div_exp.md` settled -/

namespace Sys2Proof.Settled

open Sys2Proof.Machine

/-- Settles O32: unsigned*unsigned fits MR read unsigned and the other two fit it read signed; in fraction mode the
last two clauses are what 2^31 and an unsigned product of 2^31 or more become. -/
theorem productFitsUnlessFraction : Obligations.ProductFitsUnlessFraction := by
  intro rd rs s hrd hrs a b leaves
  refine ⟨multiply_leaves .uu hrd hrs s (toNat_ofInt_product a b),
    multiply_leaves .us hrd hrs s (toInt_ofInt_product (k := .us) (by decide) a b),
    multiply_leaves .ss hrd hrs s (toInt_ofInt_product (k := .ss) (by decide) a b), fun hfra ha hb => ?_,
    fun hfra hlarge => ?_⟩
  · obtain ⟨t, ht, hmr⟩ := multiply_fraction .ss hrd hrs hfra
    refine ⟨t, ht, hmr.trans ?_⟩
    change BitVec.ofInt 32 (2 * (a.toInt * b.toInt)) = _
    rw [ha, hb]
    decide
  · obtain ⟨t, ht, hmr⟩ := multiply_fraction .uu hrd hrs hfra
    refine ⟨t, ht, ?_⟩
    have hvalue : (t.mr.toNat : Int) = 2 * (a.toNat * b.toNat : Nat) % 2 ^ 32 :=
      (congrArg (fun v : BitVec 32 => (v.toNat : Int)) hmr).trans (toNat_ofInt_32 _)
    have hfits := toNat_mul_toNat_lt a b
    omega

/-- Settles O39: the three kinds are one meaning, which writes MR. -/
theorem multiplyProduct : Obligations.MultiplyProduct := by
  intro p hp rd rs s hrd hrs
  have hrow : exec (p.1 rd rs) s = multiply p.2.1 rd rs s ∧
      cyclesOf (p.1 rd rs).shape s = p.2.2 + s.plat.waitPm := by
    fin_cases hp <;> exact ⟨rfl, waits_oneFetch _ s⟩
  obtain ⟨hexec, hcycles⟩ := hrow
  refine ⟨_, hexec.trans (multiply_completes p.2.1 hrd hrs s), mr_setMr s _, keepsRegs_setMr s _,
    onlyRegisters_setMr s _, fun hwait => ?_⟩
  rw [hcycles, hwait, Nat.add_zero]

/-- Settles O42: sixteen steps from the start of a division leave the quotient of the whole dividend. -/
theorem sixteenDivqDivide : Obligations.SixteenDivqDivide := by
  intro s dividend hrule haq _ hmr hpos hle hquotient
  have hfits : dividend < (s.x .r2).toNat * 2 ^ 16 := by
    rwa [Nat.div_lt_iff_lt_mul hpos, Nat.mul_comm] at hquotient
  obtain ⟨t, hrun, h3, hframe⟩ := (DivAt.start hrule haq hmr hle hfits).divides rfl
  refine ⟨t, hrun, ?_, hframe⟩
  rw [h3, Nat.zero_mul, Nat.zero_add, Nat.mul_comm, Nat.div_add_mod]

/-- Settles O43: the count is the run of bits below bit 15 that equal it, and R2 alone is written. -/
theorem expCountsRedundantSigns : Obligations.ExpCountsRedundantSigns := by
  refine ⟨fun w0 w1 h => decode_expWord h w1, by decide, fun s => ⟨?_, _, exec_exp s, ?_, keepsRegs_setX s .r2 _,
    onlyRegisters_setX s .r2 _⟩⟩
  · exact waits_oneFetch 2 s
  · rw [State.x_setX, if_pos rfl, toNat_signRun]
    exact signRun_spec (s.x .r4) 15

/-- Settles O44: a step at a word of NOP's pattern runs NOP from the state past that word. -/
theorem nopOnlyAdvances : Obligations.NopOnlyAdvances := by
  refine ⟨fun w0 w1 h => decode_nopWord h w1, by decide, exec_nop, fun s hreset hquiet hread hword => ?_⟩
  obtain ⟨hdecode, -⟩ := decode_nopWord hword (wordAt s (s.lpc + 1#22))
  obtain ⟨hstep, -⟩ := stepRunsTheDecodedInstruction s .nop hreset hquiet hread (absurd · (by decide)) hdecode
  rw [hstep _ (exec_nop _)]
  exact congrArg (fun n => Host.Outcome.next (State.addCycles _ n)) (waits_oneFetch 2 _)

end Sys2Proof.Settled
end

section
/-! ## Jumps (`44_control_flow.md` rules R210, R228, R229): a write to LPC and nothing else -/

namespace Sys2Proof.Machine

/-! ### The write to LPC -/

theorem cs_setLpc (s : State) (a : Addr) : (s.setLpc a).cs = a.extractLsb' 16 6 := by
  rw [State.cs, State.setLpc_sr]
  exact State.extractLsb'_append_low _ _

theorem ds_setLpc (s : State) (a : Addr) : (s.setLpc a).ds = s.ds :=
  BitVec.eq_of_getLsbD_eq fun i hi => by
    rw [State.ds, State.ds, BitVec.getLsbD_extractLsb', BitVec.getLsbD_extractLsb', sr_setLpc_high s a (by omega)]

theorem keepsFlags_setLpc (s : State) (a : Addr) : KeepsFlags s (s.setLpc a) :=
  ⟨sr_setLpc_high s a (by decide), sr_setLpc_high s a (by decide), sr_setLpc_high s a (by decide),
    sr_setLpc_high s a (by decide)⟩

theorem keepsRegs_setLpc (s : State) (a : Addr) : KeepsRegs [.pc, .sr] s (s.setLpc a) := by
  intro p hp
  obtain ⟨hpc, hsr⟩ : p ≠ .pc ∧ p ≠ .sr := by simpa [physOf] using hp
  rw [State.get_setLpc, if_neg hpc, if_neg hsr]

theorem onlyRegisters_setLpc (s : State) (a : Addr) : OnlyRegisters s (s.setLpc a) :=
  ⟨State.setLpc_fr s a, sameMem_of_eq (State.setLpc_mem s a), sameRest_setLpc s a⟩

/-- The frame of a jump: all but PC and CS. -/
theorem setLpc_frame (s : State) (a : Addr) :
    (s.setLpc a).ds = s.ds ∧ KeepsFlags s (s.setLpc a) ∧ KeepsRegs [.pc, .sr] s (s.setLpc a) ∧
      OnlyRegisters s (s.setLpc a) :=
  ⟨ds_setLpc s a, keepsFlags_setLpc s a, keepsRegs_setLpc s a, onlyRegisters_setLpc s a⟩

/-- Writing to LPC what it holds changes nothing. -/
theorem setLpc_lpc (s : State) : s.setLpc s.lpc = s := by
  have hcs : s.lpc.extractLsb' 16 6 = s.cs := State.extractLsb'_append_high s.cs s.pc
  have hpc : s.lpc.extractLsb' 0 16 = s.pc := State.extractLsb'_append_low s.cs s.pc
  have hsr : s.sr.extractLsb' 6 10 ++ s.cs = s.sr := State.append_extractLsb' (n := 10) (m := 6) s.sr
  rw [State.setLpc, State.setCs, hcs, hpc, hsr]

/-! ### The far jumps -/

theorem waits_twoFetches (base : Nat) (s : State) : waits base 2 0 s = base + 2 * s.plat.waitPm := by
  rw [waits, Nat.zero_mul, Nat.add_zero]

theorem exec_goto (addr : Addr) (s : State) : exec (.goto addr) s = .next (s.setLpc addr) := rfl

theorem exec_gotoMr (s : State) : exec .gotoMr s = .next (s.setLpc (mrTarget s)) := rfl

/-- The words of GOTO A22: bits 5:0 of the first are the segment. -/
theorem word0_goto (hi : BitVec 6) (lo : Word) :
    (Instr.goto (hi ++ lo)).shape.word0 = 0xFE80#16 ||| hi.setWidth 16 := by
  have hpack : ∀ seg : BitVec 6, packImm6 15#4 7#3 2#3 seg = 0xFE80#16 ||| seg.setWidth 16 := by decide
  have hseg : (Instr.goto (hi ++ lo)).shape.word0 = packImm6 15#4 7#3 2#3 hi :=
    congrArg (packImm6 15#4 7#3 2#3) (State.extractLsb'_append_high hi lo)
  rw [hseg, hpack]

theorem word1_goto (hi : BitVec 6) (lo : Word) : (Instr.goto (hi ++ lo)).shape.word1 = some lo :=
  congrArg some (State.extractLsb'_append_low hi lo)

/-! ### The branches -/

theorem exec_branch {i : Instr} {c : Cond} {back : Bool} {imm : BitVec 6} (hi : i.shape = .branch c back imm)
    (s : State) :
    exec i s = .next (s.setLpc (if condHolds c s = true then branchTarget back imm s else s.lpc)) := by
  rw [exec_shape, hi]
  refine (branch_next c back imm s _).2 ?_
  split
  · rfl
  · exact setLpc_lpc s

theorem cyclesOf_branch (c : Cond) (back : Bool) (imm : BitVec 6) (s : State) :
    cyclesOf (.branch c back imm) s =
      if condHolds c s = true then 4 + 2 * s.plat.waitPm else 2 + s.plat.waitPm := by
  rw [← waits_twoFetches, ← waits_oneFetch]
  rfl

end Sys2Proof.Machine
end

section
/-! ## Conditions (`44_control_flow.md` rules R211 to R226, R232): what they say after a compare or a subtract -/

namespace Sys2Proof.Machine

/-! ### The conditions on two flags -/

section TwoFlags

variable (s : State)

theorem condHolds_be : condHolds .be s = (s.flagZ || !s.flagC) := by simp [condHolds]

theorem condHolds_le : condHolds .le s = (s.flagZ || s.flagS) := by simp [condHolds]

theorem condHolds_vc : condHolds .vc s = decide (s.flagN = s.flagS) := rfl

theorem condHolds_vs : condHolds .vs s = decide (s.flagN ≠ s.flagS) := by
  rw [decide_not]
  rfl

end TwoFlags

/-! ### The flags of a difference -/

/-- The flags of `t` are those of a compare of `a` with `b`: N of the 16-bit difference, S of the exact one, and C
when there is no borrow. -/
structure Compared (a b : Word) (t : State) : Prop where
  flagN : t.flagN = (a - b).msb
  flagZ : t.flagZ = decide (a = b)
  flagS : t.flagS = decide (a.toInt < b.toInt)
  flagC : t.flagC = decide (b.toNat ≤ a.toNat)

/-- An ALU operation leaves its flags unless its destination is SR. -/
theorem AluDone.flags {op : AluOp} {rd : Reg} {a b : Word} {also : List Reg} {ds : BitVec 6} {s t : State}
    (h : AluDone op rd a b also ds s t) (hdest : (op = .cmp ∨ op = .test) ∨ rd ≠ .sr) : FlagsAfter op a b s t := by
  unfold AluDone at h
  split_ifs at h with hop hrd
  · obtain ⟨hflags, -⟩ := h
    exact hflags
  · exact absurd hrd (hdest.resolve_left hop)
  · obtain ⟨-, hflags, -⟩ := h
    exact hflags

/-- CMP and SUB have the same flags. -/
theorem compared_of_flagsAfter {op : AluOp} (hop : op = .cmp ∨ op = .sub) {a b : Word} {s t : State}
    (h : FlagsAfter op a b s t) : Compared a b t := by
  have hflags : FlagsAfter .cmp a b s t := by obtain rfl | rfl := hop <;> exact h
  obtain ⟨hn, hz, hs, hc⟩ := hflags
  have hzero : opResult .cmp a b s.flagC = 0#16 ↔ a = b := by
    change a - b = 0#16 ↔ a = b
    bv_omega
  have hsign : exactSigned .cmp a b s.flagC < 0 ↔ a.toInt < b.toInt := by
    change a.toInt - b.toInt < 0 ↔ a.toInt < b.toInt
    omega
  exact ⟨hn, hz.trans (decide_eq_decide.2 hzero), hs.trans (decide_eq_decide.2 hsign), hc⟩

/-- The sign of the 16-bit difference is that of the exact one unless the exact one does not fit. -/
theorem msb_sub_ne_sign_iff (a b : Word) :
    (a - b).msb ≠ decide (a.toInt < b.toInt) ↔
      a.toInt - b.toInt < -32768 ∨ 32767 < a.toInt - b.toInt := by
  have ha := a.isLt
  have hb := b.isLt
  rw [word_msb, Ne, decide_eq_decide, word_toInt, word_toInt, BitVec.toNat_sub]
  split <;> split <;> omega

namespace Compared

variable {a b : Word} {t : State} (h : Compared a b t)
include h

/-- JCC, JCS, JBE and JA compare unsigned. -/
theorem unsigned_conditions :
    condHolds .cc t = decide (a.toNat < b.toNat) ∧ condHolds .cs t = decide (b.toNat ≤ a.toNat) ∧
      condHolds .be t = decide (a.toNat ≤ b.toNat) ∧ condHolds .a t = decide (b.toNat < a.toNat) := by
  have hlt : condHolds .cc t = decide (a.toNat < b.toNat) := by
    rw [condHolds, h.flagC, ← decide_not, decide_eq_decide, Nat.not_le]
  have hbe : condHolds .be t = decide (a.toNat ≤ b.toNat) := by
    rw [condHolds_be, h.flagZ, h.flagC, ← decide_not, ← Bool.decide_or, decide_eq_decide, ← BitVec.toNat_inj]
    omega
  refine ⟨hlt, h.flagC, hbe, ?_⟩
  have hnot : condHolds .a t = !condHolds .be t := (Bool.not_not _).symm
  rw [hnot, hbe, ← decide_not, decide_eq_decide, Nat.not_le]

/-- JSS, JSC, JLE and JG compare signed. -/
theorem signed_conditions :
    condHolds .ss t = decide (a.toInt < b.toInt) ∧ condHolds .sc t = decide (b.toInt ≤ a.toInt) ∧
      condHolds .le t = decide (a.toInt ≤ b.toInt) ∧ condHolds .g t = decide (b.toInt < a.toInt) := by
  have hge : condHolds .sc t = decide (b.toInt ≤ a.toInt) := by
    rw [condHolds, h.flagS, ← decide_not, decide_eq_decide, Int.not_lt]
  have hle : condHolds .le t = decide (a.toInt ≤ b.toInt) := by
    rw [condHolds_le, h.flagZ, h.flagS, ← Bool.decide_or, decide_eq_decide, ← BitVec.toInt_inj]
    omega
  refine ⟨h.flagS, hge, hle, ?_⟩
  have hnot : condHolds .g t = !condHolds .le t := (Bool.not_not _).symm
  rw [hnot, hle, ← decide_not, decide_eq_decide, Int.not_le]

/-- JZ and JNE test for equality. -/
theorem equality_conditions : condHolds .z t = decide (a = b) ∧ condHolds .ne t = decide (a ≠ b) := by
  refine ⟨h.flagZ, ?_⟩
  rw [condHolds, h.flagZ, decide_not]

/-- JVS and JVC test whether the exact signed difference fits in 16 bits. -/
theorem overflow_conditions :
    condHolds .vs t = decide (a.toInt - b.toInt < -32768 ∨ 32767 < a.toInt - b.toInt) ∧
      condHolds .vc t = decide (-32768 ≤ a.toInt - b.toInt ∧ a.toInt - b.toInt ≤ 32767) := by
  have hover := msb_sub_ne_sign_iff a b
  rw [← h.flagN, ← h.flagS] at hover
  have hfits : t.flagN = t.flagS ↔ -32768 ≤ a.toInt - b.toInt ∧ a.toInt - b.toInt ≤ 32767 := by
    rw [← not_iff_not, ← Ne, hover]
    omega
  rw [condHolds_vs, condHolds_vc]
  exact ⟨decide_eq_decide.2 hover, decide_eq_decide.2 hfits⟩

end Compared

/-- A compare, or a subtraction whose destination is not SR, completes with the flags of the difference. -/
theorem completes_compared {i : Instr} {op : AluOp} {rd : Reg} {a b : Word} {s : State} (hop : op = .cmp ∨ op = .sub)
    (hrd : op = .sub → rd ≠ .sr) (hexec : exec i s = .next (aluFinish op rd a b s)) :
    ∃ t, exec i s = .next t ∧ Compared a b t := by
  have hstore : op ≠ .store := by obtain rfl | rfl := hop <;> decide
  obtain ⟨t, ht, hdone, -⟩ := completes_of_aluFinish hstore hexec
  exact ⟨t, ht, compared_of_flagsAfter hop (hdone.flags (hop.imp .inl hrd))⟩

end Sys2Proof.Machine
end

section
/-! ## The statements of `44_control_flow.md` settled -/

namespace Sys2Proof.Settled

open Sys2Proof.Machine

/-- Settles O21: all three end as an ALU instruction with the flags of the difference, from which each condition is
read. -/
theorem conditionsAfterCompare : Obligations.ConditionsAfterCompare := by
  intro s rd rs imm means
  have hmeans : ∀ {i : Instr} {a b : Word}, (∃ t, exec i s = .next t ∧ Compared a b t) →
      ∃ t, exec i s = .next t ∧ means a b t := by
    rintro i a b ⟨t, ht, h⟩
    obtain ⟨hcc, hcs, hbe, ha⟩ := h.unsigned_conditions
    obtain ⟨hss, hsc, hle, hg⟩ := h.signed_conditions
    obtain ⟨hz, hne⟩ := h.equality_conditions
    exact ⟨t, ht, hcc, hcs, hbe, ha, hss, hsc, hle, hg, hz, hne, h.overflow_conditions⟩
  exact ⟨hmeans (completes_compared (.inl rfl) nofun (exec_of_reg rfl)),
    hmeans (completes_compared (.inl rfl) nofun (exec_of_im16 rfl)),
    fun hrd => hmeans (completes_compared (.inr rfl) (fun _ => hrd) (exec_of_reg rfl))⟩

/-- Settles O45: each row's instructions are the branches on one condition, and a branch is one write to LPC. -/
theorem branches : Obligations.Branches := by
  intro p hp back imm s target
  have hrow : ∃ c, (p.1 back imm).shape = .branch c back imm ∧ condHolds c s = p.2 s := by
    fin_cases hp
    · exact ⟨.cc, rfl, rfl⟩
    · exact ⟨.cs, rfl, rfl⟩
    · exact ⟨.sc, rfl, rfl⟩
    · exact ⟨.ss, rfl, rfl⟩
    · exact ⟨.ne, rfl, rfl⟩
    · exact ⟨.z, rfl, rfl⟩
    · exact ⟨.pl, rfl, rfl⟩
    · exact ⟨.mi, rfl, rfl⟩
    · exact ⟨.be, rfl, condHolds_be s⟩
    · exact ⟨.a, rfl, rfl⟩
    · exact ⟨.le, rfl, condHolds_le s⟩
    · exact ⟨.g, rfl, rfl⟩
    · exact ⟨.vc, rfl, condHolds_vc s⟩
    · exact ⟨.vs, rfl, condHolds_vs s⟩
    · exact ⟨.always, rfl, rfl⟩
  obtain ⟨c, hshape, hcond⟩ := hrow
  have hexec := exec_branch hshape s
  rw [hcond] at hexec
  refine ⟨?_, _, hexec, State.lpc_setLpc s _, setLpc_frame s _⟩
  rw [hshape, cyclesOf_branch, hcond]

/-- Settles O46: bits 5:0 of the word are ignored, and GOTO MR is one write to LPC. -/
theorem gotoMrJumps : Obligations.GotoMrJumps := by
  refine ⟨fun w0 w1 h => ?_, by decide,
    fun s => ⟨waits_twoFetches 4 s, _, exec_gotoMr s, State.lpc_setLpc s _, setLpc_frame s _⟩⟩
  obtain ⟨-, -, -, hgotoMr, -⟩ := ignoredBitsDecodeAlike w0 w1
  have hdecode := hgotoMr h
  exact ⟨hdecode, Bool.eq_false_iff.2 fun h2 => absurd ((isTwoWord_of_decode hdecode).1 h2) (by decide)⟩

/-- Settles O55: the two words are those of the encoder, and GOTO A22 is one write to LPC. -/
theorem gotoAddressJumps : Obligations.GotoAddressJumps := by
  intro hi lo s
  have hdecode : decode (0xFE80#16 ||| hi.setWidth 16) lo = .ok (.goto (hi ++ lo)) := by
    have hd := decode_word0 (i := .goto (hi ++ lo)) rfl lo
    rwa [word0_goto, word1_goto] at hd
  refine ⟨?_, hdecode, (isTwoWord_of_decode hdecode).2 rfl, waits_twoFetches 5 s, _, exec_goto _ s, ?_, ?_,
    setLpc_frame s _⟩
  · rw [encode, word0_goto, word1_goto]
    rfl
  · rw [cs_setLpc]
    exact State.extractLsb'_append_high hi lo
  · rw [State.setLpc_pc]
    exact State.extractLsb'_append_low hi lo

end Sys2Proof.Settled
end

section
/-! ## DS and FR access (`45_segment_flag_stack.md` rules R240 to R244): the words -/

namespace Sys2Proof

/-- A word whose instruction has no second word announces none. -/
theorem isTwoWord_of_decode_oneWord {w0 w1 : Word} {i : Instr} (h : decode w0 w1 = .ok i)
    (hone : i.shape.word1 = none) : isTwoWord w0 = false := by
  refine Bool.eq_false_iff.2 fun h2 => ?_
  rw [isTwoWord_of_decode h, Instr.words, hone] at h2
  exact absurd h2 (by decide)

theorem access_pattern_iff (w : Word) (opn : BitVec 3) :
    w &&& 0xF1F8#16 = packFields 15#4 0#3 0#3 opn 0#3 ↔ fieldOp0 w = 15#4 ∧ fieldOp1 w = 0#3 ∧ fieldOpn w = opn :=
  (and_packFields_eq w 15#4 15#4 0#3 7#3 7#3 0#3 0#3 0#3 opn 0#3).trans (by simp [and_seven, and_fifteen])

theorem decode_dsIm6 {w0 : Word} (w1 : Word) (h15 : fieldOp0 w0 = 15#4) (hrd : fieldRdBits w0 = 7#3)
    (h0 : fieldOp1 w0 = 0#3) : decode w0 w1 = .ok (.dsIm6 (fieldImm6 w0)) := by
  have hsh : decodeShape w0 w1 = .ok (.dsIm6 (fieldImm6 w0)) := by
    simp [decodeShape_of_op0_eq_15 h15, decode1111, h0, fieldRd_eq, hrd]
  exact decode_of_shape hsh rfl rfl

/-- In DS and FR access the register field other than 111 is ignored (rule R94, decision D14), so what is left to decode
is the canonical word. -/
theorem decode_accessWord {i : Instr} {opn : BitVec 3} {w0 : Word} (hi : i.wellFormed = true)
    (hone : i.shape.word1 = none) (hopn : opn &&& 4#3 = 4#3)
    (hword : i.shape.word0 = packFields 15#4 0#3 0#3 opn (fieldRs w0).bits)
    (h : w0 &&& 0xF1F8#16 = packFields 15#4 0#3 0#3 opn 0#3) (hrd : w0 &&& 0x0E00#16 ≠ 0x0E00#16) (w1 : Word) :
    decode w0 w1 = .ok i ∧ isTwoWord w0 = false := by
  obtain ⟨hop0, hop1, hn⟩ := (access_pattern_iff w0 opn).1 h
  have hgroup : w0 &&& 0xF1E0#16 = 0xF020#16 := (control_pattern_iff w0 0#3 4#3).2 ⟨hop0, hop1, by rw [hn, hopn]⟩
  obtain ⟨-, -, hclear, -⟩ := Settled.ignoredBitsDecodeAlike w0 w1
  have hcleared : w0 &&& 0xF1FF#16 = i.shape.word0 := by
    rw [hword, fieldRs_eq, Reg.bits_ofBits]
    exact (and_packFields_eq w0 15#4 15#4 0#3 7#3 7#3 7#3 0#3 0#3 opn (fieldRsBits w0)).2
      ⟨by rw [hop0, and_fifteen], BitVec.and_zero, by rw [hop1, and_seven], by rw [hn, and_seven], and_seven _⟩
  have hcanonical : decode i.shape.word0 w1 = .ok i := by
    have hd := decode_word0 hi w1
    rwa [hone] at hd
  have hdecode : decode w0 w1 = .ok i := by rw [hclear hgroup hrd, hcleared, hcanonical]
  exact ⟨hdecode, isTwoWord_of_decode_oneWord hdecode hone⟩

/-- The register of a DS or FR access stands in the low bits of its word. -/
theorem packFields_access (opn rs : BitVec 3) :
    packFields 15#4 0#3 0#3 opn rs = packFields 15#4 0#3 0#3 opn 0#3 ||| rs.setWidth 16 := by
  revert opn rs
  decide

end Sys2Proof
end

section
/-! ## DS and FR access: one write to a register, to DS or to FR -/

namespace Sys2Proof.Machine

theorem keepsRegs_setDs (s : State) (v : BitVec 6) : KeepsRegs [.sr] s (s.setDs v) := by
  intro p hp
  have hsr : p ≠ .sr := fun e => hp (by simp [e, physOf])
  rw [State.get_setDs, if_neg hsr]

theorem onlyRegisters_setDs (s : State) (v : BitVec 6) : OnlyRegisters s (s.setDs v) :=
  ⟨State.setDs_fr s v, sameMem_of_eq (State.setDs_mem s v), sameRest_setDs s v⟩

/-- A write to DS: all but DS is as before. -/
theorem setDs_frame (s : State) (v : BitVec 6) :
    (s.setDs v).ds = v ∧ (s.setDs v).cs = s.cs ∧ KeepsFlags s (s.setDs v) ∧ KeepsRegs [.sr] s (s.setDs v) ∧
      OnlyRegisters s (s.setDs v) := by
  obtain ⟨hflags, hcs⟩ := low_sr_fields (low_setDs s v)
  exact ⟨ds_setDs s v, hcs, hflags, keepsRegs_setDs s v, onlyRegisters_setDs s v⟩

/-- The defined bits of FR (rule R42). -/
theorem getLsbD_maskFr {i : Nat} (hi : i < 15) : maskFr.getLsbD i = true := by
  have hall : ∀ i : Fin 15, maskFr.getLsbD i.val = true := by decide
  exact hall ⟨i, hi⟩

theorem getLsbD_frWord (s : State) {i : Nat} (hi : i < 15) : s.frWord.getLsbD i = s.fr.getLsbD i := by
  rw [State.frWord, BitVec.getLsbD_and, getLsbD_maskFr hi, Bool.and_true]

theorem getLsbD_frWord_15 (s : State) : s.frWord.getLsbD 15 = false :=
  (BitVec.getLsbD_and ..).trans (Bool.and_false _)

theorem getLsbD_fr_setFr (s : State) (v : Word) {i : Nat} (hi : i < 15) : (s.setFr v).fr.getLsbD i = v.getLsbD i :=
  getLsbD_fr_writeFr (getLsbD_maskFr hi) s v

theorem getLsbD_fr_setFr_15 (s : State) (v : Word) : (s.setFr v).fr.getLsbD 15 = s.fr.getLsbD 15 :=
  getLsbD_mergeBits maskFr v s.fr 15

theorem exec_dsIm6 (imm : BitVec 6) (s : State) : exec (.dsIm6 imm) s = .next (s.setDs imm) := rfl

theorem exec_movDsRs (rs : Reg) (s : State) : exec (.movDsRs rs) s = .next (s.setDs ((s.x rs).setWidth 6)) := rfl

theorem exec_movRsDs (rs : Reg) (s : State) : exec (.movRsDs rs) s = .next (s.setX rs (s.ds.setWidth 16)) := rfl

theorem exec_movRsFr (rs : Reg) (s : State) : exec (.movRsFr rs) s = .next (s.setX rs s.frWord) := rfl

theorem exec_movFrRs (rs : Reg) (s : State) : exec (.movFrRs rs) s = .next (s.setFr (s.x rs)) := rfl

end Sys2Proof.Machine
end

section
/-! ## Lists of registers on the stack (`45_segment_flag_stack.md` rules R245 to R251; `20_memory.md` rule R66) -/

namespace Sys2Proof

theorem Reg.num_lt (r : Reg) : r.num < 8 := by cases r <;> decide

end Sys2Proof

namespace Sys2Proof.Machine

/-! ### Frames of memory and of the registers -/

theorem SameMemBut.trans {l m : List Addr} {s t u : State} (h : SameMemBut l s t) (g : SameMemBut m t u) :
    SameMemBut (l ++ m) s u := fun a ha =>
  (g a fun w hw => ha w (List.mem_append_right l hw)).trans (h a fun w hw => ha w (List.mem_append_left m hw))

/-- A word outside the listed ones reads as before. -/
theorem SameMemBut.wordAt {l : List Addr} {s t : State} (h : SameMemBut l s t) {a : Addr} (ha : a ∉ l) :
    wordAt t a = wordAt s a := by
  have hout : ∀ w ∈ l, (Memory.lowAddr a ≠ Memory.lowAddr w ∧ Memory.lowAddr a ≠ Memory.highAddr w) ∧
      Memory.highAddr a ≠ Memory.lowAddr w ∧ Memory.highAddr a ≠ Memory.highAddr w := fun w hw => by
    have hne : a.toNat ≠ w.toNat := fun e => ha (BitVec.eq_of_toNat_eq e ▸ hw)
    simp only [Memory.lowAddr, Memory.highAddr]
    omega
  exact congrArg₂ (· ++ ·) (h _ fun w hw => (hout w hw).2) (h _ fun w hw => (hout w hw).1)

theorem SameMem.wordAt {s t : State} (h : SameMem s t) (a : Addr) : wordAt t a = wordAt s a :=
  congrArg₂ (· ++ ·) (h _) (h _)

theorem sameMemBut_nil {s t : State} (h : SameMem s t) : SameMemBut [] s t := fun a _ => h a

/-- Where the registers that may have changed read as before, all do. -/
theorem KeepsRegs.of_x_eq {l : List Reg} {s t : State} (hb : t.bnk = s.bnk) (h : KeepsRegs l s t)
    (hx : ∀ r ∈ l, t.x r = s.x r) : KeepsRegs [] s t := by
  intro p _
  by_cases hp : p ∈ l.map (physOf s.bnk)
  · obtain ⟨r, hr, rfl⟩ := List.mem_map.1 hp
    have hread := hx r hr
    rwa [State.x, State.x, hb] at hread
  · exact h p hp

/-! ### Words below and above a pointer -/

theorem sub_ofNat_succ (p : Word) (n : Nat) : p - BitVec.ofNat 16 (n + 1) = p - 1#16 - BitVec.ofNat 16 n := by
  rw [Nat.add_comm, BitVec.ofNat_add, sub_add_eq_sub_sub]

theorem add_ofNat_succ (p : Word) (n : Nat) : p + BitVec.ofNat 16 (n + 1) = p + 1#16 + BitVec.ofNat 16 n := by
  rw [Nat.add_comm, BitVec.ofNat_add, BitVec.add_assoc]

/-- From `n` words below a pointer, `i + 1` up. -/
theorem sub_add_ofNat (p : Word) {i n : Nat} (hi : i < n) :
    p - BitVec.ofNat 16 n + BitVec.ofNat 16 (i + 1) = p - BitVec.ofNat 16 (n - 1 - i) := by
  obtain ⟨j, rfl⟩ : ∃ j, n = j + (i + 1) := ⟨n - 1 - i, by omega⟩
  rw [BitVec.ofNat_add, sub_add_eq_sub_sub, BitVec.sub_add_cancel, show j + (i + 1) - 1 - i = j by omega]

/-- The words of a push: the first at the pointer, the others those of a push from one word below. -/
theorem pushedAt_succ (p : Word) (n : Nat) : pushedAt p (n + 1) = bank0 p :: pushedAt (p - 1#16) n := by
  rw [pushedAt, List.range_succ_eq_map, List.map_cons, List.map_map, BitVec.sub_zero]
  exact congrArg (_ :: ·) (List.map_congr_left fun i _ => congrArg bank0 (sub_ofNat_succ p i))

/-- Below the pointer, fewer words than the bank has do not come back to it. -/
theorem bank0_not_mem_pushedAt {p : Word} {n : Nat} (hn : n < 2 ^ 16) : bank0 p ∉ pushedAt (p - 1#16) n := by
  simp only [pushedAt, List.mem_map, List.mem_range, not_exists, not_and, bank0_inj]
  intro i hi e
  bv_omega

/-! ### PUSH -/

/-- What pushing a list of registers does: the words from the pointer down hold the registers in order, the pointer is
moved past them, and nothing else changes. -/
structure Pushed (ptr : Reg) (l : List Reg) (s t : State) : Prop where
  words : ∀ (i : Nat) (r : Reg), l[i]? = some r → wordAt t (bank0 (s.x ptr - BitVec.ofNat 16 i)) = s.x r
  pointer : t.x ptr = s.x ptr - BitVec.ofNat 16 l.length
  mem : SameMemBut (pushedAt (s.x ptr) l.length) s t
  regs : KeepsRegs [ptr] s t
  fr : t.fr = s.fr
  rest : SameRest s t

/-- One push, then the rest of the list from the word below. -/
theorem Pushed.cons {ptr r : Reg} {l : List Reg} {s t : State} (hptr : ptr ∉ l) (hlen : l.length < 2 ^ 16)
    (h : Pushed ptr l ((s.stored (bank0 (s.x ptr)) (s.x r)).setX ptr (s.x ptr - 1#16)) t) :
    Pushed ptr (r :: l) s t := by
  generalize hu : (s.stored (bank0 (s.x ptr)) (s.x r)).setX ptr (s.x ptr - 1#16) = u at h
  have hptr' : u.x ptr = s.x ptr - 1#16 := by rw [← hu, State.x_setX, if_pos rfl]
  have hx : ∀ q ∈ l, u.x q = s.x q := fun q hq => by
    rw [← hu, State.x_setX, if_neg (ne_of_mem_of_not_mem hq hptr), State.stored_x]
  have hfr : u.fr = s.fr := by rw [← hu, State.setX_fr, State.stored_fr]
  have hmem : u.mem = (s.stored (bank0 (s.x ptr)) (s.x r)).mem := by rw [← hu, State.setX_mem]
  have hregs : KeepsRegs ([] ++ [ptr]) s u :=
    hu ▸ (keepsRegs_stored s _ _).trans (State.stored_bnk s _ _) (keepsRegs_setX _ ptr _)
  have hrest : SameRest s u := hu ▸ (sameRest_stored s _ _).trans (sameRest_setX _ ptr _)
  obtain ⟨words, pointer, mem, regs, fr, rest⟩ := h
  rw [hptr'] at words pointer mem
  refine ⟨?_, ?_, ?_, (hregs.trans (bnk_congr hfr) regs).mono (by simp), fr.trans hfr, hrest.trans rest⟩
  · intro i q hq
    cases i with
    | zero =>
      obtain rfl : r = q := by simpa using hq
      rw [BitVec.sub_zero, mem.wordAt (bank0_not_mem_pushedAt hlen)]
      exact (congrArg (Memory.getWord · _) hmem).trans (Memory.getWord_setWord_self ..)
    | succ i =>
      have hi : l[i]? = some q := by simpa using hq
      rw [← hx q (List.mem_of_getElem? hi), ← words i q hi, sub_ofNat_succ]
  · exact pointer.trans (sub_ofNat_succ _ _).symm
  · rw [List.length_cons, pushedAt_succ]
    exact ((sameMemBut_stored s _ _).trans (sameMemBut_nil (sameMem_of_eq hmem))).trans mem

/-- Pushing a list that does not hold the pointer completes where its words can be written. -/
theorem pushEach_completes {ptr : Reg} {l : List Reg} {s : State} (hptr : ptr ∉ l) (hlen : l.length < 2 ^ 16)
    (hw : pushable s (s.x ptr) l.length) : ∃ t, pushEach ptr l s = .next t ∧ Pushed ptr l s t := by
  induction l generalizing s with
  | nil =>
    exact ⟨s, rfl, nofun, (BitVec.sub_zero _).symm, fun _ _ => rfl, fun _ _ => rfl, rfl, .refl s⟩
  | cons r l ih =>
    obtain ⟨-, hptr'⟩ : ptr ≠ r ∧ ptr ∉ l := by simpa using hptr
    have hlen' : l.length < 2 ^ 16 := Nat.lt_of_succ_lt hlen
    have hfirst : writable s (bank0 (s.x ptr)) := by simpa using hw 0 (Nat.succ_pos _)
    obtain ⟨t, ht, h⟩ := ih (s := (s.stored (bank0 (s.x ptr)) (s.x r)).setX ptr (s.x ptr - 1#16)) hptr' hlen'
      fun i hi => (writable_congr (s := s) (by simp) _).2 <| by
        have hnext := hw (i + 1) (Nat.succ_lt_succ hi)
        rw [sub_ofNat_succ] at hnext
        rwa [State.x_setX, if_pos rfl]
    exact ⟨t, (pushEach_cons_next ptr r l s t).2 ⟨hfirst, ht⟩, h.cons hptr' hlen'⟩

/-! ### POP -/

/-- What popping a list of registers does: they hold the words above the pointer in order, the pointer is moved past
them, and nothing else changes. -/
structure Popped (ptr : Reg) (l : List Reg) (s t : State) : Prop where
  words : ∀ (i : Nat) (r : Reg), l[i]? = some r → t.x r = wordAt s (bank0 (s.x ptr + BitVec.ofNat 16 (i + 1)))
  pointer : t.x ptr = s.x ptr + BitVec.ofNat 16 l.length
  regs : KeepsRegs (ptr :: l) s t
  only : OnlyRegisters s t

/-- One pop, then the rest of the list from the word above. -/
theorem Popped.cons {ptr r : Reg} {l : List Reg} {s t : State} {v : Word} (hptr : ptr ≠ r) (hr : r ∉ l)
    (hv : v = wordAt s (bank0 (s.x ptr + 1#16)))
    (h : Popped ptr l ((s.setX ptr (s.x ptr + 1#16)).setX r v) t) : Popped ptr (r :: l) s t := by
  generalize hu : (s.setX ptr (s.x ptr + 1#16)).setX r v = u at h
  have hptr' : u.x ptr = s.x ptr + 1#16 := by rw [← hu, State.x_setX, if_neg hptr, State.x_setX, if_pos rfl]
  have hr' : u.x r = v := by rw [← hu, State.x_setX, if_pos rfl]
  have hregs : KeepsRegs [ptr, r] s u := hu ▸ (keepsRegs_setX s ptr _).trans (by simp) (keepsRegs_setX _ r v)
  have ⟨hfr, hmem, hrest⟩ : OnlyRegisters s u := hu ▸ (onlyRegisters_setX s ptr _).trans (onlyRegisters_setX _ r v)
  obtain ⟨words, pointer, regs, fr, mem, rest⟩ := h
  simp only [hptr', ← add_ofNat_succ] at words pointer
  refine ⟨?_, pointer, (hregs.trans (bnk_congr hfr) regs).mono ?_,
    OnlyRegisters.trans ⟨hfr, hmem, hrest⟩ ⟨fr, mem, rest⟩⟩
  · intro i q hq
    cases i with
    | zero =>
      obtain rfl : r = q := by simpa using hq
      rw [regs.x (bnk_congr fr) r (by simp [hptr.symm, hr]), hr', hv]
    | succ i => rw [words i q (by simpa using hq), hmem.wordAt]
  · intro q hq
    simp only [List.cons_append, List.nil_append, List.mem_cons] at hq ⊢
    tauto

/-- Popping a list without repetition that does not hold the pointer completes where its words can be read. -/
theorem popEach_completes {ptr : Reg} {l : List Reg} {s : State} (hptr : ptr ∉ l) (hl : l.Nodup)
    (hread : poppable s (s.x ptr) l.length) : ∃ t, popEach ptr l s = .next t ∧ Popped ptr l s t := by
  induction l generalizing s with
  | nil =>
    exact ⟨s, rfl, nofun, (BitVec.add_zero _).symm, fun _ _ => rfl, rfl, fun _ => rfl, .refl s⟩
  | cons r l ih =>
    obtain ⟨hne, hptr'⟩ : ptr ≠ r ∧ ptr ∉ l := by simpa using hptr
    obtain ⟨hr, hl'⟩ := List.nodup_cons.1 hl
    have hfirst : readable s (bank0 (s.x ptr + 1#16)) := hread 0 (Nat.succ_pos _)
    obtain ⟨t, ht, h⟩ := ih
      (s := (s.setX ptr (s.x ptr + 1#16)).setX r (wordAt s (bank0 (s.x ptr + 1#16)))) hptr' hl'
      fun i hi => (readable_congr (s := s) (by simp) _).2 <| by
        have hnext := hread (i + 1) (Nat.succ_lt_succ hi)
        rw [add_ofNat_succ] at hnext
        rwa [State.x_setX, if_neg hne, State.x_setX, if_pos rfl]
    exact ⟨t, (popEach_cons_next ptr r l s t).2 ⟨hfirst, ht⟩, h.cons hne hr rfl⟩

/-! ### The lists of the instructions -/

theorem regOfNum_inj {m n : Nat} (hm : m < 8) (hn : n < 8) (h : regOfNum m = regOfNum n) : m = n := by
  rw [← num_regOfNum hm, h, num_regOfNum hn]

theorem exec_push (rd : Reg) (n : BitVec 3) (rs : Reg) (s : State) : exec (.push rd n rs) s = pushList rd n rs s := rfl

theorem exec_pop (rd : Reg) (n : BitVec 3) (rs : Reg) (s : State) : exec (.pop rd n rs) s = popList rd n rs s := rfl

theorem length_pushRegs (rd : Reg) (n : BitVec 3) : (pushRegs rd n).length = n.toNat := by simp [pushRegs]

theorem length_popRegs (rd : Reg) (n : BitVec 3) : (popRegs rd n).length = n.toNat := by simp [popRegs]

theorem getElem?_pushRegs {rd : Reg} {n : BitVec 3} {i : Nat} (hi : i < n.toNat) :
    (pushRegs rd n)[i]? = some (regOfNum (rd.num - i)) := by simp [pushRegs, hi]

theorem popRegs_eq (rd : Reg) (n : BitVec 3) :
    popRegs rd n = (List.range n.toNat).map fun i => regOfNum (rd.num + (i + 1)) := by
  simp only [popRegs, Nat.add_assoc, Nat.add_comm 1]

theorem getElem?_popRegs {rd : Reg} {n : BitVec 3} {i : Nat} (hi : i < n.toNat) :
    (popRegs rd n)[i]? = some (regOfNum (rd.num + (i + 1))) := by simp [popRegs_eq, hi]

section Lists

variable {rd rs : Reg} {n : BitVec 3}

theorem not_mem_pushRegs (hlist : rs.num + n.toNat ≤ rd.num ∨ rd.num < rs.num) : rs ∉ pushRegs rd n := by
  have hlt := Reg.num_lt rd
  simp only [pushRegs, List.mem_map, List.mem_range, not_exists, not_and]
  rintro i hi rfl
  rw [num_regOfNum (by omega)] at hlist
  omega

theorem not_mem_popRegs (htop : rd.num + n.toNat ≤ 7) (hlist : rs.num ≤ rd.num ∨ rd.num + n.toNat < rs.num) :
    rs ∉ popRegs rd n := by
  simp only [popRegs_eq, List.mem_map, List.mem_range, not_exists, not_and]
  rintro i hi rfl
  rw [num_regOfNum (by omega)] at hlist
  omega

theorem nodup_popRegs (htop : rd.num + n.toNat ≤ 7) : (popRegs rd n).Nodup := by
  rw [popRegs_eq]
  refine List.Nodup.map_on (fun i hi j hj h => ?_) List.nodup_range
  rw [List.mem_range] at hi hj
  have := regOfNum_inj (by omega) (by omega) h
  omega

end Lists

end Sys2Proof.Machine
end

section
/-! ## The statements of `45_segment_flag_stack.md` settled -/

namespace Sys2Proof.Settled

open Sys2Proof.Machine

/-- Settles O47: the words decode as the canonical ones, two of the instructions are one write to DS, the third one
write to a register. -/
theorem dsAccess : Obligations.DsAccess := by
  refine ⟨fun w0 w1 => ⟨fun h => ?_, fun h hrd => decode_accessWord (opn := 4#3) rfl rfl rfl rfl h hrd w1,
    fun h hrd => decode_accessWord (opn := 5#3) rfl rfl rfl rfl h hrd w1⟩,
    fun rs => ⟨congrArg ([·]) (packFields_access 4#3 rs.bits), congrArg ([·]) (packFields_access 5#3 rs.bits)⟩, ?_⟩
  · obtain ⟨h15, h7, h0⟩ := (goto_pattern_iff w0 0#3).1 h
    have hdecode := decode_dsIm6 w1 h15 h7 h0
    exact ⟨hdecode, isTwoWord_of_decode_oneWord hdecode rfl⟩
  · intro imm rs s dsBecomes
    have hdone : ∀ {i : Instr} {v : BitVec 6}, exec i s = .next (s.setDs v) →
        cyclesOf i.shape s = 2 + s.plat.waitPm → dsBecomes i v := fun {i v} hexec hcycles => by
      obtain ⟨hds, hcs, hflags, hregs, honly⟩ := setDs_frame s v
      exact ⟨_, hexec, hds, hcs, hflags, hregs, honly, hcycles⟩
    have hlow : (s.x rs).setWidth 6 = (s.x rs).extractLsb' 0 6 := BitVec.setWidth_eq_extractLsb' (by decide)
    refine ⟨hdone (exec_dsIm6 imm s) (waits_oneFetch 2 s),
      hdone (hlow ▸ exec_movDsRs rs s) (waits_oneFetch 2 s), waits_oneFetch 2 s, _, exec_movRsDs rs s, ?_,
      keepsRegs_setX s rs _, onlyRegisters_setX s rs _⟩
    rw [State.x_setX, if_pos rfl]

/-- Settles O48: the words decode as the canonical ones; one instruction writes a register with the defined bits of FR,
the other is one masked write of FR. -/
theorem frAccess : Obligations.FrAccess := by
  refine ⟨fun w0 w1 hrd => ⟨fun h => (decode_accessWord (opn := 6#3) rfl rfl rfl rfl h hrd w1).1,
      fun h => (decode_accessWord (opn := 7#3) rfl rfl rfl rfl h hrd w1).1⟩,
    fun rs s => ⟨waits_oneFetch 2 s, waits_oneFetch 2 s, ⟨_, exec_movRsFr rs s, ?_⟩, ⟨_, exec_movFrRs rs s, ?_⟩⟩⟩
  · rw [State.x_setX, if_pos rfl]
    exact ⟨getLsbD_frWord_15 s, fun i => getLsbD_frWord s, keepsRegs_setX s rs _, onlyRegisters_setX s rs _⟩
  · exact ⟨getLsbD_fr_setFr_15 s _, fun i => getLsbD_fr_setFr s _, keepsRegs_writeFr s _ _, sameMem_of_eq rfl,
      sameRest_writeFr s _ _⟩

/-- Settles O50: a push of the list, which does not hold the pointer. -/
theorem pushStoresList : Obligations.PushStoresList := by
  intro rd n rs s hpos htop hlist hw
  have hlength := length_pushRegs rd n
  have hlen : (pushRegs rd n).length < 2 ^ 16 := by omega
  obtain ⟨t, ht, words, pointer, mem, regs, fr, rest⟩ :=
    pushEach_completes (not_mem_pushRegs hlist) hlen (hlength.symm ▸ hw)
  rw [hlength] at pointer mem
  have hcheck := (checkPush_none rd n rs).2 ⟨hpos, htop, hlist⟩
  exact ⟨t, (exec_push rd n rs s).trans ((pushList_next rd n rs s t).2 ⟨hcheck, ht⟩),
    fun i hi => words i _ (getElem?_pushRegs hi), pointer, mem, regs, fr, rest⟩

/-- Settles O51: a pop of the list, which has no register twice and does not hold the pointer. -/
theorem popLoadsList : Obligations.PopLoadsList := by
  intro rd n rs s hpos htop hlist hread
  have hlength := length_popRegs rd n
  obtain ⟨t, ht, words, pointer, regs, only⟩ :=
    popEach_completes (not_mem_popRegs htop hlist) (nodup_popRegs htop) (hlength.symm ▸ hread)
  rw [hlength] at pointer
  rw [popRegs_eq] at regs
  have hcheck := (checkPop_none rd n rs).2 ⟨hpos, htop, hlist⟩
  exact ⟨t, (exec_pop rd n rs s).trans ((popList_next rd n rs s t).2 ⟨hcheck, ht⟩),
    fun i hi => words i _ (getElem?_popRegs hi), pointer, regs, only⟩

/-- Settles O52: the word that POP loads into a register is the one PUSH stored of it, and the pointer comes back, so
every register that either instruction writes reads as before. -/
theorem popUndoesPush : Obligations.PopUndoesPush := by
  intro rd n rs s hpos htop hlist hw
  obtain ⟨u, hu, hwords, hptr, hmem, hregs, hfr, hrest⟩ := pushStoresList rd n rs s hpos (by omega) hlist hw
  have ⟨_, _, _, hplat, _⟩ := hrest
  have hrd := rd.num_lt
  have hnum : (regOfNum (rd.num - n.toNat)).num = rd.num - n.toNat := num_regOfNum (by omega)
  have hread : poppable u (u.x rs) n.toNat := fun i hi => by
    rw [hptr, sub_add_ofNat _ hi]
    exact ((writable_congr hplat _).2 (hw _ (by omega))).readable
  obtain ⟨t, ht, hloads, hptr', hregs', hfr', hmem', hrest'⟩ :=
    popLoadsList (regOfNum (rd.num - n.toNat)) n rs u hpos (by omega) (by omega) hread
  refine ⟨u, t, hu, ht, ?_, hfr'.trans hfr, fun a ha => (hmem' a).trans (hmem a ha), hrest.trans hrest'⟩
  refine (hregs.trans (bnk_congr hfr) hregs').of_x_eq (bnk_congr (hfr'.trans hfr)) fun r hr => ?_
  simp only [List.singleton_append, List.mem_cons, or_self_left] at hr
  obtain rfl | hr := hr
  · rw [hptr', hptr, BitVec.sub_add_cancel]
  · obtain ⟨i, hi, rfl⟩ := List.mem_map.1 hr
    rw [List.mem_range] at hi
    have hsame : rd.num - (n.toNat - 1 - i) = (regOfNum (rd.num - n.toNat)).num + (i + 1) := by omega
    rw [hloads i hi, hptr, sub_add_ofNat _ hi, hwords _ (by omega), hsame]

end Sys2Proof.Settled
end

section
/-! ## The return frame (`46_call_interrupt.md` rules R260 to R263): a push of PC and SR, a pop of SR and PC -/

namespace Sys2Proof.Machine

/-- The first push leaves SR as it was, so the frame is a list of two registers pushed. -/
theorem pushFrame_of_pushEach {s t : State} (h : pushEach .sp [.pc, .sr] s = .next t) : pushFrame s = .next t := by
  obtain ⟨hpc, h⟩ := (pushEach_cons_next ..).1 h
  obtain ⟨hsr, h⟩ := (pushEach_cons_next ..).1 h
  exact (pushFrame_next s t).2 ⟨hpc, (writable_congr (by simp) _).1 hsr, (pushEach_nil_next ..).1 h⟩

theorem popFrame_eq_popEach (s : State) : popFrame s = popEach .sp [.sr, .pc] s := rfl

/-- The words of a pushed frame read the same in two states of equal memory. -/
theorem FramePushed.of_sameMem {s t u : State} (h : FramePushed s t) (hmem : SameMem t u) : FramePushed s u := by
  obtain ⟨hpc, hsr⟩ := h
  exact ⟨(hmem.wordAt _).trans hpc, (hmem.wordAt _).trans hsr⟩

/-- The return frame pushed through SP: its words, SP below them, and nothing else changed. -/
theorem pushFrame_completes {s : State} (h : pushable s s.sp 2) :
    ∃ u, pushFrame s = .next u ∧ FramePushed s u ∧ u.sp = s.sp - 2#16 ∧ SameMemBut (pushedAt s.sp 2) s u ∧
      KeepsRegs [.sp] s u ∧ u.fr = s.fr ∧ SameRest s u := by
  obtain ⟨u, hu, words, pointer, mem, regs, fr, rest⟩ :=
    pushEach_completes (ptr := .sp) (l := [.pc, .sr]) (s := s) (by decide) (by decide) h
  have hpc := words 0 .pc rfl
  rw [BitVec.sub_zero] at hpc
  exact ⟨u, pushFrame_of_pushEach hu, ⟨hpc, words 1 .sr rfl⟩, pointer, mem, regs, fr, rest⟩

/-- The return frame popped through SP: SR, then PC, SP above them, and nothing else changed. -/
theorem popFrame_completes {s : State} (h : poppable s s.sp 2) :
    ∃ t, popFrame s = .next t ∧ t.sr = wordAt s (bank0 (s.sp + 1#16)) ∧ t.pc = wordAt s (bank0 (s.sp + 2#16)) ∧
      t.sp = s.sp + 2#16 ∧ KeepsRegs [.sp, .sr, .pc] s t ∧ OnlyRegisters s t := by
  obtain ⟨t, ht, words, pointer, regs, only⟩ :=
    popEach_completes (ptr := .sp) (l := [.sr, .pc]) (s := s) (by decide) (by decide) h
  exact ⟨t, (popFrame_eq_popEach s).trans ht, words 0 .sr rfl, words 1 .pc rfl, pointer, regs, only⟩

/-! ### CALL and RETF -/

theorem exec_call (addr : Addr) (s : State) : exec (.call addr) s = callTo addr s := rfl

theorem exec_callMr (s : State) : exec .callMr s = callTo (mrTarget s) s := rfl

theorem exec_retf (s : State) : exec .retf s = popFrame s := rfl

/-- LPC is read from SR and PC. -/
theorem lpc_congr {s t : State} (hsr : t.sr = s.sr) (hpc : t.pc = s.pc) : t.lpc = s.lpc := by
  rw [State.lpc, State.cs, hsr, hpc, State.lpc, State.cs]

/-- A call that completed left SP two lower. -/
theorem sp_of_callTo {target : Addr} {s u : State} (h : callTo target s = .next u) : u.sp = s.sp - 2#16 := by
  obtain ⟨-, -, rfl⟩ := (callTo_next target s u).1 h
  exact (sub_ofNat_succ s.sp 1).symm

/-- The two words below a pointer are those popped from two words below it. -/
theorem poppable_sub_two {v : State} {p : Word} (h0 : readable v (bank0 p)) (h1 : readable v (bank0 (p - 1#16))) :
    poppable v (p - 2#16) 2 := by
  intro i hi
  rw [sub_add_ofNat p hi]
  have hcases : i = 0 ∨ i = 1 := by omega
  obtain rfl | rfl := hcases
  · exact h1
  · rwa [show p - BitVec.ofNat 16 (2 - 1 - 1) = p from BitVec.sub_zero p]

end Sys2Proof.Machine
end

section
/-! ## Entering a handler (`60_exceptions.md` rules R285 to R288): the jump through the vector -/

namespace Sys2Proof.Machine

@[simp] theorem beginService_get (src : IntSource) (s : State) (p : Phys) : (s.beginService src).get p = s.get p := by
  cases src <;> cases p <;> rfl
@[simp] theorem beginService_sr (src : IntSource) (s : State) : (s.beginService src).sr = s.sr := by cases src <;> rfl
@[simp] theorem beginService_fr (src : IntSource) (s : State) : (s.beginService src).fr = s.fr := by cases src <;> rfl
@[simp] theorem beginService_mem (src : IntSource) (s : State) : (s.beginService src).mem = s.mem := by
  cases src <;> rfl
@[simp] theorem beginService_plat (src : IntSource) (s : State) : (s.beginService src).plat = s.plat := by
  cases src <;> rfl

theorem serviceBegun_beginService (src : IntSource) (s : State) : ServiceBegun src s (s.beginService src) := by
  cases src <;> exact ⟨rfl, rfl, rfl⟩

/-- The state at the first instruction of a handler, from the state `s` after the pushes. -/
def State.atVector (src : IntSource) (s : State) : State :=
  (({ s.beginService src with pc := wordAt s (vectorOf src s) }).setCs 0#6).drawSr maskNotCs

/-- An entry is the pushes and the jump through the vector. -/
theorem enterInterrupt_of_pushes {src : IntSource} {s u v : State} (hu : pushFrame s = .next u)
    (hv : pushNestFr src u = .next v) (hread : readable v (vectorOf src v)) :
    enterInterrupt src s = .next (v.atVector src) := by
  have hvector : vectorOf src (v.beginService src) = vectorOf src v := by cases src <;> rfl
  have hword : wordAt (v.beginService src) (vectorOf src v) = wordAt v (vectorOf src v) := by simp [wordAt]
  refine (enterInterrupt_next src s _).2 ⟨u, hu, v, hv, ?_, ?_⟩
  · rw [hvector]
    exact (readable_congr (beginService_plat src v) _).2 hread
  · rw [hvector, hword]
    rfl

section AtVector

variable (src : IntSource) (s : State)

theorem atVector_mem : (s.atVector src).mem = s.mem := beginService_mem src s

theorem atVector_fr : (s.atVector src).fr = s.fr := beginService_fr src s

theorem atVector_pc : (s.atVector src).pc = wordAt (s.atVector src) (vectorOf src s) :=
  (congrArg (Memory.getWord · _) (atVector_mem src s)).symm

/-- The unspecified bits of SR after an entry are those outside CS. -/
theorem atVector_cs : (s.atVector src).cs = 0#6 := by
  have hmask : ∀ i : Fin 6, maskNotCs.getLsbD i.val = false := by decide
  have hdrawn : ∀ t : State, (t.drawSr maskNotCs).cs = t.cs := fun t =>
    BitVec.eq_of_getLsbD_eq fun i hi => by
      simp [State.cs, hmask ⟨i, hi⟩]
  rw [State.atVector, hdrawn]
  exact State.extractLsb'_append_low _ _

theorem serviceBegun_atVector : ServiceBegun src s (s.atVector src) := serviceBegun_beginService src s

theorem keepsRegs_atVector : KeepsRegs [.sr, .pc] s (s.atVector src) := by
  intro p hp
  obtain ⟨hsr, hpc⟩ : p ≠ .sr ∧ p ≠ .pc := by simpa [physOf] using hp
  rw [State.atVector, State.get_drawSr, if_neg hsr, State.get_setCs, if_neg hsr]
  exact ((State.get_set (s.beginService src) .pc p _).trans (if_neg hpc)).trans (beginService_get src s p)

theorem samePlatform_atVector : SamePlatform s (s.atVector src) := by cases src <;> exact ⟨rfl, rfl, rfl, rfl⟩

end AtVector

theorem exec_brk (s : State) : exec .brk s = enterInterrupt .brk s := rfl

end Sys2Proof.Machine
end

section
/-! ## Leaving a handler (`46_call_interrupt.md` rule R266, `60_exceptions.md` rule R290) -/

namespace Sys2Proof.Machine

/-- Registers that both banks share keep their names when FR.BNK changes. -/
theorem KeepsRegs.trans_unbanked {l m : List Reg} {s t u : State} (hm : ∀ r ∈ m, ∀ b, physOf b r = physOf false r)
    (h : KeepsRegs l s t) (g : KeepsRegs m t u) : KeepsRegs (l ++ m) s u := by
  intro p hp
  rw [List.map_append, List.mem_append, not_or] at hp
  obtain ⟨hl, hr⟩ := hp
  have hnames : m.map (physOf t.bnk) = m.map (physOf s.bnk) :=
    List.map_congr_left fun r hr => (hm r hr _).trans (hm r hr _).symm
  exact (g p (hnames ▸ hr)).trans (h p hl)

theorem SamePlatform.trans {s t u : State} (h : SamePlatform s t) (g : SamePlatform t u) : SamePlatform s u := by
  obtain ⟨hirq, hreset, hplat, hcycles⟩ := h
  obtain ⟨girq, greset, gplat, gcycles⟩ := g
  exact ⟨girq.trans hirq, greset.trans hreset, gplat.trans hplat, gcycles.trans hcycles⟩

theorem serviceLevel_eq_irq_iff (s : State) : serviceLevel s = .irq ↔ leavesIrq s := by
  unfold serviceLevel leavesIrq
  split_ifs with hbrk hfiq hirq <;> simp_all

theorem popsFr_iff (s : State) : popsFr s = true ↔ s.ine = true ∧ leavesIrq s := by
  rw [popsFr, Bool.and_eq_true, beq_iff_eq, serviceLevel_eq_irq_iff]

/-- Ending the service of the level of a state with the same servicing flags clears its highest-ranking item. -/
theorem serviceEnded_endService {s u : State} (h : SameService s u) :
    ServiceEnded s (u.endService (serviceLevel s)) := by
  obtain ⟨hbrk, hfiq, hirq⟩ := h
  unfold ServiceEnded serviceLevel
  by_cases hb : s.inBrk = true
  · simp only [if_pos hb]
    exact ⟨rfl, hfiq, hirq⟩
  by_cases hf : s.inFiq = true
  · simp only [if_neg hb, if_pos hf]
    exact ⟨hbrk, rfl, hirq⟩
  by_cases hd : 0 < s.irqDepth
  · simp only [if_neg hb, if_neg hf, if_pos hd]
    exact ⟨hbrk, hfiq, congrArg (· - 1) hirq⟩
  · simp only [if_neg hb, if_neg hf, if_neg hd]
    refine ⟨hbrk, hfiq, hirq.trans ?_⟩
    omega

section EndService

variable (l : ServiceLevel) (s : State)

theorem endService_sr : (s.endService l).sr = s.sr := by cases l <;> rfl
theorem endService_pc : (s.endService l).pc = s.pc := by cases l <;> rfl
theorem endService_sp : (s.endService l).sp = s.sp := by cases l <;> rfl
theorem endService_fr : (s.endService l).fr = s.fr := by cases l <;> rfl
theorem endService_mem : (s.endService l).mem = s.mem := by cases l <;> rfl

theorem keepsRegs_endService : KeepsRegs [] s (s.endService l) := fun p _ => by cases l <;> cases p <;> rfl

theorem samePlatform_endService : SamePlatform s (s.endService l) := by cases l <;> exact ⟨rfl, rfl, rfl, rfl⟩

end EndService

/-- What RETI does but for FR, with `k` words popped before the return frame. -/
structure ReturnedPast (k : Nat) (s t : State) : Prop where
  sr : t.sr = wordAt s (bank0 (s.sp + BitVec.ofNat 16 (k + 1)))
  pc : t.pc = wordAt s (bank0 (s.sp + BitVec.ofNat 16 (k + 2)))
  sp : t.sp = s.sp + BitVec.ofNat 16 (k + 2)
  service : ServiceEnded s t
  regs : KeepsRegs [.sp, .sr, .pc] s t
  mem : SameMem s t
  plat : SamePlatform s t

/-- From a state `w` in which `k` words are popped and only SP and FR may differ from `s`, the return frame is popped
and the service of `s` ended. -/
theorem popFrame_returnedPast {k : Nat} {s w : State} (hsp : w.sp = s.sp + BitVec.ofNat 16 k)
    (hregs : KeepsRegs [.sp] s w) (hmem : SameMem s w) (hrest : SameRest s w) (hread : poppable s s.sp (k + 2)) :
    ∃ u, popFrame w = .next u ∧ ReturnedPast k s (u.endService (serviceLevel s)) ∧
      (u.endService (serviceLevel s)).fr = w.fr := by
  have hplat : w.plat = s.plat := by
    obtain ⟨-, -, -, hplat, -⟩ := hrest
    exact hplat
  have hup : ∀ n : Nat, w.sp + BitVec.ofNat 16 n = s.sp + BitVec.ofNat 16 (k + n) := fun n => by
    rw [hsp, BitVec.add_assoc, ← BitVec.ofNat_add]
  have hpop : poppable w w.sp 2 := fun i hi => by
    rw [hup, ← Nat.add_assoc]
    exact (readable_congr hplat _).2 (hread (k + i) (by omega))
  obtain ⟨u, hu, hsr, hpc, hspu, hregsu, hfru, hmemu, hrestu⟩ := popFrame_completes hpop
  rw [hup, hmem.wordAt] at hsr hpc
  obtain ⟨hserviceu, hplatu⟩ := hrest.trans hrestu
  refine ⟨u, hu, ⟨?_, ?_, ?_, serviceEnded_endService hserviceu, ?_, ?_,
    hplatu.trans (samePlatform_endService _ u)⟩, (endService_fr _ u).trans hfru⟩
  · rw [endService_sr, hsr]
  · rw [endService_pc, hpc]
  · rw [endService_sp, hspu, hup]
  · have hshared : ∀ r ∈ [Reg.sp, .sr, .pc], ∀ b, physOf b r = physOf false r := by decide
    exact ((hregs.trans_unbanked hshared hregsu).trans_unbanked (by simp) (keepsRegs_endService _ u)).mono (by decide)
  · exact SameMem.of_mem_eq (fun a => (hmemu a).trans (hmem a)) (endService_mem _ u)

theorem exec_reti (s : State) : exec .reti s = returnInterrupt s := rfl

/-- The state after RETI pops FR. -/
def State.frPopped (s : State) : State := (s.setX .sp (s.sp + 1#16)).setFr (wordAt s (bank0 (s.sp + 1#16)))

theorem keepsRegs_frPopped (s : State) : KeepsRegs [.sp] s s.frPopped :=
  (keepsRegs_setX s .sp _).trans_unbanked (by simp) (keepsRegs_writeFr _ maskFr _)

theorem sameMem_frPopped (s : State) : SameMem s s.frPopped := sameMem_of_eq (State.setX_mem s .sp (s.sp + 1#16))

theorem sameRest_frPopped (s : State) : SameRest s s.frPopped :=
  (sameRest_setX s .sp _).trans (sameRest_writeFr _ maskFr _)

/-- RETI out of an IRQ handler in nest mode: FR is the first word. -/
theorem returnInterrupt_of_popsFr {s : State} (hpops : popsFr s = true) (hread : poppable s s.sp 3) :
    ∃ t, returnInterrupt s = .next t ∧ ReturnedPast 1 s t ∧
      t.fr = (s.setFr (wordAt s (bank0 (s.sp + 1#16)))).fr := by
  obtain ⟨u, hu, hdone, hfr⟩ :=
    popFrame_returnedPast (k := 1) rfl (keepsRegs_frPopped s) (sameMem_frPopped s) (sameRest_frPopped s) hread
  exact ⟨_, (returnInterrupt_next s _).2 (.inl ⟨hpops, hread 0 (by decide), u, hu, rfl⟩), hdone, hfr⟩

/-- Every other RETI leaves FR alone. -/
theorem returnInterrupt_of_not_popsFr {s : State} (hpops : popsFr s = false) (hread : poppable s s.sp 2) :
    ∃ t, returnInterrupt s = .next t ∧ ReturnedPast 0 s t ∧ t.fr = s.fr := by
  obtain ⟨u, hu, hdone, hfr⟩ := popFrame_returnedPast (k := 0) (s := s) (BitVec.add_zero _).symm (fun _ _ => rfl)
    (fun _ => rfl) (.refl s) hread
  exact ⟨_, (returnInterrupt_next s _).2 (.inr ⟨hpops, u, hu, rfl⟩), hdone, hfr⟩

end Sys2Proof.Machine
end

section
/-! ## The statements of `46_call_interrupt.md` settled -/

namespace Sys2Proof.Settled

open Sys2Proof.Machine

/-- Settles O53: either CALL is the push of the return frame, which changes no register but SP, and one write to LPC. -/
theorem callPushesFrame : Obligations.CallPushesFrame := by
  intro addr s hpush done
  obtain ⟨u, hu, hframe, hsp, hmem, hregs, hfr, hrest⟩ := pushFrame_completes hpush
  have hsr : u.sr = s.sr := hregs .sr (by simp [physOf])
  have hdone : ∀ {i : Instr} {target : Addr}, exec i s = callTo target s → done i target := fun {i target} hexec => by
    obtain ⟨hds, hflags, hjump, hfr', hmem', hrest'⟩ := setLpc_frame u target
    have hcall : callTo target s = .next (u.setLpc target) := by rw [callTo, hu, andThen_next_left]
    refine ⟨_, hexec.trans hcall, hframe.of_sameMem hmem', hsp, State.lpc_setLpc u target, ?_, ?_, ?_, ?_,
      hfr'.trans hfr, hrest.trans hrest'⟩
    · rw [hds, State.ds, hsr, State.ds]
    · simpa only [KeepsFlags, State.flagN, State.flagZ, State.flagS, State.flagC, hsr] using hflags
    · exact (hregs.trans (bnk_congr hfr) hjump).mono (by decide)
    · exact fun a ha => (hmem' a).trans (hmem a ha)
  exact ⟨hdone (exec_call addr s), hdone (exec_callMr s)⟩

/-- Settles O54: RETF is the pop of the return frame; after a CALL the words it pops are those of the frame. -/
theorem retfReturns : Obligations.RetfReturns := by
  refine ⟨fun s hpop => exec_retf s ▸ popFrame_completes hpop, fun addr s u v hcall hsp hframe hread0 hread1 => ?_⟩
  obtain ⟨hpcWord, hsrWord⟩ := hframe
  have hv : v.sp = s.sp - 2#16 := hsp.trans (sp_of_callTo hcall)
  obtain ⟨t, ht, hsr, hpc, hspt, hregs, honly⟩ := popFrame_completes (hv ▸ poppable_sub_two hread0 hread1)
  have hup1 : v.sp + 1#16 = s.sp - 1#16 := hv ▸ sub_add_ofNat s.sp (i := 0) (n := 2) (by decide)
  have hup2 : v.sp + 2#16 = s.sp := hv ▸ BitVec.sub_add_cancel s.sp 2#16
  rw [hup1, hsrWord] at hsr
  rw [hup2, hpcWord] at hpc
  exact ⟨t, ht, lpc_congr hsr hpc, hsr, hspt.trans hup2, hregs, honly⟩

/-- Settles O56: BREAK is the push of the return frame and the jump through its vector. -/
theorem breakEntersHandler : Obligations.BreakEntersHandler := by
  intro s hpush hread
  obtain ⟨u, hu, hframe, hsp, hmem, hregs, hfr, ⟨hbrk, hfiq, hirq⟩, hplat⟩ := pushFrame_completes hpush
  have hvector : readable u (vectorOf .brk u) := by
    obtain ⟨-, -, hplat, -⟩ := hplat
    exact (readable_congr hplat _).2 hread
  have hmem' : SameMem u (u.atVector .brk) := sameMem_of_eq (atVector_mem .brk u)
  obtain ⟨hbrk', hfiq', hirq'⟩ := serviceBegun_atVector .brk u
  refine ⟨_, (exec_brk s).trans (enterInterrupt_of_pushes hu rfl hvector), hframe.of_sameMem hmem', ?_,
    atVector_pc .brk u, atVector_cs .brk u, ⟨hbrk', hfiq'.trans hfiq, hirq'.trans hirq⟩,
    (atVector_fr .brk u).trans hfr, ?_, ?_, hplat.trans (samePlatform_atVector .brk u)⟩
  · exact (keepsRegs_atVector .brk u .sp (by simp [physOf])).trans hsp
  · exact (hregs.trans (bnk_congr hfr) (keepsRegs_atVector .brk u)).mono (by decide)
  · exact fun a ha => (hmem' a).trans (hmem a ha)

/-- Settles O57: RETI pops FR exactly when nest mode is on and an IRQ handler is left. -/
theorem retiReturns : Obligations.RetiReturns := by
  intro s nest done
  refine ⟨fun hnest hread => ?_, fun hnest hread => ?_⟩
  · obtain ⟨t, ht, ⟨hsr, hpc, hsp, hservice, hregs, hmem, hplat⟩, hfr⟩ :=
      returnInterrupt_of_popsFr ((popsFr_iff s).2 hnest) hread
    refine ⟨t, (exec_reti s).trans ht, hsr, hpc, hsp, nofun, fun _ => ?_, hservice, hregs, hmem, hplat⟩
    rw [hfr]
    exact ⟨getLsbD_fr_setFr_15 s _, fun i => getLsbD_fr_setFr s _⟩
  · have hpops : popsFr s = false := Bool.eq_false_iff.2 fun h => hnest ((popsFr_iff s).1 h)
    obtain ⟨t, ht, ⟨hsr, hpc, hsp, hservice, hregs, hmem, hplat⟩, hfr⟩ := returnInterrupt_of_not_popsFr hpops hread
    exact ⟨t, (exec_reti s).trans ht, hsr, hpc, hsp, fun _ => hfr, nofun, hservice, hregs, hmem, hplat⟩

end Sys2Proof.Settled
end

section
/-! ## Which instructions leave the servicing state alone (`60_exceptions.md` rule R291) -/

namespace Sys2Proof.Machine

/-! ### The updates between an instruction's accesses -/

theorem OnlyRegisters.sameRest {s t : State} (h : OnlyRegisters s t) : SameRest s t := by
  obtain ⟨-, -, hrest⟩ := h
  exact hrest

theorem sameRest_framed (s : State) : SameRest s s.framed :=
  (((sameRest_stored s _ _).trans (sameRest_setX _ .sp _)).trans (sameRest_stored _ _ _)).trans (sameRest_setX _ .sp _)

theorem sameRest_unframed (s : State) : SameRest s s.unframed := ⟨⟨rfl, rfl, rfl⟩, rfl, rfl, rfl, rfl⟩

namespace SameRest

variable {s t : State}

/-! ### Shared operations -/

theorem of_memWrite {a : Addr} {v : Word} (h : memWrite a v s = .next t) : SameRest s t := by
  obtain ⟨-, rfl⟩ := (memWrite_next a v s t).1 h
  exact sameRest_stored s a v

theorem of_pushEach {ptr : Reg} {rs : List Reg} (h : pushEach ptr rs s = .next t) : SameRest s t := by
  induction rs generalizing s with
  | nil => exact (pushEach_nil_next ptr s t).1 h ▸ .refl s
  | cons r rs ih =>
    obtain ⟨-, hrest⟩ := (pushEach_cons_next ptr r rs s t).1 h
    exact ((sameRest_stored s _ _).trans (sameRest_setX _ ptr _)).trans (ih hrest)

theorem of_popEach {ptr : Reg} {rs : List Reg} (h : popEach ptr rs s = .next t) : SameRest s t := by
  induction rs generalizing s with
  | nil => exact (popEach_nil_next ptr s t).1 h ▸ .refl s
  | cons r rs ih =>
    obtain ⟨-, hrest⟩ := (popEach_cons_next ptr r rs s t).1 h
    exact ((sameRest_setX s ptr _).trans (sameRest_setX _ r _)).trans (ih hrest)

theorem of_popFrame (h : popFrame s = .next t) : SameRest s t := by
  obtain ⟨-, -, rfl⟩ := (popFrame_next s t).1 h
  exact sameRest_unframed s

theorem of_callTo {target : Addr} (h : callTo target s = .next t) : SameRest s t := by
  obtain ⟨-, -, rfl⟩ := (callTo_next target s t).1 h
  exact (sameRest_framed s).trans (sameRest_setLpc _ target)

theorem of_firMove {xd : Word} {samples : List Word} (h : firMove xd samples s = .next t) : SameRest s t := by
  rw [firMove_keeps xd samples s t h]
  exact ⟨⟨rfl, rfl, rfl⟩, rfl, rfl, rfl, rfl⟩

/-! ### Operand forms -/

theorem of_aluFrom {op : AluOp} {rd : Reg} {a : Word} {addr : Addr} (h : aluFrom op rd a addr s = .next t) :
    SameRest s t := by
  obtain ⟨-, rfl⟩ := (aluFrom_next op rd a addr s t).1 h
  exact (aluFinish_only ..).sameRest

theorem of_aluInd {op : AluOp} {rd : Reg} {d : Bool} {mark : PtrMark} {rs : Reg}
    (h : aluInd op rd d mark rs s = .next t) : SameRest s t := by
  obtain ⟨-, -, rfl⟩ := (aluInd_next op rd d mark rs s t).1 h
  exact (((onlyRegisters_preStep d mark rs s).trans (aluFinish_only ..)).trans (onlyRegisters_postStep ..)).sameRest

theorem of_storeInd {rd : Reg} {d : Bool} {mark : PtrMark} {rs : Reg} (h : storeInd rd d mark rs s = .next t) :
    SameRest s t := by
  obtain ⟨-, -, rfl⟩ := (storeInd_next rd d mark rs s t).1 h
  exact ((onlyRegisters_preStep d mark rs s).sameRest.trans (sameRest_stored _ _ _)).trans
    (onlyRegisters_postStep ..).sameRest

theorem of_aluA16w {op : AluOp} {rd : Reg} {b addr : Word} (h : aluA16w op rd b addr s = .next t) :
    SameRest s t := by
  obtain ⟨-, -, rfl⟩ | ⟨-, rfl⟩ := (aluA16w_next op rd b addr s t).1 h
  · exact (sameRest_stored s _ _).trans (sameRest_writeSr _ _ _)
  · exact sameRest_writeSr s _ _

theorem of_bitReg {b : BitOp} {rd : Reg} {k : BitVec 4} (h : bitReg b rd k s = .next t) : SameRest s t := by
  obtain ⟨-, rfl⟩ := (bitReg_next b rd k s t).1 h
  split
  · exact sameRest_writeSr s _ _
  · exact (onlyRegisters_writeBack ..).sameRest

theorem of_bitMem {b : BitOp} {d : Bool} {rd : Reg} {k : BitVec 4} (h : bitMem b d rd k s = .next t) :
    SameRest s t := by
  obtain ⟨-, -, -, rfl⟩ := (bitMem_next b d rd k s t).1 h
  split
  · exact sameRest_writeSr s _ _
  · exact (sameRest_stored s _ _).trans (sameRest_writeSr _ _ _)

theorem of_shift16 {k : LongShift} {rd rs : Reg} (h : execShape (.shift16 k rd rs) s = .next t) : SameRest s t := by
  cases k
  case asr | lsl | lsr =>
    obtain ⟨-, rfl⟩ := (shiftPlain_next _ rd rs s t).1 h
    exact (sameRest_setX s rd _).trans (sameRest_drawSr _ _)
  case asror | lslor | lsror =>
    obtain ⟨-, rfl⟩ := (shiftOr_next _ rd rs s t).1 h
    exact (sameRest_setMr s _).trans (sameRest_drawSr _ _)
  case rol | ror =>
    obtain ⟨-, rfl⟩ := (shiftRotate_next _ rd rs s t).1 h
    exact (onlyRegisters_writeBack ..).sameRest

theorem of_innerProduct {k : MulKind} {rd : Reg} {n : BitVec 4} {rs : Reg}
    (h : innerProduct k rd n rs s = .next t) : SameRest s t := by
  obtain ⟨-, data, -, u, hu, rfl⟩ := (innerProduct_next k rd n rs s t).1 h
  exact (((of_firMove hu).trans (sameRest_setAcc u _)).trans (sameRest_mulsAdjust ..)).trans (sameRest_mulsFlag ..)

/-! ### Every form but those of BREAK and RETI -/

theorem of_execShape {sh : Shape} (hbrk : sh ≠ .brk) (hreti : sh ≠ .reti) (h : execShape sh s = .next t) :
    SameRest s t := by
  cases sh
  case brk => exact absurd rfl hbrk
  case reti => exact absurd rfl hreti
  case branch c back imm =>
    rw [(branch_next c back imm s t).1 h]
    split
    · exact sameRest_setLpc s _
    · exact .refl s
  case retf => exact of_popFrame h
  case call | callMr => exact of_callTo h
  case push rd n rs => exact of_pushEach ((pushList_next rd n rs s t).1 h).2
  case pop rd n rs => exact of_popEach ((popList_next rd n rs s t).1 h).2
  case bpIm6 op rd imm =>
    simp only [execShape] at h
    split at h
    · exact of_memWrite ((guarded_next _ _ t).1 h).2
    · exact of_aluFrom ((guarded_next _ _ t).1 h).2
  case im6 op rd imm =>
    obtain ⟨-, rfl⟩ := (guarded_ok_next _ t _).1 h
    exact (aluFinish_only ..).sameRest
  case ind op rd d mark rs =>
    simp only [execShape] at h
    split at h
    · exact of_storeInd h
    · exact of_aluInd h
  case reg | im16 =>
    cases h
    exact (aluFinish_only ..).sameRest
  case a16 => exact of_aluFrom h
  case a16w op rd rs addr =>
    simp only [execShape] at h
    split at h
    · exact of_memWrite h
    · exact of_aluA16w h
  case shifted op k rd n rs =>
    cases h
    exact (sameRest_writeFr s maskSb _).trans (aluFinish_only ..).sameRest
  case a6 op rd addr =>
    simp only [execShape] at h
    split at h
    · exact of_memWrite h
    · exact of_aluFrom h
  case bitRr | bitRo => exact of_bitReg h
  case bitMr | bitMo => exact of_bitMem h
  case shift16 => exact of_shift16 h
  case mul k rd rs =>
    obtain ⟨-, rfl⟩ := (multiply_next k rd rs s t).1 h
    exact sameRest_setMr s _
  case muls => exact of_innerProduct h
  case divs =>
    obtain ⟨mr, aq, hdiv⟩ := divSign_next s
    cases hdiv.symm.trans h
    exact (sameRest_setMr s mr).trans (sameRest_writeFr _ maskAq _)
  case divq =>
    obtain ⟨mr, aq, hdiv⟩ := divQuotient_next s
    cases hdiv.symm.trans h
    exact (sameRest_setMr s mr).trans (sameRest_writeFr _ maskAq _)
  case dsIm6 | movDsRs =>
    cases h
    exact sameRest_setDs s _
  case movRsDs | movRsFr | exp =>
    cases h
    exact sameRest_setX s _ _
  case movFrRs | mode =>
    cases h
    exact sameRest_writeFr s _ _
  case goto | gotoMr =>
    cases h
    exact sameRest_setLpc s _
  case nop =>
    cases h
    exact .refl s

/-- An instruction is the only one of its form, so that one other than BREAK and RETI leaves all but the registers, FR
and memory alone. -/
theorem of_exec {i : Instr} (hbrk : i ≠ .brk) (hreti : i ≠ .reti) (h : exec i s = .next t) : SameRest s t := by
  have hform : ∀ {j : Instr}, i ≠ j → i.shape ≠ j.shape := fun {j} hij e =>
    hij (Option.some.inj ((toInstr_shape i).symm.trans ((congrArg Shape.toInstr e).trans (toInstr_shape j))))
  exact of_execShape (hform hbrk) (hform hreti) ((exec_shape i s).symm.trans h)

end SameRest

end Sys2Proof.Machine
end

section
/-! ## The acceptance test (`60_exceptions.md` rules R277 to R283) -/

namespace Sys2Proof.Machine

section Acceptance

variable {l : Lines} {s : State}

/-- The search for an IRQ finds the lowest-numbered one that is requested. -/
theorem admissibleIrq_eq_some_iff {n : Fin 8} :
    admissibleIrq l s = some n ↔ IrqRequested l s n.val ∧ ∀ m : Nat, m < n.val → ¬IrqRequested l s m := by
  have hlist : [0, 1, 2, 3, 4, 5, 6, 7] = List.finRange 8 := by decide
  rw [admissibleIrq, hlist, List.find?_eq_some_iff_getElem]
  simp only [List.length_finRange, List.getElem_finRange, IrqRequested, Bool.and_eq_true, decide_eq_true_eq,
    Bool.not_eq_true', Bool.and_eq_false_imp, decide_eq_false_iff_not, not_and]
  refine and_congr_right fun _ => ⟨?_, fun hlow => ⟨n.val, n.isLt, rfl, fun m hm => hlow m hm⟩⟩
  rintro ⟨i, hi, rfl, hlow⟩ m hm
  exact hlow m hm

theorem accepted_of_fiqAdmitted (h : FiqAdmitted l s) : accepted l s = some .fiq := by
  obtain ⟨hline, hon, hfiq, hbrk⟩ := h
  simp [accepted, hline, hon, hfiq, hbrk]

/-- With FIQ not accepted, the IRQs are tested. -/
theorem accepted_of_irqAdmitted (hf : ¬FiqAdmitted l s) (h : IrqAdmitted s) :
    accepted l s = (admissibleIrq l s).map .irq := by
  obtain ⟨hon, hfiq, hbrk, hnest⟩ := h
  have hline : ¬(l.fiq = true ∧ s.fiqOn = true) := fun ⟨hl, ho⟩ => hf ⟨hl, ho, hfiq, hbrk⟩
  simp [accepted, hline, hon, hfiq, hbrk, hnest]

theorem accepted_of_not_admitted (hf : ¬FiqAdmitted l s) (h : ¬IrqAdmitted s) : accepted l s = none := by
  have hfiq : (l.fiq && s.fiqOn && !s.inFiq && !s.inBrk) = false := by
    simpa [FiqAdmitted, and_assoc] using hf
  have hirq : (s.irqOn && !s.inFiq && !s.inBrk && (s.irqDepth == 0 || s.ine)) = false := by
    simpa [IrqAdmitted, and_assoc] using h
  rw [accepted, hfiq, hirq]
  rfl

end Acceptance

end Sys2Proof.Machine
end

section
/-! ## The words an entry pushes (`60_exceptions.md` rule R285): the return frame and, in nest mode, FR -/

namespace Sys2Proof.Machine

/-- The state after an IRQ in nest mode has pushed FR and set PRI. -/
def State.frPushed (n : Fin 8) (s : State) : State :=
  ((s.stored (bank0 s.sp) s.frWord).setX .sp (s.sp - 1#16)).setPri (BitVec.ofNat 4 n.val)

section FrPushed

variable (n : Fin 8) (s : State)

theorem pri_setPri (v : BitVec 4) : (s.setPri v).pri = v := by
  have hmask : ∀ i : Fin 4, maskPri.getLsbD i.val = true := by decide
  refine BitVec.eq_of_getLsbD_eq fun i hi => ?_
  rw [State.pri, State.setPri, State.writeFr_fr, BitVec.getLsbD_extractLsb', Nat.zero_add, getLsbD_mergeBits,
    hmask ⟨i, hi⟩, if_pos rfl]
  simp [hi, show i < 16 by omega]

theorem pri_frPushed : (s.frPushed n).pri = BitVec.ofNat 4 n.val := pri_setPri _ _

theorem keepsFrBut_frPushed : KeepsFrBut [0, 1, 2, 3] s (s.frPushed n) := fun i hi => by
  rw [State.frPushed, State.setPri, writeFr_keepsFrBut (by decide) _ _ i hi, State.setX_fr, State.stored_fr]

theorem keepsRegs_frPushed : KeepsRegs [.sp] s (s.frPushed n) := by
  have hpush : KeepsRegs [.sp] s ((s.stored (bank0 s.sp) s.frWord).setX .sp (s.sp - 1#16)) :=
    (keepsRegs_stored s (bank0 s.sp) s.frWord).trans rfl (keepsRegs_setX _ .sp _)
  exact fun p hp => (State.get_writeFr _ maskPri _ p).trans (hpush p hp)

theorem sameRest_frPushed : SameRest s (s.frPushed n) :=
  ((sameRest_stored s _ _).trans (sameRest_setX _ .sp _)).trans (sameRest_writeFr _ maskPri _)

theorem sameMemBut_frPushed : SameMemBut [bank0 s.sp] s (s.frPushed n) :=
  sameMemBut_stored s (bank0 s.sp) s.frWord

theorem wordAt_frPushed : wordAt (s.frPushed n) (bank0 s.sp) = s.frWord :=
  (wordAt_stored s (bank0 s.sp) (bank0 s.sp) s.frWord).trans (if_pos rfl)

end FrPushed

/-- What the pushes of an entry do: the frame, SP below it, PRI in nest mode, and nothing else. -/
structure EntryPushed (src : IntSource) (s v : State) : Prop where
  frame : FramePushed s v
  sp : v.sp = s.sp - BitVec.ofNat 16 (frameWords src s)
  fr : src.nests s = false → v.fr = s.fr
  nest : src.nests s = true → wordAt v (bank0 (s.sp - 2#16)) = s.frWord ∧ KeepsFrBut [0, 1, 2, 3] s v ∧
    ∀ n : Fin 8, src = .irq n → v.pri = BitVec.ofNat 4 n.val
  regs : KeepsRegs [.sp] s v
  mem : SameMemBut (pushedAt s.sp (frameWords src s)) s v
  rest : SameRest s v

section Pushes

variable {src : IntSource} {s u v : State}

/-- What the push of the return frame does, from its completion. -/
theorem pushFrame_done (h : pushFrame s = .next u) :
    FramePushed s u ∧ u.sp = s.sp - 2#16 ∧ SameMemBut (pushedAt s.sp 2) s u ∧ KeepsRegs [.sp] s u ∧ u.fr = s.fr ∧
      SameRest s u := by
  obtain ⟨h0, h1, -⟩ := (pushFrame_next s u).1 h
  have hpush : pushable s s.sp 2 := fun i hi => by
    have hcases : i = 0 ∨ i = 1 := by omega
    obtain rfl | rfl := hcases
    · rwa [BitVec.sub_zero]
    · exact h1
  obtain ⟨u', hu', hdone⟩ := pushFrame_completes hpush
  obtain rfl : u' = u := Host.Outcome.next.inj (hu'.symm.trans h)
  exact hdone

theorem nests_congr (src : IntSource) (h : u.fr = s.fr) : src.nests u = src.nests s := by
  cases src <;> simp [IntSource.nests, State.ine, h]

theorem frameWords_of_nests (h : src.nests s = true) : frameWords src s = 3 := if_pos h

theorem frameWords_of_not_nests (h : src.nests s = false) : frameWords src s = 2 := if_neg (Bool.eq_false_iff.1 h)

/-- The frame of an IRQ in nest mode is the return frame and one word below it. -/
theorem entryPushed_frPushed {n : Fin 8} (hu : pushFrame s = .next u) (hnest : (IntSource.irq n).nests s = true) :
    EntryPushed (.irq n) s (u.frPushed n) := by
  obtain ⟨⟨hpc, hsr⟩, hsp, hmem, hregs, hfr, hrest⟩ := pushFrame_done hu
  have hmemFr := sameMemBut_frPushed n u
  have hword := wordAt_frPushed n u
  have hfrWord : u.frWord = s.frWord := congrArg (· &&& maskFr) hfr
  rw [hsp] at hmemFr hword
  have hpcAt : bank0 s.sp ∉ [bank0 (s.sp - 2#16)] := by
    rw [List.mem_singleton, bank0_inj]
    bv_omega
  have hsrAt : bank0 (s.sp - 1#16) ∉ [bank0 (s.sp - 2#16)] := by
    rw [List.mem_singleton, bank0_inj]
    bv_omega
  refine ⟨⟨(hmemFr.wordAt hpcAt).trans hpc, (hmemFr.wordAt hsrAt).trans hsr⟩, ?_, fun h => absurd h (by simp [hnest]),
    fun _ => ⟨hword.trans hfrWord, ?_, fun m hm => ?_⟩, ?_, ?_, hrest.trans (sameRest_frPushed n u)⟩
  · rw [frameWords_of_nests hnest, sub_ofNat_succ s.sp 2, sub_right_comm]
    exact congrArg (· - 1#16) hsp
  · exact fun i hi => (keepsFrBut_frPushed n u i hi).trans (congrArg (·.getLsbD i) hfr)
  · cases hm
    exact pri_frPushed n u
  · exact (hregs.trans (bnk_congr hfr) (keepsRegs_frPushed n u)).mono (by simp)
  · rw [frameWords_of_nests hnest, pushedAt, List.range_succ, List.map_append]
    exact hmem.trans hmemFr

/-- The pushes of an entry that completed. -/
theorem entryPushed_of_pushes (hu : pushFrame s = .next u) (hv : pushNestFr src u = .next v) :
    EntryPushed src s v := by
  obtain ⟨hframe, hsp, hmem, hregs, hfr, hrest⟩ := pushFrame_done hu
  obtain ⟨hnest, rfl⟩ | ⟨n, rfl, hine, -, rfl⟩ := (pushNestFr_next src u v).1 hv
  · rw [nests_congr src hfr] at hnest
    have hwords := frameWords_of_not_nests hnest
    exact ⟨hframe, hwords ▸ hsp, fun _ => hfr, fun h => absurd h (by simp [hnest]), hregs, hwords ▸ hmem, hrest⟩
  · exact entryPushed_frPushed hu ((nests_congr (.irq n) hfr).symm.trans hine)

/-- The pushes of an entry complete where its words can be written. -/
theorem entryPushes_complete (h : pushable s s.sp (frameWords src s)) :
    ∃ u v, pushFrame s = .next u ∧ pushNestFr src u = .next v := by
  have hle : 2 ≤ frameWords src s := by unfold frameWords; split <;> decide
  obtain ⟨u, hu, -, hsp, -, -, hfr, -, -, -, hplat, -⟩ := pushFrame_completes fun i hi => h i (by omega)
  by_cases hnest : src.nests s = true
  · have hthird : writable u (bank0 u.sp) := by
      rw [hsp]
      exact (writable_congr hplat _).2 (h 2 (by rw [frameWords_of_nests hnest]; decide))
    cases src with
    | brk | fiq => exact absurd hnest Bool.false_ne_true
    | irq n =>
      have hine : u.ine = true := (nests_congr (.irq n) hfr).trans hnest
      exact ⟨u, u.frPushed n, hu, (pushNestFr_next _ _ _).2 (.inr ⟨n, rfl, hine, hthird, rfl⟩)⟩
  · have hnest' : src.nests u = false := (nests_congr src hfr).trans (Bool.eq_false_iff.2 hnest)
    exact ⟨u, u, hu, (pushNestFr_next _ _ _).2 (.inl ⟨hnest', rfl⟩)⟩

end Pushes

/-! ### The entry: the pushes and the jump through the vector -/

section Entry

variable {src : IntSource} {s u v : State}

theorem ServiceBegun.before (h : SameService s u) (g : ServiceBegun src u v) : ServiceBegun src s v := by
  obtain ⟨hbrk, hfiq, hirq⟩ := h
  cases src <;> simpa only [ServiceBegun, hbrk, hfiq, hirq] using g

theorem ServiceBegun.after (h : ServiceBegun src s u) (g : SameService u v) : ServiceBegun src s v := by
  obtain ⟨hbrk, hfiq, hirq⟩ := g
  cases src <;> simpa only [ServiceBegun, hbrk, hfiq, hirq] using h

theorem vectorOf_congr (src : IntSource) (h : v.plat = s.plat) : vectorOf src v = vectorOf src s := by
  cases src <;> simp [vectorOf, h]

/-- An entry that completed is its pushes and the jump through the vector. -/
theorem entryPushed_of_enterInterrupt (h : enterInterrupt src s = .next u) :
    ∃ v, EntryPushed src s v ∧ u = v.atVector src := by
  obtain ⟨w, hw, v, hv, hread, -⟩ := (enterInterrupt_next src s u).1 h
  rw [vectorOf_congr src (beginService_plat src v), readable_congr (beginService_plat src v)] at hread
  exact ⟨v, entryPushed_of_pushes hw hv, Host.Outcome.next.inj (h.symm.trans (enterInterrupt_of_pushes hw hv hread))⟩

theorem EntryPushed.serviceBegun (h : EntryPushed src s v) : ServiceBegun src s (v.atVector src) := by
  obtain ⟨hservice, -⟩ := h.rest
  exact (serviceBegun_atVector src v).before hservice

/-- The jump leaves SP where the pushes put it. -/
theorem EntryPushed.sp_atVector (h : EntryPushed src s v) :
    (v.atVector src).sp = s.sp - BitVec.ofNat 16 (frameWords src s) :=
  (keepsRegs_atVector src v .sp (by simp [physOf])).trans h.sp

end Entry

end Sys2Proof.Machine
end

section
/-! ## An entry undone by RETI (`60_exceptions.md` rules R285, R290) -/

namespace Sys2Proof.Machine

section Undone

variable {src : IntSource} {s u v t : State}

/-- In the handler of a source that nothing blocks, that source is the highest-ranking one in service. -/
theorem serviceLevel_of_serviceBegun (hblock : NotBlocked src s) (h : ServiceBegun src s v) :
    serviceLevel v = match src with | .brk => .brk | .fiq => .fiq | .irq _ => .irq := by
  cases src with
  | brk =>
    obtain ⟨hbrk, -, -⟩ := h
    simp [serviceLevel, hbrk]
  | fiq =>
    obtain ⟨hbrk0, -⟩ := hblock
    obtain ⟨hbrk, hfiq, -⟩ := h
    simp [serviceLevel, hbrk, hbrk0, hfiq]
  | irq n =>
    obtain ⟨hbrk0, hfiq0⟩ := hblock
    obtain ⟨hbrk, hfiq, hirq⟩ := h
    simp [serviceLevel, hbrk, hbrk0, hfiq, hfiq0, hirq]

/-- RETI pops FR exactly when the entry pushed it, for a handler that left INE as it was (rule R324). -/
theorem popsFr_of_serviceBegun (hblock : NotBlocked src s) (h : ServiceBegun src s v) (hine : v.ine = s.ine) :
    popsFr v = src.nests s := by
  rw [popsFr, serviceLevel_of_serviceBegun hblock h, hine]
  cases src <;> simp [IntSource.nests]

/-- Ending the service that an entry began gives back the servicing state before it. -/
theorem sameService_of_begun_ended (hblock : NotBlocked src s) (hbegun : ServiceBegun src s v)
    (hended : ServiceEnded v t) : SameService s t := by
  cases src with
  | brk =>
    obtain ⟨hbrk, hfiq, hirq⟩ := hbegun
    rw [ServiceEnded, if_pos hbrk] at hended
    obtain ⟨hbrk', hfiq', hirq'⟩ := hended
    exact ⟨hbrk'.trans hblock.symm, hfiq'.trans hfiq, hirq'.trans hirq⟩
  | fiq =>
    obtain ⟨hbrk0, hfiq0⟩ := hblock
    obtain ⟨hbrk, hfiq, hirq⟩ := hbegun
    rw [ServiceEnded, if_neg (by simp [hbrk, hbrk0]), if_pos hfiq] at hended
    obtain ⟨hbrk', hfiq', hirq'⟩ := hended
    exact ⟨hbrk'.trans hbrk, hfiq'.trans hfiq0.symm, hirq'.trans hirq⟩
  | irq n =>
    obtain ⟨hbrk0, hfiq0⟩ := hblock
    obtain ⟨hbrk, hfiq, hirq⟩ := hbegun
    rw [ServiceEnded, if_neg (by simp [hbrk, hbrk0]), if_neg (by simp [hfiq, hfiq0]), hirq,
      Nat.add_sub_cancel] at hended
    obtain ⟨hbrk', hfiq', hirq'⟩ := hended
    exact ⟨hbrk'.trans hbrk, hfiq'.trans hfiq, hirq'⟩

/-- The words below a pointer are those popped from below them. -/
theorem poppable_sub {p : Word} {n : Nat} (h : ∀ i : Nat, i < n → readable v (bank0 (p - BitVec.ofNat 16 i))) :
    poppable v (p - BitVec.ofNat 16 n) n := fun i hi => by
  rw [sub_add_ofNat p hi]
  exact h _ (by omega)

/-- RETI past `k` words reads back the frame pushed above them. -/
theorem ReturnedPast.restores {k : Nat} (h : ReturnedPast k v t) (hsp : v.sp = s.sp - BitVec.ofNat 16 (k + 2))
    (hframe : FramePushed s v) : t.lpc = s.lpc ∧ t.sr = s.sr ∧ t.sp = s.sp := by
  obtain ⟨hpcWord, hsrWord⟩ := hframe
  have hupSr : v.sp + BitVec.ofNat 16 (k + 1) = s.sp - 1#16 := by
    rw [hsp, sub_add_ofNat s.sp (by omega), show k + 2 - 1 - k = 1 by omega]
  have hupPc : v.sp + BitVec.ofNat 16 (k + 2) = s.sp := hsp ▸ BitVec.sub_add_cancel s.sp _
  have hsr : t.sr = s.sr := by rw [h.sr, hupSr, hsrWord]
  have hpc : t.pc = s.pc := by rw [h.pc, hupPc, hpcWord]
  exact ⟨lpc_congr hsr hpc, hsr, h.sp.trans hupPc⟩

/-- FR reads back as the word it was read as, whatever bit 15 holds. -/
theorem frWord_of_setFr (h : t.fr = (v.setFr s.frWord).fr) : t.frWord = s.frWord := by
  refine BitVec.eq_of_getLsbD_eq fun i hi => ?_
  have hcases : i < 15 ∨ i = 15 := by omega
  obtain hlt | rfl := hcases
  · rw [getLsbD_frWord t hlt, h, getLsbD_fr_setFr v _ hlt]
  · rw [getLsbD_frWord_15, getLsbD_frWord_15]

end Undone

end Sys2Proof.Machine
end

section
/-! ## The reset step (`70_reset_and_hazards.md` rule R311): a jump to the vector's word in bank 0 -/

namespace Sys2Proof.Machine

theorem step_of_resetPending {s : State} (h : s.resetPending = true) : step s = resetStep s.nextSample := if_pos h

/-- PC written and CS cleared is a write to LPC, and the rest is the model's bookkeeping. -/
theorem resetStep_ok {s : State} (h : readable s s.plat.vecReset) :
    resetStep s = .next { s.setLpc (bank0 (wordAt s s.plat.vecReset)) with
      resetPending := false, cycles := s.cycles + Config.unstatedCycles s.draws, draws := s.draws + 1 } := by
  have hcs : (bank0 (wordAt s s.plat.vecReset)).extractLsb' 16 6 = 0#6 := State.extractLsb'_append_high _ _
  have hpc : (bank0 (wordAt s s.plat.vecReset)).extractLsb' 0 16 = wordAt s s.plat.vecReset :=
    State.extractLsb'_append_low _ _
  refine (resetStep_next s _).2 ⟨h, ?_⟩
  rw [State.setLpc, hcs, hpc]
  rfl

end Sys2Proof.Machine
end

section
/-! ## The statements of `60_exceptions.md` and `70_reset_and_hazards.md` settled -/

namespace Sys2Proof.Settled

open Sys2Proof.Machine

/-- Settles O15: an instruction is refused only for its operands and faults only at an address that is not RAM. -/
theorem admittedInstructionCompletes : Obligations.AdmittedInstructionCompletes := by
  intro i s hcheck hmap
  cases hexec : exec i s with
  | next t => exact ⟨t, rfl⟩
  | fault f =>
    obtain ⟨a, hkind⟩ := faultOnlyFromUnadmittedAccess i s f hexec
    have hram : kindAt s a = .ram := writable_of_no_map hmap a
    simp [hram] at hkind
  | refused q =>
    obtain ⟨why, hwhy, -⟩ := (refusedExactlyOnRejectedOperands i s q).1 hexec
    simp [hcheck] at hwhy

/-- Settles O20: the other instructions write registers, FR and memory only, and BREAK is an entry. -/
theorem onlyRetiClearsServicing : Obligations.OnlyRetiClearsServicing := by
  intro i s t h hreti
  refine ⟨fun hbrk => ?_, ?_⟩
  · obtain ⟨hservice, -⟩ := SameRest.of_exec hbrk hreti h
    exact hservice
  · rintro rfl
    obtain ⟨v, hpushed, rfl⟩ := entryPushed_of_enterInterrupt ((exec_brk s).symm.trans h)
    exact hpushed.serviceBegun

/-- Settles O58: the entry is the pushes, which write the stack, SP and PRI, and the jump through the vector. -/
theorem interruptEntry : Obligations.InterruptEntry := by
  intro src s hpush hread
  obtain ⟨u, v, hu, hv⟩ := entryPushes_complete hpush
  have hdone := entryPushed_of_pushes hu hv
  have hsp := hdone.sp_atVector
  have hbegun := hdone.serviceBegun
  obtain ⟨hframe, -, hfr, hnest, hregs, hmem, -, hplat⟩ := hdone
  have hvplat : v.plat = s.plat := by
    obtain ⟨-, -, hplat, -⟩ := hplat
    exact hplat
  have hvector : vectorOf src v = vectorOf src s := vectorOf_congr src hvplat
  have hread' : readable v (vectorOf src v) := hvector ▸ (readable_congr hvplat _).2 hread
  have hmem' : SameMem v (v.atVector src) := sameMem_of_eq (atVector_mem src v)
  have hfr' : (v.atVector src).fr = v.fr := atVector_fr src v
  refine ⟨_, enterInterrupt_of_pushes hu hv hread', hframe.of_sameMem hmem', hsp,
    hvector ▸ atVector_pc src v, atVector_cs src v, hbegun, fun h => hfr'.trans (hfr h), fun h => ?_, ?_,
    fun a ha => (hmem' a).trans (hmem a ha), hplat.trans (samePlatform_atVector src v)⟩
  · obtain ⟨hword, hkept, hpri⟩ := hnest h
    exact ⟨(hmem'.wordAt _).trans hword, fun i hi => (congrArg (·.getLsbD i) hfr').trans (hkept i hi),
      fun n hn => (congrArg (·.extractLsb' 0 4) hfr').trans (hpri n hn)⟩
  · have hshared : ∀ r ∈ [Reg.sr, .pc], ∀ b, physOf b r = physOf false r := by decide
    exact (hregs.trans_unbanked hshared (keepsRegs_atVector src v)).mono (by decide)

/-- Settles O59: FIQ is tested before the IRQs, and of these the search finds the lowest. -/
theorem acceptanceTest : Obligations.AcceptanceTest := by
  intro l s
  by_cases hf : FiqAdmitted l s
  · simp [accepted_of_fiqAdmitted hf, hf]
  by_cases hi : IrqAdmitted s
  · simp [accepted_of_irqAdmitted hf hi, hf, hi, admissibleIrq_eq_some_iff]
  · simp [accepted_of_not_admitted hf hi, hf, hi]

/-- Settles O60: RETI pops as many words as the entry pushed, and ends the service it began. -/
theorem retiUndoesEntry : Obligations.RetiUndoesEntry := by
  intro src s u v hblock henter hvsp hservice hine hframe hfrWord hread
  obtain ⟨w, hpushed, rfl⟩ := entryPushed_of_enterInterrupt henter
  have hsp : v.sp = s.sp - BitVec.ofNat 16 (frameWords src s) := hvsp.trans hpushed.sp_atVector
  have hbegun : ServiceBegun src s v := hpushed.serviceBegun.after hservice
  have hpops := popsFr_of_serviceBegun hblock hbegun hine
  have hpoppable : poppable v v.sp (frameWords src s) := hsp ▸ poppable_sub hread
  by_cases hnest : src.nests s = true
  · rw [frameWords_of_nests hnest] at hsp hpoppable
    obtain ⟨t, ht, hdone, hfr⟩ := returnInterrupt_of_popsFr (hpops.trans hnest) hpoppable
    obtain ⟨hlpc, hsr, hspt⟩ := hdone.restores hsp hframe
    have hup : v.sp + 1#16 = s.sp - 2#16 := hsp ▸ sub_add_ofNat s.sp (i := 0) (n := 3) (by decide)
    rw [hup, hfrWord hnest] at hfr
    exact ⟨t, (exec_reti v).trans ht, hlpc, hsr, hspt, sameService_of_begun_ended hblock hbegun hdone.service,
      fun _ => frWord_of_setFr hfr, fun h => absurd h (by simp [hnest]), hdone.regs, hdone.mem, hdone.plat⟩
  · have hplain : src.nests s = false := Bool.eq_false_iff.2 hnest
    rw [frameWords_of_not_nests hplain] at hsp hpoppable
    obtain ⟨t, ht, hdone, hfr⟩ := returnInterrupt_of_not_popsFr (hpops.trans hplain) hpoppable
    obtain ⟨hlpc, hsr, hspt⟩ := hdone.restores hsp hframe
    exact ⟨t, (exec_reti v).trans ht, hlpc, hsr, hspt, sameService_of_begun_ended hblock hbegun hdone.service,
      fun h => absurd h hnest, fun _ => hfr, hdone.regs, hdone.mem, hdone.plat⟩

/-- Settles O10: the step is the reset step, whose write to PC and CS is a jump. -/
theorem resetStepLoadsVector : Obligations.ResetStepLoadsVector := by
  intro s hreset hread
  obtain ⟨hds, hflags, hregs, hfr, hmem, hservice, -⟩ := setLpc_frame s (bank0 (wordAt s s.plat.vecReset))
  have hstep := (step_of_resetPending hreset).trans (resetStep_ok (s := s.nextSample) hread)
  refine ⟨_, hstep, State.extractLsb'_append_low 0#6 _, ?_, hds, hflags, ?_, hfr, hmem, hservice, rfl, rfl, rfl⟩
  · exact (cs_setLpc s _).trans (State.extractLsb'_append_high 0#6 _)
  · intro p hp
    have hp' := hregs p hp
    cases p <;> exact hp'

end Sys2Proof.Settled
end
